-- ==== Sys2Proof/Word.lean ====
section
/-!
DEFINITION. The number types of the LC44: bytes as they travel, the resource numbers of 00_scope.md
("Numbering of resources") and the six engine rates.
-/
namespace Sys2Proof

/-- A byte, as it travels on the link or lies in the DRAM. -/
abbrev Byte := BitVec 8

/-- Lines 0 to 3. -/
abbrev LineNo := Fin 4

/-- Signal engines E0, E1, and the data link units of the same numbers. -/
abbrev EngineNo := Fin 2

/-- Transfer channels 0 to 7. -/
abbrev ChanNo := Fin 8

/-- Object slots 0 to 127. -/
abbrev SlotNo := Fin 128

/-- Mailboxes 0 to 15. -/
abbrev MailboxNo := Fin 16

/-- Block-link sequence numbers, which count modulo 16 (R105). -/
abbrev SeqNo := BitVec 4

/-- The six rates of the signal engines: `r` stands for 2400 × (r + 1) bit/s (00_scope.md, "Rates"). -/
abbrev Rate := Fin 6

end Sys2Proof
end

