-- ==== Sys2Proof/Syntax.lean ====
section
/-!
DEFINITION. The commands of the LC44: one constructor per row of spec/opcode_table.json, in the table's order.
The table gives no operands; those below are what the event of the row brings with it (log 1). A row whose
request "is dispatched" takes the request at the head of the inbound request queue (R176), so it has none.
-/
namespace Sys2Proof

/-- A DTMF digit: 0 to 9, * and # (R100). -/
inductive Dtmf where
  | digit (n : Fin 10) | star | hash
  deriving DecidableEq, Repr

/-- Direction of the loop current (R47). -/
inductive Polarity where
  | normal | reversed
  deriving DecidableEq, Repr

/-- A caller number as a line record or a call record holds it (R44). -/
inductive Caller where
  | absent | digits (ds : List (Fin 10)) | withheld | unavailable
  deriving DecidableEq, Repr

/-- The content of a caller-number burst (R50). -/
inductive BurstContent where
  | number (ds : List (Fin 10)) | withheld | unavailable | other
  deriving DecidableEq, Repr

/-- The on-part of a call-progress cycle, in ms (R70): one stretch, or two bursts with a gap. -/
inductive OnPart where
  | single (ms : Nat) | double (first gap second : Nat)
  deriving DecidableEq, Repr

/-- The off-part that ends a call-progress cycle, in ms, and how many quiet windows ended since the on-part began (R52, R70,
log 35). -/
structure OffPart where
  ms : Nat
  windows : Nat
  deriving DecidableEq, Repr

/-- One cycle of a call-progress tone heard on a connected call: its level, its on-part in ms, and its off-part (R70, R160). -/
structure ToneCycle where
  level : Int
  on : Nat
  off : OffPart
  deriving DecidableEq, Repr

/-- The tone that clears a connected voice call (R87, R160): dial tone, or two consecutive cycles. -/
inductive ClearTone where
  | dialTone (level : Int) | cycles (first second : ToneCycle)
  deriving DecidableEq, Repr

/-- What the far end tells of a test: its verdict, if that has come (R93), and the rate that it announced for the test (R94). -/
structure FarTest where
  verdict : Option Bool
  rate : Rate
  deriving DecidableEq, Repr

/-- A path with an elastic buffer: a line's codec path or a line's engine path (R35). -/
inductive LinePath where
  | codec (l : LineNo) | engine (l : LineNo)
  deriving DecidableEq, Repr

/-- The resolution of a fax page (R6). -/
inductive Resolution where
  | standard | fine
  deriving DecidableEq, Repr

/-- How a fax session sends its pages (R123). -/
inductive FaxMode where
  | sectioned | plain
  deriving DecidableEq, Repr

/-- The direction of a retrain (R94). -/
inductive RetrainDir where
  | down | up
  deriving DecidableEq, Repr

/-- The receiving engine's judgment of one strip (R126): a bad strip has no number. -/
inductive StripJudgment where
  | bad | good (number total : Nat) (bytes : List Byte)
  deriving DecidableEq, Repr

/-- What a line's sensors show at the end of initialisation (R63). -/
structure LineSense where
  voltage : Bool
  hot : Bool
  critical : Bool
  deriving DecidableEq, Repr

/-- The commands. Levels are in dBm, `tenths` in tenths of a dB, durations in ms. -/
inductive Instr where
  | readExchange (clocked : Nat)
  | writeExchange (bytes : List Byte)
  | powerOnReset
  | initialisationEnd (s0 s1 s2 s3 : LineSense)
  | clockTick
  | unknownRequest
  | getStatus
  | configureDevice
  | setClock
  | deviceReset
  | createObject
  | deleteObject
  | getObjectInfo
  | listObjects
  | readObject
  | writeObject
  | getLineStatus
  | setLineSettings
  | clearFaults
  | lineReset
  | dial
  | answer
  | hangUp
  | abort
  | abortDevice
  | takeOver
  | play
  | record
  | sendDigits
  | setAnswerPlan
  | getAnswerPlan
  | setScreenEntry
  | getScreenEntry
  | setLinkOptions
  | getLinkOptions
  | setFaxOptions
  | getFaxOptions
  | setMailbox
  | getMailbox
  | setMessageStatus
  | setGreeting
  | setIndicator
  | getIndicators
  | arbiterGrant
  | transferDone
  | pathConsume (p : LinePath)
  | pathProduce (p : LinePath) (b : Byte)
  | pathDrained (p : LinePath)
  | loopPresent (l : LineNo) (polarity : Polarity)
  | polarityReversal (l : LineNo)
  | loopInterruption (l : LineNo)
  | lineVoltageChange (l : LineNo) (present : Bool)
  | lineLostTimerExpiry (l : LineNo)
  | ringingVoltageBegin (l : LineNo)
  | ringingVoltageEnd (l : LineNo) (ms : Nat)
  | abandonTimerExpiry (l : LineNo)
  | callerNumberBurst (l : LineNo) (content : BurstContent) (good : Bool)
  | quietWindowEnd (l : LineNo) (tenths : Int)
  | driverTemperatureChange (l : LineNo) (celsius : Int)
  | overcurrentSensed (l : LineNo)
  | loopCurrentFalls (l : LineNo)
  | coolOffExpiry (l : LineNo)
  | pulseTimingExpiry (l : LineNo)
  | seizeTimeout (l : LineNo)
  | dialToneHeard (l : LineNo) (level : Int)
  | dialToneTimeout (l : LineNo)
  | blindPauseEnd (l : LineNo)
  | dtmfDigitDone (l : LineNo)
  | commaPauseEnd (l : LineNo)
  | progressCycle (l : LineNo) (level : Int) (on : OnPart) (off : OffPart)
  | continuousTone (l : LineNo) (level : Int)
  | progressSilenceTimeout (l : LineNo)
  | answerTone (l : LineNo)
  | speechAnswer (l : LineNo) (level : Int)
  | dtmfDigitHeard (l : LineNo) (d : Dtmf)
  | remoteClearTone (l : LineNo) (tone : ClearTone)
  | discriminationWindowClose (l : LineNo)
  | faxCallingTone (l : LineNo)
  | modemCallingTone (l : LineNo)
  | releaseGuardExpiry (l : LineNo)
  | measurementEnd (e : EngineNo) (tenths : Int) (announced : Rate)
  | measurementTimeout (e : EngineNo)
  | testEnd (e : EngineNo) (wrong total : Nat) (far : FarTest)
  | verdictTimeout (e : EngineNo)
  | farEndRetrainSignal (e : EngineNo) (dir : RetrainDir)
  | carrierChange (e : EngineNo) (present : Bool)
  | carrierLost (e : EngineNo)
  | lineFrameSent (e : EngineNo)
  | badFrame (e : EngineNo)
  | openFrame (e : EngineNo) (window : Nat)
  | opened (e : EngineNo) (window : Nat)
  | dataFrame (e : EngineNo) (send recv : SeqNo) (payload : List Byte)
  | accept (e : EngineNo) (n : SeqNo)
  | pause (e : EngineNo) (n : SeqNo)
  | resend (e : EngineNo) (n : SeqNo)
  | close (e : EngineNo)
  | closed (e : EngineNo)
  | openWaitExpiry (e : EngineNo)
  | listenTimeout (e : EngineNo)
  | t1Expiry (e : EngineNo)
  | repeatTimerExpiry (e : EngineNo)
  | closeWaitExpiry (e : EngineNo)
  | linkPortTake
  | receiveRingDrain (e : EngineNo)
  | plainBytesSent (e : EngineNo)
  | plainBytesReceived (e : EngineNo) (bytes : List Byte)
  | caps (l : LineNo) (maxBps : Nat) (sectioned fine : Bool) (ident : Option (List Byte))
  | set (l : LineNo) (mode : FaxMode) (bps : Nat) (res : Resolution) (page : Nat) (ident : Option (List Byte))
  | trainOk (l : LineNo) (rate : Rate)
  | trainBad (l : LineNo) (rate : Rate)
  | map (l : LineNo) (page sect : Nat) (needed : Option (List Nat))
  | taken (l : LineNo) (page : Nat) (sect : Option Nat) (partialFlag : Bool)
  | more (l : LineNo) (page : Nat) (res : Resolution)
  | last (l : LineNo)
  | retake (l : LineNo) (page bad : Nat)
  | bye (l : LineNo)
  | faxMessageTimeout (l : LineNo)
  | capsWaitTimeout (l : LineNo)
  | receiverTrainWaitExpiry (l : LineNo)
  | roundSent (l : LineNo)
  | roundAnswerTimeout (l : LineNo)
  | stripJudged (l : LineNo) (j : StripJudgment)
  | stripStored (l : LineNo)
  | endOfRound (l : LineNo)
  | greetingToneEnd (l : LineNo)
  | recordToneEnd (l : LineNo)
  | closingTonesEnd (l : LineNo)
  | errorToneEnd (l : LineNo)
  | promptToneEnd (l : LineNo)
  | digitPrefixTimeout (l : LineNo)
  | detectorInterval (l : LineNo) (level : Int) (tone : Bool)
  | accessDigitTimeout (l : LineNo)
  | reviewIdleTimeout (l : LineNo)
  deriving DecidableEq, Repr

end Sys2Proof
end

