-- ==== Sys2Proof/Decode.lean ====
section
/-!
DEFINITION. The command that a word spells by the bits of the opcode table.
-/
namespace Sys2Proof

/-- No row of spec/opcode_table.json gives bits, so no word spells a command (log 2). -/
def decodeTableWord (_nbits _w : Nat) : Option Instr := none

end Sys2Proof
end

