-- ==== Sys2Proof/Config.lean ====
section
/-!
DEFINITION. What the spec leaves open: the contents of DRAM bytes that nothing has written (log 4) and the
arithmetic of the 4-bit ADPCM decoder, which no chapter gives (log 11).
-/
namespace Sys2Proof.Config

/-- What a DRAM byte reads as before anything has written it (R24: "undefined bytes until written").
DESIGN CHOICE, log 4. -/
def unlistedByte : Byte := 0

/-- The ADPCM decoder's next state, from its state and one stored sample. A free value: the spec says that the
decoder keeps its state (R166) and gives no arithmetic (log 11). -/
opaque adpcmNext : Nat → BitVec 4 → Nat

/-- The output sample that belongs to a decoder state. A free value (log 11). -/
opaque adpcmOut : Nat → Nat

end Sys2Proof.Config
end

