-- ==== Sys2Proof/Machine/State.lean ====
section
/-!
DEFINITION. The state of the LC44 as plain data: every piece of state the chapters of spec/ give the part, under the
chapters' own names, and the state right after power-on reset. What the chapters leave unnamed but their rules need
(a wait in progress, the characters still to dial) stands beside the record it belongs to and says which rule needs it.
-/
namespace Sys2Proof.Machine

/-! ## Values shared by several chapters -/

/-- The reasons of 11.4. -/
inductive Reason where
  | none | busy | badLine | badParam | unknownRequest | stale | noSlot | noStore | noChannel | noEngine | notIdle
  | notConnected | planActive | lineCooling | lineFault | aborted | noLoop | noDialTone | lineEngaged | noAnswer
  | trainFailed | linkFailed | remoteCleared | carrierLost | storeFull | remoteIncapable | pagePartial | lineReset | hungUp
  deriving DecidableEq, Repr

/-- Completion classes of a reply (R176, R184). -/
inductive Cls where
  | normal | abrupt | refused
  deriving DecidableEq, Repr

/-- The notices of 11.4. -/
inductive Notice where
  | ready | ring | ringStopped | callConnected | callEnded | digits | fault | faultGone | rateChanged | txCredit
  | dataDropped | dataOverrun | pageSent | pageReceived | messageRecorded | remoteAccess | storeLow | channelSlip
  | answerFailed
  deriving DecidableEq, Repr

/-- A timer whose remaining time the spec keeps: running or not, and the time left in ms (logs 5 and 6). -/
structure Timer where
  run : Bool := false
  ms : Nat := 0
  deriving DecidableEq, Repr

/-- A set of the four line fault conditions (R44). -/
structure FaultSet where
  overcurrent : Bool := false
  hot : Bool := false
  critical : Bool := false
  lineLost : Bool := false
  deriving DecidableEq, Repr

/-- One of the four line fault conditions (R44). -/
inductive FaultKind where
  | overcurrent | hot | critical | lineLost
  deriving DecidableEq, Repr

/-! ## Host message link (R173 to R177) -/

/-- A frame's fields between the sync and the CRC (R174). -/
structure Frame where
  kind : Byte
  line : Byte
  tag : Byte
  code : Byte
  body : List Byte
  deriving DecidableEq, Repr

/-- An accepted request (R174): it holds one reserved outbound slot until its reply is posted (R175). -/
structure Request where
  line : Byte
  tag : Byte
  code : Byte
  body : List Byte
  deriving DecidableEq, Repr

/-- An accepted Data frame and those of its bytes that no consumer has taken (R174, R36). -/
structure DataIn where
  code : Byte
  line : Byte
  tag : Byte
  bytes : List Byte
  deriving DecidableEq, Repr

/-- An entry of a pending event set: kind, count 1 to 255, detail of the latest occurrence (R177). -/
structure PendEntry where
  kind : Notice
  count : Nat
  detail : List Byte
  deriving DecidableEq, Repr

/-- The host link interface. The 16 outbound slots are `reserved` RESERVED ones, one FILLED one per frame of `out`, and
the rest FREE (R175, log 7). Set 4 of `sets` is the device's; `marker` is the last-served marker (R177). -/
structure Link where
  inq : List Request := []
  data : List DataIn := []
  reserved : Nat := 0
  out : List Frame := []
  sets : Vector (List PendEntry) 5 := Vector.replicate 5 []
  marker : Fin 5 := 4
  rejected : Bool := false
  ldo : List Byte := []
  deriving DecidableEq, Repr

inductive ResetCause where
  | power | soft
  deriving DecidableEq, Repr

inductive Priority where
  | rotating | fixed
  deriving DecidableEq, Repr

/-! ## Message store (R1 to R25) -/

inductive ObjState where
  | openWrite | closed | doomed
  deriving DecidableEq, Repr

inductive Owner where
  | mailbox (m : MailboxNo) | line (l : LineNo) | unowned
  deriving DecidableEq, Repr

inductive MsgStatus where
  | new | heard | kept
  deriving DecidableEq, Repr

/-- The attributes of a FAX_PAGE (R6). A page created by the host has rate used NONE. -/
structure PageAttr where
  page : Nat
  res : Resolution
  rate : Option Rate := none
  sectioned : Bool := false
  strips : Nat := 0
  badStrips : Nat := 0
  partialFlag : Bool := false
  unread : Bool := false
  ident : Option (List Byte) := none
  deriving DecidableEq, Repr

/-- An object's kind with the attributes of that kind (R6). -/
inductive Attr where
  | clip
  | message (caller : Caller) (line : LineNo) (status : MsgStatus)
  | page (a : PageAttr)
  | ring (transmit : Bool) (engine : EngineNo)
  deriving DecidableEq, Repr

/-- An object record (R5). `chain` is the object's block chain in position order; first block, last block, block count
and the block link table are read from it (R4, log 8). -/
structure Obj where
  state : ObjState := .openWrite
  owner : Owner
  chain : List Nat := []
  length : Nat := 0
  users : Nat := 0
  created : BitVec 32
  attr : Attr
  deriving DecidableEq, Repr

/-- A slot of the object table: its generation, whatever its state, and its object if it is not FREE (R5). -/
structure Slot where
  gen : BitVec 4 := 0
  obj : Option Obj := none
  deriving DecidableEq, Repr

/-- The message store. `free` is the free-block stack, top first (R1). `dram` lists the DRAM's bytes in canonical form. -/
structure Store where
  free : List Nat := List.range 8192
  slots : Vector Slot 128 := Vector.replicate 128 {}
  low : Bool := false
  dram : List Host.Cell := []
  deriving DecidableEq, Repr

/-! ## Transfer channels and the store port (R26 to R43) -/

inductive ChanState where
  | free | bound | running | held | ended
  deriving DecidableEq, Repr

inductive ChanOwner where
  | callControl (l : LineNo) | fax (l : LineNo) | voiceMail (l : LineNo) | link
  deriving DecidableEq, Repr

inductive ChanDir where
  | toPath | fromPath
  deriving DecidableEq, Repr

inductive Path where
  | codec (l : LineNo) | engine (l : LineNo) | link
  deriving DecidableEq, Repr

inductive Mode where
  | single | demand | block
  deriving DecidableEq, Repr

inductive EndCause where
  | none | terminal | stopped | storeFull | unbound
  deriving DecidableEq, Repr

/-- A channel record (R26). `draining` says that a stop has been taken and buffered bytes are still being moved (R33). -/
structure Chan where
  state : ChanState := .free
  owner : ChanOwner := .link
  slot : SlotNo := 0
  dir : ChanDir := .toPath
  path : Path := .link
  basePos : Nat := 0
  cur : Nat := 0
  baseCount : Nat := 0
  remaining : Nat := 0
  mode : Mode := .single
  repeats : Nat := 0
  repeatsDone : Nat := 0
  slips : Nat := 0
  endCause : EndCause := .none
  draining : Bool := false
  deriving DecidableEq, Repr

/-- The eleven requesters of the store port (R37). -/
inductive Requester where
  | ring (e : EngineNo) | chan (c : ChanNo) | linkPort
  deriving DecidableEq, Repr

/-- The store port: who holds it, and who was granted it last (R37). -/
structure Port where
  holder : Option Requester := none
  lastGranted : Option Requester := none
  deriving DecidableEq, Repr

/-- The two elastic buffers of a path, oldest byte first, and whether an underrun or an overrun is in progress (R35). -/
structure PathBuf where
  toBuf : List Byte := []
  frm : List Byte := []
  under : Bool := false
  overNow : Bool := false
  deriving DecidableEq, Repr

/-- A voice codec path: its buffers, the speed accumulator (R166), the half byte not yet decoded, the decoder's state,
the sample put out (absent: silence), and the bytes taken since the bind (R80). -/
structure Codec where
  buf : PathBuf := {}
  phase : Nat := 0
  speed : Nat := 16
  half : Option (BitVec 4) := none
  decoder : Nat := 0
  output : Option Nat := none
  played : Nat := 0
  deriving DecidableEq, Repr

/-- The running Read Object (R39). -/
structure ReadReq where
  tag : Byte
  chan : ChanNo
  sent : Nat := 0
  deriving DecidableEq, Repr

/-- The running Write Object (R40). -/
structure WriteReq where
  tag : Byte
  chan : ChanNo
  closeFlag : Bool
  written : Nat := 0
  deriving DecidableEq, Repr

/-! ## Line units (R44 to R63) -/

inductive Hook where
  | onHook | offHook
  deriving DecidableEq, Repr

inductive Burst where
  | quiet | burst | gap
  deriving DecidableEq, Repr

inductive CriticalAction where
  | forceRelease | hostOnly
  deriving DecidableEq, Repr

inductive DialMethod where
  | tone | pulse
  deriving DecidableEq, Repr

inductive DialWait where
  | wait | blind
  deriving DecidableEq, Repr

/-- The line settings (R59). -/
structure LineSettings where
  action : CriticalAction := .forceRelease
  coolOff : Nat := 10
  method : DialMethod := .tone
  dialWait : DialWait := .wait
  limit : Nat := 10
  deriving DecidableEq, Repr

/-- Call phases (R64). -/
inductive Phase where
  | none | seize | dialTone | dialling | progress | training | linkOpening | data | fax | playing | recording
  | sendingDigits | releasing
  deriving DecidableEq, Repr

/-- The Last Fault record (R62). -/
structure LastFault where
  valid : Bool := false
  reason : Reason := .none
  condition : FaultSet := {}
  phase : Phase := .none
  handle : Option Nat := Option.none
  position : Option Nat := Option.none
  deriving DecidableEq, Repr

inductive PulsePart where
  | brk | make | pause
  deriving DecidableEq, Repr

/-- A pulse digit being sent: the part running and the breaks still to come after it (R46). -/
structure Pulse where
  part : PulsePart
  left : Nat
  deriving DecidableEq, Repr

/-- A line-quality record (R98). -/
structure Quality where
  cls : Nat := 0
  noise : Int := -50
  good : Nat := 0
  bad : Nat := 0
  changes : Nat := 0
  deriving DecidableEq, Repr

/-- A line record (R44), the timers its rules keep, and the line-quality values kept for the line (R98).
`loopSeen`: loop present has been reported since the seize; `absentTold`: this absence of current has been reported (R47).
`ringTaken`: call control has acted on a ring of the ring sequence in progress, so that its screened flag is this sequence's (R49, R66).
`began`: the device clock when the burst now sounding began (R49, log 34); `floors`: the noise floors before each of the last 64
quiet windows, latest first, from which the floor at the start of an on-part is read (R52, R70).
`resetTag`: the tag of the Line Reset in execution (R61). -/
structure Line where
  hook : Hook := .onHook
  loopCurrent : Bool := false
  polarity : Polarity := .normal
  loopSeen : Bool := false
  absentTold : Bool := false
  voltage : Bool := false
  lostTimer : Timer := {}
  burst : Burst := .quiet
  began : BitVec 32 := 0
  abandon : Timer := {}
  window : Bool := false
  ringCount : Nat := 0
  ringTaken : Bool := false
  caller : Caller := .absent
  noise : Int := -50
  floors : List Int := []
  cond : FaultSet := {}
  latch : FaultSet := {}
  settings : LineSettings := {}
  coolOff : Nat := 0
  coolPending : Nat := 0
  lastFault : LastFault := {}
  pulse : Option Pulse := none
  resetTag : Option Byte := none
  keptRate : Option Rate := none
  kept : Quality := {}
  deriving DecidableEq, Repr

/-! ## Call control (R64 to R88) -/

inductive CallState where
  | idle | alerting | seized | dialling | awaitingAnswer | answering | connected | releasing | cooling
  deriving DecidableEq, Repr

inductive Direction where
  | outgoing | incoming
  deriving DecidableEq, Repr

inductive Purpose where
  | voice | data | fax
  deriving DecidableEq, Repr

inductive Control where
  | host | plan
  deriving DecidableEq, Repr

inductive Job where
  | none | dataLink | faxJob | plan
  deriving DecidableEq, Repr

/-- The long requests of a line that call control holds (R176). `answerPlan` is an Answer with purpose PLAN (R76). -/
inductive LongKind where
  | dial | answer | answerPlan | play | record | sendDigits
  deriving DecidableEq, Repr

/-- A long request in execution on a line. `mark` is the reason it is to end ABRUPT with (R85). -/
structure Long where
  kind : LongKind
  tag : Byte
  handle : Option Nat := none
  chan : Option ChanNo := none
  mark : Option Reason := none
  deriving DecidableEq, Repr

/-- What a call waits for while it dials or sends digits (R68, R69, R82). -/
inductive DialStep where
  | none | dialTone | blindPause | digit | pulse | comma
  deriving DecidableEq, Repr

/-- The discrimination window: closed, open while the greeting plays, or open for 6 s after it (R77). -/
inductive Window where
  | closed | greeting | after
  deriving DecidableEq, Repr

/-- How a recording ended (R157). A Record ended by Abort has cause STOPPED (R81). -/
inductive RecEnd where
  | maxLength | silence | digit | hangUp | storeFull | quota | stopped | released | forced
  deriving DecidableEq, Repr

/-- The recording-end detector (R156): the position at which the interval now running began, the silence run (start and
number of intervals) and the start of the empty run. -/
structure Detector where
  from_ : Nat := 0
  silence : Option (Nat × Nat) := none
  empty : Option Nat := none
  deriving DecidableEq, Repr

/-- A recording in progress, of a plan (R153) or of Record (R81). -/
structure Recording where
  handle : Nat
  slot : SlotNo
  chan : ChanNo
  deleted : Bool := false
  cause : Option RecEnd := none
  maxLen : Nat
  silenceEnd : Nat
  det : Detector := {}
  deriving DecidableEq, Repr

/-- The kinds of an answer plan (R73). -/
inductive PlanKind where
  | voiceMail | fax | data | discriminate
  deriving DecidableEq, Repr

/-- An answer plan (R73): `auto` absent is MANUAL, else AUTO with that ring count. -/
structure AnswerPlan where
  auto : Option Nat := none
  kind : PlanKind := .voiceMail
  mailbox : MailboxNo := 0
  deriving DecidableEq, Repr

/-- What a screen entry matches (R74). `starts` is the PREFIX match. -/
inductive Match where
  | equal (p : List (Fin 10)) | starts (p : List (Fin 10)) | range (low high : List (Fin 10)) | withheld
  deriving DecidableEq, Repr

inductive Action where
  | reject | mailbox (m : MailboxNo) | fax | pass
  deriving DecidableEq, Repr

/-- A screen list entry that is not EMPTY (R74). -/
structure ScreenEntry where
  pat : Match
  action : Action
  deriving DecidableEq, Repr

/-- A call record (R64) and what R67 to R87 need to carry it on: the long request, the characters still to send, the
dial step, busy run and ringback count (R70), the phase and fault condition for the Last Fault record (R62), the recording of
a Record (R81), the digits sent (R82), the plan's kind and form while ANSWERING (R76), and the page list of a fax Dial (R67). -/
structure Call where
  state : CallState := .idle
  phase : Phase := .none
  direction : Option Direction := Option.none
  purpose : Option Purpose := Option.none
  control : Control := .host
  dialString : List Byte := []
  method : DialMethod := .tone
  dialWait : DialWait := .wait
  limit : Nat := 0
  caller : Caller := .absent
  ringCount : Nat := 0
  screened : Bool := false
  engine : Option EngineNo := Option.none
  job : Job := .none
  mailbox : Option MailboxNo := Option.none
  digits : List Dtmf := []
  digitCount : BitVec 16 := 0
  cause : Option Reason := Option.none
  forced : Bool := false
  offHook : Nat := 0
  connected : Nat := 0
  bytesSent : Nat := 0
  bytesRecv : Nat := 0
  pagesSent : Nat := 0
  pagesRecv : Nat := 0
  resent : Nat := 0
  changes : Nat := 0
  codecSlips : Nat := 0
  engineSlips : Nat := 0
  faxMissed : Bool := false
  finalRate : Option Rate := Option.none
  long : Option Long := Option.none
  todo : List Byte := []
  step : DialStep := .none
  busyRun : Nat := 0
  ringbacks : Nat := 0
  window : Window := .closed
  prevPhase : Phase := .none
  faultCond : FaultSet := {}
  record : Option Recording := Option.none
  digitsSent : Nat := 0
  planKind : PlanKind := .voiceMail
  greetingOnly : Bool := false
  pages : List Nat := []
  deriving DecidableEq, Repr

/-! ## Signal engines (R89 to R101) -/

inductive EngineState where
  | free | claimed | training | running | retraining
  deriving DecidableEq, Repr

/-- An engine's claim record (R89), its line-quality record (R98), and the state of a training or retrain: measuring
(R92), the local maximum as it stood when the measurement began (R99), the test rate, the local judgment awaiting a verdict
(R93), a retrain led by the far end (R94, R129), and the timer of the carrier's absence (R96). -/
structure Engine where
  state : EngineState := .free
  line : LineNo := 0
  purpose : Purpose := .data
  rate : Option Rate := none
  attempts : Nat := 0
  dir : Option RetrainDir := none
  ceiling : Rate := 0
  carrier : Bool := false
  quality : Quality := {}
  measuring : Bool := false
  localMax : Rate := 0
  testRate : Option Rate := none
  await : Option Bool := none
  farLed : Bool := false
  loss : Timer := {}
  deriving DecidableEq, Repr

/-! ## Data link units (R102 to R122) -/

inductive SessState where
  | none | ready | opening | listening | linked | plain | closing
  deriving DecidableEq, Repr

inductive Side where
  | calling | answering
  deriving DecidableEq, Repr

/-- The link options (R103); T1 in seconds. -/
structure LinkOptions where
  window : Nat := 7
  t1 : Nat := 2
  n2 : Nat := 8
  plainAllowed : Bool := true
  deriving DecidableEq, Repr

inductive Flow where
  | flowing | paused | resuming
  deriving DecidableEq, Repr

/-- A block-link frame as the unit sends it (R105). -/
inductive LinkFrame where
  | openFrame (window : Nat) | opened (window : Nat) | data (send recv : SeqNo) (payload : List Byte)
  | accept (n : SeqNo) | pause (n : SeqNo) | resend (n : SeqNo) | close | closed
  deriving DecidableEq, Repr

/-- A frame of the unacknowledged list (R108). -/
structure Unacked where
  num : SeqNo
  payload : List Byte
  marked : Bool := false
  deriving DecidableEq, Repr

/-- An accepted payload not yet written whole to the receive ring (R102, R111). -/
structure Held where
  bytes : List Byte
  written : Nat := 0
  deriving DecidableEq, Repr

/-- A payload being read from the transmit ring (R108, R114). -/
structure Cut where
  total : Nat
  got : List Byte := []
  deriving DecidableEq, Repr

/-- How a data ring is used as a circle (R104): start position, bytes held, bytes reserved. -/
structure Ring where
  handle : Nat := 0
  slot : SlotNo := 0
  start : Nat := 0
  held : Nat := 0
  reserved : Nat := 0
  deriving DecidableEq, Repr

/-- A data link unit's session record (R102), its rings (R104), its ring port (R104, R91) and the frames it is sending
(R105). `lastLine` is the last frame or, in PLAIN, `plainOut` the last bytes handed to the engine (log 12). -/
structure DataLink where
  state : SessState := .none
  line : LineNo := 0
  side : Side := .calling
  tx : Ring := {}
  rx : Ring := {}
  opts : LinkOptions := {}
  windowInUse : Nat := 1
  nextSend : SeqNo := 0
  unacked : List Unacked := []
  remotePaused : Bool := false
  t1 : Timer := {}
  expiries : Nat := 0
  expected : SeqNo := 0
  gap : Bool := false
  flow : Flow := .flowing
  hold : List Held := []
  history : List Bool := []
  goodRun : Nat := 0
  bytesSent : Nat := 0
  bytesRecv : Nat := 0
  resent : Nat := 0
  overrun : Nat := 0
  portBound : Bool := false
  servedHold : Bool := false
  cut : Option Cut := Option.none
  ctrl : List LinkFrame := []
  sounding : Option LinkFrame := Option.none
  openSends : Nat := 0
  rep : Timer := {}
  repCount : Nat := 0
  overrunNow : Bool := false
  creditLow : Bool := false
  lastLine : Option LinkFrame := Option.none
  plainOut : List Byte := []
  deriving DecidableEq, Repr

/-- The link port's work in progress: taking the oldest code-0 frame into a unit's transmit ring, or draining a unit's
receive ring (R115, R117). -/
inductive LinkWork where
  | take (e : EngineNo) (written : Nat)
  | drain (e : EngineNo) (total : Nat) (got : List Byte)
  deriving DecidableEq, Repr

/-- The link port: its work, and the kind it served last: 0 inbound frame, 1 receive ring E0, 2 receive ring E1.
`served` 2 makes the circular order begin at the inbound frame (R122). -/
structure LinkPort where
  work : Option LinkWork := none
  served : Fin 3 := 2
  deriving DecidableEq, Repr

/-! ## Fax unit (R123 to R146) -/

/-- The fax options (R124). -/
structure FaxOptions where
  sectioned : Bool := true
  fine : Bool := true
  limit : Nat := 2
  goOn : Bool := true
  ident : Option (List Byte) := none
  deriving DecidableEq, Repr

inductive FaxRole where
  | send | receive
  deriving DecidableEq, Repr

inductive FaxPhase where
  | preamble | training | page | postpage | closing
  deriving DecidableEq, Repr

inductive StripMark where
  | unused | needed | taken
  deriving DecidableEq, Repr

/-- The control messages of a fax session (R125) and the end-of-round signal (R126). -/
inductive FaxMsg where
  | caps (rate : Rate) (sectioned fine : Bool) (ident : Option (List Byte))
  | set (mode : FaxMode) (rate : Rate) (res : Resolution) (ident : Option (List Byte))
  | trainOk (rate : Rate) | trainBad (rate : Rate)
  | map (page sect : Nat) (needed : Option (List Nat))
  | taken (page : Nat) (sect : Option Nat) (partialFlag : Bool)
  | more (page : Nat) (res : Resolution)
  | last
  | retake (page bad : Nat)
  | bye
  | endOfRound
  deriving DecidableEq, Repr

inductive OutcomeKind where
  | sent | partial_ | missing | received
  deriving DecidableEq, Repr

/-- A fax outcome entry (R123, 11.5). -/
structure OutcomeEntry where
  kind : OutcomeKind
  detail : Reason := .none
  handle : Nat
  number : Nat := 0
  total : Nat := 0
  resent : Nat := 0
  rate : Option Rate := Option.none
  needed : Nat := 0
  deriving DecidableEq, Repr

/-- The page being sent, received, or announced by MORE. `givenUp` counts strips of sections given up at 2400 (R132),
`lastBad` is the count of the last RETAKE (R133). For a receive, `stored` lists the strips stored good in the current
pass, `ever` says that some strip was ever stored good, `told` that a good strip has told the total (R137 to R140), `between`
that a RETAKE has been answered and no strip of a new pass has come (R139). -/
structure FaxPage where
  handle : Nat
  slot : SlotNo
  number : Nat
  res : Resolution := .standard
  total : Nat := 0
  chan : Option ChanNo := none
  resent : Nat := 0
  givenUp : Nat := 0
  lastBad : Nat := 0
  stored : List Nat := []
  ever : Bool := false
  told : Bool := false
  badJudged : Nat := 0
  between : Bool := false
  partialFlag : Bool := false
  deriving DecidableEq, Repr

/-- A strip as the sending engine sends it (R126). `filled`: an underrun put fill into it, so that its check fails (R130). -/
structure Strip where
  page : Nat
  number : Nat
  total : Nat
  bytes : List Byte
  filled : Bool
  deriving DecidableEq, Repr

/-- The remote capabilities (R123). -/
structure Remote where
  rate : Rate := 0
  sectioned : Bool := false
  fine : Bool := false
  ident : Option (List Byte) := none
  deriving DecidableEq, Repr

/-- How a session that is closing will end (R135, R142): class, reason, release cause. -/
structure FaxEnd where
  cls : Cls
  reason : Reason
  cause : Reason
  deriving DecidableEq, Repr

/-- A fax job record (R123) and what R125 to R143 need: the message whose answer is awaited and how often it has been
sent, the end of a round awaiting its answer, the runs of the round still to send, the strips held by the engine path,
the next list entry, the page announced, and `answers`: what a
receiver has answered to MORE, by its page number, and to LAST, which has none, latest first (R125). `begun` says that the section's first round (in PLAIN the
page's first pass) has begun, so that later strips count as resent; `pageDone` that the page's last section is done. `runAt` is
the number of the strip being sent, `strip` its bytes so far, `stripFill` says that fill was put into it, and `lastStrip` is the
last strip sent (R126, log 12). `passing`: the path has passed the first held strip to the channel (R137). `pageChan` is the
handle and the channel of the page bound last (R62). -/
structure FaxJob where
  role : FaxRole
  engine : EngineNo
  phase : FaxPhase := .preamble
  opts : FaxOptions := {}
  remote : Remote := {}
  mode : Option FaxMode := none
  rate : Option Rate := none
  pages : List Nat := []
  index : Nat := 0
  cur : Option FaxPage := none
  sect : Nat := 0
  round : Nat := 1
  marks : Vector StripMark 32 := Vector.replicate 32 .unused
  retakes : Nat := 0
  passBad : Nat := 0
  outcomes : List OutcomeEntry := []
  abortPending : Bool := false
  storeFull : Bool := false
  fullDetail : Reason := .none
  endReason : Reason := .none
  pagesSent : Nat := 0
  pagesRecv : Nat := 0
  resent : Nat := 0
  wait : Option FaxMsg := none
  sends : Nat := 0
  roundWait : Bool := false
  roundOn : Bool := false
  repass : Bool := false
  begun : Bool := false
  pageDone : Bool := false
  runs : List (Nat × Nat) := []
  runLeft : Nat := 0
  runAt : Nat := 0
  strip : List Byte := []
  stripFill : Bool := false
  lastStrip : Option Strip := none
  found : Nat := 0
  announced : Option FaxPage := none
  strips : List (Nat × List Byte) := []
  passing : Bool := false
  pageChan : Option (Nat × ChanNo) := none
  firstRes : Resolution := .standard
  trainWait : Bool := false
  retrainWanted : Bool := false
  byeWanted : Bool := false
  lastDone : Bool := false
  answers : List (Option Nat × FaxMsg) := []
  ending : Option FaxEnd := none
  sent : Option FaxMsg := none
  deriving DecidableEq, Repr

/-! ## Voice mail (R147 to R167) -/

/-- A mailbox record (R147). -/
structure Mailbox where
  enabled : Bool := false
  code : Option (List (Fin 10)) := none
  greeting : Option Nat := none
  quota : Nat := 1024
  maxLen : Nat := 120
  silenceEnd : Nat := 5
  list : List Nat := []
  used : Nat := 0
  newCount : Nat := 0
  recordings : Nat := 0
  deriving DecidableEq, Repr

inductive SeqState where
  | none | greeting | tone | recording | closing | access | review | suspended
  deriving DecidableEq, Repr

/-- The digits read so far in GREETING (R154): empty, "*", "*d", "**", "**d". -/
inductive Opening where
  | empty | star | starDigit (d : Fin 10) | starStar | starStarDigit (d : Fin 10)
  deriving DecidableEq, Repr

/-- The tone that the tone generator plays for voice mail. -/
inductive PlanTone where
  | none | greeting | record | closing | entry | error | prompt | endOfList
  deriving DecidableEq, Repr

/-- A review cursor (R165). -/
inductive Cursor where
  | at (handle : Nat) | end_
  deriving DecidableEq, Repr

/-- A plan sequence record (R153). `greetingOnly` is the form GREETING_ONLY. `prefixTimer` is the digit prefix's 3 s timer (R154),
`digitTimer` the 10 s digit timer of ACCESS (R162), `idleTimer` the 20 s idle timer of REVIEW (R163); each keeps the time left (log 5). -/
structure PlanSeq where
  state : SeqState := .none
  greetingOnly : Bool := false
  mailbox : MailboxNo := 0
  caller : Caller := .absent
  opening : Opening := .empty
  prefixTimer : Timer := {}
  greetChan : Option ChanNo := Option.none
  playChan : Option ChanNo := Option.none
  recording : Option Recording := Option.none
  target : MailboxNo := 0
  entered : List (Fin 10) := []
  wrong : Nat := 0
  digitTimer : Timer := {}
  cursor : Cursor := .end_
  speed : Nat := 16
  idleTimer : Timer := {}
  tone : PlanTone := .none
  deriving DecidableEq, Repr

/-! ## Indicator unit (R168 to R172) -/

/-- An output's tree (R169): the included sources, and whether the mode is ALL. -/
structure Tree where
  sources : BitVec 29
  all : Bool := false
  deriving DecidableEq, Repr

/-- The four default trees (R169). -/
def defaultTrees : Vector Tree 4 :=
  #v[{ sources := 0x0000FFFF#29 }, { sources := 0x000F0000#29 }, { sources := 0x01F00000#29 },
    { sources := 0x02000000#29 }]

/-- The mailbox directory after power-on reset: mailbox 0 enabled, the others disabled (R147). -/
def defaultMailboxes : Vector Mailbox 16 := (Vector.replicate 16 {}).set 0 { enabled := true }

/-! ## The part -/

/-- The whole part: every block's state. Its defaults are the values after power-on reset. `faxLast`: for each line the last message
that a fax job which has ended handed to its engine (R144, log 12). -/
structure Chip where
  ready : Bool := false
  resetCause : ResetCause := .power
  clock : BitVec 32 := 0
  clockNotSet : Bool := true
  lowMark : Nat := 256
  faxReserve : Nat := 128
  priority : Priority := .rotating
  localMax : Rate := 5
  link : Link := {}
  store : Store := {}
  chans : Vector Chan 8 := Vector.replicate 8 {}
  port : Port := {}
  codecs : Vector Codec 4 := Vector.replicate 4 {}
  epaths : Vector PathBuf 4 := Vector.replicate 4 {}
  readReq : Option ReadReq := none
  writeReq : Option WriteReq := none
  lines : Vector Line 4 := Vector.replicate 4 {}
  calls : Vector Call 4 := Vector.replicate 4 {}
  plans : Vector AnswerPlan 4 := Vector.replicate 4 {}
  screen : Vector (Option ScreenEntry) 16 := Vector.replicate 16 none
  engines : Vector Engine 2 := Vector.replicate 2 {}
  units : Vector DataLink 2 := Vector.replicate 2 {}
  linkOpts : LinkOptions := {}
  linkPort : LinkPort := {}
  fax : Vector (Option FaxJob) 4 := Vector.replicate 4 none
  faxOpts : FaxOptions := {}
  faxLast : Vector (Option FaxMsg) 4 := Vector.replicate 4 none
  mailboxes : Vector Mailbox 16 := defaultMailboxes
  seqs : Vector PlanSeq 4 := Vector.replicate 4 {}
  trees : Vector Tree 4 := defaultTrees
  deriving DecidableEq, Repr

/-- The machine: the commands that wait, first in, first out, and the part. -/
structure State where
  pending : List Instr := []
  chip : Chip := {}
  deriving DecidableEq, Repr

/-- The state right after power-on reset, while the part initialises: no command waits, every block holds the value its
chapter gives after power-on reset (R24, R43, R63, R88, R101, R122, R146, R167, R172, R179, R181). -/
def State.reset : State := {}

/-- No command of the LC44 stops the part: a request that cannot be done is refused or ended by a reply (R176) and a bad
frame is discarded (R174). So there is no fault to raise. -/
inductive Fault where
  deriving DecidableEq, Repr

/-- Raised by a dispatch arm that has no meaning yet, and by nothing else. Safe: the model stops where the part goes on. -/
inductive Refusal where
  | notModelled (mnemonic : String)
  deriving DecidableEq, Repr

end Sys2Proof.Machine
end

