-- ==== Sys2Proof/Machine/Encode.lean ====
section
/-!
DEFINITION. How values travel (11.2, 11.4): the codes of enumerated values, numbers most significant byte first, and the
sentinels of absent fields. An encoding that 11.2 leaves open is chosen in logs 13 and 39.
-/
namespace Sys2Proof.Machine

/-- One byte of a number (numbers are held at what their field can carry). -/
def b1 (n : Nat) : Byte := BitVec.ofNat 8 n

/-- Two bytes, most significant first (00_scope.md, "Byte order"). -/
def be2 (n : Nat) : List Byte := [b1 (n / 256), b1 n]

/-- Three bytes, most significant first. -/
def be3 (n : Nat) : List Byte := b1 (n / 65536) :: be2 n

/-- Four bytes, most significant first. -/
def be4 (n : Nat) : List Byte := be2 (n / 65536) ++ be2 n

/-- A number from its bytes, most significant first. -/
def ofBytes (bs : List Byte) : Nat := bs.foldl (fun n b => 256 * n + b.toNat) 0

/-- A flag byte: 0 clear, 1 set. -/
def flag (b : Bool) : Byte := if b then 1 else 0

/-- A level in dBm: one signed byte (11.2), in two's complement (log 16). -/
def level (x : Int) : Byte := BitVec.ofInt 8 x

/-- An optional one-byte value; FFh when absent (R184). -/
def opt1 (x : Option Nat) : Byte :=
  match x with
  | some n => b1 n
  | none => 0xFF

/-- A handle, or FFFFh when absent. -/
def optHandle (h : Option Nat) : List Byte :=
  match h with
  | some n => be2 n
  | none => [0xFF, 0xFF]

/-- A byte position, or FFFFFFFFh when absent. -/
def optPos (p : Option Nat) : List Byte :=
  match p with
  | some n => be4 n
  | none => [0xFF, 0xFF, 0xFF, 0xFF]

/-- A character string: a count byte, then its characters (11.2). -/
def str (bs : List Byte) : List Byte := b1 bs.length :: bs

/-- An optional string: the count 0 when absent (R184). -/
def optStr (s : Option (List Byte)) : List Byte := str (s.getD [])

/-- A digit as an ASCII character: in a string and in a caller number as 11.2 says, outside one by the model's choice (log 39). -/
def digitChar (d : Fin 10) : Byte := b1 (48 + d.val)

def digitsStr (ds : List (Fin 10)) : List Byte := str (ds.map digitChar)

def Dtmf.char : Dtmf → Byte
  | .digit n => digitChar n
  | .star => 0x2A
  | .hash => 0x23

def Reason.code : Reason → Byte
  | .none => 0x00 | .busy => 0x01 | .badLine => 0x02 | .badParam => 0x03 | .unknownRequest => 0x04
  | .stale => 0x05 | .noSlot => 0x06 | .noStore => 0x07 | .noChannel => 0x08 | .noEngine => 0x09
  | .notIdle => 0x0A | .notConnected => 0x0B | .planActive => 0x0C | .lineCooling => 0x0D | .lineFault => 0x0E
  | .aborted => 0x0F | .noLoop => 0x10 | .noDialTone => 0x11 | .lineEngaged => 0x12 | .noAnswer => 0x13
  | .trainFailed => 0x14 | .linkFailed => 0x15 | .remoteCleared => 0x16 | .carrierLost => 0x17 | .storeFull => 0x18
  | .remoteIncapable => 0x1A | .pagePartial => 0x1B | .lineReset => 0x1C | .hungUp => 0x1D

def Cls.code : Cls → Byte
  | .normal => 0 | .abrupt => 1 | .refused => 2

def Notice.code : Notice → Byte
  | .ready => 0x01 | .ring => 0x02 | .ringStopped => 0x03 | .callConnected => 0x04 | .callEnded => 0x05
  | .digits => 0x06 | .fault => 0x07 | .faultGone => 0x08 | .rateChanged => 0x09 | .txCredit => 0x0A
  | .dataDropped => 0x0B | .dataOverrun => 0x0C | .pageSent => 0x0D | .pageReceived => 0x0E
  | .messageRecorded => 0x0F | .remoteAccess => 0x10 | .storeLow => 0x11 | .channelSlip => 0x12
  | .answerFailed => 0x13

/-- A rate: 0 NONE, n for 2400 × n (11.2). -/
def rateCode (r : Option Rate) : Byte :=
  match r with
  | some n => b1 (n.val + 1)
  | none => 0

/-- A fault set: bit 0 OVERCURRENT, 1 HOT, 2 CRITICAL, 3 LINE_LOST (11.2). -/
def FaultSet.code (f : FaultSet) : Byte :=
  b1 (f.overcurrent.toNat + 2 * f.hot.toNat + 4 * f.critical.toNat + 8 * f.lineLost.toNat)

/-- A fault condition as an enumerated value, in the order of R44's list and of the fault set, where the table above R53 lists HOT,
CRITICAL, OVERCURRENT, LINE_LOST: the model's choice (log 39). -/
def FaultKind.code : FaultKind → Byte
  | .overcurrent => 0 | .hot => 1 | .critical => 2 | .lineLost => 3

def Owner.code : Owner → Byte
  | .mailbox m => b1 m.val
  | .line l => b1 (16 + l.val)
  | .unowned => 0xFF

def Attr.kindCode : Attr → Byte
  | .clip => 0 | .message .. => 1 | .page _ => 2 | .ring .. => 3

def ObjState.code : ObjState → Byte
  | .openWrite => 0 | .closed => 1 | .doomed => 2

def MsgStatus.code : MsgStatus → Byte
  | .new => 0 | .heard => 1 | .kept => 2

def Resolution.code : Resolution → Byte
  | .standard => 0 | .fine => 1

def FaxMode.code : FaxMode → Byte
  | .sectioned => 0 | .plain => 1

/-- A retrain direction as an enumerated value, in the order of R89's list NONE, DOWN, UP, where R94 and R95 list DOWN, UP: the model's
choice (log 39). -/
def RetrainDir.code : RetrainDir → Byte
  | .down => 1 | .up => 2

def ChanState.code : ChanState → Byte
  | .free => 0 | .bound => 1 | .running => 2 | .held => 3 | .ended => 4

/-- A channel's owner: the block, then its line (log 13). -/
def ChanOwner.code : ChanOwner → List Byte
  | .callControl l => [0, b1 l.val]
  | .fax l => [1, b1 l.val]
  | .voiceMail l => [2, b1 l.val]
  | .link => [3, 0xFF]

def ChanDir.code : ChanDir → Byte
  | .toPath => 0 | .fromPath => 1

/-- A path: its kind, then its line (log 13). -/
def Path.code : Path → List Byte
  | .codec l => [0, b1 l.val]
  | .engine l => [1, b1 l.val]
  | .link => [2, 0xFF]

def EndCause.code : EndCause → Byte
  | .none => 0 | .terminal => 1 | .stopped => 2 | .storeFull => 3 | .unbound => 4

def Hook.code : Hook → Byte
  | .onHook => 0 | .offHook => 1

def Burst.code : Burst → Byte
  | .quiet => 0 | .burst => 1 | .gap => 2

def Phase.code : Phase → Byte
  | .none => 0 | .seize => 1 | .dialTone => 2 | .dialling => 3 | .progress => 4 | .training => 5
  | .linkOpening => 6 | .data => 7 | .fax => 8 | .playing => 9 | .recording => 10 | .sendingDigits => 11
  | .releasing => 12

def CallState.code : CallState → Byte
  | .idle => 0 | .alerting => 1 | .seized => 2 | .dialling => 3 | .awaitingAnswer => 4 | .answering => 5
  | .connected => 6 | .releasing => 7 | .cooling => 8

def Direction.num : Direction → Nat
  | .outgoing => 0 | .incoming => 1

def Purpose.num : Purpose → Nat
  | .voice => 0 | .data => 1 | .fax => 2

def Control.code : Control → Byte
  | .host => 0 | .plan => 1

def PlanKind.code : PlanKind → Byte
  | .voiceMail => 0 | .fax => 1 | .data => 2 | .discriminate => 3

def RecEnd.code : RecEnd → Byte
  | .maxLength => 0 | .silence => 1 | .digit => 2 | .hangUp => 3 | .storeFull => 4 | .quota => 5 | .stopped => 6
  | .released => 7 | .forced => 8

/-- The "end" of a Record reply, numbered by the table of R81. -/
def RecEnd.recordCode : RecEnd → Byte
  | .maxLength => 0 | .silence => 1 | .digit => 1 | .storeFull => 2 | .quota => 2 | .stopped => 3
  | .hangUp => 4 | .released => 4 | .forced => 4

def LongKind.code : LongKind → Byte
  | .dial => 0x30 | .answer => 0x31 | .answerPlan => 0x31 | .play => 0x35 | .record => 0x36 | .sendDigits => 0x37

def OutcomeKind.code : OutcomeKind → Byte
  | .sent => 0 | .partial_ => 1 | .missing => 2 | .received => 3

def EngineState.code : EngineState → Byte
  | .free => 0 | .claimed => 1 | .training => 2 | .running => 3 | .retraining => 4

def SessState.code : SessState → Byte
  | .none => 0 | .ready => 1 | .opening => 2 | .listening => 3 | .linked => 4 | .plain => 5 | .closing => 6

def FaxRole.code : FaxRole → Byte
  | .send => 0 | .receive => 1

def FaxPhase.code : FaxPhase → Byte
  | .preamble => 0 | .training => 1 | .page => 2 | .postpage => 3 | .closing => 4

/-- A caller number field, 18 bytes (11.2). -/
def Caller.code : Caller → List Byte
  | .absent => [0, 0] ++ List.replicate 16 0
  | .digits ds => [1, b1 ds.length] ++ (ds.map digitChar ++ List.replicate 16 0).take 16
  | .withheld => [2, 0] ++ List.replicate 16 0
  | .unavailable => [3, 0] ++ List.replicate 16 0

/-- The form of a caller number alone (11.5, mailbox record). -/
def Caller.form : Caller → Nat
  | .absent => 0 | .digits _ => 1 | .withheld => 2 | .unavailable => 3

/-- A fax outcome entry, 12 bytes (11.5). -/
def OutcomeEntry.code (o : OutcomeEntry) : List Byte :=
  [o.kind.code, o.detail.code] ++ be2 o.handle ++ [b1 o.number] ++ be2 o.total ++ be2 o.resent ++ [rateCode o.rate]
    ++ be2 o.needed

/-- The line settings, in the order of R59. -/
def LineSettings.code (g : LineSettings) : List Byte :=
  [(match g.action with | .forceRelease => 0 | .hostOnly => 1), b1 g.coolOff,
    (match g.method with | .tone => 0 | .pulse => 1), (match g.dialWait with | .wait => 0 | .blind => 1), b1 g.limit]

/-- A line-quality record with the rate, as bytes 48 to 55 of the line status record (11.5). -/
def Quality.code (q : Quality) (r : Option Rate) : List Byte :=
  [rateCode r, b1 q.cls, level q.noise] ++ be2 q.good ++ be2 q.bad ++ [b1 q.changes]

/-- An answer plan: the mode, under AUTO its ring count, the kind, the mailbox (log 14). -/
def AnswerPlan.code (p : AnswerPlan) : List Byte :=
  (match p.auto with | none => [0] | some n => [1, b1 n]) ++ [p.kind.code, b1 p.mailbox.val]

def Action.code : Action → List Byte
  | .reject => [0]
  | .mailbox m => [1, b1 m.val]
  | .fax => [2]
  | .pass => [3]

/-- A screen entry: EMPTY or the match kind, its patterns, and the action (log 14). -/
def screenCode (e : Option ScreenEntry) : List Byte :=
  match e with
  | none => [0]
  | some e =>
    (match e.pat with
      | .equal p => 1 :: digitsStr p
      | .starts p => 2 :: digitsStr p
      | .range lo hi => 3 :: digitsStr lo ++ digitsStr hi
      | .withheld => [4]) ++ e.action.code

def LinkOptions.code (o : LinkOptions) : List Byte := [b1 o.window, b1 o.t1, b1 o.n2, flag o.plainAllowed]

def FaxOptions.code (o : FaxOptions) : List Byte :=
  [flag o.sectioned, flag o.fine, b1 o.limit, flag o.goOn] ++ optStr o.ident

/-- A source set: bit n for source n, bit 0 the least significant bit of the last byte (11.2). -/
def sourceSet (x : BitVec 29) : List Byte := be4 x.toNat

end Sys2Proof.Machine
end

