-- ==== Sys2Proof/Machine/Ops.lean ====
section
/-!
DEFINITION. The named operations the commands are written over: one update per group of state, the DRAM (R1, R24), and
the outbound side of the host link: replies, notices, the pending event sets (R175, R177).
-/
namespace Sys2Proof.Machine

/-! ## One update per group of state -/

/-- Change entry `i` of a vector by `f`. -/
def upd {α : Type} {n : Nat} (v : Vector α n) (i : Fin n) (f : α → α) : Vector α n := v.set i (f v[i])

namespace Chip

def modLink (c : Chip) (f : Link → Link) : Chip := { c with link := f c.link }
def modStore (c : Chip) (f : Store → Store) : Chip := { c with store := f c.store }
def modSlot (c : Chip) (i : SlotNo) (f : Slot → Slot) : Chip :=
  { c with store := { c.store with slots := upd c.store.slots i f } }
def modChan (c : Chip) (i : ChanNo) (f : Chan → Chan) : Chip := { c with chans := upd c.chans i f }
def modCodec (c : Chip) (l : LineNo) (f : Codec → Codec) : Chip := { c with codecs := upd c.codecs l f }
def modEpath (c : Chip) (l : LineNo) (f : PathBuf → PathBuf) : Chip := { c with epaths := upd c.epaths l f }
def modLine (c : Chip) (l : LineNo) (f : Line → Line) : Chip := { c with lines := upd c.lines l f }
def modCall (c : Chip) (l : LineNo) (f : Call → Call) : Chip := { c with calls := upd c.calls l f }
def modEngine (c : Chip) (e : EngineNo) (f : Engine → Engine) : Chip := { c with engines := upd c.engines e f }
def modUnit (c : Chip) (e : EngineNo) (f : DataLink → DataLink) : Chip := { c with units := upd c.units e f }
def modFax (c : Chip) (l : LineNo) (f : FaxJob → FaxJob) : Chip := { c with fax := upd c.fax l (Option.map f) }
def setFax (c : Chip) (l : LineNo) (j : Option FaxJob) : Chip := { c with fax := c.fax.set l j }
def modMailbox (c : Chip) (m : MailboxNo) (f : Mailbox → Mailbox) : Chip := { c with mailboxes := upd c.mailboxes m f }
def modSeq (c : Chip) (l : LineNo) (f : PlanSeq → PlanSeq) : Chip := { c with seqs := upd c.seqs l f }

end Chip

/-- The lines in order. -/
def allLines : List LineNo := [0, 1, 2, 3]

/-! ## The DRAM (R1, R24) -/

/-- The byte at address `x`; an unlisted address reads as `Config.unlistedByte`. -/
def Mem.read : List Host.Cell → Nat → Byte
  | [], _ => Config.unlistedByte
  | (a, b) :: rest, x => if x = a then b else if x < a then Config.unlistedByte else Mem.read rest x

/-- Write one byte, keeping the canonical form: a byte equal to the unlisted one leaves no entry. -/
def Mem.write : List Host.Cell → Nat → Byte → List Host.Cell
  | [], x, v => if v = Config.unlistedByte then [] else [(x, v)]
  | (a, b) :: rest, x, v =>
    if x < a then (if v = Config.unlistedByte then (a, b) :: rest else (x, v) :: (a, b) :: rest)
    else if x = a then (if v = Config.unlistedByte then rest else (x, v) :: rest)
    else (a, b) :: Mem.write rest x v

/-- The canonical form from address `lo` on: addresses strictly rising, no entry equal to the unlisted byte. -/
def Mem.wfFrom : Nat → List Host.Cell → Bool
  | _, [] => true
  | lo, (a, b) :: rest => decide (lo ≤ a) && decide (b ≠ Config.unlistedByte) && Mem.wfFrom (a + 1) rest

/-- The canonical form of the DRAM. -/
def Memory.wf (m : List Host.Cell) : Bool := Mem.wfFrom 0 m

/-- Write bytes at consecutive addresses. -/
def Mem.writeBytes : List Host.Cell → Nat → List Byte → List Host.Cell
  | m, _, [] => m
  | m, a, b :: bs => Mem.writeBytes (Mem.write m a b) (a + 1) bs

/-! ## Outbound slots, replies and notices (R175, R177) -/

/-- The set of a line's notices. -/
def lineSet (l : LineNo) : Fin 5 := l.castSucc

/-- The device's set. -/
def devSet : Fin 5 := 4

/-- The line field of a set's notices: the line, or Fh for the device. -/
def setLine (i : Fin 5) : Byte := if i.val < 4 then b1 i.val else 0x0F

/-- How many outbound slots are FREE (R175). -/
def Link.freeSlots (k : Link) : Nat := 16 - (k.reserved + k.out.length)

/-- EVENTS_HELD: some pending event set is non-empty (R173, R177). -/
def Link.held (k : Link) : Bool := k.sets.toList.any (fun s => !s.isEmpty)

/-- A FREE slot that outbound Data may use: one left while every set is empty (R175). -/
def Link.dataSlot (k : Link) : Bool := decide (0 < k.freeSlots) && !k.held

/-- The frame of a notice (R175, R184). -/
def noticeFrame (i : Fin 5) (kind : Notice) (count : Nat) (detail : List Byte) : Frame :=
  { kind := 3, line := setLine i, tag := 0, code := kind.code, body := b1 count :: detail }

/-- The next non-empty set after the marker, in circular order (R177). -/
def Link.nextSet (k : Link) : Option (Fin 5) :=
  [k.marker + 1, k.marker + 2, k.marker + 3, k.marker + 4, k.marker].find? (fun i => !(k.sets[i]).isEmpty)

/-- One FREE slot takes the oldest entry of the next non-empty set (R177). -/
def Link.drainOne (k : Link) : Link :=
  if k.freeSlots = 0 then k else
  match k.nextSet with
  | none => k
  | some i =>
    match k.sets[i] with
    | [] => k
    | e :: rest =>
      { k with sets := k.sets.set i rest, marker := i, out := k.out ++ [noticeFrame i e.kind e.count e.detail] }

/-- The sets are drained while a slot is FREE (R177); at most 16 slots can be. -/
def Link.drain : Nat → Link → Link
  | 0, k => k
  | n + 1, k => Link.drain n k.drainOne

/-- A notice joins its set: merged with an entry of its kind, which keeps its place, or appended (R177). -/
def mergeEntry (kind : Notice) (detail : List Byte) : List PendEntry → List PendEntry
  | [] => [{ kind := kind, count := 1, detail := detail }]
  | e :: rest =>
    if e.kind = kind then { e with count := min 255 (e.count + 1), detail := detail } :: rest
    else e :: mergeEntry kind detail rest

/-- Post a notice: into a FREE slot if its set is empty and a slot is FREE, else into its set (R177). -/
def Link.post (k : Link) (i : Fin 5) (kind : Notice) (detail : List Byte) : Link :=
  if (k.sets[i]).isEmpty = true ∧ 0 < k.freeSlots then { k with out := k.out ++ [noticeFrame i kind 1 detail] }
  else { k with sets := k.sets.set i (mergeEntry kind detail k.sets[i]) }

/-- Post a notice for line `l`. -/
def Chip.note (c : Chip) (l : LineNo) (kind : Notice) (detail : List Byte) : Chip :=
  c.modLink (·.post (lineSet l) kind detail)

/-- Post a notice for the device. -/
def Chip.noteDev (c : Chip) (kind : Notice) (detail : List Byte) : Chip := c.modLink (·.post devSet kind detail)

/-- The frame of a reply: it echoes line, tag and code; class and reason open its body (R175, R184). -/
def replyFrame (line tag code : Byte) (cls : Cls) (reason : Reason) (result : List Byte) : Frame :=
  { kind := 2, line := line, tag := tag, code := code, body := cls.code :: reason.code :: result }

/-- Post a reply into its reservation (R175). -/
def Link.reply (k : Link) (line tag code : Byte) (cls : Cls) (reason : Reason) (result : List Byte) : Link :=
  { k with reserved := k.reserved - 1, out := k.out ++ [replyFrame line tag code cls reason result] }

/-- The code-1 frames of a Write Object that is refused or replies leave the inbound data buffer (R40). -/
def Link.dropWrites (k : Link) (tag : Byte) : Link := { k with data := k.data.filter (fun d => !(d.code == 1 && d.tag == tag)) }

/-- The code-1 frames of a tag belong to the oldest Write Object that has it: to the running one, if it has (R174). -/
def Chip.ownsWrites (c : Chip) (r : Request) : Bool := r.code == 0x19 && !c.writeReq.any (fun w => w.tag == r.tag)

/-- Reply to a request at its dispatch. A Write Object that is refused takes its code-1 frames with it (R40, R174). -/
def Chip.reply (c : Chip) (r : Request) (cls : Cls) (reason : Reason) (result : List Byte) : Chip :=
  c.modLink (fun k =>
    let k' := k.reply r.line r.tag r.code cls reason result
    if c.ownsWrites r then k'.dropWrites r.tag else k')

/-- The request is REFUSED; a REFUSED reply carries no result record (R184). -/
def Chip.refuse (c : Chip) (r : Request) (reason : Reason) : Chip := c.reply r .refused reason []

/-- The request ends NORMAL, with reason NONE (R176). -/
def Chip.normal (c : Chip) (r : Request) (result : List Byte) : Chip := c.reply r .normal .none result

/-! ## Timers -/

def Timer.start (ms : Nat) : Timer := { run := true, ms := ms }
def Timer.stop (t : Timer) : Timer := { t with run := false }
def Timer.off : Timer := {}

/-- One second passes for a running timer (log 5). -/
def Timer.second (t : Timer) : Timer := if t.run then { t with ms := t.ms - 1000 } else t

/-- A review waits for a digit: no channel plays and no tone sounds, and so its idle timer runs on (R163). -/
def PlanSeq.idles (q : PlanSeq) : Bool := decide (q.state = .review) && decide (q.tone = .none) && q.playChan.isNone

/-- One second of a plan sequence's timers (R154, R162, R163, log 5). -/
def PlanSeq.second (q : PlanSeq) : PlanSeq :=
  { q with
    prefixTimer := q.prefixTimer.second, digitTimer := q.digitTimer.second
    idleTimer := if q.idles then q.idleTimer.second else q.idleTimer }

/-! ## Commands over the part -/

/-- A command changes the part alone; the queue of waiting commands stays as it is. -/
def effect (s : State) (f : Chip → Chip) : Host.Outcome State Fault Refusal := .next { s with chip := f s.chip }

end Sys2Proof.Machine
end

