-- ==== Sys2Proof/Machine/Flags.lean ====
section
/-!
DEFINITION. The computed flags: the status byte and ATN (R173), the 29 indicator sources and the four outputs (R168,
R169, R181).
-/
namespace Sys2Proof.Machine

/-- ACCEPT without READY (R173): room in the request queue, fewer than 12 RESERVED slots, a FREE slot. -/
def Link.accept (k : Link) : Bool :=
  decide (k.inq.length < 8) && decide (k.reserved < 12) && decide (0 < k.freeSlots)

/-- DATA_ACCEPT without READY (R173). -/
def Link.dataAccept (k : Link) : Bool := decide (k.data.length < 2)

/-- The link status byte (R173, 11.1); until initialisation has ended every flag is false (R181). -/
def Chip.status (c : Chip) : Byte :=
  if c.ready then
    b1 (1 + 2 * c.link.accept.toNat + 4 * c.link.dataAccept.toNat + 8 * (!c.link.out.isEmpty).toNat
      + 16 * c.link.rejected.toNat + 32 * c.link.held.toNat)
  else 0

/-- ATN is driven (low) while the outbound queue holds a frame (R173), and not before initialisation has ended (R181). -/
def Chip.atn (c : Chip) : Bool := c.ready && !c.link.out.isEmpty

/-- Some latch of the set. -/
def FaultSet.any (f : FaultSet) : Bool := f.overcurrent || f.hot || f.critical || f.lineLost

/-- The slot holds a CLOSED FAX_PAGE with UNREAD set (R168). -/
def Slot.unread (x : Slot) : Bool :=
  match x.obj with
  | some { state := .closed, attr := .page a, .. } => a.unread
  | _ => false

/-- The value of indicator source `n` (R168). -/
def Chip.source (c : Chip) (n : Fin 29) : Bool :=
  if h : n.val < 16 then decide (0 < (c.mailboxes[n.val]).newCount)
  else if h : n.val < 20 then decide ((c.lines[n.val - 16]).hook = .offHook)
  else if h : n.val < 24 then (c.lines[n.val - 20]).latch.any
  else if n.val = 24 then c.store.low
  else if n.val = 25 then c.store.slots.toList.any Slot.unread
  else if n.val = 26 then decide ((c.engines[0]).state ≠ .free) && decide ((c.engines[1]).state ≠ .free)
  else if n.val = 27 then c.clockNotSet
  else c.link.held

/-- The 29 sources, bit n for source n. -/
def Chip.sources (c : Chip) : BitVec 29 :=
  BitVec.ofNat 29 ((List.finRange 29).foldr (fun n x => (c.source n).toNat + 2 * x) 0)

/-- The value of a tree over the sources (R169). -/
def Tree.value (t : Tree) (x : BitVec 29) : Bool :=
  if t.sources = 0 then false
  else if t.all then decide (x &&& t.sources = t.sources)
  else decide (x &&& t.sources ≠ 0)

/-- Output INDi is active (R169, R172, R181). -/
def Chip.output (c : Chip) (i : Fin 4) : Bool := c.ready && (c.trees[i]).value c.sources

/-- The four outputs, bit n while INDn is active. -/
def Chip.outputs (c : Chip) : Byte :=
  b1 ((c.output 0).toNat + 2 * (c.output 1).toNat + 4 * (c.output 2).toNat + 8 * (c.output 3).toNat)

end Sys2Proof.Machine
end

