-- ==== Sys2Proof/Machine/Operands.lean ====
section
/-!
DEFINITION. The operands of the requests: the walk of a body by its count bytes (R182) and the judgment of its values
(R183). A walk that cannot be made answers `none`, which the link answers with BAD_PARAM (R182).
-/
namespace Sys2Proof.Machine

/-! ## Values (R183) -/

/-- A flag byte other than 0 or 1 is out of its range (R183). -/
def flagOf (b : Byte) : Option Bool := if b = 0 then some false else if b = 1 then some true else none

/-- A digit in ASCII. -/
def digitOf (b : Byte) : Option (Fin 10) :=
  if h : 48 ≤ b.toNat ∧ b.toNat < 58 then some ⟨b.toNat - 48, by omega⟩ else none

/-- A string of digits. -/
def digitsOf (bs : List Byte) : Option (List (Fin 10)) := bs.mapM digitOf

/-- A mailbox number 0 to 15. -/
def mailboxOf (b : Byte) : Option MailboxNo := if h : b.toNat < 16 then some ⟨b.toNat, h⟩ else none

/-- One of the six rates (11.2). -/
def rateOf (b : Byte) : Option Rate := if h : 1 ≤ b.toNat ∧ b.toNat ≤ 6 then some ⟨b.toNat - 1, by omega⟩ else none

/-- An owner: a mailbox, a line or UNOWNED (11.2). -/
def ownerOf (b : Byte) : Option Owner :=
  if h : b.toNat < 16 then some (.mailbox ⟨b.toNat, h⟩)
  else if h : 16 ≤ b.toNat ∧ b.toNat < 20 then some (.line ⟨b.toNat - 16, by omega⟩)
  else if b = 0xFF then some .unowned
  else none

def resolutionOf (b : Byte) : Option Resolution := if b = 0 then some .standard else if b = 1 then some .fine else none

def statusOf (b : Byte) : Option MsgStatus :=
  if b = 0 then some .new else if b = 1 then some .heard else if b = 2 then some .kept else none

def purposeOf (b : Byte) : Option Purpose :=
  if b = 0 then some .voice else if b = 1 then some .data else if b = 2 then some .fax else none

/-- The mode of a Read Object or Write Object: SINGLE or BLOCK (R39, R40). -/
def linkModeOf (b : Byte) : Option Mode := if b = 0 then some .single else if b = 2 then some .block else none

/-- A fault set; bits 4 to 7 are unassigned (R183). -/
def faultSetOf (b : Byte) : Option FaultSet :=
  if b.toNat < 16 then
    some { overcurrent := b.getLsbD 0, hot := b.getLsbD 1, critical := b.getLsbD 2, lineLost := b.getLsbD 3 }
  else none

/-- A station identifier of the Set Fax Options request: absent, or 1 to 20 digits, spaces and + (R124). -/
def identOf (bs : List Byte) : Option (Option (List Byte)) :=
  if bs.isEmpty then some none
  else if bs.length ≤ 20 ∧ bs.all (fun b => (digitOf b).isSome || b == 0x20 || b == 0x2B) = true then some (some bs)
  else none

/-- A value within a range. -/
def within (lo hi n : Nat) : Bool := decide (lo ≤ n) && decide (n ≤ hi)

/-! ## Walks (R182) -/

/-- A string: its count byte, then its characters; and the rest of the body. -/
def splitStr : List Byte → Option (List Byte × List Byte)
  | [] => none
  | n :: rest => if n.toNat ≤ rest.length then some (rest.take n.toNat, rest.drop n.toNat) else none

/-- The last string of a body. -/
def lastStr (bs : List Byte) : Option (List Byte) :=
  match splitStr bs with
  | some (s, []) => some s
  | _ => none

/-- Configure Device (R178): low mark, fax reserve, priority, rate. -/
def walkConfigure : List Byte → Option (Nat × Nat × Byte × Byte)
  | [a, b, x, y, p, r] => some (ofBytes [a, b], ofBytes [x, y], p, r)
  | _ => none

/-- A body of one handle. -/
def walkHandle : List Byte → Option Nat
  | [a, b] => some (ofBytes [a, b])
  | _ => none

/-- A body of one byte. -/
def walkByte : List Byte → Option Byte
  | [a] => some a
  | _ => none

/-- Four bytes, one number. -/
def walkFour : List Byte → Option Nat
  | [a, b, x, y] => some (ofBytes [a, b, x, y])
  | _ => none

/-- Create Object (R10): the page number, resolution and station identifier follow a FAX_PAGE only. -/
def walkCreate : List Byte → Option (Byte × Byte × Option (Byte × Byte × List Byte))
  | [k, o] => if k = 0 ∨ k = 1 ∨ k = 3 then some (k, o, none) else none
  | k :: o :: p :: r :: rest =>
    if k = 2 then (lastStr rest).map (fun s => (k, o, some (p, r, s))) else none
  | _ => none

/-- List Objects (R16): kind filter, owner filter, start slot. -/
def walkList : List Byte → Option (Byte × Byte × Nat)
  | [k, o, s] => some (k, o, s.toNat)
  | _ => none

/-- Read Object (R39): handle, start, count, mode. -/
def walkRead : List Byte → Option (Nat × Nat × Nat × Byte)
  | [a, b, s0, s1, s2, s3, n0, n1, n2, n3, m] =>
    some (ofBytes [a, b], ofBytes [s0, s1, s2, s3], ofBytes [n0, n1, n2, n3], m)
  | _ => none

/-- Write Object (R40): handle, count, close flag, mode. -/
def walkWrite : List Byte → Option (Nat × Nat × Byte × Byte)
  | [a, b, n0, n1, n2, n3, cl, m] => some (ofBytes [a, b], ofBytes [n0, n1, n2, n3], cl, m)
  | _ => none

/-- Set Line Settings (R59). -/
def walkLineSettings : List Byte → Option (Option LineSettings)
  | [a, t, m, w, n] =>
    some (if a.toNat ≤ 1 ∧ (t.toNat = 1 ∨ t.toNat = 5 ∨ t.toNat = 10 ∨ t.toNat = 60) ∧ m.toNat ≤ 1 ∧ w.toNat ≤ 1
        ∧ within 1 30 n.toNat = true then
      some { action := if a = 0 then .forceRelease else .hostOnly, coolOff := t.toNat,
             method := if m = 0 then .tone else .pulse, dialWait := if w = 0 then .wait else .blind, limit := n.toNat }
    else none)
  | _ => none

/-- The handles of a page list. -/
def handlesOf : List Byte → Option (List Nat)
  | [] => some []
  | a :: b :: rest => (handlesOf rest).map (fun hs => ofBytes [a, b] :: hs)
  | [_] => none

/-- Dial (R67): purpose, dial string and, for FAX, the page list. A purpose outside the three cannot be followed to the page list, so it
fails the walk, before any check of call control: the model's choice of R182 over R67, which lists it at call control's step 5, after BUSY,
LINE_COOLING, LINE_FAULT and NOT_IDLE (log 41). -/
def walkDial : List Byte → Option (Purpose × List Byte × List Nat)
  | [] => none
  | p :: rest =>
    match purposeOf p, splitStr rest with
    | some .fax, some (s, n :: hs) => if hs.length = 2 * n.toNat then (handlesOf hs).map (fun l => (.fax, s, l)) else none
    | some .voice, some (s, []) => some (.voice, s, [])
    | some .data, some (s, []) => some (.data, s, [])
    | _, _ => none

/-- Play (R80): handle, repeat, speed. -/
def walkPlay : List Byte → Option (Nat × Nat × Nat)
  | [a, b, r, v] => some (ofBytes [a, b], r.toNat, v.toNat)
  | _ => none

/-- Record (R81): maximum length, silence end. -/
def walkRecord : List Byte → Option (Nat × Nat)
  | [a, b, v] => some (ofBytes [a, b], v.toNat)
  | _ => none

/-- Set Answer Plan (R73): the ring count follows AUTO only (log 14). The inner absence is a value out of range. -/
def walkPlan : List Byte → Option (Option AnswerPlan)
  | [m, k, x] => if m = 0 then some (planOf none k x) else none
  | [m, n, k, x] => if m = 1 then some (if within 1 9 n.toNat then planOf (some n.toNat) k x else none) else none
  | _ => none
where
  planOf (auto : Option Nat) (k x : Byte) : Option AnswerPlan :=
    match mailboxOf x with
    | none => none
    | some mb =>
      if k = 0 then some { auto := auto, kind := .voiceMail, mailbox := mb }
      else if k = 1 then some { auto := auto, kind := .fax, mailbox := mb }
      else if k = 2 then some { auto := auto, kind := .data, mailbox := mb }
      else if k = 3 then some { auto := auto, kind := .discriminate, mailbox := mb }
      else none

/-- A pattern of 1 to 16 digits (R74). -/
def patternOf (bs : List Byte) : Option (List (Fin 10)) :=
  if within 1 16 bs.length then digitsOf bs else none

/-- Digit by digit from the first, `a` is not above `b` (R74). -/
def digitsLe : List (Fin 10) → List (Fin 10) → Bool
  | [], _ => true
  | _ :: _, [] => false
  | a :: as, b :: bs => if a = b then digitsLe as bs else decide (a < b)

/-- The action of a screen entry (R74): the mailbox follows MAILBOX only. -/
def walkAction : List Byte → Option (Option Action)
  | [a] => if a = 0 then some (some .reject) else if a = 2 then some (some .fax) else if a = 3 then some (some .pass) else none
  | [a, m] => if a = 1 then some ((mailboxOf m).map Action.mailbox) else none
  | _ => none

/-- A match and its action. -/
def entryOf (m : Option Match) (a : Option Action) : Option ScreenEntry :=
  match m, a with
  | some m, some a => some { pat := m, action := a }
  | _, _ => none

/-- Set Screen Entry (R74): the entry number; then EMPTY, or a match and an action. The innermost absence is EMPTY, the
one outside it a value out of range. -/
def walkScreen : List Byte → Option (Byte × Option (Option ScreenEntry))
  | [n, k] => if k = 0 then some (n, some none) else none
  | n :: k :: rest =>
    if k = 1 ∨ k = 2 then
      match splitStr rest with
      | none => none
      | some (p, r) =>
        (walkAction r).map (fun a =>
          (n, (entryOf ((patternOf p).map (if k = 1 then Match.equal else Match.starts)) a).map some))
    else if k = 3 then
      match splitStr rest with
      | none => none
      | some (lo, r) =>
        match splitStr r with
        | none => none
        | some (hi, r) => (walkAction r).map (fun a => (n, (entryOf (rangeOf (patternOf lo) (patternOf hi)) a).map some))
    else if k = 4 then (walkAction rest).map (fun a => (n, (entryOf (some .withheld) a).map some))
    else none
  | _ => none
where
  rangeOf : Option (List (Fin 10)) → Option (List (Fin 10)) → Option Match
    | some lo, some hi => if lo.length = hi.length ∧ digitsLe lo hi = true then some (.range lo hi) else none
    | _, _ => none

/-- Set Link Options (R103). -/
def walkLinkOptions : List Byte → Option (Option LinkOptions)
  | [w, t, n, p] =>
    some (match flagOf p with
      | some p =>
        if within 1 7 w.toNat && within 1 10 t.toNat && within 1 15 n.toNat then
          some { window := w.toNat, t1 := t.toNat, n2 := n.toNat, plainAllowed := p }
        else none
      | none => none)
  | _ => none

/-- Set Fax Options (R124). -/
def walkFaxOptions : List Byte → Option (Option FaxOptions)
  | a :: b :: q :: k :: rest =>
    (lastStr rest).map (fun s =>
      match flagOf a, flagOf b, flagOf k, identOf s with
      | some a, some b, some k, some i =>
        if q.toNat ≤ 32 then some { sectioned := a, fine := b, limit := q.toNat, goOn := k, ident := i } else none
      | _, _, _, _ => none)
  | _ => none

/-- The fields of Set Mailbox (R150). -/
structure MailboxSet where
  number : MailboxNo
  enabled : Bool
  code : Option (List (Fin 10))
  quota : Nat
  maxLen : Nat
  silenceEnd : Nat
  deriving DecidableEq, Repr

/-- An access code: absent, or four digits (R150). -/
def codeOf (bs : List Byte) : Option (Option (List (Fin 10))) :=
  if bs.isEmpty then some none else if bs.length = 4 then (digitsOf bs).map some else none

/-- Set Mailbox (R150). -/
def walkMailbox : List Byte → Option (Option MailboxSet)
  | n :: en :: rest =>
    match splitStr rest with
    | some (code, [q0, q1, m0, m1, v]) =>
      some (match mailboxOf n, flagOf en, codeOf code with
        | some n, some en, some code =>
          if within 16 8192 (ofBytes [q0, q1]) && within 10 300 (ofBytes [m0, m1]) && within 2 10 v.toNat then
            some { number := n, enabled := en, code := code, quota := ofBytes [q0, q1], maxLen := ofBytes [m0, m1],
                   silenceEnd := v.toNat }
          else none
        | _, _, _ => none)
    | _ => none
  | _ => none

/-- Two bytes. -/
def walkTwo : List Byte → Option (Byte × Byte)
  | [a, b] => some (a, b)
  | _ => none

/-- Set Message Status (R151): handle, status. -/
def walkMessageStatus : List Byte → Option (Nat × Byte)
  | [a, b, v] => some (ofBytes [a, b], v)
  | _ => none

/-- Set Greeting (R152): mailbox, handle or FFFFh for "none". -/
def walkGreeting : List Byte → Option (Byte × Nat)
  | [m, a, b] => some (m, ofBytes [a, b])
  | _ => none

/-- Set Indicator (R170): output, source set, mode. The inner absence is a value out of range. -/
def walkIndicator : List Byte → Option (Option (Fin 4 × Tree))
  | [o, a, b, x, y, m] =>
    some (if h : o.toNat < 4 then
      if ofBytes [a, b, x, y] < 2 ^ 29 ∧ m.toNat ≤ 1 then
        some (⟨o.toNat, h⟩, { sources := BitVec.ofNat 29 (ofBytes [a, b, x, y]), all := m == 1 })
      else none
    else none)
  | _ => none

/-! ## Dial strings (R68) -/

/-- One character of a dial string under the method in force: the method after it, or `none` if it is not allowed. -/
def dialChar (m : DialMethod) (b : Byte) : Option DialMethod :=
  if (digitOf b).isSome || b == 0x2C || b == 0x57 then some m
  else if b = 0x50 then some .pulse
  else if b = 0x54 then some .tone
  else if b = 0x2A ∨ b = 0x23 then (if m = .tone then some m else none)
  else none

/-- The walk of a dial string with the method in force (R68). -/
def dialWalk : DialMethod → List Byte → Bool
  | _, [] => true
  | m, b :: bs =>
    match dialChar m b with
    | some m' => dialWalk m' bs
    | none => false

/-- A dial string: 1 to 32 characters that the walk admits. -/
def dialOk (m : DialMethod) (bs : List Byte) : Bool := within 1 32 bs.length && dialWalk m bs

/-- A string of Send Digits (R82): 1 to 32 characters, each a digit, *, # or the comma. -/
def sendOk (bs : List Byte) : Bool :=
  within 1 32 bs.length && bs.all (fun b => (digitOf b).isSome || b == 0x2A || b == 0x23 || b == 0x2C)

end Sys2Proof.Machine
end

