-- ==== Sys2Proof/Machine/Store.lean ====
section
/-!
DEFINITION. The message store (01_message_store.md): handles, creation, allocation, reading and writing, closing, trimming,
deletion with voice mail's notice, data rings, and the store low mark.
-/
namespace Sys2Proof.Machine

/-! ## Handles (R8, R9) -/

/-- The handle of slot `i` with generation `g`. -/
def handleOf (i : SlotNo) (g : BitVec 4) : Nat := 16 * i.val + g.toNat

/-- The stale-handle check (R9): the slot and the object of a handle that passes it. -/
def Store.lookup (st : Store) (h : Nat) : Option (SlotNo × Obj) :=
  if hh : h < 2048 then
    match (st.slots[h / 16]).obj with
    | some o =>
      if o.state ≠ .doomed ∧ (st.slots[h / 16]).gen.toNat = h % 16 then some (⟨h / 16, by omega⟩, o) else none
    | none => none
  else none

/-- The object is a VOICE_MESSAGE. -/
def Obj.isMessage (o : Obj) : Bool :=
  match o.attr with
  | .message .. => true
  | _ => false

/-- How many 512-byte blocks hold `n` bytes (R4). -/
def blocksFor (n : Nat) : Nat := (n + 511) / 512

/-- The DRAM address of byte position `p` (R1). -/
def Obj.addr (o : Obj) (p : Nat) : Option Nat := (o.chain[p / 512]?).map (fun b => 512 * b + p % 512)

/-- The element after `b` in a chain. -/
def nextInChain (b : Nat) : List Nat → Option Nat
  | x :: y :: rest => if x = b then some y else nextInChain b (y :: rest)
  | _ => none

/-- The block link table (R4), read from the chains: the next block of `b`'s object, or END. -/
def Store.linkEntry (st : Store) (b : Nat) : Option Nat :=
  st.slots.toList.findSome? (fun x => x.obj.bind (fun o => nextInChain b o.chain))

/-- The number of FREE slots (R178). -/
def Store.freeSlotCount (st : Store) : Nat := (st.slots.toList.filter (fun x => x.obj.isNone)).length

/-- The lowest-numbered FREE slot at or above `k` (R8). -/
def Store.freeSlotFrom (st : Store) (k : Nat) : Option SlotNo :=
  (List.finRange 128).find? (fun i => decide (k ≤ i.val) && (st.slots[i]).obj.isNone)

/-- Change the object of slot `i`. -/
def Chip.modObj (c : Chip) (i : SlotNo) (f : Obj → Obj) : Chip := c.modSlot i (fun x => { x with obj := x.obj.map f })

/-- The object of slot `i`. -/
def Chip.obj (c : Chip) (i : SlotNo) : Option Obj := (c.store.slots[i]).obj

/-- The handle that names slot `i` now. -/
def Chip.handle (c : Chip) (i : SlotNo) : Nat := handleOf i (c.store.slots[i]).gen

/-! ## The store low mark (R23) -/

/-- The flag is re-evaluated after an operation that changes the free count, or after a change of the low mark. -/
def Chip.relow (c : Chip) : Chip :=
  if c.store.free.length < c.lowMark ∧ c.store.low = false then
    (c.modStore (fun st => { st with low := true })).noteDev .storeLow (be2 c.store.free.length ++ be2 c.lowMark)
  else if c.lowMark ≤ c.store.free.length ∧ c.store.low = true then c.modStore (fun st => { st with low := false })
  else c

/-- Push a run of blocks in chain order: the last one ends on top (R3). -/
def Chip.pushBlocks (c : Chip) (bs : List Nat) : Chip :=
  if bs.isEmpty then c else (c.modStore (fun st => { st with free := bs.reverse ++ st.free })).relow

/-! ## Creation (R8, R10, R20) -/

/-- Place an object in slot `i`. -/
def Chip.placeObj (c : Chip) (i : SlotNo) (o : Obj) : Chip := c.modSlot i (fun x => { x with obj := some o })

/-- Create an empty object in the lowest-numbered FREE slot, if one is FREE. -/
def Chip.createObj (c : Chip) (owner : Owner) (attr : Attr) : Option (Chip × SlotNo) :=
  (c.store.freeSlotFrom 0).map (fun i => (c.placeObj i { owner := owner, created := c.clock, attr := attr }, i))

/-- One data ring over four blocks. -/
def ringObj (c : Chip) (l : LineNo) (e : EngineNo) (transmit : Bool) (blocks : List Nat) : Obj :=
  { owner := .line l, chain := blocks, length := 2048, created := c.clock, attr := .ring transmit e }

/-- A data-ring pair for line `l` and engine `e` (R20): the transmit ring in the lower of the two lowest FREE slots. -/
def Chip.ringPair (c : Chip) (l : LineNo) (e : EngineNo) : Except Reason (Chip × SlotNo × SlotNo) :=
  match c.store.freeSlotFrom 0 with
  | none => .error .noSlot
  | some i =>
    match c.store.freeSlotFrom (i.val + 1) with
    | none => .error .noSlot
    | some j =>
      if c.store.free.length < 8 then .error .noStore
      else
        let bs := c.store.free.take 8
        let c := c.modStore (fun st => { st with free := st.free.drop 8 })
        .ok ((((c.placeObj i (ringObj c l e true (bs.take 4))).placeObj j (ringObj c l e false (bs.drop 4))).relow), i, j)

/-! ## Writing and reading (R17, R18, R19) -/

/-- Write bytes at position `p` of slot `i`, within one block whose address is `a`. -/
def Chip.putBytes (c : Chip) (i : SlotNo) (p a : Nat) (bs : List Byte) : Chip :=
  (c.modStore (fun st => { st with dram := Mem.writeBytes st.dram a bs })).modObj i
    (fun o => { o with length := max o.length (p + bs.length) })

/-- A write transfer of `bs` at position `p`, within one block (R17). The answer says whether the store was exhausted
(R19); then nothing has been written. -/
def Chip.storeWrite (c : Chip) (i : SlotNo) (p : Nat) (bs : List Byte) : Chip × Bool :=
  match c.obj i with
  | none => (c, false)
  | some o =>
    if o.state ≠ .openWrite then (c, false)
    else
      match o.addr p with
      | some a => (c.putBytes i p a bs, false)
      | none =>
        let need := p / 512 + 1 - o.chain.length
        if c.store.free.length < need then (c, true)
        else
          let chain := o.chain ++ c.store.free.take need
          let c := (c.modStore (fun st => { st with free := st.free.drop need })).modObj i (fun o => { o with chain := chain })
          match ({ o with chain := chain } : Obj).addr p with
          | some a => ((c.putBytes i p a bs).relow, false)
          | none => (c, false)

/-- The byte a read finds at position `p` (R18): 00h at or above the length. -/
def Chip.readByte (c : Chip) (o : Obj) (p : Nat) : Byte :=
  if p < o.length then
    match o.addr p with
    | some a => Mem.read c.store.dram a
    | none => 0
  else 0

/-- A read transfer of `n` bytes from position `p` (R18). -/
def Chip.storeRead (c : Chip) (i : SlotNo) (p n : Nat) : List Byte :=
  match c.obj i with
  | none => List.replicate n 0
  | some o => (List.range n).map (fun k => c.readByte o (p + k))

/-! ## Closing and trimming (R21, R22) -/

/-- Close an OPEN_WRITE object. A FAX_PAGE created by the host, whose rate used is NONE, gets its strip count (R6). -/
def Obj.close (o : Obj) : Obj :=
  { o with
    state := .closed
    attr := match o.attr with
      | .page a => if a.rate.isNone then .page { a with strips := o.chain.length } else .page a
      | x => x }

/-- Close the object of slot `i` (R21). The answer says whether the closer is told DELETED. -/
def Chip.closeObj (c : Chip) (i : SlotNo) : Chip × Bool :=
  match c.obj i with
  | none => (c, true)
  | some o =>
    match o.state with
    | .openWrite => (c.modObj i Obj.close, false)
    | .closed => (c, false)
    | .doomed => (c, true)

/-- Trim an OPEN_WRITE object to a new length (R22). -/
def Chip.trimObj (c : Chip) (i : SlotNo) (n : Nat) : Chip :=
  match c.obj i with
  | none => c
  | some o =>
    if o.state = .openWrite then
      (c.modObj i (fun o => { o with chain := o.chain.take (blocksFor n), length := n })).pushBlocks
        (o.chain.drop (blocksFor n))
    else c

/-! ## Deletion (R11 to R14, R148, R149) -/

/-- Free slot `i`: its chain returns to the stack and the slot keeps its generation. -/
def Chip.freeObj (c : Chip) (i : SlotNo) : Chip :=
  match c.obj i with
  | none => c
  | some o => (c.modSlot i (fun x => { x with obj := none })).pushBlocks o.chain

/-- The entry that follows `h` in a list, as a cursor (R165). -/
def cursorAfter (h : Nat) : List Nat → Cursor
  | x :: rest => if x = h then (match rest with | y :: _ => .at y | [] => .end_) else cursorAfter h rest
  | [] => .end_

/-- A cursor on `h` moves to the entry that followed it (R165). -/
def PlanSeq.moveCursor (q : PlanSeq) (h : Nat) (list : List Nat) : PlanSeq :=
  if q.cursor = .at h then { q with cursor := cursorAfter h list } else q

/-- A recording of object `h` is marked deleted (R157). -/
def Recording.mark (r : Recording) (h : Nat) : Recording := if r.handle = h then { r with deleted := true } else r

/-- Voice mail takes the notice of a deleted VOICE_MESSAGE (R148). -/
def Chip.messageDeleted (c : Chip) (h : Nat) (m : MailboxNo) (blocks : Nat) (status : MsgStatus) : Chip :=
  let list := (c.mailboxes[m]).list
  let c := { c with seqs := c.seqs.map (fun q => { q with recording := q.recording.map (·.mark h) }) }
  if list.contains h then
    ({ c with seqs := c.seqs.map (fun q : PlanSeq => q.moveCursor h list) }).modMailbox m (fun b =>
      { b with
        list := b.list.erase h
        used := b.used - blocks
        newCount := if status = MsgStatus.new then b.newCount - 1 else b.newCount })
  else c

/-- Voice mail takes the notice of a deleted VOICE_CLIP (R149). -/
def Chip.clipDeleted (c : Chip) (h : Nat) : Chip :=
  { c with
    mailboxes := c.mailboxes.map (fun b => if b.greeting = some h then { b with greeting := none } else b)
    calls := c.calls.map (fun k => { k with record := k.record.map (·.mark h) }) }

/-- The deletion notice (R12): it names the handle as it stood before the deletion. -/
def Chip.deletionNotice (c : Chip) (h : Nat) (o : Obj) : Chip :=
  match o.attr, o.owner with
  | .message _ _ status, .mailbox m => c.messageDeleted h m o.chain.length status
  | .clip, _ => c.clipDeleted h
  | _, _ => c

/-- A deletion of the object of slot `i` (R11, R13): FREE at once with users 0, else DOOMED. The answer says whether
it was FREED. -/
def Chip.deleteObj (c : Chip) (i : SlotNo) (o : Obj) : Chip × Bool :=
  let h := c.handle i
  let c := c.modSlot i (fun x => { x with gen := x.gen + 1 })
  if o.users = 0 then ((c.freeObj i).deletionNotice h o, true)
  else ((c.modObj i (fun o => { o with state := .doomed })).deletionNotice h o, false)

/-- An internal deletion (R13): a stale handle changes nothing. -/
def Chip.deleteHandle (c : Chip) (h : Nat) : Chip :=
  match c.store.lookup h with
  | none => c
  | some (i, o) => (c.deleteObj i o).1

/-- A channel is bound to the object (R27). -/
def Chip.addUser (c : Chip) (i : SlotNo) : Chip := c.modObj i (fun o => { o with users := o.users + 1 })

/-- A channel unbinds (R14): a DOOMED object is freed at its last unbind. -/
def Chip.dropUser (c : Chip) (i : SlotNo) : Chip :=
  let c := c.modObj i (fun o => { o with users := o.users - 1 })
  match c.obj i with
  | some o => if o.state = .doomed ∧ o.users = 0 then c.freeObj i else c
  | none => c

/-! ## Records that travel (11.5) -/

/-- The object record of Get Object Info (11.5). A FAX_PAGE's record ends with its identifier: offsets 28 to 48 are not filled where that is
shorter than 20 characters, which is the model's choice (log 39). -/
def Obj.record (o : Obj) (h : Nat) : List Byte :=
  be2 h ++ [o.attr.kindCode, o.state.code, o.owner.code, b1 o.users] ++ optHandle o.chain.head? ++ optHandle o.chain.getLast?
    ++ be2 o.chain.length ++ be4 o.length ++ be4 o.created.toNat
    ++ match o.attr with
      | .clip => []
      | .message caller l st => Caller.code caller ++ [b1 l.val, st.code]
      | .page a =>
        [b1 a.page, Resolution.code a.res, rateCode a.rate, b1 (a.sectioned.toNat + 2 * a.partialFlag.toNat + 4 * a.unread.toNat)]
          ++ be2 a.strips ++ be2 a.badStrips ++ optStr a.ident
      | .ring transmit e => [if transmit then 0 else 1, b1 e.val]

/-- An entry of List Objects (11.5), 15 bytes. -/
def Obj.entry (o : Obj) (h : Nat) : List Byte :=
  be2 h ++ [o.attr.kindCode, o.state.code, o.owner.code] ++ be4 o.length ++ be2 o.chain.length ++ be4 o.created.toNat

end Sys2Proof.Machine
end

