-- ==== Sys2Proof/Machine/Channels.lean ====
section
/-!
DEFINITION. Transfer channels, path buffers, the arbiter, and the port work of the ring ports and the link port
(02_transfer_channels_and_the_store_port.md, R104, R115).
-/
namespace Sys2Proof.Machine

/-! ## Path buffers (R35) -/

/-- The buffers of a path; the link path has none of its own. -/
def Chip.buf (c : Chip) : Path → PathBuf
  | .codec l => (c.codecs[l]).buf
  | .engine l => c.epaths[l]
  | .link => {}

/-- Change the buffers of a path. -/
def Chip.modBuf (c : Chip) (p : Path) (f : PathBuf → PathBuf) : Chip :=
  match p with
  | .codec l => c.modCodec l (fun k => { k with buf := f k.buf })
  | .engine l => c.modEpath l f
  | .link => c

/-- Empty one direction of a path's buffers. -/
def PathBuf.clear (b : PathBuf) : ChanDir → PathBuf
  | .toPath => { b with toBuf := [], under := false }
  | .fromPath => { b with frm := [], overNow := false }

/-- A codec path without its playing channel: the decoder's half byte is gone and the output is silence (R35). -/
def Codec.quiet (k : Codec) : Codec := { k with half := none, output := none }

/-- Empty a path's buffer in a direction; a playing codec path falls silent. -/
def Chip.clearPath (c : Chip) (p : Path) (d : ChanDir) : Chip :=
  match p, d with
  | .codec l, .toPath => (c.modBuf p (·.clear d)).modCodec l Codec.quiet
  | _, _ => c.modBuf p (·.clear d)

/-- The code-1 frames of the running Write Object: the first with untaken bytes. -/
def Chip.writeFrame (c : Chip) : Option DataIn :=
  c.writeReq.bind (fun w => c.link.data.find? (fun d => d.code == 1 && d.tag == w.tag && !d.bytes.isEmpty))

/-- An engine that serves the line is RUNNING. -/
def Chip.engineRuns (c : Chip) (l : LineNo) : Bool :=
  c.engines.toList.any (fun g => decide (g.state = .running) && decide (g.line = l))

/-- The path moves bytes: an engine path only while its engine is RUNNING, else it is held still (R94, R97). -/
def Chip.moves (c : Chip) : Path → Bool
  | .engine l => c.engineRuns l
  | _ => true

/-- A path demands service from its channel (R35, R36, R97). -/
def Chip.demands (c : Chip) (ch : Chan) : Bool :=
  match ch.path, ch.dir with
  | .link, .toPath => c.link.dataSlot
  | .link, .fromPath => c.writeFrame.isSome
  | p, .toPath => c.moves p && decide ((c.buf p).toBuf.length ≤ 512)
  | p, .fromPath =>
    c.moves p && (decide (512 ≤ (c.buf p).frm.length) || (ch.draining && !(c.buf p).frm.isEmpty))

/-! ## Lifecycle (R27 to R34) -/

/-- The line for which a channel is owned. -/
def ChanOwner.line : ChanOwner → Option LineNo
  | .callControl l => some l
  | .fax l => some l
  | .voiceMail l => some l
  | .link => none

/-- Some channel holds the path in the direction (R27). -/
def Chip.pathHeld (c : Chip) (p : Path) (d : ChanDir) : Bool :=
  c.chans.toList.any (fun ch => decide (ch.state ≠ .free) && decide (ch.path = p) && decide (ch.dir = d))

/-- The lowest-numbered FREE channel. -/
def Chip.freeChan (c : Chip) : Option ChanNo :=
  (List.finRange 8).find? (fun i => decide ((c.chans[i]).state = .free))

/-- What a bind names (R27). -/
structure BindReq where
  owner : ChanOwner
  slot : SlotNo
  dir : ChanDir
  path : Path
  base : Nat
  count : Nat
  mode : Mode
  repeats : Nat
  deriving DecidableEq, Repr

/-- The limits of a FROM_PATH bind (R27). -/
def BindReq.bad (q : BindReq) : Bool :=
  decide (q.dir = .fromPath) && (decide (q.repeats ≠ 0) || decide (q.count = 0) || decide (4194304 < q.base + q.count))

/-- The record of a channel just bound. -/
def BindReq.chan (q : BindReq) : Chan :=
  { state := .bound, owner := q.owner, slot := q.slot, dir := q.dir, path := q.path, basePos := q.base, cur := q.base,
    baseCount := q.count, remaining := q.count, mode := q.mode, repeats := q.repeats }

/-- Bind a channel (R27): the path's buffer is emptied, and a codec path that will play begins afresh (R166), its
decoder in state 0: the model's choice (log 11). A channel is bound to
an object: a FREE slot has no handle that passes the check of R9. -/
def Chip.bind (c : Chip) (q : BindReq) : Except Reason (Chip × ChanNo) :=
  if c.pathHeld q.path q.dir then .error .busy
  else if q.bad then .error .badParam
  else
    match c.freeChan, c.obj q.slot with
    | none, _ => .error .noChannel
    | some _, none => .error .stale
    | some i, some _ =>
      let c := (((c.modChan i (fun _ => q.chan)).addUser q.slot).clearPath q.path q.dir)
      match q.path, q.dir with
      | .codec l, .toPath => .ok (c.modCodec l (fun k => { k with phase := 0, speed := 16, decoder := 0, played := 0 }), i)
      | _, _ => .ok (c, i)

/-- The port is given up by a requester that holds it. -/
def Chip.giveUp (c : Chip) (r : Requester) : Chip :=
  if c.port.holder = some r then { c with port := { c.port with holder := none } } else c

/-- Start a BOUND channel (R28). -/
def Chip.startChan (c : Chip) (i : ChanNo) : Chip :=
  c.modChan i (fun ch => if ch.state = .bound then { ch with state := .running } else ch)

/-- Hold a RUNNING channel (R31). -/
def Chip.holdChan (c : Chip) (i : ChanNo) : Chip :=
  if (c.chans[i]).state = .running then (c.modChan i (fun ch => { ch with state := .held })).giveUp (.chan i) else c

/-- Release a HELD channel (R31). -/
def Chip.releaseChan (c : Chip) (i : ChanNo) : Chip :=
  c.modChan i (fun ch => if ch.state = .held then { ch with state := .running } else ch)

/-- Reposition a BOUND or HELD channel (R32); outside its limits nothing changes. -/
def Chip.reposition (c : Chip) (i : ChanNo) (base count : Nat) : Chip :=
  let ch := c.chans[i]
  if (ch.state = .bound ∨ ch.state = .held) ∧ 0 < count ∧ base + count ≤ 4194304 then
    (c.modChan i (fun ch =>
      { ch with basePos := base, cur := base, baseCount := count, remaining := count, repeatsDone := 0 })).modBuf ch.path
        (·.clear ch.dir)
  else c

/-- A channel that is bound becomes ENDED with a cause. -/
def Chan.end_ (ch : Chan) (cause : EndCause) : Chan :=
  if ch.state = .free then ch else { ch with state := .ended, endCause := cause, draining := false }

/-- A channel becomes ENDED with a cause and gives up the port. -/
def Chip.endChan (c : Chip) (i : ChanNo) (cause : EndCause) : Chip := (c.modChan i (·.end_ cause)).giveUp (.chan i)

/-- Stop a channel (R33). A RUNNING FROM_PATH channel whose buffer holds bytes drains, if the owner asks a drain. -/
def Chip.stopChan (c : Chip) (i : ChanNo) (drain : Bool) : Chip :=
  let ch := c.chans[i]
  match ch.state with
  | .free => c
  | .ended => c
  | .bound => c.endChan i .stopped
  | .held => (c.clearPath ch.path ch.dir).endChan i .stopped
  | .running =>
    if drain = true ∧ ch.dir = .fromPath ∧ (c.buf ch.path).frm ≠ [] then c.modChan i (fun ch => { ch with draining := true })
    else (c.clearPath ch.path ch.dir).endChan i .stopped

/-- Unbind a channel (R34). -/
def Chip.unbindChan (c : Chip) (i : ChanNo) : Chip :=
  let ch := c.chans[i]
  if ch.state = .free then c
  else
    (((c.giveUp (.chan i)).clearPath ch.path ch.dir).modChan i (fun ch =>
      { ch with
        state := .free, draining := false, endCause := if ch.state = .ended then ch.endCause else .unbound })).dropUser ch.slot

/-! ## Transfers (R29, R30) -/

/-- What a channel's owner is told after a transfer. -/
inductive XferEnd where
  | moved | terminal | stopped | storeFull
  deriving DecidableEq, Repr

/-- How many bytes the next transfer covers (R29). -/
def Chip.span (c : Chip) (ch : Chan) : Nat :=
  min (min (512 - ch.cur % 512) ch.remaining)
    (match ch.path, ch.dir with
      | .link, .toPath => 256
      | .link, .fromPath => (c.writeFrame.map (fun d => d.bytes.length)).getD 0
      | p, .toPath => 1024 - (c.buf p).toBuf.length
      | p, .fromPath => (c.buf p).frm.length)

/-- The first matching frame loses its first `n` untaken bytes; a frame with none left leaves (R36). -/
def takeData (p : DataIn → Bool) (n : Nat) : List DataIn → List DataIn
  | [] => []
  | d :: rest =>
    if p d then
      (if d.bytes.length ≤ n then rest else { d with bytes := d.bytes.drop n } :: rest)
    else d :: takeData p n rest

/-- Zero-length frames at the head of those that `p` names are taken and leave (R36). -/
def dropEmpties (p : DataIn → Bool) : List DataIn → List DataIn
  | [] => []
  | d :: rest =>
    if p d then (if d.bytes.isEmpty then dropEmpties p rest else d :: rest) else d :: dropEmpties p rest

/-- The running Write Object takes the zero-length frames at the head of its frames (R36). -/
def Chip.takeEmpties (c : Chip) : Chip :=
  match c.writeReq with
  | none => c
  | some w => c.modLink (fun k => { k with data := dropEmpties (fun d => d.code == 1 && d.tag == w.tag) k.data })

/-- An outbound DATA frame (R175). -/
def dataFrameOut (line tag code : Byte) (bs : List Byte) : Frame :=
  { kind := 4, line := line, tag := tag, code := code, body := bs }

/-- A TO_PATH path receives bytes: into its buffer, which ends an underrun, or as one code-1 Data frame (R36, R39). -/
def Chip.deliver (c : Chip) (p : Path) (bs : List Byte) : Chip :=
  match p with
  | .link =>
    match c.readReq with
    | none => c
    | some r =>
      { (c.modLink (fun k => { k with out := k.out ++ [dataFrameOut 0x0F r.tag 1 bs] })) with
        readReq := some { r with sent := r.sent + bs.length } }
  | p => c.modBuf p (fun b => { b with toBuf := b.toBuf ++ bs, under := false })

/-- The bytes a FROM_PATH transfer of `n` bytes takes from its path. -/
def Chip.offered (c : Chip) (p : Path) (n : Nat) : List Byte :=
  match p with
  | .link => ((c.writeFrame.map (fun d => d.bytes)).getD []).take n
  | p => (c.buf p).frm.take n

/-- The path gives up `n` bytes, which ends an overrun. -/
def Chip.consumed (c : Chip) (p : Path) (n : Nat) : Chip :=
  match p with
  | .link =>
    match c.writeReq with
    | none => c
    | some w =>
      { (c.modLink (fun k => { k with
          data := takeData (fun d => d.code == 1 && d.tag == w.tag && !d.bytes.isEmpty) n k.data })) with
        writeReq := some { w with written := w.written + n } }.takeEmpties
  | p => c.modBuf p (fun b => { b with frm := b.frm.drop n, overNow := false })

/-- The record moves on by `n` bytes. -/
def Chan.advance (ch : Chan) (n : Nat) : Chan := { ch with cur := ch.cur + n, remaining := ch.remaining - n }

/-- Reload for a repeat (R30). -/
def Chan.reload (ch : Chan) : Chan :=
  { ch with cur := ch.basePos, remaining := ch.baseCount, repeatsDone := min 254 (ch.repeatsDone + 1) }

/-- Repeats are left (R30). -/
def Chan.repeatsLeft (ch : Chan) : Bool := decide (ch.repeats = 255) || decide (ch.repeatsDone < ch.repeats)

/-- After a transfer: terminal count (R30), or the end of a drain (R33). -/
def Chip.afterXfer (c : Chip) (i : ChanNo) : Chip × XferEnd :=
  let ch := c.chans[i]
  if ch.draining then
    if (c.buf ch.path).frm = [] ∨ ch.remaining = 0 then ((c.clearPath ch.path ch.dir).endChan i .stopped, .stopped)
    else (c, .moved)
  else if ch.remaining ≠ 0 then (c, .moved)
  else if ch.repeatsLeft then (c.modChan i Chan.reload, .moved)
  else
    match ch.dir, ch.path with
    | .fromPath, _ => (c.endChan i .terminal, .terminal)
    | .toPath, .link => (c.endChan i .terminal, .terminal)
    | .toPath, _ => (c, .moved)

/-- One transfer of channel `i`, taken whole (R29). -/
def Chip.transfer (c : Chip) (i : ChanNo) : Chip × XferEnd :=
  let ch := c.chans[i]
  let n := c.span ch
  match ch.dir with
  | .toPath =>
    (((c.deliver ch.path (c.storeRead ch.slot ch.cur n)).modChan i (·.advance n))).afterXfer i
  | .fromPath =>
    match c.storeWrite ch.slot ch.cur (c.offered ch.path n) with
    | (c, true) => ((c.clearPath ch.path ch.dir).endChan i .storeFull, .storeFull)
    | (c, false) => ((c.consumed ch.path n).modChan i (·.advance n)).afterXfer i

/-- The channel can make a transfer now. -/
def Chip.canXfer (c : Chip) (i : ChanNo) : Bool :=
  let ch := c.chans[i]
  decide (ch.state = .running) && decide (0 < ch.remaining) && c.demands ch

/-- The drain of a stopped FROM_PATH channel, made within the step that needs its end (log 9): 1024 buffered bytes need
at most four transfers. -/
def Chip.drainNow : Nat → Chip → ChanNo → Chip
  | 0, c, _ => c
  | n + 1, c, i =>
    if (c.chans[i]).draining ∧ (c.chans[i]).state = .running then Chip.drainNow n (c.transfer i).1 i else c

/-- Stop with drain, and drain at once. -/
def Chip.stopDrained (c : Chip) (i : ChanNo) : Chip := Chip.drainNow 8 (c.stopChan i true) i

/-! ## Slips (R35) -/

/-- The channel's FROM_PATH path discards what it produces, and counts no slip: ENDED, HELD, or draining after a stop (R35). -/
def Chan.discards (ch : Chan) : Bool := decide (ch.state = .ended) || decide (ch.state = .held) || ch.draining

/-- An underrun or overrun of channel `i`: its slip count rises, and CHANNEL_SLIP is posted for its line. -/
def Chip.slip (c : Chip) (i : ChanNo) : Chip :=
  let c := c.modChan i (fun ch => { ch with slips := min 65535 (ch.slips + 1) })
  let ch := c.chans[i]
  match ch.owner.line with
  | none => c
  | some l => c.note l .channelSlip ([b1 i.val, ch.dir.code] ++ ch.path.code ++ be2 ch.slips)

/-- The channel bound to a path in a direction. -/
def Chip.chanOn (c : Chip) (p : Path) (d : ChanDir) : Option ChanNo :=
  (List.finRange 8).find? (fun i =>
    decide ((c.chans[i]).state ≠ .free) && decide ((c.chans[i]).path = p) && decide ((c.chans[i]).dir = d))

/-! ## Ring ports and the link port (R104, R115, R117) -/

/-- Positions of a ring are taken modulo its 2048 bytes (R104). -/
def ringAt (p : Nat) : Nat := p % 2048

/-- A transfer of at most `n` bytes at ring position `p` lies within one block (R104). -/
def ringSpan (p n : Nat) : Nat := min n (512 - ringAt p % 512)

/-- Free space of a ring (R104). -/
def Ring.free (r : Ring) : Nat := 2048 - (r.held + r.reserved)

/-- The bytes of the unacknowledged frames. -/
def DataLink.unackedBytes (u : DataLink) : Nat := (u.unacked.map (fun f => f.payload.length)).sum

/-- The unsent bytes of the transmit ring. -/
def DataLink.unsent (u : DataLink) : Nat := u.tx.held - u.unackedBytes

/-- A payload of the receive hold waits to be written. -/
def DataLink.holdWaits (u : DataLink) : Bool := !u.hold.isEmpty

/-- A read from the transmit ring waits. -/
def DataLink.cutWaits (u : DataLink) : Bool :=
  match u.cut with
  | some k => decide (k.got.length < k.total)
  | none => false

/-- Ring port `e` asks for the store port. -/
def DataLink.asks (u : DataLink) : Bool := u.portBound && (u.holdWaits || u.cutWaits)

/-- A ring port's transfer of the receive hold's oldest payload (R111). -/
def Chip.ringWrite (c : Chip) (e : EngineNo) : Chip :=
  let u := c.units[e]
  match u.hold with
  | [] => c
  | h :: rest =>
    let p := u.rx.start + u.rx.held + h.written
    let n := ringSpan p (h.bytes.length - h.written)
    let c := (c.storeWrite u.rx.slot (ringAt p) ((h.bytes.drop h.written).take n)).1
    if h.written + n < h.bytes.length then
      c.modUnit e (fun u => { u with hold := { h with written := h.written + n } :: rest, servedHold := true })
    else
      c.modUnit e (fun u => { u with
        hold := rest
        servedHold := true
        rx := { u.rx with held := u.rx.held + h.bytes.length, reserved := u.rx.reserved - h.bytes.length } })

/-- A ring port's transfer from the transmit ring (R108, R114). -/
def Chip.ringRead (c : Chip) (e : EngineNo) : Chip :=
  let u := c.units[e]
  match u.cut with
  | none => c
  | some k =>
    let p := u.tx.start + u.unackedBytes + k.got.length
    let n := ringSpan p (k.total - k.got.length)
    let bs := c.storeRead u.tx.slot (ringAt p) n
    c.modUnit e (fun u => { u with cut := some { k with got := k.got ++ bs }, servedHold := false })

/-- One transfer of ring port `e`: the two kinds are served in turn (R104). -/
def Chip.ringXfer (c : Chip) (e : EngineNo) : Chip :=
  let u := c.units[e]
  if u.holdWaits && (!u.cutWaits || !u.servedHold) then c.ringWrite e else c.ringRead e

/-- The oldest code-0 frame of the inbound data buffer. -/
def Chip.dataHead (c : Chip) : Option DataIn := c.link.data.find? (fun d => d.code == 0)

/-- The link port asks for the store port while its work has transfers to make. -/
def Chip.linkAsks (c : Chip) : Bool :=
  match c.linkPort.work with
  | some (.take _ written) => decide (written < (c.dataHead.map (fun d => d.bytes.length)).getD 0)
  | some (.drain _ total got) => decide (got.length < total)
  | none => false

/-! ## The arbiter (R37, R38) -/

/-- The order of preference under FIXED. -/
def requesters : List Requester :=
  [.ring 0, .ring 1, .chan 0, .chan 1, .chan 2, .chan 3, .chan 4, .chan 5, .chan 6, .chan 7, .linkPort]

/-- A requester is asking for the port (R28, R104, R115). -/
def Chip.asks (c : Chip) : Requester → Bool
  | .ring e => (c.units[e]).asks
  | .chan i => c.canXfer i
  | .linkPort => c.linkAsks

/-- The circular order that begins after `r`. -/
def orderAfter (r : Requester) : List Requester :=
  (requesters.drop (requesters.idxOf r + 1)) ++ requesters.take (requesters.idxOf r + 1)

/-- The order of preference now (R37). -/
def Chip.preference (c : Chip) : List Requester :=
  match c.priority, c.port.lastGranted with
  | .rotating, some r => orderAfter r
  | _, _ => requesters

/-- The arbiter's decision while the port is free. -/
def Chip.grant (c : Chip) : Chip :=
  match c.port.holder with
  | some _ => c
  | none =>
    match c.preference.find? c.asks with
    | some r => { c with port := { holder := some r, lastGranted := some r } }
    | none => c

/-- After its transfer a channel keeps the port or gives it up (R38). `before` is the record before the transfer: a
reload, after which the remaining count has not fallen, gives up the port of a BLOCK channel (R30). That a DEMAND channel whose
path still demands keeps the port over a reload is the model's choice between R38 and R30 (log 30). -/
def Chip.keepPort (c : Chip) (i : ChanNo) (before : Chan) : Chip :=
  let ch := c.chans[i]
  match ch.mode with
  | .single => c.giveUp (.chan i)
  | .demand => if c.canXfer i then c else c.giveUp (.chan i)
  | .block => if ch.state = .running ∧ ch.remaining < before.remaining then c else c.giveUp (.chan i)

end Sys2Proof.Machine
end

