-- ==== Sys2Proof/Machine/LineUnit.lean ====
section
/-!
DEFINITION. The line unit's own operations (03_line_supervision_and_faults.md): hook, fault conditions and latches,
usability, the cool-off timer, the Last Fault record, the line status record; and the record entering IDLE (R61, R64).
-/
namespace Sys2Proof.Machine

/-! ## Fault conditions and latches (R53) -/

/-- Membership of a fault set. -/
def FaultSet.has (f : FaultSet) : FaultKind → Bool
  | .overcurrent => f.overcurrent
  | .hot => f.hot
  | .critical => f.critical
  | .lineLost => f.lineLost

/-- Put a kind into a fault set or take it out. -/
def FaultSet.put (f : FaultSet) (k : FaultKind) (b : Bool) : FaultSet :=
  match k with
  | .overcurrent => { f with overcurrent := b }
  | .hot => { f with hot := b }
  | .critical => { f with critical := b }
  | .lineLost => { f with lineLost := b }

/-- A condition arises (R53): marked present, latched, and notified with the action taken and, for a forced release, its
cool-off time. The caller has seen that it was absent. -/
def Chip.arise (c : Chip) (l : LineNo) (k : FaultKind) (coolOff : Option Nat) : Chip :=
  (c.modLine l (fun n => { n with cond := n.cond.put k true, latch := n.latch.put k true })).note l .fault
    [k.code, (if coolOff.isSome then 0 else 1), opt1 coolOff]

/-- A condition goes (R53), if it was present: FAULT_GONE carries the state of its latch. -/
def Chip.goes (c : Chip) (l : LineNo) (k : FaultKind) : Chip :=
  if (c.lines[l]).cond.has k then
    (c.modLine l (fun n => { n with cond := n.cond.put k false })).note l .faultGone
      [k.code, flag ((c.lines[l]).latch.has k)]
  else c

/-- Clear each named latch whose condition is absent (R58, R61). -/
def Line.clearLatches (n : Line) (f : FaultSet) : Line :=
  { n with latch :=
    { overcurrent := n.latch.overcurrent && !(f.overcurrent && !n.cond.overcurrent)
      hot := n.latch.hot && !(f.hot && !n.cond.hot)
      critical := n.latch.critical && !(f.critical && !n.cond.critical)
      lineLost := n.latch.lineLost && !(f.lineLost && !n.cond.lineLost) } }

/-- All four kinds. -/
def FaultSet.all : FaultSet := { overcurrent := true, hot := true, critical := true, lineLost := true }

/-- The line is usable (R57). -/
def Line.usable (n : Line) : Bool :=
  !n.cond.lineLost && !(n.cond.critical && decide (n.settings.action = .forceRelease))

/-! ## Hook (R45, R46, R51) -/

/-- The seize: OFF_HOOK; ring detection, caller-number reception and line-voltage sensing stop (R45, R51). -/
def Line.seize (n : Line) : Line :=
  { n with
    hook := .offHook, burst := .quiet, abandon := .off, window := false, lostTimer := .off
    ringTaken := false, loopSeen := false, absentTold := false, pulse := none }

/-- A break of a pulse digit opens the loop: no current flows (R46, R47). -/
def Line.breakLoop (n : Line) (left : Nat) : Line := { n with pulse := some { part := .brk, left := left }, loopCurrent := false }

/-- A make closes the loop: current flows again, unless the line had lost it before (R46, R47). -/
def Line.makeLoop (n : Line) (p : Pulse) : Line :=
  { n with pulse := some { p with part := .make }, loopCurrent := !n.absentTold }

/-- The release: ON_HOOK; the ring count and the caller number are cleared, loop current is absent, a pulse digit ends,
and line-voltage sensing starts afresh (R45 to R48). -/
def Line.onHook (n : Line) : Line :=
  { n with
    hook := .onHook, ringCount := 0, caller := .absent, loopCurrent := false, pulse := none
    lostTimer := if n.voltage then .off else .start 2000 }

/-- Drive the hook ON_HOOK; OVERCURRENT goes with it (R45, R55). A line already ON_HOOK keeps as it is. -/
def Chip.hangUp (c : Chip) (l : LineNo) : Chip :=
  if (c.lines[l]).hook = .offHook then (c.modLine l Line.onHook).goes l .overcurrent else c

/-! ## Replies for a line, and the Last Fault record (R62) -/

/-- Reply to a long request held by a line's owner. -/
def Chip.replyLine (c : Chip) (l : LineNo) (tag code : Byte) (cls : Cls) (reason : Reason) (result : List Byte) : Chip :=
  c.modLink (·.reply (b1 l.val) tag code cls reason result)

/-- The Last Fault record is written (R62). The condition is kept for LINE_FAULT only. -/
def Chip.writeFault (c : Chip) (l : LineNo) (reason : Reason) (cond : FaultSet) (phase : Phase) (at_ : Option (Nat × Nat)) :
    Chip :=
  c.modLine l (fun n => { n with lastFault :=
    { valid := true, reason := reason, condition := if reason = .lineFault then cond else {}, phase := phase
      handle := at_.map Prod.fst, position := at_.map Prod.snd } })

/-- The valid flag is cleared when a long request of the line ends NORMAL (R62). -/
def Chip.clearFault (c : Chip) (l : LineNo) : Chip :=
  c.modLine l (fun n => { n with lastFault := { n.lastFault with valid := false } })

/-! ## The record enters IDLE or COOLING (R57, R61, R64) -/

/-- The call record enters IDLE with its fields cleared; a Line Reset in execution replies NORMAL with the latches
still set (R61). -/
def Chip.enterIdle (c : Chip) (l : LineNo) : Chip :=
  let c := c.modCall l (fun _ => {})
  match (c.lines[l]).resetTag with
  | none => c
  | some tag =>
    ((c.modLine l (fun n => { n with resetTag := none })).clearFault l).replyLine l tag 0x23 .normal .none
      [(c.lines[l]).latch.code]

/-- The call record enters COOLING and the cool-off timer starts with the pending time (R56). Its phase becomes NONE: the model's choice,
for R85 sets RELEASING and no rule names the phase in COOLING (log 38). -/
def Chip.enterCooling (c : Chip) (l : LineNo) : Chip :=
  (c.modCall l (fun k => { k with state := .cooling, phase := .none })).modLine l
    (fun n => { n with coolOff := n.coolPending })

/-! ## The line status record (11.5) -/

/-- The engine that serves a line. -/
def Chip.engineFor (c : Chip) (l : LineNo) : Option EngineNo :=
  ([0, 1] : List EngineNo).find? (fun e => decide ((c.engines[e]).state ≠ .free) && decide ((c.engines[e]).line = l))

/-- An enumeration whose first value is "present" (11.2). -/
def presence (b : Bool) : Byte := if b then 0 else 1

/-- The line status record, 56 bytes (R60, 11.5). R64 says that the call phase appears in it as well; R60's list and the 56
bytes of 11.5 give a phase one place alone, Last Fault's, to which R64's table has it copied (R62), and the model follows these (log 33). -/
def Chip.lineRecord (c : Chip) (l : LineNo) : List Byte :=
  let n := c.lines[l]
  let k := c.calls[l]
  [n.hook.code, presence n.loopCurrent, (match n.polarity with | .normal => 0 | .reversed => 1), presence n.voltage,
      n.burst.code, b1 n.ringCount]
    ++ Caller.code n.caller ++ [level n.noise, n.cond.code, n.latch.code] ++ n.settings.code
    ++ [b1 n.coolOff, b1 n.coolPending]
    ++ [flag n.lastFault.valid, n.lastFault.reason.code, n.lastFault.condition.code, n.lastFault.phase.code]
    ++ optHandle n.lastFault.handle ++ optPos n.lastFault.position
    ++ [k.state.code,
        (if k.state = .idle then 0xFF else opt1 (k.direction.map (·.num))),
        (if k.state = .idle ∨ k.state = .alerting then 0xFF else opt1 (k.purpose.map (·.num))),
        opt1 ((c.engineFor l).map (·.val))]
    ++ match c.engineFor l with
      | some e => (c.engines[e]).quality.code (c.engines[e]).rate
      | none => n.kept.code n.keptRate

end Sys2Proof.Machine
end

