-- ==== Sys2Proof/Machine/Engines.lean ====
section
/-!
DEFINITION. The signal engines (05_signal_engines_and_line_quality.md): claim and release, measurement, the choice of test
rates, the outcome of tests and retrains, the line-quality record.
-/
namespace Sys2Proof.Machine

/-- What an engine tells its job (R93, R95). `failed` carries the last rate tested, if a test was made. -/
inductive Told where
  | nothing | trained | retrained | failed (last : Option Rate)
  deriving DecidableEq, Repr

/-- What an engine answers to a retrain request (R94). -/
inductive RetrainAnswer where
  | taken | lowestRate | highestRate | badParam | busy
  deriving DecidableEq, Repr

/-! ## Classes and rates (R92, R93) -/

/-- The SNR class of a measured ratio, in tenths of a dB (R92). -/
def classOf (tenths : Int) : Nat :=
  if tenths < 120 then 0 else if tenths < 150 then 1 else if tenths < 180 then 2 else if tenths < 210 then 3
  else if tenths < 240 then 4 else if tenths < 270 then 5 else 6

/-- The maximum rate of a class; class 0 has none. -/
def classMax (n : Nat) : Option Rate :=
  if h : 1 ≤ n ∧ n ≤ 6 then some ⟨n - 1, by omega⟩ else none

/-- The next rate down; 2400 stays. -/
def stepDown (r : Rate) : Rate := ⟨r.val - 1, by omega⟩

/-- The next rate up; 14400 stays. -/
def stepUp (r : Rate) : Rate := ⟨min 5 (r.val + 1), by omega⟩

/-- The lower of two rates. -/
def rateMin (a b : Rate) : Rate := if a ≤ b then a else b

/-- A rate in bit/s that is not one of the six is taken at the next one below, and at 2400 below that (R127). -/
def rateBelow (bps : Nat) : Rate := ⟨min 5 (bps / 2400 - 1), by omega⟩

/-! ## Claim and release (R90, R91, R98) -/

/-- Claim an engine for a line (R90): E0 if FREE, else E1; none if one already serves the line. -/
def Chip.claim (c : Chip) (l : LineNo) (p : Purpose) : Option (Chip × EngineNo) :=
  if (c.engineFor l).isSome then none
  else
    (([0, 1] : List EngineNo).find? (fun e => decide ((c.engines[e]).state = .free))).map (fun e =>
      (c.modEngine e (fun _ => { state := .claimed, line := l, purpose := p, quality := { noise := (c.lines[l]).noise } }), e))

/-- Release an engine (R91). `keep` copies its line-quality record and rate into the kept values of its line (R98). -/
def Chip.releaseEngine (c : Chip) (e : EngineNo) (keep : Bool) : Chip :=
  let g := c.engines[e]
  if g.state = .free then c
  else
    let c := if keep then c.modLine g.line (fun n => { n with keptRate := g.rate, kept := g.quality }) else c
    ((c.giveUp (.ring e)).modUnit e (fun u => { u with portBound := false })).modEngine e (fun g =>
      { g with
        state := .free, rate := none, attempts := 0, dir := none, carrier := false, measuring := false
        testRate := none, await := none, farLed := false, loss := .off, quality := {} })

/-! ## Measurement and tests (R92 to R95) -/

/-- The measurement begins: the line's noise floor is copied (R92, R94), and the local maximum that it will apply is taken (R99). -/
def Engine.measure (g : Engine) (noise : Int) (localMax : Rate) : Engine :=
  { g with
    attempts := 0, measuring := true, localMax := localMax, testRate := none, await := none
    quality := { g.quality with noise := noise } }

/-- The highest rate that a DATA engine announces to the far end within its training signal (R92, R99). -/
def Engine.announces (g : Engine) : Option Rate := if g.measuring && decide (g.purpose = .data) then some g.localMax else none

/-- Start training (R92); refused unless CLAIMED. For FAX the job supplies the remote ceiling. The rate is NONE until the training
succeeds (R89), also on an engine whose rate a failed retrain had kept (R95): the model's choice (log 33). -/
def Chip.startTraining (c : Chip) (e : EngineNo) (ceiling : Option Rate) : Chip :=
  c.modEngine e (fun g =>
    if g.state = .claimed then
      { (g.measure (c.lines[g.line]).noise c.localMax) with
        state := .training, rate := none, dir := none, farLed := false, loss := .off, ceiling := ceiling.getD g.ceiling }
    else g)

/-- An engine that becomes RUNNING or RETRAINING without a carrier begins to time its absence (R96). -/
def Engine.timeLoss (g : Engine) : Engine :=
  if g.carrier || g.loss.run then g else { g with loss := .start 3000 }

/-- Training or a retrain fails (R93, R95): CLAIMED, the rate NONE after a training and kept after a retrain. -/
def Engine.failTest (g : Engine) : Engine :=
  { g with
    state := .claimed, rate := if g.state = .retraining then g.rate else none, dir := none, measuring := false
    await := none, farLed := false, loss := .off }

/-- The RETRAINING engine is RUNNING again, at rate `r`. -/
def Engine.running (g : Engine) (r : Rate) : Engine :=
  { g with state := .running, rate := some r, dir := none, measuring := false, await := none, farLed := false }.timeLoss

/-- A passed test of a retrain (R95): a changed rate is counted and posts RATE_CHANGED. -/
def Chip.retrainPass (c : Chip) (e : EngineNo) (r : Rate) : Chip :=
  let g := c.engines[e]
  let c := c.modEngine e (·.running r)
  if g.rate = some r then c
  else
    (c.modEngine e (fun g => { g with quality := { g.quality with changes := min 255 (g.quality.changes + 1) } })).note
      g.line .rateChanged
      [b1 e.val, rateCode g.rate, rateCode (some r), (match g.dir with | some d => RetrainDir.code d | none => 0),
        b1 g.quality.cls]

/-- A test passes at the test rate (R93, R95). -/
def Chip.testPass (c : Chip) (e : EngineNo) : Chip × Told :=
  let g := c.engines[e]
  match g.testRate with
  | none => (c, .nothing)
  | some r =>
    match g.state with
    | .training => (c.modEngine e (·.running r), .trained)
    | .retraining => (c.retrainPass e r, .retrained)
    | _ => (c, .nothing)

/-- A test fails (R93): the next is made one step lower, or the training fails. In a retrain led by the far end the far end
announces the rate of the next test (R94), and TEST_END tells it. -/
def Chip.testFail (c : Chip) (e : EngineNo) : Chip × Told :=
  let g := c.engines[e]
  match g.testRate with
  | none => (c, .nothing)
  | some r =>
    if g.attempts < 3 ∧ 0 < r.val then
      (c.modEngine e (fun g => { g with testRate := some (if g.farLed then r else stepDown r), await := none }), .nothing)
    else (c.modEngine e Engine.failTest, .failed (some r))

/-- The result of a test. -/
def Chip.testResult (c : Chip) (e : EngineNo) (pass : Bool) : Chip × Told :=
  if pass then c.testPass e else c.testFail e

/-- The bound of a test rate: the lowest of local maximum, remote ceiling and class maximum (R93, R95). The local maximum is the one
that the measurement began with: a change applies from the next measurement (R99). -/
def Chip.bound (c : Chip) (e : EngineNo) (m : Rate) : Rate := rateMin (rateMin (c.engines[e]).localMax (c.engines[e]).ceiling) m

/-- The first test at rate `r` begins. -/
def Chip.firstTest (c : Chip) (e : EngineNo) (r : Rate) : Chip :=
  c.modEngine e (fun g => { g with measuring := false, testRate := some r })

/-- After the measurement: the first test rate, or the end of the training (R93) or retrain (R95). `announced` is the
rate the far end's engine announces for the tests of a retrain that it leads (R94). There a test is made at that rate also in an UP
retrain whose announced rate is not above the rate in use, which R95 would end with no test: the model's choice between the two (log 38). -/
def Chip.chooseRate (c : Chip) (e : EngineNo) (announced : Rate) : Chip × Told :=
  let g := c.engines[e]
  match classMax g.quality.cls with
  | none => (c.modEngine e Engine.failTest, .failed none)
  | some m =>
    if g.farLed then (c.firstTest e announced, .nothing)
    else
      match g.state, g.rate, g.dir with
      | .retraining, some r, some .down => (c.firstTest e (rateMin (stepDown r) (c.bound e m)), .nothing)
      | .retraining, some r, some .up =>
        if r < rateMin (stepUp r) (c.bound e m) then (c.firstTest e (rateMin (stepUp r) (c.bound e m)), .nothing)
        else (c.modEngine e (·.running r), .retrained)
      | _, _, _ => (c.firstTest e (c.bound e m), .nothing)

/-- The measurement ends with class `n` (R92, R94). The remote ceiling of a DATA training is the announced rate. -/
def Chip.measured (c : Chip) (e : EngineNo) (n : Nat) (announced : Rate) : Chip × Told :=
  (c.modEngine e (fun g =>
    { g with
      measuring := false
      ceiling := if g.state = .training ∧ g.purpose = .data then announced else g.ceiling
      quality := { g.quality with cls := n } })).chooseRate e announced

/-! ## Retrains (R94) -/

/-- A retrain is taken: a fresh measurement in the direction. -/
def Chip.beginRetrain (c : Chip) (e : EngineNo) (d : RetrainDir) (farLed : Bool) : Chip :=
  c.modEngine e (fun g =>
    { (g.measure (c.lines[g.line]).noise c.localMax) with state := .retraining, dir := some d, farLed := farLed }.timeLoss)

/-- A job asks its engine for a retrain (R94). `farLed` says that the far end's engine announces the test rates. -/
def Chip.askRetrain (c : Chip) (e : EngineNo) (d : RetrainDir) (farLed : Bool) : Chip × RetrainAnswer :=
  let g := c.engines[e]
  match g.state, g.rate, d with
  | .running, some r, .down => if 0 < r.val then (c.beginRetrain e d farLed, .taken) else (c, .lowestRate)
  | .running, some r, .up =>
    if g.purpose = .fax then (c, .badParam)
    else if r < rateMin c.localMax g.ceiling then (c.beginRetrain e d farLed, .taken)
    else (c, .highestRate)
  | _, _, _ => (c, .busy)

/-! ## Line quality (R98) -/

/-- One judgment of a frame or strip is reported (R98). -/
def Chip.judge (c : Chip) (e : EngineNo) (good : Bool) : Chip :=
  c.modEngine e (fun g => { g with quality :=
    if good then { g.quality with good := min 65535 (g.quality.good + 1) }
    else { g.quality with bad := min 65535 (g.quality.bad + 1) } })

/-- An engine that serves the line is TRAINING, RUNNING or RETRAINING: the tone unit reports nothing (R100). -/
def Chip.toneBlocked (c : Chip) (l : LineNo) : Bool :=
  match c.engineFor l with
  | some e => decide ((c.engines[e]).state ≠ .claimed)
  | none => false

end Sys2Proof.Machine
end

