-- ==== Sys2Proof/Machine/DataLinkUnit.lean ====
section
/-!
DEFINITION. The data link units' own operations (06_data_calls.md): the session record, sending, acknowledgments, flow
control, quality history, the host side of the rings, and the finishing of a detach.
-/
namespace Sys2Proof.Machine

/-! ## Sending (R105, R108) -/

/-- Two acknowledgment frames of one kind (R105). -/
def LinkFrame.sameAck : LinkFrame → LinkFrame → Bool
  | .accept _, .accept _ => true
  | .pause _, .pause _ => true
  | .resend _, .resend _ => true
  | _, _ => false

/-- Queue a frame of the first group: an acknowledgment replaces a waiting one of its kind (R105). -/
def DataLink.queue (u : DataLink) (f : LinkFrame) : DataLink :=
  { u with ctrl := u.ctrl.filter (fun g => !g.sameAck f) ++ [f] }

/-- A frame is handed to the engine. -/
def DataLink.sound (u : DataLink) (f : LinkFrame) : DataLink := { u with sounding := some f, lastLine := some f }

/-- The first frame marked for resend loses its mark. -/
def unmarkFirst : List Unacked → List Unacked
  | [] => []
  | f :: rest => if f.marked then { f with marked := false } :: rest else f :: unmarkFirst rest

/-- A new DATA frame may be cut (R108). -/
def DataLink.mayCut (u : DataLink) : Bool :=
  decide (0 < u.unsent) && decide (u.unacked.length < u.windowInUse) && !u.remotePaused

/-- The next frame in LINKED when none of the first group waits: a marked one, else a new one whose payload has been
read; else the reading of a payload begins (R108). -/
def DataLink.nextData (u : DataLink) : DataLink :=
  match u.unacked.find? (·.marked) with
  | some f =>
    { (u.sound (.data f.num u.expected f.payload)) with
      unacked := unmarkFirst u.unacked, resent := min 65535 (u.resent + 1) }
  | none =>
    match u.cut with
    | some k =>
      if k.got.length = k.total ∧ u.mayCut = true then
        { (u.sound (.data u.nextSend u.expected k.got)) with
          unacked := u.unacked ++ [{ num := u.nextSend, payload := k.got }], nextSend := u.nextSend + 1, cut := none }
      else u
    | none => if u.mayCut then { u with cut := some { total := min 256 u.unsent } } else u

/-- The unit sends one frame at a time, and only while the engine is RUNNING (R105). In PLAIN the next bytes are read
from the transmit ring (R114). -/
def DataLink.pump (u : DataLink) (running : Bool) : DataLink :=
  if running = false then u
  else if u.state = .plain then
    (if u.cut.isNone && decide (0 < u.unsent) then { u with cut := some { total := min 256 u.unsent } } else u)
  else if u.sounding.isSome then u
  else
    match u.ctrl with
    | f :: rest => { u with ctrl := rest }.sound f
    | [] => if u.state = .linked then u.nextData else u

/-- The unit takes up what it may now send. -/
def Chip.pump (c : Chip) (e : EngineNo) : Chip :=
  c.modUnit e (·.pump (decide ((c.engines[e]).state = .running)))

/-! ## The session (R102, R106, R107) -/

/-- The session record begins with the call's data-ring pair (R102, R103, R104). The window in use is fixed at opening (R102), and R106
gives PLAIN none, so that in READY, OPENING, LISTENING and PLAIN, where Get Status shows the field, no rule gives its value: it is 1, the
least of its range, the model's choice (log 41). -/
def Chip.beginSession (c : Chip) (e : EngineNo) (l : LineNo) (side : Side) (i j : SlotNo) : Chip :=
  c.modUnit e (fun _ =>
    { state := .ready, line := l, side := side, opts := c.linkOpts, portBound := true
      tx := { handle := c.handle i, slot := i }, rx := { handle := c.handle j, slot := j } })

/-- A window field: 0 is taken as 1 and a value above 7 as 7 (R105). -/
def clampWindow (w : Nat) : Nat := max 1 (min 7 w)

/-- The session becomes LINKED (R106). -/
def DataLink.link (u : DataLink) (w : Nat) : DataLink :=
  { u with
    state := .linked, windowInUse := min u.opts.window (clampWindow w), nextSend := 0, expected := 0, unacked := []
    flow := .flowing, remotePaused := false, gap := false, t1 := .off, expiries := 0, rep := .off }

/-! ## Acknowledgment (R109, R110, R116) -/

/-- The send number of the oldest frame of the list, or the next one if the list is empty. -/
def DataLink.oldest (u : DataLink) : SeqNo := (u.unacked.head?.map (·.num)).getD u.nextSend

/-- The number lies from the oldest frame's to the next send number, modulo 16 (R109). -/
def DataLink.validAck (u : DataLink) (n : SeqNo) : Bool :=
  decide ((n - u.oldest).toNat ≤ (u.nextSend - u.oldest).toNat)

/-- T1 at the option's time. -/
def DataLink.t1Start (u : DataLink) : Timer := .start (1000 * u.opts.t1)

/-- A valid acknowledgment removes the frames before `n` and their bytes; a removal is progress (R109, R110). -/
def DataLink.ack (u : DataLink) (n : SeqNo) : DataLink :=
  let k := (n - u.oldest).toNat
  if k = 0 then u
  else
    let gone := ((u.unacked.take k).map (fun f => f.payload.length)).sum
    let rest := u.unacked.drop k
    { u with
      unacked := rest
      tx := { u.tx with start := ringAt (u.tx.start + gone), held := u.tx.held - gone }
      expiries := 0
      t1 := if rest.isEmpty then .off else u.t1Start }

/-- RESEND(n) marks every frame from n to the end of the list, and no other (R109). -/
def DataLink.markFrom (u : DataLink) (n : SeqNo) : DataLink :=
  { u with unacked := u.unacked.map (fun f =>
      { f with marked := decide ((n - u.oldest).toNat ≤ (f.num - u.oldest).toNat) }) }

/-- The credit-low flag after a change of the transmit ring's free space, which was `old` before it (R116). -/
def Chip.credit (c : Chip) (e : EngineNo) (old : Nat) : Chip :=
  let u := c.units[e]
  let now := u.tx.free
  if u.creditLow = false ∧ now < 1024 then c.modUnit e (fun u => { u with creditLow := true })
  else if u.creditLow = true ∧ 1024 ≤ now then
    (c.modUnit e (fun u => { u with creditLow := false })).note u.line .txCredit (be2 now)
  else if u.creditLow = false ∧ now = 2048 ∧ old < 2048 then c.note u.line .txCredit (be2 2048)
  else c

/-- Change the unit by `f` and settle the credit-low flag. -/
def Chip.modTx (c : Chip) (e : EngineNo) (f : DataLink → DataLink) : Chip :=
  (c.modUnit e f).credit e (c.units[e]).tx.free

/-- The receive number of a good frame acknowledges, if it is valid (R109). -/
def Chip.takeAck (c : Chip) (e : EngineNo) (n : SeqNo) : Chip :=
  if (c.units[e]).validAck n then c.modTx e (·.ack n) else c

/-! ## Judgments (R105, R118) -/

/-- The history takes a judgment (R118). -/
def DataLink.judged (u : DataLink) (good : Bool) : DataLink :=
  { u with
    history := (u.history ++ [good]).drop (u.history.length + 1 - 32)
    goodRun := if good then min 256 (u.goodRun + 1) else 0 }

/-- The unit asks its engine for a retrain; the history and the good run are emptied whatever the answer (R118). A frame
that was sounding when the retrain began is lost (R119). -/
def Chip.dataRetrain (c : Chip) (e : EngineNo) (d : RetrainDir) : Chip :=
  let r := (c.modUnit e (fun u => { u with history := [], goodRun := 0 })).askRetrain e d false
  if r.2 = .taken then r.1.modUnit e (fun u => { u with sounding := none }) else r.1

/-- Fallback and fall-forward after a judgment in LINKED (R118). -/
def Chip.fallback (c : Chip) (e : EngineNo) : Chip :=
  let u := c.units[e]
  let g := c.engines[e]
  if 8 ≤ (u.history.filter (! ·)).length then c.dataRetrain e .down
  else
    match classMax g.quality.cls, g.rate with
    | some m, some r => if u.goodRun = 256 ∧ r < m then c.dataRetrain e .up else c
    | _, _ => c

/-- A received frame is judged from the start of OPENING or LISTENING to the end of the session (R105). -/
def Chip.judgeFrame (c : Chip) (e : EngineNo) (good : Bool) : Chip :=
  match (c.units[e]).state with
  | .linked => ((c.judge e good).modUnit e (·.judged good)).fallback e
  | .opening => c.judge e good
  | .listening => c.judge e good
  | .closing => c.judge e good
  | _ => c

/-! ## Receiving (R111 to R113) -/

/-- The bytes in the receive hold. -/
def DataLink.holdBytes (u : DataLink) : Nat := (u.hold.map (fun h => h.bytes.length)).sum

/-- A payload fits in the ring and in the hold (R111). -/
def DataLink.fits (u : DataLink) (n : Nat) : Bool :=
  decide (n ≤ u.rx.free) && decide (u.holdBytes + n ≤ 512) && decide (u.hold.length < 2)

/-- The unit's current acknowledgment (R112). -/
def DataLink.currentAck (u : DataLink) : LinkFrame :=
  if u.flow = .paused then .pause u.expected else .accept u.expected

/-- A good DATA frame received while RESUMING ends it (R113). -/
def DataLink.resumed (u : DataLink) : DataLink :=
  if u.flow = .resuming then { u with flow := .flowing, rep := .off } else u

/-- An in-sequence payload is taken: held, its bytes reserved, and acknowledged (R111). -/
def DataLink.accepted (u : DataLink) (payload : List Byte) : DataLink :=
  let u : DataLink := { u with
    hold := u.hold ++ [{ bytes := payload }]
    rx := { u.rx with reserved := u.rx.reserved + payload.length }
    expected := u.expected + 1
    gap := false }
  let u : DataLink := if u.rx.free < 256 then { u with flow := .paused } else u
  u.queue u.currentAck

/-- A good DATA frame received in LINKED, by its send number (R111, R112). -/
def DataLink.receive (u : DataLink) (send : SeqNo) (payload : List Byte) : DataLink :=
  let u := u.resumed
  let d := (send - u.expected).toNat
  if d = 0 then
    if u.fits payload.length then u.accepted payload
    else if u.rx.free < 256 then ({ u with flow := .paused } : DataLink).queue (.pause u.expected)
    else u
  else if d < u.windowInUse then
    if u.gap then u else ({ u with gap := true } : DataLink).queue (.resend u.expected)
  else u.queue u.currentAck

/-- The receive flow after the link port has given bytes to the host (R113). -/
def DataLink.afterDrain (u : DataLink) : DataLink :=
  if u.state = .linked ∧ u.flow = .paused ∧ 1024 ≤ u.rx.free then
    { u with flow := .resuming, rep := u.t1Start, repCount := 0 }.queue (.accept u.expected)
  else u

/-! ## PLAIN mode (R114) -/

/-- Bytes join the receive hold: its last payload, or a new one. -/
def holdAppend (hold : List Held) (bs : List Byte) : List Held :=
  if bs.isEmpty then hold
  else if hold.length < 2 then hold ++ [{ bytes := bs }]
  else hold.dropLast ++ (hold.getLast?.map (fun h => { h with bytes := h.bytes ++ bs })).toList

/-- Bytes delivered in PLAIN: those that find room in the ring and in the hold are taken, the others are lost. The first
byte lost of an episode posts DATA_OVERRUN with the counter as it then stands (R114). The counter holds at 4294967295, the most its four
bytes can carry: no rule says hold or wrap for it, and R64's limit is for the call record's counters, so the hold is the model's choice
(log 39). -/
def Chip.plainReceive (c : Chip) (e : EngineNo) (bs : List Byte) : Chip :=
  let u := c.units[e]
  let n := min bs.length (min u.rx.free (512 - u.holdBytes))
  let lost := bs.length - n
  let before := u.overrunNow && decide (n = 0)
  let c := c.modUnit e (fun u =>
    { u with
      hold := holdAppend u.hold (bs.take n)
      rx := { u.rx with reserved := u.rx.reserved + n }
      overrun := min 4294967295 (u.overrun + lost)
      overrunNow := before || decide (0 < lost) })
  if 0 < lost ∧ before = false then c.note u.line .dataOverrun (be4 (min 4294967295 (u.overrun + 1))) else c

/-! ## The link port (R115, R117) -/

/-- Why a frame or a call's bytes are lost (11.4). -/
inductive DropReason where
  | noRoom | noCall | ended
  deriving DecidableEq, Repr

def DropReason.code : DropReason → Byte
  | .noRoom => 0 | .noCall => 1 | .ended => 2

/-- The DATA_DROPPED detail (11.4, log 13). The number of unacknowledged frames is absent but for END, so FFh is sent (R115, R121, R184). -/
def droppedDetail (r : DropReason) (sent recv : Nat) (unacked : Option Nat) (space : Nat) : List Byte :=
  [r.code] ++ be4 sent ++ be4 recv ++ [opt1 unacked] ++ be2 space

/-- The unit of a line whose data call is up (R115): the call is CONNECTED, DATA, in phase DATA. -/
def Chip.dataUnit (c : Chip) (l : LineNo) : Option EngineNo :=
  let k := c.calls[l]
  if k.state = .connected ∧ k.purpose = some .data ∧ k.phase = .data then k.engine else none

/-- The first code-0 frame leaves the inbound data buffer. -/
def dropDataHead : List DataIn → List DataIn
  | [] => []
  | d :: rest => if d.code = 0 then rest else d :: dropDataHead rest

/-- The oldest code-0 frame leaves the buffer. -/
def Chip.dataGone (c : Chip) : Chip := c.modLink (fun k => { k with data := dropDataHead k.data })

/-- The line of a link frame's line field. -/
def lineOf (b : Byte) : Option LineNo := if h : b.toNat < 4 then some ⟨b.toNat, h⟩ else none

/-- DATA_DROPPED for a frame: on its line, or for the device. -/
def Chip.dropFrame (c : Chip) (line : Byte) (detail : List Byte) : Chip :=
  match lineOf line with
  | some l => c.dataGone.note l .dataDropped detail
  | none => c.dataGone.noteDev .dataDropped detail

/-- The free space of the transmit ring of the line's call, 0 where the line has no data call (R115). -/
def Chip.lineSpace (c : Chip) (line : Byte) : Nat :=
  match (lineOf line).bind (fun l => (c.calls[l]).engine) with
  | some e => if (c.units[e]).state = .none then 0 else (c.units[e]).tx.free
  | none => 0

/-- The link port takes up the oldest code-0 frame (R115). DATA_DROPPED with NO_ROOM or NO_CALL sends 0 for the receive bytes, to
which R115 gives no value and R184 no sentinel: the model's choice (log 36). -/
def Chip.takeFrame (c : Chip) (d : DataIn) : Chip :=
  if d.bytes.isEmpty then c.dataGone
  else
    match (lineOf d.line).bind c.dataUnit with
    | none => c.dropFrame d.line (droppedDetail .noCall d.bytes.length 0 none (c.lineSpace d.line))
    | some e =>
      let u := c.units[e]
      if d.bytes.length ≤ u.tx.free then
        { (c.modTx e (fun u => { u with tx := { u.tx with reserved := u.tx.reserved + d.bytes.length } })) with
          linkPort := { c.linkPort with work := some (.take e 0) } }
      else c.dropFrame d.line (droppedDetail .noRoom d.bytes.length 0 none u.tx.free)

/-- The receive ring of unit `e` holds bytes that the link port may drain (R117). -/
def Chip.drainWaits (c : Chip) (e : EngineNo) : Bool :=
  let u := c.units[e]
  decide (u.state ≠ .none) && decide (0 < u.rx.held) && c.link.dataSlot && decide ((c.calls[u.line]).state = .connected)

/-- Which of the link port's three kinds of work wait (R115). -/
def Chip.kindWaits (c : Chip) (k : Fin 3) : Bool :=
  if k = 0 then c.dataHead.isSome else if k = 1 then c.drainWaits 0 else c.drainWaits 1

/-- The kind the link port serves next (R115, R122). -/
def Chip.nextKind (c : Chip) : Option (Fin 3) :=
  let s := c.linkPort.served
  if c.linkPort.work.isSome then none else [s + 1, s + 2, s].find? c.kindWaits

/-- One transfer of the link port's work (R115, R117). -/
def Chip.linkXfer (c : Chip) : Chip :=
  match c.linkPort.work with
  | none => c
  | some (.take e written) =>
    match c.dataHead with
    | none => { c with linkPort := { c.linkPort with work := none } }
    | some d =>
      let u := c.units[e]
      let p := u.tx.start + u.tx.held + written
      let n := ringSpan p (d.bytes.length - written)
      let c := (c.storeWrite u.tx.slot (ringAt p) ((d.bytes.drop written).take n)).1
      if written + n < d.bytes.length then { c with linkPort := { c.linkPort with work := some (.take e (written + n)) } }
      else
        let c := { c.dataGone with linkPort := { c.linkPort with work := none } }
        (c.modUnit e (fun u =>
          { u with
            tx := { u.tx with held := u.tx.held + d.bytes.length, reserved := u.tx.reserved - d.bytes.length }
            bytesSent := u.bytesSent + d.bytes.length })).pump e
  | some (.drain e total got) =>
    let u := c.units[e]
    let p := u.rx.start + got.length
    let n := ringSpan p (total - got.length)
    let got := got ++ c.storeRead u.rx.slot (ringAt p) n
    if got.length < total then { c with linkPort := { c.linkPort with work := some (.drain e total got) } }
    else
      let c := { c with linkPort := { c.linkPort with work := none } }
      if c.link.dataSlot then
        ((c.modLink (fun k => { k with out := k.out ++ [dataFrameOut (b1 u.line.val) 0 0 got] })).modUnit e (fun u =>
          { u with
            rx := { u.rx with start := ringAt (u.rx.start + total), held := u.rx.held - total }
            bytesRecv := u.bytesRecv + total }.afterDrain)).pump e
      else c

/-! ## Detach (R120, R121) -/

/-- The work of the link port for unit `e` is given up; a frame being written leaves the buffer (R121). A grant whose transfer has not been
made, TRANSFER_DONE not having come, is no transfer in progress here: it is given up with no transfer, and so is the ring port's in
`Chip.finishData`. The model's choice, for R121 has a transfer in progress finished first and does not say when one begins (log 41). -/
def Chip.cancelLinkWork (c : Chip) (e : EngineNo) : Chip :=
  match c.linkPort.work with
  | some (.take e' _) =>
    if e' = e then { (c.dataGone.giveUp .linkPort) with linkPort := { c.linkPort with work := none } } else c
  | some (.drain e' _ _) =>
    if e' = e then { (c.giveUp .linkPort) with linkPort := { c.linkPort with work := none } } else c
  | none => c

/-- The draining of unit `e`'s receive ring stops (R117): a drain in progress is given up, and its bytes stay in the ring. -/
def Chip.stopDrain (c : Chip) (e : EngineNo) : Chip :=
  match c.linkPort.work with
  | some (.drain e' _ _) =>
    if e' = e then { (c.giveUp .linkPort) with linkPort := { c.linkPort with work := none } } else c
  | _ => c

/-- The unit hands call control its counters (R121). -/
def Chip.handData (c : Chip) (u : DataLink) : Chip :=
  c.modCall u.line (fun k => { k with
    bytesSent := min 4294967295 u.bytesSent, bytesRecv := min 4294967295 u.bytesRecv, resent := min 65535 u.resent })

/-- The unit finishes its detach (R121). A session record of NONE changes nothing. The transmit ring is deleted before the receive
ring, whose last block so ends on top of the stack: the model's choice (log 33). DATA_DROPPED with END sends 0 for the free space, to
which R121 gives no value and R184 no sentinel: the model's choice (log 36). Of a code-0 frame whose writing the detach cuts short none of
the bytes counts among the transmit bytes discarded, the written ones neither, since R115 holds them only when the last transfer is done:
the model's choice (log 39). -/
def Chip.finishData (c : Chip) (e : EngineNo) : Chip :=
  let u := c.units[e]
  if u.state = .none then c
  else
    let c := (c.giveUp (.ring e)).cancelLinkWork e
    let recv := u.rx.held + u.holdBytes
    let c := if 0 < u.tx.held ∨ 0 < recv then
        c.note u.line .dataDropped (droppedDetail .ended u.tx.held recv (some u.unacked.length) 0) else c
    (((c.deleteHandle u.tx.handle).deleteHandle u.rx.handle).handData u).modUnit e (fun u =>
      { portBound := u.portBound, lastLine := u.lastLine, plainOut := u.plainOut })

end Sys2Proof.Machine
end

