-- ==== Sys2Proof/Machine/VoiceMail.lean ====
section
/-!
DEFINITION. The voice mail unit's own operations (08_voice_mail.md): greetings, tones, recordings and the close rule, review
playback, and the stop of a plan sequence. Where a rule then asks call control for a release, the command that calls these
operations asks it.
-/
namespace Sys2Proof.Machine

/-! ## Channels and their slips (R80, R86, R158) -/

/-- A channel's slip count joins its line's codec or engine slips, and the channel is unbound (R86). -/
def Chip.retire (c : Chip) (l : LineNo) (i : ChanNo) : Chip :=
  let ch := c.chans[i]
  let c := c.modCall l (fun k =>
    match ch.path with
    | .engine _ => { k with engineSlips := min 65535 (k.engineSlips + ch.slips) }
    | _ => { k with codecSlips := min 65535 (k.codecSlips + ch.slips) })
  c.unbindChan i

/-- Stop a channel without drain and retire it. -/
def Chip.stopRetire (c : Chip) (l : LineNo) (i : ChanNo) : Chip := (c.stopChan i false).retire l i

/-- The same for a channel that may be absent. -/
def Chip.stopRetire? (c : Chip) (l : LineNo) : Option ChanNo → Chip
  | some i => c.stopRetire l i
  | none => c

/-- Bind and start a channel on a line's codec path, DEMAND mode (R27). -/
def Chip.bindCodec (c : Chip) (owner : ChanOwner) (l : LineNo) (i : SlotNo) (d : ChanDir) (count repeats speed : Nat) :
    Except Reason (Chip × ChanNo) :=
  match c.bind { owner := owner, slot := i, dir := d, path := .codec l, base := 0, count := count, mode := .demand,
                 repeats := repeats } with
  | .error r => .error r
  | .ok (c, ch) =>
    let c := c.startChan ch
    match d with
    | .toPath => .ok (c.modCodec l (fun k => { k with speed := speed }), ch)
    | .fromPath => .ok (c, ch)

/-! ## The sequence up to the recording (R153, R155) -/

/-- A mailbox can take no further message: list and recordings full, quota reached, or store low (R76, R154). -/
def Chip.mailboxFull (c : Chip) (m : MailboxNo) : Bool :=
  let b := c.mailboxes[m]
  decide (32 ≤ b.list.length + b.recordings) || decide (b.quota ≤ b.used) || c.store.low

/-- The slot and length of a mailbox's greeting if its reference passes the checks of R149. -/
def Chip.greetingOf (c : Chip) (m : MailboxNo) : Option (SlotNo × Nat) :=
  (c.mailboxes[m]).greeting.bind (fun h =>
    match c.store.lookup h with
    | some (i, o) => if o.state = .closed ∧ o.attr = .clip ∧ 0 < o.length then some (i, o.length) else none
    | none => none)

/-- Begin the greeting of the mailbox in use: its clip, or a greeting tone in its place (R149, R153). -/
def Chip.beginGreeting (c : Chip) (l : LineNo) : Chip :=
  let m := (c.seqs[l]).mailbox
  match c.greetingOf m with
  | none =>
    (c.modMailbox m (fun b => { b with greeting := none })).modSeq l (fun q => { q with tone := .greeting, greetChan := none })
  | some (i, n) =>
    match c.bindCodec (.voiceMail l) l i .toPath n 0 16 with
    | .error _ => c.modSeq l (fun q => { q with tone := .greeting, greetChan := none })
    | .ok (c, ch) => c.modSeq l (fun q => { q with tone := .none, greetChan := some ch })

/-- A voice-mail plan starts at loop present (R153); its greeting opens the window of a DISCRIMINATE plan (R77). -/
def Chip.startPlan (c : Chip) (l : LineNo) : Chip :=
  let k := c.calls[l]
  let c := c.modSeq l (fun _ =>
    { state := .greeting, greetingOnly := k.greetingOnly, mailbox := k.mailbox.getD 0, caller := k.caller })
  let c := c.modCall l (fun k => { k with window := if k.planKind = .discriminate then .greeting else .closed })
  c.beginGreeting l

/-- CLOSING: the closing tones play (R159). -/
def Chip.enterClosing (c : Chip) (l : LineNo) : Chip :=
  c.modSeq l (fun q => { q with state := .closing, tone := .closing, idleTimer := .off })

/-- TONE: the record tone plays (R155). -/
def Chip.enterTone (c : Chip) (l : LineNo) : Chip := c.modSeq l (fun q => { q with state := .tone, tone := .record })

/-- The greeting is stopped and its channel unbound, or its tone cut; the digits read so far are forgotten. -/
def Chip.cutGreeting (c : Chip) (l : LineNo) : Chip :=
  (c.stopRetire? l (c.seqs[l]).greetChan).modSeq l (fun q =>
    { q with greetChan := none, tone := .none, opening := .empty, prefixTimer := .off })

/-- Call control is told that the greeting has ended: the window stays open for 6 s more (R77). -/
def Chip.tellGreetingEnd (c : Chip) (l : LineNo) : Chip :=
  c.modCall l (fun k => { k with window := if k.window = .greeting then .after else k.window })

/-- The greeting ends (R155). -/
def Chip.greetingEnd (c : Chip) (l : LineNo) : Chip :=
  let c := (c.cutGreeting l).tellGreetingEnd l
  if (c.seqs[l]).greetingOnly then c.enterClosing l else c.enterTone l

/-! ## Recordings and the close rule (R156 to R158) -/

/-- What the close rule made of a recording. -/
inductive Kept where
  | closed | discarded | deleted
  deriving DecidableEq, Repr

def Kept.code : Kept → Byte
  | .closed => 0 | .discarded => 1 | .deleted => 2

/-- The kept length of a recording over object `o` (R158): the start of the empty run in progress, or the length. -/
def Recording.keptLength (r : Recording) (o : Obj) : Nat := min (r.det.empty.getD o.length) o.length

/-- The close rule over the object (R158): deleted below 4000 bytes, else trimmed and closed. -/
def Chip.closeRule (c : Chip) (r : Recording) : Chip × Nat × Kept :=
  match c.obj r.slot with
  | none => (c, 0, .deleted)
  | some o =>
    let n := r.keptLength o
    if n < 4000 then (c.deleteHandle r.handle, n, .discarded)
    else
      match (c.trimObj r.slot n).closeObj r.slot with
      | (c, false) => (c, n, .closed)
      | (c, true) => (c, n, .deleted)

/-- A message's status becomes `status`. -/
def Obj.withStatus (o : Obj) (status : MsgStatus) : Obj :=
  { o with attr := match o.attr with
      | .message caller l _ => .message caller l status
      | x => x }

/-- A message that has been closed joins its mailbox's list, NEW (R148): the list names CLOSED messages of its mailbox, none of
them twice (R147). -/
def Chip.fileMessage (c : Chip) (m : MailboxNo) (h : Nat) : Chip :=
  match c.store.lookup h with
  | none => c
  | some (i, o) =>
    if o.isMessage = true ∧ o.state = .closed ∧ o.owner = .mailbox m ∧ h ∉ (c.mailboxes[m]).list then
      (c.modObj i (·.withStatus .new)).modMailbox m (fun b =>
        { b with list := b.list ++ [h], used := b.used + o.chain.length, newCount := b.newCount + 1 })
    else c

/-- The blocks of the object in slot `i`. -/
def Chip.blocks (c : Chip) (i : SlotNo) : Nat := ((c.obj i).map (fun o => o.chain.length)).getD 0

/-- The close rule over a plan recording whose channel is ENDED: a message kept is filed and announced (R158). Its channel is not
yet unbound. -/
def Chip.closePlanRecording (c : Chip) (l : LineNo) (r : Recording) : Chip :=
  let q := c.seqs[l]
  let slips := (c.chans[r.chan]).slips
  let p := c.closeRule r
  let c := (p.1.modMailbox q.mailbox (fun b => { b with recordings := b.recordings - 1 })).modSeq l (fun q =>
    { q with recording := none })
  match p.2.2 with
  | .closed =>
    (c.fileMessage q.mailbox r.handle).note l .messageRecorded
      ([b1 q.mailbox.val] ++ be2 r.handle ++ be4 p.2.1 ++ [(r.cause.getD .stopped).code] ++ Caller.code q.caller ++ be2 slips)
  | _ => c

/-- A plan recording whose channel is ENDED is settled by the close rule, and its channel unbound (R158). -/
def Chip.settlePlanRecording (c : Chip) (l : LineNo) : Chip :=
  match (c.seqs[l]).recording with
  | none => c
  | some r => (c.closePlanRecording l r).retire l r.chan

/-- The first end of a recording fixes its cause (R157). -/
def Recording.ended (r : Recording) (cause : RecEnd) : Recording := { r with cause := some (r.cause.getD cause) }

/-- A plan recording ends and its channel is drained within the step (R157, R161, log 9). -/
def Chip.stopPlanRecording (c : Chip) (l : LineNo) (cause : RecEnd) : Chip :=
  match (c.seqs[l]).recording with
  | none => c
  | some r =>
    ((c.modSeq l (fun q => { q with recording := some (r.ended cause) })).stopDrained r.chan).settlePlanRecording l

/-- A plan recording whose channel has ENDED: the close rule, then CLOSING (R157). -/
def Chip.planRecordingDone (c : Chip) (l : LineNo) (cause : RecEnd) : Chip :=
  match (c.seqs[l]).recording with
  | none => c
  | some r => ((c.modSeq l (fun q => { q with recording := some (r.ended cause) })).settlePlanRecording l).enterClosing l

/-- A plan recording ends with the caller still on the line: its channel is stopped with drain, and it is settled when the
channel is ENDED (R157, log 9). -/
def Chip.endPlanRecording (c : Chip) (l : LineNo) (cause : RecEnd) : Chip :=
  match (c.seqs[l]).recording with
  | none => c
  | some r =>
    if r.cause.isSome then c
    else
      let c := (c.modSeq l (fun q => { q with recording := some (r.ended cause) })).stopChan r.chan true
      if (c.chans[r.chan]).state = .ended then (c.settlePlanRecording l).enterClosing l else c

/-- The blocks of a mailbox's recordings in progress that are not marked deleted (R157). -/
def Chip.recordingBlocks (c : Chip) (m : MailboxNo) : Nat :=
  (c.seqs.toList.map (fun q =>
    match q.recording with
    | some r => if q.mailbox = m ∧ r.deleted = false then c.blocks r.slot else 0
    | none => 0)).sum

/-- The quota check after the recording of line `l` has grown (R157). -/
def Chip.quotaCheck (c : Chip) (l : LineNo) : Chip :=
  let q := c.seqs[l]
  match q.recording with
  | none => c
  | some r =>
    if r.deleted = false ∧ (c.mailboxes[q.mailbox]).quota ≤ (c.mailboxes[q.mailbox]).used + c.recordingBlocks q.mailbox then
      c.endPlanRecording l .quota
    else c

/-- The detector takes one interval that ends at position `p` (R156). `silent` and `tone` exclude each other. -/
def Detector.interval (d : Detector) (p : Nat) (silent tone : Bool) : Detector :=
  { from_ := p
    silence := if silent then some (match d.silence with | some (s, n) => (s, n + 1) | none => (d.from_, 1)) else none
    empty := if silent || tone then some (d.empty.getD d.from_) else none }

/-- The silence run has reached the silence end, in intervals of 50 ms; 0 disables it (R156). -/
def Detector.silent (d : Detector) (seconds : Nat) : Bool :=
  decide (0 < seconds) &&
    (match d.silence with
      | some (_, n) => decide (20 * seconds ≤ n)
      | none => false)

/-- The record tone has ended: the start checks, the creation and the bind are taken whole (R155). -/
def Chip.startRecording (c : Chip) (l : LineNo) : Chip :=
  let q := c.seqs[l]
  let b := c.mailboxes[q.mailbox]
  if !b.enabled || c.mailboxFull q.mailbox then c.enterClosing l
  else
    match c.createObj (.mailbox q.mailbox) (.message q.caller l .new) with
    | none => c.enterClosing l
    | some (c', i) =>
      match c'.bindCodec (.voiceMail l) l i .fromPath (4000 * b.maxLen) 0 16 with
      | .error _ => c.enterClosing l
      | .ok (c', ch) =>
        (c'.modMailbox q.mailbox (fun b => { b with recordings := b.recordings + 1 })).modSeq l (fun q =>
          { q with
            state := .recording, tone := .none
            recording := some { handle := c'.handle i, slot := i, chan := ch, maxLen := b.maxLen, silenceEnd := b.silenceEnd } })

/-! ## Status and review (R151, R163 to R165) -/

/-- The number of NEW messages that a status stands for. -/
def MsgStatus.fresh : MsgStatus → Nat
  | .new => 1 | _ => 0

/-- A message's status is set; the new count of the mailbox whose list names it follows (R147, R151). -/
def Chip.setStatus (c : Chip) (i : SlotNo) (status : MsgStatus) : Chip :=
  match c.obj i with
  | some o =>
    match o.attr, o.owner with
    | .message _ _ old, .mailbox m =>
      (c.modObj i (·.withStatus status)).modMailbox m (fun b =>
        { b with newCount := if b.list.contains (c.handle i) then b.newCount - old.fresh + status.fresh else b.newCount })
    | _, _ => c
  | none => c

/-- The status of the message in slot `i`, if it is one and not DOOMED. -/
def Chip.statusAt (c : Chip) (i : SlotNo) : Option MsgStatus :=
  (c.obj i).bind (fun o =>
    match o.attr with
    | .message _ _ st => if o.state = .doomed then none else some st
    | _ => none)

/-- The playing channel is stopped and unbound (R164). A tone that sounds is cut too: the model's choice (log 37). -/
def Chip.cutPlay (c : Chip) (l : LineNo) : Chip :=
  (c.stopRetire? l (c.seqs[l]).playChan).modSeq l (fun q => { q with playChan := none, tone := .none })

/-- A review tone plays. -/
def Chip.reviewTone (c : Chip) (l : LineNo) (t : PlanTone) : Chip := c.modSeq l (fun q => { q with tone := t })

/-- The entry at the cursor is played, or the end-of-list tone at END; a refused bind plays the error tone (R163). -/
def Chip.playEntry (c : Chip) (l : LineNo) : Chip :=
  let q := c.seqs[l]
  match q.cursor with
  | .end_ => c.reviewTone l .endOfList
  | .at h =>
    match c.store.lookup h with
    | none => c.reviewTone l .endOfList
    | some (i, o) =>
      match c.bindCodec (.voiceMail l) l i .toPath o.length 0 q.speed with
      | .error _ => c.reviewTone l .error
      | .ok (c, ch) => c.modSeq l (fun q => { q with playChan := some ch, tone := .none })

/-- The message with handle `h` is NEW. -/
def Chip.isNew (c : Chip) (h : Nat) : Bool :=
  match c.store.lookup h with
  | some (i, _) => decide (c.statusAt i = some .new)
  | none => false

/-- The oldest NEW entry, else the oldest, else END (R163). -/
def Chip.firstCursor (c : Chip) (m : MailboxNo) : Cursor :=
  let list := (c.mailboxes[m]).list
  match list.find? c.isNew with
  | some h => .at h
  | none => match list with | h :: _ => .at h | [] => .end_

/-- The idle timer starts afresh (R163). It runs from here to the end of REVIEW, suspended while a channel plays or a tone sounds. -/
def PlanSeq.idleStart (q : PlanSeq) : PlanSeq := { q with idleTimer := .start 20000 }

/-- REVIEW begins (R163): the digit timer of ACCESS has ended. -/
def Chip.enterReview (c : Chip) (l : LineNo) : Chip :=
  let m := (c.seqs[l]).target
  (c.modSeq l (fun q => { q.idleStart with
    state := .review, speed := 16, cursor := c.firstCursor m, entered := [], digitTimer := .off })).playEntry l

/-- A message has been played to its end in REVIEW (R163): NEW becomes HEARD if it is still in the list, the channel is
unbound, and the prompt tone plays. -/
def Chip.reviewPlayed (c : Chip) (l : LineNo) (i : ChanNo) : Chip :=
  let slot := (c.chans[i]).slot
  let c := if c.statusAt slot = some .new then c.setStatus slot .heard else c
  (c.retire l i).modSeq l (fun q => { q with playChan := none, tone := .prompt })

/-! ## Access (R154, R162) -/

/-- ACCESS for a target mailbox: the entry tone plays, and the 10 s digit timer starts (R162). The wrong codes of the call are kept. -/
def Chip.enterAccess (c : Chip) (l : LineNo) (m : MailboxNo) : Chip :=
  c.modSeq l (fun q => { q with state := .access, target := m, entered := [], tone := .entry, digitTimer := .start 10000 })

/-- The REMOTE_ACCESS notice (R162). -/
def Chip.noteAccess (c : Chip) (l : LineNo) (good : Bool) : Chip :=
  let q := c.seqs[l]
  c.note l .remoteAccess ([b1 q.target.val, (if good then 0 else 1), b1 q.wrong] ++ Caller.code q.caller)

/-- A wrong code (R162): counted, and the error tone plays; what follows is taken when the tone has ended. While ACCESS goes on the digit
timer starts afresh with it, also where its own expiry is the wrong code, and runs while the error tone sounds; the third stops it: the
model's choice, for R162 starts it on entry and restarts it at digits 0 to 9 alone (log 38). -/
def Chip.wrongCode (c : Chip) (l : LineNo) : Chip :=
  c.modSeq l (fun q => { q with
    wrong := q.wrong + 1, entered := [], tone := .error, digitTimer := if 3 ≤ q.wrong + 1 then .off else .start 10000 })

/-! ## The end of a sequence (R160, R161) -/

/-- What a stop does in every state: greeting, tones and playback stopped, a recording closed by the close rule with
`cause`, every channel of the sequence unbound (R161). -/
def Chip.stopSequence (c : Chip) (l : LineNo) (cause : RecEnd) : Chip :=
  ((c.cutGreeting l).stopPlanRecording l cause).cutPlay l

/-- The record ends (R153). -/
def Chip.endSequence (c : Chip) (l : LineNo) : Chip := c.modSeq l (fun _ => {})

/-- Detach at teardown (R161). -/
def Chip.detachPlan (c : Chip) (l : LineNo) (cause : RecEnd) : Chip :=
  if (c.seqs[l]).state = .none then c else (c.stopSequence l cause).endSequence l

end Sys2Proof.Machine
end

