-- ==== Sys2Proof/Machine/FaxUnit.lean ====
section
/-!
DEFINITION. The fax unit's own operations (07_fax.md): messages and their waits, page turns, rounds and sections, receiving
and storing strips, the end of a page. Where a session ends, the command that calls these operations closes it.
-/
namespace Sys2Proof.Machine

/-! ## Messages (R125) -/

/-- A control message is handed to the engine. -/
def Chip.faxSend (c : Chip) (l : LineNo) (m : FaxMsg) : Chip := c.modFax l (fun j => { j with sent := some m })

/-- A message that awaits an answer is sent for the first time: a 3 s wait begins (R125). -/
def Chip.faxAsk (c : Chip) (l : LineNo) (m : FaxMsg) : Chip :=
  c.modFax l (fun j => { j with sent := some m, wait := some m, sends := 1 })

/-- MORE of page `page`, or LAST, which has no page number, is answered, and the answer kept for a repeat of it (R125). -/
def Chip.faxAnswer (c : Chip) (l : LineNo) (page : Option Nat) (m : FaxMsg) : Chip :=
  c.modFax l (fun j => { j with sent := some m, answers := (page, m) :: j.answers, wait := none })

/-- The answer last given to MORE of page `page`, or to LAST (R125). -/
def FaxJob.answerTo (j : FaxJob) (page : Option Nat) : Option FaxMsg :=
  (j.answers.find? (fun a => decide (a.1 = page))).map Prod.snd

/-- BYE is sent and awaits its answer; `ending` is how the session will end (R135, R142). -/
def Chip.sendBye (c : Chip) (l : LineNo) (ending : Option FaxEnd) : Chip :=
  (c.modFax l (fun j =>
    { j with
      phase := .closing, ending := ending, roundOn := false, roundWait := false, runs := [], runLeft := 0
      byeWanted := false, retrainWanted := false, trainWait := false
      endReason := (ending.map (·.reason)).getD j.endReason })).faxAsk l .bye

/-- The end of a session by Abort (R143). -/
def abortEnd : FaxEnd := { cls := .abrupt, reason := .aborted, cause := .aborted }

/-- An end ABRUPT whose reason is the release cause as well (R135, R142). -/
def failEnd (r : Reason) : FaxEnd := { cls := .abrupt, reason := r, cause := r }

/-- An end ABRUPT after which the job releases the call with cause NONE (R135). -/
def ownEnd (r : Reason) : FaxEnd := { cls := .abrupt, reason := r, cause := .none }

/-! ## Outcomes and pages sent (R134, R145) -/

/-- The strips of the current page still needed (R134). In PLAIN, where the sender keeps no strip map, they are the count of the last
RETAKE, or the whole page where none was heard: the model's choice (log 36). -/
def FaxJob.needed (j : FaxJob) (p : FaxPage) : Nat :=
  if j.mode = some .plain then (if p.lastBad = 0 then p.total else p.lastBad)
  else if j.pageDone then p.givenUp
  else p.givenUp + (j.marks.toList.filter (· = .needed)).length + (p.total - 32 * (j.sect + 1))

/-- An outcome takes its place in page order: before those of the list entries after entry `n` (R123, R135). -/
def insertOutcome (n : Nat) (o : OutcomeEntry) (os : List OutcomeEntry) : List OutcomeEntry := os.take n ++ o :: os.drop n

/-- The current page is given outcome SENT or PARTIAL, counted and notified (R134). -/
def Chip.pageSent (c : Chip) (l : LineNo) (partialFlag : Bool) : Chip :=
  match c.fax[l] with
  | none => c
  | some j =>
    match j.cur with
    | none => c
    | some p =>
      let o : OutcomeEntry :=
        { kind := if partialFlag then .partial_ else .sent, handle := p.handle, number := p.number, total := p.total
          resent := min 65535 p.resent, rate := j.rate, needed := if partialFlag then j.needed p else 0 }
      (c.modFax l (fun j => { j with
        cur := none, outcomes := insertOutcome (j.index - 1) o j.outcomes, pagesSent := j.pagesSent + 1 })).note l
        .pageSent o.code

/-- Every strip of the page being sent has been TAKEN (R143, R145). -/
def FaxJob.allTaken (j : FaxJob) (p : FaxPage) : Bool :=
  decide (j.mode = some .sectioned) && j.pageDone && decide (p.givenUp = 0)

/-- Before a page ends without its own TAKEN, its channel stays for the unbind that follows: the page being sent is
settled PARTIAL, or SENT if every strip had been TAKEN (R143, R145). -/
def Chip.settleSent (c : Chip) (l : LineNo) : Chip :=
  match (c.fax[l]).bind (fun j => j.cur.map (fun p => j.allTaken p)) with
  | none => c
  | some all => c.pageSent l (!all)

/-! ## The turn of a page (R130) -/

/-- A page of the list that passes checks 1 to 3, with its slot (R130). -/
def Chip.checkPage (c : Chip) (j : FaxJob) (h : Nat) : Except Reason (SlotNo × Obj × PageAttr) :=
  match c.store.lookup h with
  | none => .error .stale
  | some (i, o) =>
    match o.attr with
    | .page a =>
      if o.state ≠ .closed ∨ o.length = 0 then .error .badParam
      else if a.res = .fine ∧ j.remote.fine = false then .error .remoteIncapable
      else .ok (i, o, a)
    | _ => .error .badParam

/-- The channel of a page: DEMAND, TO_PATH, ENGINE L, repeat 255 (R130). -/
def Chip.bindPage (c : Chip) (l : LineNo) (i : SlotNo) (n : Nat) : Except Reason (Chip × ChanNo) :=
  c.bind { owner := .fax l, slot := i, dir := .toPath, path := .engine l, base := 0, count := 512 * blocksFor n
           mode := .demand, repeats := 255 }

/-- The channel of the page before is unbound (R130). -/
def Chip.unbindCur (c : Chip) (l : LineNo) : Chip :=
  match (c.fax[l]).bind (fun j => j.cur.bind (·.chan)) with
  | some i => (c.retire l i).modFax l (fun j => { j with cur := j.cur.map (fun p => { p with chan := none }) })
  | none => c

/-- A page of the list is MISSING, and takes no number (R130, R134). -/
def Chip.pageMissing (c : Chip) (l : LineNo) (h : Nat) (detail : Reason) : Chip :=
  c.modFax l (fun j => { j with outcomes := j.outcomes ++ [{ kind := .missing, detail := detail, handle := h }] })

/-- The number of the next page to announce: MISSING pages take none (R134). -/
def FaxJob.nextNumber (j : FaxJob) : Nat :=
  (j.outcomes.filter (fun o => decide (o.kind ≠ .missing))).length + (if j.cur.isSome then 2 else 1)

/-- The channel bound last for a page of the job is `ch`, and that page has handle `h` (R62, R123). -/
def FaxJob.bound (j : FaxJob) (h : Nat) (ch : ChanNo) : FaxJob := { j with pageChan := some (h, ch) }

/-- The turn over the entries left (R130). `bindNow` makes step 4, the channel bind; in PLAIN a page announced by MORE is
bound at the TAKEN before it. The page found is kept as the announced one. -/
def Chip.turnOver : List Nat → Chip → LineNo → Bool → Chip
  | [], c, _, _ => c
  | h :: rest, c, l, bindNow =>
    match c.fax[l] with
    | none => c
    | some j =>
      let c := c.modFax l (fun j => { j with found := j.found + 1 })
      match c.checkPage j h with
      | .error r => Chip.turnOver rest (c.pageMissing l h r) l bindNow
      | .ok (i, o, a) =>
        let p : FaxPage :=
          { handle := h, slot := i, number := j.nextNumber, res := a.res, total := blocksFor o.length }
        if bindNow then
          match (c.unbindCur l).bindPage l i o.length with
          | .error _ => Chip.turnOver rest ((c.unbindCur l).pageMissing l h .noChannel) l bindNow
          | .ok (c, ch) => c.modFax l (fun j => { j.bound h ch with announced := some { p with chan := some ch } })
        else c.modFax l (fun j => { j with announced := some p })

/-- The sender makes the next page's turn (R130). -/
def Chip.pageTurn (c : Chip) (l : LineNo) (bindNow : Bool) : Chip :=
  match c.fax[l] with
  | none => c
  | some j => Chip.turnOver (j.pages.drop j.found) (c.modFax l (fun j => { j with announced := none })) l bindNow

/-! ## Rounds (R126, R130, R131) -/

/-- The marks of section `s` of a page of `total` strips: NEEDED, and UNUSED beyond the page's end (R131). -/
def freshMarks (s total : Nat) : Vector StripMark 32 :=
  Vector.ofFn (fun i => if 32 * s + i.val < total then .needed else .unused)

/-- The strips of section `s` that are marked NEEDED. -/
def neededOf (s : Nat) (m : Vector StripMark 32) : List Nat :=
  ((List.finRange 32).filter (fun i => decide (m[i] = .needed))).map (fun i => 32 * s + i.val)

/-- The runs of a rising list of strips: one for each span of consecutive strips (R131). -/
def runsOf : List Nat → List (Nat × Nat)
  | [] => []
  | n :: rest =>
    match runsOf rest with
    | (a, k) :: more => if a = n + 1 then (n, k + 1) :: more else (n, 1) :: (a, k) :: more
    | [] => [(n, 1)]

/-- The channel is positioned for a span: held if RUNNING, repositioned, then released or started (R130, R137). -/
def Chip.position (c : Chip) (i : ChanNo) (base count : Nat) : Chip :=
  ((((c.holdChan i).reposition i base count).releaseChan i)).startChan i

/-- The next run of the round is positioned; its bytes are counted down as the engine takes them (R130). -/
def Chip.nextRun (c : Chip) (l : LineNo) : Chip :=
  match c.fax[l] with
  | none => c
  | some j =>
    match j.runs, j.cur.bind (·.chan) with
    | (a, k) :: rest, some i =>
      (c.position i (512 * a) (512 * k)).modFax l (fun j =>
        { j with runs := rest, runLeft := 512 * k, runAt := a, strip := [], stripFill := false })
    | _, _ => c.modFax l (fun j => { j with runs := [], runLeft := 0 })

/-- A round (or in PLAIN the pass over the whole page) begins; its strips count as resent if it is not the first (R131,
R133). -/
def Chip.startRound (c : Chip) (l : LineNo) : Chip :=
  (c.modFax l (fun j =>
    { j with
      phase := .page, roundOn := true, roundWait := false, wait := none, repass := j.begun, begun := true
      runs := if j.mode = some .plain then [(0, (j.cur.map (·.total)).getD 0)] else runsOf (neededOf j.sect j.marks) })).nextRun l

/-- Section `s` of the current page begins, with round 1 (R131). -/
def Chip.startSection (c : Chip) (l : LineNo) (s : Nat) : Chip :=
  (c.modFax l (fun j =>
    { j with sect := s, round := 1, begun := false, marks := freshMarks s ((j.cur.map (·.total)).getD 0) })).startRound l

/-- The announced page becomes the current one (R130, R134); it is not yet sent. That this is done at the TAKEN of the page before it,
with the page index, and not at its turn is the model's choice between R130 and R133 with R134 (log 37). -/
def Chip.takeAnnounced (c : Chip) (l : LineNo) : Chip :=
  c.modFax l (fun j =>
    { j with
      cur := j.announced, announced := none, index := j.found, sect := 0, round := 1, retakes := 0, begun := false
      pageDone := false, marks := freshMarks 0 ((j.announced.map (·.total)).getD 0) })

/-- The strip whose 512 bytes have been taken is sent, with page number, strip number and strip total (R126); it is counted as
resent after the first round (R131, R133). -/
def FaxJob.stripSent (j : FaxJob) : FaxJob :=
  let j : FaxJob := { j with
    lastStrip := j.cur.map (fun p =>
      { page := p.number, number := j.runAt, total := p.total, bytes := j.strip, filled := j.stripFill })
    runAt := j.runAt + 1, strip := [], stripFill := false }
  if j.repass then
    { j with resent := j.resent + 1, cur := j.cur.map (fun p => { p with resent := p.resent + 1 }) }
  else j

/-- The sending engine has taken byte `b` of the run from the path, the next of its strip (R126). -/
def Chip.runByte (c : Chip) (l : LineNo) (b : Byte) : Chip :=
  let c := c.modFax l (fun j =>
    let j := { j with runLeft := j.runLeft - 1, strip := j.strip ++ [b] }
    if j.runLeft % 512 = 0 then j.stripSent else j)
  match c.fax[l] with
  | some j => if j.runLeft = 0 then c.nextRun l else c
  | none => c

/-- The sending engine takes bytes of the page now (R126). -/
def Chip.faxTakes (c : Chip) (l : LineNo) : Bool :=
  match c.fax[l] with
  | some j => decide (j.role = .send) && j.roundOn && decide (0 < j.runLeft)
  | none => false

/-! ## After a page's strips (R131 to R134, R143) -/

/-- POSTPAGE: the next page's turn, then MORE or LAST; or BYE when an Abort is pending (R134, R143). A pass repeated after
a RETAKE makes no new turn (R133). -/
def Chip.postPage (c : Chip) (l : LineNo) : Chip :=
  match c.fax[l] with
  | none => c
  | some j =>
    let c := c.modFax l (fun j => { j with phase := .postpage, pageDone := true, roundWait := false })
    if j.abortPending then (c.settleSent l).sendBye l (some abortEnd)
    else
      let c := if j.retakes = 0 then c.pageTurn l (decide (j.mode ≠ some .plain)) else c
      match (c.fax[l]).bind (·.announced) with
      | some p => c.faxAsk l (.more p.number p.res)
      | none => c.faxAsk l .last

/-- The section is done or given up: the next section, or POSTPAGE after the last (R131, R132). -/
def Chip.nextSection (c : Chip) (l : LineNo) : Chip :=
  match c.fax[l] with
  | none => c
  | some j =>
    if 32 * (j.sect + 1) < (j.cur.map (·.total)).getD 0 then
      (if j.abortPending then (c.settleSent l).sendBye l (some abortEnd) else c.startSection l (j.sect + 1))
    else c.postPage l

/-- The judgments of a round's strips by the receiver's answer (R126): `bad` of them still listed, `good` not. -/
def Chip.judgeStrips (c : Chip) (e : EngineNo) (good bad : Nat) : Chip :=
  c.modEngine e (fun g => { g with quality :=
    { g.quality with good := min 65535 (g.quality.good + good), bad := min 65535 (g.quality.bad + bad) } })

/-- A section is given up at 2400 (R132). Its NEEDED marks become UNUSED, for its strips are counted in `givenUp`: the model's
choice (log 36). -/
def Chip.giveUpSection (c : Chip) (l : LineNo) (needed : Nat) : Chip :=
  match c.fax[l] with
  | none => c
  | some j =>
    let c := c.modFax l (fun j => { j with cur := j.cur.map (fun p => { p with givenUp := p.givenUp + needed }) })
    if j.opts.goOn then
      (c.modFax l (fun j => { j with marks := j.marks.map (fun m => if m = .needed then .unused else m) })).nextSection l
    else
      ((c.modFax l (fun j =>
        { j with marks := j.marks.map (fun m => if m = .needed then .unused else m) })).pageSent l true).sendBye l
        (some (ownEnd .pagePartial))

/-- The sender asks its engine for a retrain DOWN (R132, R133); refused LOWEST_RATE, `atLowest` follows; refused BUSY, it
asks again when the engine is next RUNNING. -/
def Chip.faxRetrain (c : Chip) (l : LineNo) (e : EngineNo) (atLowest : Chip → Chip) : Chip :=
  let r := c.askRetrain e .down false
  match r.2 with
  | .taken => r.1.modFax l (fun j => { j with phase := .training, retrainWanted := false })
  | .lowestRate => atLowest (r.1.modFax l (fun j => { j with retrainWanted := false }))
  | _ => r.1.modFax l (fun j => { j with retrainWanted := true })

/-- The rounds at the current rate are spent (R132). -/
def Chip.roundsSpent (c : Chip) (l : LineNo) (e : EngineNo) (needed : Nat) : Chip :=
  c.faxRetrain l e (fun c => c.giveUpSection l needed)

/-- The session goes on to the announced page after the TAKEN of the page before (R133, R134). Where the announced page fails its
checks now, the session ends ABRUPT PAGE_PARTIAL with cause NONE, which no row of R135 names: the model's choice (log 36). -/
def Chip.nextPage (c : Chip) (l : LineNo) : Chip :=
  match c.fax[l] with
  | none => c
  | some j =>
    match j.announced with
    | none => c
    | some p =>
      if j.mode = some .plain then
        match c.checkPage j p.handle with
        | .error r => ((c.modFax l (fun j => { j with announced := none })).pageMissing l p.handle r).sendBye l
            (some (ownEnd .pagePartial))
        | .ok (i, o, _) =>
          match c.bindPage l i o.length with
          | .error _ => ((c.modFax l (fun j => { j with announced := none })).pageMissing l p.handle .noChannel).sendBye l
              (some (ownEnd .pagePartial))
          | .ok (c, ch) =>
            ((c.modFax l (fun j =>
              { j.bound p.handle ch with
                announced := some { p with chan := some ch, total := blocksFor o.length } })).takeAnnounced l).startRound l
      else (c.takeAnnounced l).startRound l

/-- How a sending session ends after LAST and TAKEN (R135). -/
def FaxJob.sendEnd (j : FaxJob) : FaxEnd :=
  if j.outcomes.all (fun o => decide (o.kind = .sent)) then { cls := .normal, reason := .none, cause := .none }
  else ownEnd .pagePartial

/-! ## Training during a session (R129, R132, R143) -/

/-- SET, with the rate offered (R128, R129): it awaits the receiver's training signal, and the engine trains. -/
def Chip.sendSet (c : Chip) (l : LineNo) (r : Rate) : Chip :=
  match c.fax[l] with
  | none => c
  | some j =>
    (((c.modFax l (fun j => { j with phase := .training })).faxAsk l
      (.set (j.mode.getD .plain) r j.firstRes j.opts.ident))).startTraining j.engine (some r)

/-- The receiver's training signal has been heard: SET is not repeated (R128). -/
def FaxJob.heard (j : FaxJob) : FaxJob :=
  match j.wait with
  | some (.set ..) => { j with wait := none }
  | _ => j

/-- The sender is told TRAINED or RETRAINED (R129, R132): the NEEDED strips, or the whole page in PLAIN, are sent. -/
def Chip.sendTrained (c : Chip) (l : LineNo) (j : FaxJob) : Chip :=
  let c := c.modFax l (fun j => { j with phase := .page, round := 1, wait := none })
  if j.abortPending then (c.settleSent l).sendBye l (some abortEnd)
  else if j.retrainWanted then
    c.faxRetrain l j.engine (fun c =>
      if j.mode = some .plain then c.startRound l else c.giveUpSection l (neededOf j.sect j.marks).length)
  else c.startRound l

/-- The sender is told TRAIN_FAILED (R129). -/
def Chip.sendTrainFailed (c : Chip) (l : LineNo) (j : FaxJob) (last : Option Rate) : Chip :=
  if j.abortPending then (c.settleSent l).sendBye l (some abortEnd)
  else
    match last with
    | some r => if 0 < r.val then c.sendSet l (stepDown r) else c.sendBye l (some (ownEnd .trainFailed))
    | none => c.sendBye l (some (ownEnd .trainFailed))

/-! ## Receiving (R136 to R141) -/

/-- A page cannot be begun: treated as store exhaustion, with its detail (R136, R141). The phase becomes PAGE as though it had been
begun, so that the session's strips, rounds and page ends are taken as R141 has them: the model's choice, for R123 moves POSTPAGE to
PAGE where the next page is begun alone (log 38). What R136 and R139 count of the page before, its retakes among them, starts afresh. -/
def Chip.pageRefused (c : Chip) (l : LineNo) (number : Nat) (detail : Reason) : Chip :=
  c.modFax l (fun j =>
    { j with
      cur := none, index := number, sect := 0, passBad := 0, retakes := 0, marks := Vector.replicate 32 .needed
      storeFull := true, fullDetail := detail, phase := .page })

/-- The receiver begins a page (R136), taken whole. -/
def Chip.beginPage (c : Chip) (l : LineNo) (number : Nat) (res : Resolution) : Chip :=
  match c.fax[l] with
  | none => c
  | some j =>
    match c.createObj (.line l) (.page
        { page := number, res := res, rate := j.rate, sectioned := decide (j.mode = some .sectioned)
          ident := j.remote.ident }) with
    | none => c.pageRefused l number .noSlot
    | some (c', i) =>
      match c'.bind { owner := .fax l, slot := i, dir := .fromPath, path := .engine l, base := 0, count := 4194304
                      mode := .demand, repeats := 0 } with
      | .error _ => c.pageRefused l number .noChannel
      | .ok (c', ch) =>
        c'.modFax l (fun j =>
          { j.bound (c'.handle i) ch with
            phase := .page, index := number, pages := j.pages ++ [c'.handle i], sect := 0, passBad := 0, retakes := 0
            marks := Vector.replicate 32 .needed, strips := [], passing := false
            cur := some { handle := c'.handle i, slot := i, number := number, res := res, chan := some ch } })

/-- The strips of the page, up to its total, that were not stored good in the pass (R139, R140). Where no good strip has
told the total, the strips judged bad are counted: the model's choice (log 37). Between a RETAKE and the first strip of the new pass the last pass's count
stands. -/
def FaxPage.badCount (p : FaxPage) : Nat :=
  if p.between then p.lastBad else if p.told then p.total - p.stored.length else p.badJudged

/-- The attributes of a received page at its end (R140). -/
def PageAttr.finish (a : PageAttr) (p : FaxPage) (rate : Option Rate) (partialFlag : Bool) : PageAttr :=
  { a with strips := p.total, badStrips := p.badCount, rate := rate, partialFlag := partialFlag, unread := true }

/-- The owner and attributes of a received page at its end (R140). -/
def Obj.finishPage (o : Obj) (p : FaxPage) (rate : Option Rate) (partialFlag : Bool) : Obj :=
  match o.attr with
  | .page a => { o with owner := .unowned, attr := .page (a.finish p rate partialFlag) }
  | _ => o

/-- The current page's channel is retired. -/
def Chip.retirePage (c : Chip) (l : LineNo) (p : FaxPage) : Chip :=
  match p.chan with
  | some i => c.retire l i
  | none => c

/-- The object, the outcome and the notice of a received page that ends (R140); its channel is not yet unbound. A page in which no
strip was stored good is deleted. -/
def Chip.closePage (c : Chip) (l : LineNo) (rate : Option Rate) (p : FaxPage) (partialFlag : Bool) : Chip :=
  let c := c.modFax l (fun j => { j with cur := none, strips := [], passing := false })
  if p.ever = false then c.deleteHandle p.handle
  else
    match (c.modObj p.slot (fun o => o.finishPage p rate partialFlag)).closeObj p.slot with
    | (c, true) =>
      c.modFax l (fun j => { j with outcomes := j.outcomes ++ [{ kind := .missing, detail := .stale, handle := p.handle }] })
    | (c, false) =>
      (c.note l .pageReceived
        (be2 p.handle ++ [b1 p.number] ++ be2 p.total ++ be2 p.badCount ++ [flag partialFlag])).modFax l (fun j =>
          { j with
            pagesRecv := j.pagesRecv + 1
            outcomes := j.outcomes ++
              [{ kind := if partialFlag then .partial_ else .received, handle := p.handle, number := p.number
                 total := p.total, resent := min 65535 p.resent, rate := rate
                 needed := if partialFlag then p.badCount else 0 }] })

/-- The receiver ends a page (R140): closed or deleted, and its channel unbound. -/
def Chip.endPage (c : Chip) (l : LineNo) (partialFlag : Bool) : Chip :=
  match (c.fax[l]).bind (fun j => j.cur.map (fun p => (j.rate, p))) with
  | none => c
  | some (rate, p) => (c.closePage l rate p partialFlag).retirePage l p

/-- The receiver's channel has ended STORE_FULL (R141): the page is ended PARTIAL, and nothing more is stored. -/
def Chip.faxStoreFull (c : Chip) (l : LineNo) : Chip :=
  (c.endPage l true).modFax l (fun j => { j with storeFull := true })

/-- The oldest held strip, if the path has not passed it, is passed to the channel, which is positioned for it (R137). The path
produces bytes only while the engine is RUNNING; a strip held over a retrain is passed when it is RUNNING again (R97). Of a channel that
has ENDED, as the strip at the top of the store's span ends it TERMINAL (R30), the path discards what it holds (R35). -/
def Chip.passStrip (c : Chip) (l : LineNo) : Chip :=
  match c.fax[l] with
  | none => c
  | some j =>
    match j.strips, j.cur.bind (·.chan) with
    | (n, bs) :: _, some i =>
      if !c.engineRuns l || j.passing then c
      else if (c.chans[i]).discards then c.modFax l (fun j => { j with strips := [] })
      else
        ((c.position i (512 * n) (4194304 - 512 * n)).modEpath l (fun b => { b with frm := bs })).modFax l (fun j =>
          { j with passing := true })
    | _, _ => c

/-- What a good strip tells of its page and section (R137, R138): the total, and in SECTIONED the move to a later
section. -/
def FaxJob.tell (j : FaxJob) (n total : Nat) : FaxJob :=
  let s := if j.mode = some .plain then j.sect else max j.sect (n / 32)
  { j with
    sect := s
    marks := if s = j.sect then
        Vector.ofFn (fun i => if total ≤ 32 * s + i.val then .unused else
          if j.marks[i] = .unused then .needed else j.marks[i])
      else freshMarks s total
    cur := j.cur.map (fun p => { p with total := total, told := true }) }

/-- A strip has been received, with which a further pass begins: POSTPAGE becomes PAGE; in PLAIN its strips count as resent (R139). -/
def FaxJob.stripHeard (j : FaxJob) : FaxJob :=
  let again : Bool := decide (j.mode = some .plain) && decide (0 < j.retakes)
  { j with
    phase := .page
    resent := if again then j.resent + 1 else j.resent
    cur := j.cur.map (fun p => { p with between := false, resent := if again then p.resent + 1 else p.resent }) }

/-- A strip is bad: judged so, and counted for a page whose total is not known (R126, R139). -/
def Chip.badStrip (c : Chip) (l : LineNo) (e : EngineNo) : Chip :=
  (c.judge e false).modFax l (fun j => { j with cur := j.cur.map (fun p => { p with badJudged := p.badJudged + 1 }) })

/-- The path to the page's channel discards what it is handed (R35). -/
def Chip.pageDiscards (c : Chip) (p : FaxPage) : Bool :=
  match p.chan with
  | some i => (c.chans[i]).discards
  | none => false

/-- A good strip (R137): told, then discarded as a duplicate of one already stored good or because its channel has ENDED, which is no
slip (R35), held for the channel, or lost when two are held. A repeat of a strip that is held and not yet stored is no duplicate here: it
is held or lost as any other strip is (log 40). Each strip lost so is an overrun of its own, with its slip and its notice, though no
transfer has come between: the model follows R137's "the channel's slip count is incremented" for each, beside R35's episodes (log 33). -/
def Chip.goodStrip (c : Chip) (l : LineNo) (e : EngineNo) (n total : Nat) (bs : List Byte) : Chip :=
  match c.fax[l] with
  | none => c
  | some j =>
    match j.cur with
    | none => (c.judge e true).modFax l (·.tell n total)
    | some p =>
      if p.stored.contains n || c.pageDiscards p then (c.judge e true).modFax l (·.tell n total)
      else if 2 ≤ j.strips.length then
        (match p.chan with
          | some i => c.slip i
          | none => c).badStrip l e
      else
        let c := ((c.judge e true).modFax l (·.tell n total)).modFax l (fun j => { j with strips := j.strips ++ [(n, bs)] })
        c.passStrip l

/-- A strip has been stored (R137): marked TAKEN if it lies in the current section, and the next held one is passed. A repeat of it that
the path still holds has its turn now and names a strip stored good, so it is discarded as a duplicate (log 40). -/
def Chip.stripDone (c : Chip) (l : LineNo) (n : Nat) : Chip :=
  (c.modFax l (fun j =>
    { j with
      strips := j.strips.tail.filter (fun x => decide (x.1 ≠ n)), passing := false
      marks := Vector.ofFn (fun i => if n = 32 * j.sect + i.val then .taken else j.marks[i])
      cur := j.cur.map (fun p => { p with stored := p.stored ++ [n], ever := true }) })).passStrip l

/-- The answer to the end of a round in SECTIONED, made anew for each repeat of the signal (R138, R141); the answer kept for a repeat of
MORE stays (R125). -/
def Chip.answerRound (c : Chip) (l : LineNo) (j : FaxJob) : Chip :=
  match j.cur with
  | none => c.faxSend l (.taken j.index (some j.sect) false)
  | some p =>
    let ns := neededOf j.sect j.marks
    if ns.isEmpty then c.faxSend l (.taken p.number (some j.sect) false)
    else
      (c.modFax l (fun j =>
        { j with
          resent := j.resent + ns.length
          cur := j.cur.map (fun p => { p with resent := p.resent + ns.length }) })).faxSend l
        (.map p.number j.sect (if p.told then some ns else none))

/-- The partial flag of the page's TAKEN (R138, R139). -/
def FaxJob.takenPartial (j : FaxJob) (p : FaxPage) : Bool :=
  if j.mode = some .plain then decide (j.opts.limit < p.badCount) else !p.told || decide (0 < p.badCount)

/-- The pass is to be repeated: RETAKE (R139). -/
def FaxJob.wantsRetake (j : FaxJob) (p : FaxPage) : Bool :=
  decide (j.mode = some .plain) && decide (j.opts.limit < p.badCount) && decide (j.retakes < 2)

/-- RETAKE is answered, and the page stays open for the next pass (R139). A good strip that the path still holds is stored later and
counts in the new pass: the model's choice (log 36). -/
def Chip.answerRetake (c : Chip) (l : LineNo) (p : FaxPage) (next : Option Nat) : Chip :=
  (c.modFax l (fun j =>
    { j with
      phase := .postpage, retakes := j.retakes + 1, passBad := p.badCount
      cur := j.cur.map (fun p => { p with stored := [], badJudged := 0, lastBad := p.badCount, between := true }) })).faxAnswer l next
    (.retake p.number p.badCount)

/-! ## Attach and detach (R123, R127, R128, R145) -/

/-- A job attaches to a line (R123). A receiving job sends CAPS (R127). -/
def Chip.attachFax (c : Chip) (l : LineNo) (role : FaxRole) (e : EngineNo) (pages : List Nat) : Chip :=
  let c := c.setFax l (some { role := role, engine := e, opts := c.faxOpts, pages := pages })
  match role with
  | .send => c
  | .receive => c.faxAsk l (.caps c.localMax c.faxOpts.sectioned c.faxOpts.fine c.faxOpts.ident)

/-- The handle of the page whose channel is bound for the job, and that channel's position, for the Last Fault record (R62, R123,
R145): the current page from its turn on, also once its outcome has been given. In SECTIONED, between the turn that MORE announces and the
TAKEN of the page before it, that is the announced page, to which R130 has by then moved the channel, although the page before is still the
current one (log 37): the model's choice, for no rule says which page Last Fault then names (log 41). -/
def Chip.faxAt (c : Chip) (l : LineNo) : Option (Nat × Nat) :=
  (c.fax[l]).bind (fun j => j.pageChan.bind (fun x =>
    if (c.chans[x.2]).state ≠ .free ∧ (c.chans[x.2]).owner = .fax l then some (x.1, (c.chans[x.2]).cur) else none))

/-- The current page is settled at the session's end or detach (R143, R145). -/
def Chip.settlePage (c : Chip) (l : LineNo) : Chip :=
  match c.fax[l] with
  | none => c
  | some j =>
    match j.role with
    | .send => c.settleSent l
    | .receive => c.endPage l true

/-- A job's mode as an enumerated value: SECTIONED, PLAIN, NONE (R123, 11.2). -/
def FaxMode.code? : Option FaxMode → Byte
  | some m => FaxMode.code m
  | none => 2

/-- The result record of a fax Dial or Answer (R185). Where a page could not be begun, the detail follows the entries
(R142, log 15). -/
def FaxJob.record (j : FaxJob) : List Byte :=
  let skip := j.outcomes.length - 16
  let entries := j.outcomes.drop skip
  [FaxMode.code? j.mode, rateCode j.rate] ++ optStr j.remote.ident
    ++ [b1 j.outcomes.length, b1 (skip + 1), b1 entries.length] ++ (entries.map OutcomeEntry.code).flatten
    ++ (if j.fullDetail = .none then [] else [j.fullDetail.code])

/-- The job hands call control its counters (R145). -/
def Chip.handFax (c : Chip) (l : LineNo) (j : FaxJob) : Chip :=
  c.modCall l (fun k => { k with
    pagesSent := min 255 j.pagesSent, pagesRecv := min 255 j.pagesRecv, resent := min 65535 j.resent })

/-- The fax job record ends; the last message that the job sent stays shown (R123, R144, log 12). -/
def Chip.endFax (c : Chip) (l : LineNo) (j : FaxJob) : Chip :=
  { c.setFax l none with faxLast := c.faxLast.set l j.sent }

/-- The fax job finishes its detach (R145): the page is settled, the counters handed over, and the record ends. The answer
is the result record of a long request still in execution. -/
def Chip.detachFax (c : Chip) (l : LineNo) : Chip × List Byte :=
  let c := c.settlePage l
  match c.fax[l] with
  | none => (c, [])
  | some j => ((c.handFax l j).endFax l j, j.record)

end Sys2Proof.Machine
end

