-- ==== Sys2Proof/Machine/CallControl.lean ====
section
/-!
DEFINITION. Call control's own operations (04_calls_dialling_progress_and_answering.md): the end of a long request, the
release and its teardown, forced release, Line Reset, answering, the answer plan, dialling; and what a job does when its
engine tells it how a training ended.
-/
namespace Sys2Proof.Machine

/-! ## The end of a long request (R62, R86, R184) -/

/-- A long request ends: its reply is posted and the Last Fault record written, or its valid flag cleared (R62). -/
def Chip.endLong (c : Chip) (l : LineNo) (cls : Cls) (reason : Reason) (result : List Byte) (phase : Phase)
    (at_ : Option (Nat × Nat)) : Chip :=
  match (c.calls[l]).long with
  | none => c
  | some g =>
    let cond := (c.calls[l]).faultCond
    let c := (c.modCall l (fun k => { k with long := none })).replyLine l g.tag g.kind.code cls reason result
    if cls = .normal then c.clearFault l else c.writeFault l reason cond phase at_

/-- A long request ends NORMAL. -/
def Chip.endNormal (c : Chip) (l : LineNo) (result : List Byte) : Chip := c.endLong l .normal .none result .none none

/-- The result record of a data Dial or Answer (R106): rate, mode, window in use, ring size in each direction. That the size comes twice,
the transmit ring's and then the receive ring's, as a byte count of four bytes each, is the model's choice (log 39). -/
def dataResult (rate : Option Rate) (mode window : Byte) : List Byte :=
  [rateCode rate, mode, window] ++ be4 2048 ++ be4 2048

/-- The result record of Play (R80). The bytes played of an endless Play are sent modulo 2^32 in their four bytes: the model's choice, for no
rule says whether the field holds or wraps (log 38). -/
def Chip.playResult (c : Chip) (l : LineNo) (i : ChanNo) : List Byte :=
  let ch := c.chans[i]
  be4 (c.codecs[l]).played ++ [b1 ch.repeatsDone] ++ be2 ch.slips
    ++ [flag (decide ((c.obj ch.slot).map (·.state) = some .doomed))]

/-- The result record of a long request other than Record and a fax session with a job (R184): as it stands now. -/
def Chip.longResult (c : Chip) (l : LineNo) : List Byte :=
  let k := c.calls[l]
  match k.long with
  | none => []
  | some g =>
    match g.kind, k.purpose with
    | .play, _ => (g.chan.map (c.playResult l)).getD []
    | .sendDigits, _ => [b1 k.digitsSent]
    | .record, _ => []
    | .answerPlan, _ => []
    | _, some .data => dataResult (k.engine.bind (fun e => (c.engines[e]).rate)) 0xFF 0xFF
    | _, some .fax => ({ role := .send, engine := 0 } : FaxJob).record
    | _, _ => []

/-- The object of the long request and the position of its channel (R62). A channel just unbound keeps its position. -/
def Chip.longAt (c : Chip) (l : LineNo) : Option (Nat × Nat) :=
  match (c.calls[l]).long with
  | none => none
  | some g =>
    match g.handle, g.chan with
    | some h, some i => some (h, (c.chans[i]).cur)
    | _, _ => c.faxAt l

/-! ## Record (R81) -/

/-- A Record whose channel is ENDED: the close rule and the result record (R81, R158). Its channel is not yet unbound. -/
def Chip.closeRecord (c : Chip) (r : Recording) : Chip × List Byte :=
  let p := c.closeRule r
  (p.1, [(r.cause.getD .stopped).recordCode] ++ be4 p.2.1 ++ be2 (c.chans[r.chan]).slips
    ++ optHandle (if p.2.2 = .closed then some r.handle else none) ++ [p.2.2.code])

/-- A Record whose channel is ENDED: the close rule, the result record, the unbind (R81, R158). -/
def Chip.settleRecord (c : Chip) (l : LineNo) : Chip × List Byte :=
  match (c.calls[l]).record with
  | none => (c, [])
  | some r =>
    let p := c.closeRecord r
    ((p.1.retire l r.chan).modCall l (fun k => { k with record := none }), p.2)

/-- A Record ends, its channel drained within the step (R81, log 9). -/
def Chip.stopRecord (c : Chip) (l : LineNo) (cause : RecEnd) : Chip × List Byte :=
  match (c.calls[l]).record with
  | none => (c, [])
  | some r => ((c.modCall l (fun k => { k with record := some (r.ended cause) })).stopDrained r.chan).settleRecord l

/-- A Record whose end has come, and with it its class, and whose channel is ENDED is settled and replied to (R81). -/
def Chip.finishRecord (c : Chip) (l : LineNo) (cause : Option RecEnd) : Chip :=
  let p := c.settleRecord l
  if cause = some .storeFull then p.1.endLong l .abrupt .storeFull p.2 .recording (p.1.longAt l) else p.1.endNormal l p.2

/-- A Record whose channel has ENDED by itself, or at the end of its drain, ends with its reply; the call stays up (R81). -/
def Chip.recordDone (c : Chip) (l : LineNo) (cause : RecEnd) : Chip :=
  match (c.calls[l]).record with
  | none => c
  | some r =>
    (c.modCall l (fun k => { k with record := some (r.ended cause), phase := .none })).finishRecord l (r.ended cause).cause

/-- A Record ends by silence: stopped with drain, and done when the channel is ENDED (R81, log 9). -/
def Chip.endRecord (c : Chip) (l : LineNo) (cause : RecEnd) : Chip :=
  match (c.calls[l]).record with
  | none => c
  | some r =>
    if r.cause.isSome then c
    else
      let c := (c.modCall l (fun k => { k with record := some (r.ended cause) })).stopChan r.chan true
      if (c.chans[r.chan]).state = .ended then c.recordDone l cause else c

/-- A Record in execution ends by a release. One whose end has already come keeps the class that end gave it: it is replied to
when its drain is done, within the step (R81). -/
def Chip.detachRecord (c : Chip) (l : LineNo) (cause : RecEnd) : Chip × List Byte :=
  match (c.calls[l]).record with
  | none => (c, [])
  | some r => if r.cause.isSome then ((c.stopDrained r.chan).finishRecord l r.cause, []) else c.stopRecord l cause

/-! ## Teardown (R86, R87) -/

/-- The CALL_ENDED record, 28 bytes (R87, 11.5). -/
def Call.endedRecord (k : Call) : List Byte :=
  [(k.cause.getD .none).code, opt1 (k.direction.map (·.num)), opt1 (k.purpose.map (·.num)), k.control.code,
      opt1 (k.mailbox.map (·.val))]
    ++ be2 k.offHook ++ be2 k.connected ++ [rateCode k.finalRate] ++ be4 k.bytesSent ++ be4 k.bytesRecv
    ++ [b1 k.pagesSent, b1 k.pagesRecv] ++ be2 k.resent ++ [b1 k.changes, flag k.faxMissed] ++ be2 k.codecSlips
    ++ be2 k.engineSlips

/-- Step 1, job detach: data link, plan, fax job, and a Record in execution (R86). The answer is the result record of the
long request in execution. -/
def Chip.detachJob (c : Chip) (l : LineNo) : Chip × List Byte :=
  let before := c.longResult l
  let cause : RecEnd := if (c.calls[l]).forced then .forced else .released
  let c := match (c.calls[l]).engine with
    | some e => c.finishData e
    | none => c
  let c := c.detachPlan l cause
  let hadFax := (c.fax[l]).isSome
  let f := c.detachFax l
  let r := f.1.detachRecord l cause
  (r.1.modCall l (fun k => { k with job := .none, window := .closed }),
    if hadFax then f.2 else if (c.calls[l]).record.isSome then r.2 else before)

/-- Step 2, channel unbind: every channel still bound for the line (R86). -/
def Chip.unbindLine (c : Chip) (l : LineNo) : Chip :=
  (List.finRange 8).foldl (fun c i =>
    if (c.chans[i]).state ≠ .free ∧ (c.chans[i]).owner.line = some l then c.stopRetire l i else c) c

/-- Step 3, engine release: the rate and the rate changes are read first (R86, R91, R98). -/
def Chip.dropEngine (c : Chip) (l : LineNo) : Chip :=
  match (c.calls[l]).engine with
  | none => c
  | some e =>
    let g := c.engines[e]
    (c.modCall l (fun k => { k with finalRate := g.rate, changes := g.quality.changes, engine := none })).releaseEngine e true

/-- Step 4, reply: the marked long request ends ABRUPT (R86), with its channel's position as it stands now (R62). `page` is that
of a fax job, whose record has ended at step 1. -/
def Chip.endMarked (c : Chip) (l : LineNo) (result : List Byte) (page : Option (Nat × Nat)) : Chip :=
  let k := c.calls[l]
  match k.long.bind (·.mark) with
  | some r => c.endLong l .abrupt r result k.prevPhase ((c.longAt l).or page)
  | none => c

/-- A Line Reset in execution empties the line's pending event set and clears the latches whose conditions are absent, once
the hook is ON_HOOK (R61). -/
def Chip.resetOnHook (c : Chip) (l : LineNo) : Chip :=
  (c.modLink (fun k => { k with sets := k.sets.set (lineSet l) [] })).modLine l (·.clearLatches .all)

/-- The teardown (R86). -/
def Chip.teardown (c : Chip) (l : LineNo) : Chip :=
  let d := c.detachJob l
  let c := ((((d.1.unbindLine l).dropEngine l).endMarked l d.2 (c.faxAt l)).hangUp l)
  let c := if (c.lines[l]).resetTag.isSome then c.resetOnHook l else c
  let ended := (c.calls[l]).endedRecord
  let c := if (c.calls[l]).forced then c.enterCooling l else c
  c.note l .callEnded ended

/-! ## Release (R85, R120, R144) -/

/-- The record of a call whose release starts (R85). -/
def Call.releasing (k : Call) (cause : Reason) (forced : Bool) (cond : FaultSet) : Call :=
  { k with
    state := .releasing, phase := .releasing, prevPhase := k.phase, cause := some cause, forced := forced
    faultCond := cond, step := .none
    long := k.long.map (fun g => { g with mark := some (if forced then .lineFault else cause) }) }

/-- The detach of a Hang Up waits: for CLOSED on a LINKED data call (R120), for the answering BYE of a fax session (R144).
A release taken while a data call's engine is RETRAINING detaches at once (R119). A fax job whose engine trains stays in TRAINING
until its BYE is sent (R123, R129). The answer says whether it waits. -/
def Chip.beginDetach (c : Chip) (l : LineNo) : Chip × Bool :=
  match (c.calls[l]).engine with
  | none => (c, false)
  | some e =>
    if (c.units[e]).state = .linked then
      if (c.engines[e]).state = .retraining then (c, false)
      else (((c.stopDrain e).modUnit e (fun u => { u.queue .close with state := .closing, cut := none, t1 := .off, rep := .off })).pump e, true)
    else
      match c.fax[l] with
      | none => (c, false)
      | some j =>
        match (c.engines[e]).state with
        | .training => (c.modFax l (fun j => { j with byeWanted := true, wait := none }), true)
        | .retraining => (c.modFax l (fun j => { j with byeWanted := true, wait := none }), true)
        | _ => (if j.wait = some .bye then c else c.sendBye l none, true)

/-- A release of a call that is SEIZED to CONNECTED starts (R85). -/
def Chip.startRelease (c : Chip) (l : LineNo) (cause : Reason) (forced : Bool) (cond : FaultSet) : Chip :=
  let c := c.modCall l (fun k => k.releasing cause forced cond)
  if cause = .hungUp then
    match c.beginDetach l with
    | (c, true) => c
    | (c, false) => c.teardown l
  else c.teardown l

/-- The call is SEIZED to CONNECTED. -/
def CallState.live : CallState → Bool
  | .seized => true | .dialling => true | .awaitingAnswer => true | .answering => true | .connected => true
  | _ => false

/-- A release with a cause; on a call that is not SEIZED to CONNECTED it changes nothing (R85). -/
def Chip.release (c : Chip) (l : LineNo) (cause : Reason) : Chip :=
  if (c.calls[l]).state.live then c.startRelease l cause false {} else c

/-- A teardown whose detach waits goes on (R120, R144): the wait has ended. -/
def Chip.detachEnds (c : Chip) (l : LineNo) : Chip :=
  if (c.calls[l]).state = .releasing ∧ (c.lines[l]).hook = .offHook then c.teardown l else c

/-- A forced release with a cool-off time (R56). -/
def Chip.forcedRelease (c : Chip) (l : LineNo) (time : Nat) (cond : FaultSet) : Chip :=
  let k := c.calls[l]
  let c := c.modLine l (fun n => { n with
    coolPending := if k.state = .releasing ∧ k.forced = true then max n.coolPending time else time })
  let forced (c : Chip) : Chip := c.modCall l (fun k => { k with
    forced := true, cause := some .lineFault, faultCond := cond
    long := k.long.map (fun g => { g with mark := some .lineFault }) })
  match k.state with
  | .idle => (forced c).enterCooling l
  | .alerting => (forced c).enterCooling l
  | .cooling => c.modLine l (fun n => { n with coolOff := time })
  | .releasing => if (c.lines[l]).hook = .offHook then (forced c).teardown l else (forced c).enterCooling l
  | _ => c.startRelease l .lineFault true cond

/-- The first step of Line Reset (R61): another long request in execution ends ABRUPT LINE_RESET, with its result record and its
channel's position as they stand (R62, R184). A Record applies its close rule first (R81). -/
def Chip.endForReset (c : Chip) (l : LineNo) : Chip :=
  let k := c.calls[l]
  let phase := if k.state = .releasing then k.prevPhase else k.phase
  let r := c.detachRecord l .released
  let result := match c.fax[l] with
    | some j => j.record
    | none => if k.record.isSome then r.2 else c.longResult l
  r.1.endLong l .abrupt .lineReset result phase (r.1.longAt l)

/-- The record enters RELEASING without a call to tear down (R61, R85). -/
def Call.resetting (k : Call) : Call :=
  { k with state := .releasing, phase := .releasing, cause := some .lineReset, forced := false }

/-- Line Reset on line `l` (R61). A teardown that waits goes on at once (R120, R144). -/
def Chip.lineReset (c : Chip) (l : LineNo) (tag : Byte) : Chip :=
  let c := (c.modLine l (fun n => { n with resetTag := some tag })).endForReset l
  match (c.calls[l]).state with
  | .releasing => if (c.lines[l]).hook = .offHook then c.teardown l else c.resetOnHook l
  | .cooling => ((c.modLine l (fun n => { n with coolOff := 0 })).modCall l Call.resetting).resetOnHook l
  | .idle => (c.modCall l Call.resetting).resetOnHook l
  | .alerting => (c.modCall l Call.resetting).resetOnHook l
  | _ => c.startRelease l .lineReset false {}

/-! ## Connecting (R71, R72, R76) -/

/-- CALL_CONNECTED (R71): direction, purpose, control, rate. -/
def Chip.noteConnected (c : Chip) (l : LineNo) (rate : Option Rate) : Chip :=
  let k := c.calls[l]
  c.note l .callConnected [opt1 (k.direction.map (·.num)), opt1 (k.purpose.map (·.num)), k.control.code, rateCode rate]

/-- The fax job starts on a connected line (R71, R72, R78). -/
def Chip.startFax (c : Chip) (l : LineNo) (role : FaxRole) : Chip :=
  let k := c.calls[l]
  match k.engine with
  | none => c
  | some e =>
    ((c.modCall l (fun k => { k with phase := .fax, job := .faxJob })).attachFax l role e k.pages).noteConnected l none

/-- The training of a data call starts (R71, R72, R92). -/
def Chip.startData (c : Chip) (l : LineNo) : Chip :=
  match (c.calls[l]).engine with
  | none => c
  | some e => (c.modCall l (fun k => { k with phase := .training })).startTraining e none

/-- The record enters CONNECTED (R71, R72). -/
def Chip.connect (c : Chip) (l : LineNo) : Chip :=
  c.modCall l (fun k => { k with state := .connected, step := .none })

/-- A connected voice call under the host's control: the Dial or Answer ends NORMAL (R71, R72). -/
def Chip.connectVoice (c : Chip) (l : LineNo) : Chip :=
  ((c.modCall l (fun k => { k with control := .host, phase := .none })).endNormal l []).noteConnected l none

/-- An answer is taken in AWAITING_ANSWER (R71). -/
def Chip.answered (c : Chip) (l : LineNo) : Chip :=
  let c := c.connect l
  match (c.calls[l]).purpose with
  | some .data => c.startData l
  | some .fax => c.startFax l .send
  | _ => c.connectVoice l

/-- Loop present in ANSWERING (R72, R76). An Answer with purpose PLAN ends NORMAL once the plan has started; where its plan has
posted CALL_CONNECTED in that start, the notice comes before the reply (log 21). A plan's voice call keeps phase NONE while its
greeting, tone or recording runs: the model's choice, for no rule sets it for voice mail's channels (R65, log 36). -/
def Chip.answerLoop (c : Chip) (l : LineNo) : Chip :=
  let c := c.connect l
  let plan := ((c.calls[l]).long.map (·.kind)) = some .answerPlan
  let c := match (c.calls[l]).purpose, (c.calls[l]).control with
    | some .data, _ => c.startData l
    | some .fax, _ => c.startFax l .receive
    | _, .plan => ((c.modCall l (fun k => { k with phase := .none })).startPlan l).noteConnected l none
    | _, .host => c.connectVoice l
  if plan then c.endNormal l [] else c

/-- The data call is up (R106, R107, R114): phase DATA, and the Dial or Answer ends NORMAL. -/
def Chip.dataUp (c : Chip) (l : LineNo) (e : EngineNo) : Chip :=
  let u := c.units[e]
  let rate := (c.engines[e]).rate
  let result := if u.state = .plain then dataResult rate 1 0 else dataResult rate 0 (b1 u.windowInUse)
  ((c.modCall l (fun k => { k with phase := .data })).endNormal l result).noteConnected l rate

/-! ## The answer plan (R75, R76) -/

/-- A caller number matches a screen entry's pattern (R74). -/
def Match.hits : Match → Caller → Bool
  | .equal p, .digits ds => decide (ds = p)
  | .starts p, .digits ds => p.isPrefixOf ds
  | .range lo hi, .digits ds => decide (ds.length = lo.length) && digitsLe lo ds && digitsLe ds hi
  | .withheld, .withheld => true
  | .withheld, .unavailable => true
  | .withheld, .absent => true
  | _, _ => false

/-- The action of the first matching entry; PASS if none matches (R74). -/
def Chip.screenAction (c : Chip) (caller : Caller) : Action :=
  ((c.screen.toList.filterMap id).find? (fun e => e.pat.hits caller)).elim .pass (·.action)

/-- What the plan's start checks answer: the reason kept, if any, and the reason that stopped it (R76). -/
structure PlanFailure where
  first : Option Reason
  stop : Reason
  deriving DecidableEq, Repr

/-- A data call's engine and rings, for a line (R67, R72, R76, R78): all or nothing. -/
def Chip.takeData (c : Chip) (l : LineNo) (side : Side) : Except Reason (Chip × EngineNo) :=
  match c.claim l .data with
  | none => .error .noEngine
  | some (c, e) =>
    match c.ringPair l e with
    | .error r => .error r
    | .ok (c, i, j) => .ok (c.beginSession e l side i j, e)

/-- A fax call's engine, with the fax reserve (R76, R78): all or nothing. -/
def Chip.takeFax (c : Chip) (l : LineNo) : Except Reason (Chip × EngineNo) :=
  match c.claim l .fax with
  | none => .error .noEngine
  | some (c', e) => if c.faxReserve ≤ c.store.free.length then .ok (c', e) else .error .noStore

/-- The line is seized for an answer (R72, R76): caller number and ring count are copied first. -/
def Chip.seizeAnswer (c : Chip) (l : LineNo) (f : Call → Call) : Chip :=
  let n := c.lines[l]
  (c.modCall l (fun k => f { k with
    state := .answering, phase := .seize, direction := some .incoming, caller := n.caller, ringCount := n.ringCount })).modLine l
    Line.seize

/-- The plan answers as voice mail, or to discriminate (R76). -/
def Chip.planVoice (c : Chip) (l : LineNo) (kind : PlanKind) (m : MailboxNo) (first : Option Reason) : Except PlanFailure Chip :=
  match c.freeChan with
  | none => .error { first := first, stop := .noChannel }
  | some _ =>
    let m := if (c.mailboxes[m]).enabled then m else (c.plans[l]).mailbox
    .ok (c.seizeAnswer l (fun k => { k with
      control := .plan, purpose := some .voice, job := .plan, mailbox := some m, planKind := kind
      greetingOnly := !(c.mailboxes[m]).enabled || c.mailboxFull m }))

/-- The start checks and the seize that follows, taken whole (R76). -/
def Chip.planStart (c : Chip) (l : LineNo) (kind : PlanKind) (m : MailboxNo) : Except PlanFailure Chip :=
  if !(c.lines[l]).usable then .error { first := .none, stop := .lineFault }
  else
    match kind with
    | .fax =>
      match c.takeFax l with
      | .ok (c, e) => .ok (c.seizeAnswer l (fun k => { k with
          control := .plan, purpose := some .fax, job := .faxJob, engine := some e, planKind := .fax }))
      | .error r => c.planVoice l .voiceMail (c.plans[l]).mailbox (some r)
    | .data =>
      match c.takeData l .answering with
      | .ok (c, e) => .ok (c.seizeAnswer l (fun k => { k with
          control := .plan, purpose := some .data, job := .dataLink, engine := some e, planKind := .data }))
      | .error r => c.planVoice l .voiceMail (c.plans[l]).mailbox (some r)
    | k => c.planVoice l k m .none

/-- The kind and mailbox that a screen action fixes (R74, R75); REJECT is taken as PASS here. -/
def Chip.planFor (c : Chip) (l : LineNo) : Action → PlanKind × MailboxNo
  | .mailbox m => (.voiceMail, m)
  | .fax => (.fax, (c.plans[l]).mailbox)
  | _ => ((c.plans[l]).kind, (c.plans[l]).mailbox)

/-- The answer plan is consulted at a counted ring in ALERTING (R75). ANSWER_FAILED carries FFh where it has no first reason (R76,
R184). -/
def Chip.consultPlan (c : Chip) (l : LineNo) : Chip :=
  match (c.plans[l]).auto with
  | none => c
  | some n =>
    if (c.lines[l]).ringCount < n ∨ (c.calls[l]).screened = true then c
    else
      match c.screenAction (c.lines[l]).caller with
      | .reject => c.modCall l (fun k => { k with screened := true })
      | a =>
        match c.planStart l (c.planFor l a).1 (c.planFor l a).2 with
        | .ok c => c
        | .error f => c.note l .answerFailed [(c.planFor l a).1.code, (f.first.map Reason.code).getD 0xFF, f.stop.code]

/-! ## Dialling (R46, R68, R69, R82) -/

/-- How many breaks a pulse digit is sent as (R46). -/
def breaksOf (d : Fin 10) : Nat := if d.val = 0 then 10 else d.val

/-- The last character has been sent: AWAITING_ANSWER (R69), or the end of Send Digits (R82). -/
def Chip.lastChar (c : Chip) (l : LineNo) : Chip :=
  if (c.calls[l]).phase = .sendingDigits then
    (c.modCall l (fun k => { k with phase := .none, step := .none })).endNormal l [b1 (c.calls[l]).digitsSent]
  else
    c.modCall l (fun k => { k with
      state := .awaitingAnswer, phase := .progress, step := .none, busyRun := 0, ringbacks := 0 })

/-- The next character begins (R69, R82): P and T send nothing. A W waits in phase DIALLING, in which the call stays to its last
character: the model's choice, for R69 names no phase (log 36). -/
def Chip.sendChars : List Byte → Chip → LineNo → Chip
  | [], c, l => (c.modCall l (fun k => { k with todo := [] })).lastChar l
  | b :: rest, c, l =>
    let c := c.modCall l (fun k => { k with todo := rest })
    if b = 0x50 then Chip.sendChars rest (c.modCall l (fun k => { k with method := .pulse })) l
    else if b = 0x54 then Chip.sendChars rest (c.modCall l (fun k => { k with method := .tone })) l
    else if b = 0x2C then c.modCall l (fun k => { k with step := .comma })
    else if b = 0x57 then c.modCall l (fun k => { k with step := .dialTone })
    else
      match (c.calls[l]).method, digitOf b, (c.calls[l]).phase with
      | .pulse, some d, .dialling =>
        (c.modCall l (fun k => { k with step := .pulse })).modLine l (·.breakLoop (breaksOf d - 1))
      | _, _, _ => c.modCall l (fun k => { k with step := .digit })

/-- The character in progress is done. -/
def Chip.nextChar (c : Chip) (l : LineNo) : Chip := Chip.sendChars (c.calls[l]).todo c l

/-- The dial-tone or blind step of SEIZED ends: DIALLING begins (R68). -/
def Chip.startDialling (c : Chip) (l : LineNo) : Chip :=
  Chip.sendChars (c.calls[l]).dialString (c.modCall l (fun k => { k with state := .dialling, phase := .dialling })) l

/-! ## Jobs and their engines (R106, R107, R119, R129) -/

/-- The data link unit is told how a training or retrain ended (R106, R107, R119). T1 runs while the list is not empty
(R110): a frame lost by the retrain is recovered by it. -/
def Chip.dataTold (c : Chip) (e : EngineNo) (t : Told) : Chip :=
  let u := c.units[e]
  match t with
  | .nothing => c
  | .trained =>
    if u.state = .ready then
      let c := c.modCall u.line (fun k => { k with phase := .linkOpening, job := .dataLink })
      match u.side with
      | .calling =>
        (c.modUnit e (fun u => { u.queue (.openFrame u.opts.window) with state := .opening, openSends := 1 })).pump e
      | .answering => c.modUnit e (fun u => { u with state := .listening })
    else c
  | .retrained =>
    (c.modUnit e (fun u =>
      { u with
        history := [], goodRun := 0
        t1 := if u.unacked.isEmpty || u.t1.run || decide (u.state ≠ .linked) then u.t1 else u.t1Start })).pump e
  | .failed _ => if u.state = .none then c else c.release u.line .trainFailed

/-- The job copies the engine's rate at TRAINED and RETRAINED, whatever it then does (R129). -/
def Chip.copyRate (c : Chip) (l : LineNo) (t : Told) : Chip :=
  match t with
  | .trained => c.modFax l (fun j => { j with rate := (c.engines[j.engine]).rate })
  | .retrained => c.modFax l (fun j => { j with rate := (c.engines[j.engine]).rate })
  | _ => c

/-- A receiving job is told TRAINED, RETRAINED or TRAIN_FAILED (R129); a pending Abort waited for that result (R143). A strip held
over a retrain is passed now (R97). -/
def Chip.receiveTold (c : Chip) (l : LineNo) (j : FaxJob) (t : Told) : Chip :=
  match j.abortPending, t with
  | _, .nothing => c
  | true, _ => (c.endPage l true).sendBye l (some abortEnd)
  | _, .failed _ => c.modFax l (fun j => { j with trainWait := true, phase := .training })
  | _, _ =>
    let c := c.modFax l (fun j => { j with phase := .page })
    if j.index = 0 then c.beginPage l 1 j.firstRes else c.passStrip l

/-- The fax unit is told how a training or retrain ended (R129); a Hang Up that waited for the step sends its BYE (R144). The step that must
end is the one in progress, the measurement or a single test, not the whole training: the model's choice, for R144 says "when its step
ends" and names no step (log 38). -/
def Chip.faxTold (c : Chip) (l : LineNo) (t : Told) : Chip :=
  let c := c.copyRate l t
  match c.fax[l] with
  | none => c
  | some j =>
    if j.byeWanted then c.sendBye l none
    else if j.phase = .closing then c
    else
      match j.role, t with
      | _, .nothing => c
      | .receive, t => c.receiveTold l j t
      | .send, .failed last => c.sendTrainFailed l j last
      | .send, _ => c.sendTrained l j

/-- The engine tells its job. -/
def Chip.tell (r : Chip × Told) (e : EngineNo) : Chip :=
  match (r.1.engines[e]).purpose with
  | .fax => r.1.faxTold (r.1.engines[e]).line r.2
  | _ => r.1.dataTold e r.2

/-! ## The end of a fax session (R135, R142) -/

/-- The session ends by its own rule: the page is settled, the reply posted with the outcome list, and the release asked
(R135, R142). Where an Abort is pending, the request ends ABRUPT ABORTED (R143). -/
def Chip.closeFax (c : Chip) (l : LineNo) (n : FaxEnd) : Chip :=
  let n := if ((c.fax[l]).map (·.abortPending)) = some true then abortEnd else n
  let at_ := c.faxAt l
  let c := (c.modFax l (fun j => { j with endReason := n.reason, phase := .closing, wait := none })).settlePage l
  (c.endLong l n.cls n.reason (((c.fax[l]).map (·.record)).getD []) .fax at_).release l n.cause

/-- The session ends, or the detach that waited for its BYE does (R144). -/
def Chip.faxEnds (c : Chip) (l : LineNo) (n : FaxEnd) : Chip :=
  if (c.calls[l]).state = .releasing then c.detachEnds l else c.closeFax l n

end Sys2Proof.Machine
end

