-- ==== Sys2Proof/Machine/HostLink.lean ====
section
/-!
DEFINITION. The host link's commands (10_host_message_link.md): exchanges, power-on reset and start-up, the clock, the
dispatch of requests, and the device requests.
-/
namespace Sys2Proof.Machine

/-! ## Frames (R174, 11.1) -/

/-- One bit of the CRC: generator x^16 + x^12 + x^5 + 1 (11.1). -/
def crcBit (r : BitVec 16) : BitVec 16 := if r.msb then (r <<< 1) ^^^ 0x1021 else r <<< 1

/-- One byte of the CRC, bits most significant first. -/
def crcByte (r : BitVec 16) (b : Byte) : BitVec 16 :=
  (List.range 8).foldl (fun r _ => crcBit r) (r ^^^ (b.setWidth 16 <<< 8))

/-- The CRC of a run of bytes: starting value FFFFh, no final inversion (11.1). -/
def crc (bs : List Byte) : BitVec 16 := bs.foldl crcByte 0xFFFF

/-- The fields between the sync and the CRC. -/
def Frame.fields (f : Frame) : List Byte := [f.kind, f.line, f.tag, f.code] ++ be2 f.body.length ++ f.body

/-- A frame as it is shifted out (R174). -/
def Frame.bytes (f : Frame) : List Byte := 0xA5 :: f.fields ++ be2 (crc f.fields).toNat

/-- The frame that the bytes of a write exchange hold, if they hold one whose sync, length and CRC are right; bytes beyond
the CRC are ignored (R174). -/
def parseFrame : List Byte → Option Frame
  | 0xA5 :: kind :: line :: tag :: code :: h :: n :: rest =>
    let len := ofBytes [h, n]
    let f : Frame := { kind := kind, line := line, tag := tag, code := code, body := rest.take len }
    if len ≤ 256 ∧ len + 2 ≤ rest.length ∧ (rest.drop len).take 2 = be2 (crc f.fields).toNat then some f else none
  | _ => none

/-- A code-1 frame matches a Write Object that has been accepted and has not yet replied (R40). -/
def Chip.writeTag (c : Chip) (tag : Byte) : Bool :=
  c.writeReq.any (fun w => w.tag == tag) || c.link.inq.any (fun r => r.code == 0x19 && r.tag == tag)

/-- The link accepts the frame as a REQUEST (R174). -/
def Chip.takesRequest (c : Chip) (f : Frame) : Bool := c.ready && f.kind == 1 && c.link.accept

/-- The link accepts the frame as DATA (R174). -/
def Chip.takesData (c : Chip) (f : Frame) : Bool :=
  c.ready && f.kind == 4 && c.link.dataAccept && (f.code == 0 || (f.code == 1 && c.writeTag f.tag))

/-- The frame is judged (R174): accepted, or discarded with FRAME_REJECTED set. A frame written before READY sets it as well; R181 shows
every flag false until initialisation has ended, and after that it shows set, until a frame is accepted: the model's choice between the two
(log 38). -/
def Chip.judgeWrite (c : Chip) (f : Option Frame) : Chip :=
  match f with
  | none => c.modLink (fun k => { k with rejected := true })
  | some f =>
    if c.takesRequest f then
      c.modLink (fun k => { k with
        rejected := false, reserved := k.reserved + 1
        inq := k.inq ++ [{ line := f.line, tag := f.tag, code := f.code, body := f.body }] })
    else if c.takesData f then
      (c.modLink (fun k => { k with
        rejected := false
        data := k.data ++ [{ code := f.code, line := f.line, tag := f.tag, bytes := f.body }] })).takeEmpties
    else c.modLink (fun k => { k with rejected := true })

/-- The head frame has been clocked out whole: its slot becomes FREE, and the sets fill it (R173, R177). -/
def Link.headRead (k : Link) : Link := Link.drain 16 { k with out := k.out.tail }

/-! ## Exchanges (R173) -/

/-- A read exchange of `clocked` bytes after the direction byte (R173): the status byte, then the head frame or the empty
marker, is shifted out. Where the host clocks on past the frame's CRC or the empty marker, `ldo` keeps no further byte: the model's choice,
for R173 does not say what LDO then carries (log 38). -/
def execReadExchange (clocked : Nat) (s : State) : Host.Outcome State Fault Refusal :=
  effect s (fun c =>
    match c.link.out with
    | [] => c.modLink (fun k => { k with ldo := c.status :: ([0] : List Byte).take clocked })
    | f :: _ =>
      c.modLink (fun k =>
        let k := { k with ldo := c.status :: f.bytes.take clocked }
        if f.bytes.length ≤ clocked then k.headRead else k))

/-- A write exchange (R173, R174): LSEL rising after the direction byte alone has no effect. -/
def execWriteExchange (bytes : List Byte) (s : State) : Host.Outcome State Fault Refusal :=
  effect s (fun c =>
    let c' := c.modLink (fun k => { k with ldo := c.status :: List.replicate bytes.length 0 })
    if bytes.isEmpty then c' else c'.judgeWrite (parseFrame bytes))

/-! ## Resets, start-up and the clock (R179 to R181) -/

/-- Power-on reset: every block enters its power-on state (R181). The queue of commands is the model's, and stays. -/
def execPowerOnReset (s : State) : Host.Outcome State Fault Refusal := effect s (fun _ => {})

/-- CRITICAL arises: a forced release under FORCE_RELEASE, latch and notice alone under HOST_ONLY (R54). -/
def Chip.criticalArises (c : Chip) (l : LineNo) : Chip :=
  let g := (c.lines[l]).settings
  match g.action with
  | .forceRelease => (c.arise l .critical (some g.coolOff)).forcedRelease l g.coolOff { critical := true }
  | .hostOnly => c.arise l .critical none

/-- Supervision of a line begins with what its sensors show (R63). -/
def Chip.beginLine (c : Chip) (l : LineNo) (x : LineSense) : Chip :=
  let c := c.modLine l (fun n => { n with voltage := x.voltage, lostTimer := if x.voltage then .off else .start 2000 })
  let c := if x.hot then c.arise l .hot none else c
  if x.critical then c.criticalArises l else c

/-- The detail of READY (R180, R181). -/
def Chip.readyDetail (c : Chip) : List Byte :=
  [(match c.resetCause with | .power => (0 : Byte) | .soft => 1)] ++ be4 c.clock.toNat ++ [flag c.clockNotSet]

/-- Initialisation ends: READY is posted, and then line supervision begins (R181, R63). -/
def execInitialisationEnd (s0 s1 s2 s3 : LineSense) (s : State) : Host.Outcome State Fault Refusal :=
  effect s (fun c =>
    if c.ready then c
    else
      let c := { (c.noteDev .ready c.readyDetail) with ready := true }
      (((c.beginLine 0 s0).beginLine 1 s1).beginLine 2 s2).beginLine 3 s3)

/-- One second of a line's own times (log 5). -/
def Line.second (n : Line) (cooling : Bool) : Line :=
  { n with lostTimer := n.lostTimer.second, abandon := n.abandon.second, coolOff := if cooling then n.coolOff - 1 else n.coolOff }

/-- One second of a call's times (R64, R87). -/
def Call.second (k : Call) (off : Bool) : Call :=
  { k with
    offHook := if off then min 65535 (k.offHook + 1) else k.offHook
    connected := if k.state = .connected then min 65535 (k.connected + 1) else k.connected }

/-- One second of a data link unit's timers, which are suspended unless the engine is RUNNING (R110, R113). -/
def DataLink.second (u : DataLink) (running : Bool) : DataLink :=
  if running then { u with t1 := u.t1.second, rep := u.rep.second } else u

/-- One second passes: the device clock (R179), and every time counted in seconds (log 5). -/
def execClockTick (s : State) : Host.Outcome State Fault Refusal :=
  effect s (fun c =>
    if c.ready then
      { c with
        clock := c.clock + 1
        lines := Vector.ofFn (fun l => (c.lines[l]).second (decide ((c.calls[l]).state = .cooling)))
        calls := Vector.ofFn (fun l => (c.calls[l]).second (decide ((c.lines[l]).hook = .offHook)))
        engines := c.engines.map (fun g => { g with loss := g.loss.second })
        seqs := c.seqs.map PlanSeq.second
        units := Vector.ofFn (fun e => (c.units[e]).second (decide ((c.engines[e]).state = .running))) }
    else c)

/-! ## Dispatch (R176, R182) -/

/-- The codes of the catalogue (11.3). -/
def catalogue : List Byte :=
  [0x01, 0x02, 0x03, 0x04, 0x10, 0x11, 0x12, 0x13, 0x18, 0x19, 0x20, 0x21, 0x22, 0x23, 0x30, 0x31, 0x32, 0x33, 0x34, 0x35,
    0x36, 0x37, 0x38, 0x39, 0x3A, 0x3B, 0x40, 0x41, 0x48, 0x49, 0x50, 0x51, 0x52, 0x53, 0x58, 0x59]

/-- The request at the head of the inbound queue is dispatched by `f` if `want` names it; else nothing happens (log 1). -/
def Chip.dispatch (c : Chip) (want : Request → Bool) (f : Chip → Request → Chip) : Chip :=
  match c.link.inq with
  | [] => c
  | r :: rest => if c.ready && want r then f (c.modLink (fun k => { k with inq := rest })) r else c

/-- A device request: its line field must be Fh (R176). -/
def Chip.deviceRequest (c : Chip) (code : Byte) (f : Chip → Request → Chip) : Chip :=
  c.dispatch (fun r => r.code == code) (fun c r => if r.line = 0x0F then f c r else c.refuse r .badLine)

/-- A line request: its line field must be 0 to 3 (R176). -/
def Chip.lineRequest (c : Chip) (code : Byte) (f : Chip → Request → LineNo → Chip) : Chip :=
  c.dispatch (fun r => r.code == code) (fun c r =>
    match lineOf r.line with
    | some l => f c r l
    | none => c.refuse r .badLine)

/-- The walk of the body, before every check of the owner (R182). -/
def Chip.walked {α : Type} (c : Chip) (r : Request) (w : Option α) (f : α → Chip) : Chip :=
  match w with
  | some x => f x
  | none => c.refuse r .badParam

/-- A body that must be empty. -/
def walkEmpty (bs : List Byte) : Option Unit := if bs.isEmpty then some () else none

/-- A request whose code names none of the catalogue is REFUSED UNKNOWN_REQUEST (R176). -/
def execUnknownRequest (s : State) : Host.Outcome State Fault Refusal :=
  effect s (fun c => c.dispatch (fun r => !catalogue.contains r.code) (fun c r => c.refuse r .unknownRequest))

/-! ## Device requests (R178 to R180) -/

/-- An engine in the device status record (R178): state, line, purpose, rate. The line and the purpose of a FREE engine are FFh: the
model's choice (log 36). -/
def Engine.status (g : Engine) : List Byte :=
  [g.state.code, (if g.state = .free then 0xFF else b1 g.line.val),
    (if g.state = .free then 0xFF else match g.purpose with | .fax => 1 | _ => 0), rateCode g.rate]

/-- A channel in the device status record: state, owner, path, direction, end cause. -/
def Chan.status (ch : Chan) : List Byte := [ch.state.code] ++ ch.owner.code ++ ch.path.code ++ [ch.dir.code, ch.endCause.code]

/-- A data link unit in the device status record: session state, line, window in use. The line of a session NONE is FFh, and its
window is sent as it stands: the model's choice (log 36). -/
def DataLink.status (u : DataLink) : List Byte :=
  [u.state.code, (if u.state = .none then 0xFF else b1 u.line.val), b1 u.windowInUse]

/-- A line's fax job in the device status record: role, phase, mode, rate, page index; FFh each where there is none. -/
def faxStatus : Option FaxJob → List Byte
  | none => [0xFF, 0xFF, 0xFF, 0xFF, 0xFF]
  | some j => [j.role.code, j.phase.code, FaxMode.code? j.mode, rateCode j.rate, b1 j.index]

/-- The device status record (R178). The counts of free slots, RESERVED slots and waiting requests take one byte each: the model's
choice (log 13). So is the arbiter priority's numbering, ROTATING 0 and FIXED 1 as R178 lists them, where R37 lists FIXED first
(log 39). -/
def Chip.deviceRecord (c : Chip) : List Byte :=
  be2 c.store.free.length ++ [b1 c.store.freeSlotCount] ++ be2 c.lowMark ++ [flag c.store.low] ++ be2 c.faxReserve
    ++ (c.engines.toList.map Engine.status).flatten ++ [rateCode (some c.localMax), (match c.priority with | .rotating => 0 | .fixed => 1)]
    ++ (c.chans.toList.map Chan.status).flatten ++ (c.units.toList.map DataLink.status).flatten
    ++ (c.fax.toList.map faxStatus).flatten ++ [b1 c.link.reserved, b1 c.link.inq.length] ++ be4 c.clock.toNat
    ++ [flag c.clockNotSet, (match c.resetCause with | .power => 0 | .soft => 1)]

/-- Get Status (R178). -/
def execGetStatus (s : State) : Host.Outcome State Fault Refusal :=
  effect s (fun c => c.deviceRequest 0x01 (fun c r => c.walked r (walkEmpty r.body) (fun _ => c.normal r c.deviceRecord)))

/-- Configure Device (R178): four settings, all or none. The priority comes as ROTATING 0, FIXED 1, in the order of R178 and not of R37:
the model's choice (log 39). -/
def execConfigureDevice (s : State) : Host.Outcome State Fault Refusal :=
  effect s (fun c => c.deviceRequest 0x02 (fun c r => c.walked r (walkConfigure r.body) (fun (low, reserve, p, m) =>
    match rateOf m with
    | some rate =>
      if low ≤ 4096 ∧ reserve ≤ 4096 ∧ p.toNat ≤ 1 then
        (({ c with
            lowMark := low, faxReserve := reserve, priority := if p = 0 then .rotating else .fixed
            localMax := rate }).relow).normal r (be2 low ++ be2 reserve ++ [p, m])
      else c.refuse r .badParam
    | none => c.refuse r .badParam)))

/-- Set Clock (R179). -/
def execSetClock (s : State) : Host.Outcome State Fault Refusal :=
  effect s (fun c => c.deviceRequest 0x03 (fun c r => c.walked r (walkFour r.body) (fun n =>
    ({ c with clock := BitVec.ofNat 32 n, clockNotSet := false }).normal r (be4 n))))

/-- The data link unit `e` finishes its detach if its session is line `l`'s (R25, R121). -/
def Chip.closeSession (c : Chip) (l : LineNo) (e : EngineNo) : Chip := if (c.units[e]).line = l then c.finishData e else c

/-- A recording's channel is stopped with its drain, and the close rule applied (R25): a plan's, or that of a Record. -/
def Chip.closeRecordings (c : Chip) (l : LineNo) : Chip :=
  let c := match (c.seqs[l]).recording with
    | some r => (c.stopDrained r.chan).closePlanRecording l (r.ended .released)
    | none => c
  match (c.calls[l]).record with
  | some r => ((c.stopDrained r.chan).closeRecord r).1
  | none => c

/-- A page being received is closed PARTIAL, or deleted (R25). -/
def Chip.closeFaxPage (c : Chip) (l : LineNo) : Chip :=
  match (c.fax[l]).bind (fun j => if j.role = .receive then j.cur.map (fun p => (j.rate, p)) else none) with
  | some (rate, p) => c.closePage l rate p true
  | none => c

/-- The jobs of line `l` close out their objects, and leave their channels bound (R25). -/
def Chip.closeOut (c : Chip) (l : LineNo) : Chip :=
  ((((c.closeSession l 0).closeSession l 1).closeRecordings l).closeFaxPage l)

/-- A line under Device Reset (R63, R88): ON_HOOK without cool-off and without the guard. -/
def Line.afterReset (n : Line) : Line :=
  { n with
    resetTag := none, coolOff := 0, coolPending := 0, loopCurrent := false
    lostTimer := if n.voltage then .off else .start 2000 }

/-- One line under Device Reset (R63): the hook, and what the reset clears. -/
def Chip.resetLine (c : Chip) (l : LineNo) : Chip := (c.hangUp l).modLine l Line.afterReset

/-- Every channel that is not FREE is unbound, and every path buffer emptied (R43). -/
def Chip.resetChannels (c : Chip) : Chip :=
  { ((List.finRange 8).foldl Chip.unbindChan c) with
    readReq := none, writeReq := none, port := {}, linkPort := {}
    codecs := c.codecs.map (fun k => { k.quiet with buf := {} })
    epaths := Vector.replicate 4 {} }

/-- The link is emptied (R180). -/
def Chip.resetLink (c : Chip) : Chip :=
  c.modLink (fun k => { ldo := k.ldo })

/-- The calls end: their engines are released, with what the lines keep of them (R98, R101), and every call, plan sequence and fax
job is gone; the records are IDLE (R88). -/
def Chip.endCalls (c : Chip) : Chip :=
  { (c.releaseEngine 0 true).releaseEngine 1 true with
    calls := Vector.replicate 4 {}, seqs := Vector.replicate 4 {}, fax := Vector.replicate 4 none }

/-- Device Reset (R180): close out, empty the link, announce. It receives no reply. The jobs of all four lines close out before any
channel is unbound (R25, R43); that the lines, and then the channels, are taken in the order of their numbers is the model's
choice (log 33). -/
def Chip.deviceReset (c : Chip) : Chip :=
  let c := (((c.closeOut 0).closeOut 1).closeOut 2).closeOut 3
  let c := c.resetChannels.endCalls
  let c := (((c.resetLine 0).resetLine 1).resetLine 2).resetLine 3
  let c := { c.resetLink with resetCause := .soft }
  c.noteDev .ready c.readyDetail

/-- Device Reset is dispatched (R180). -/
def execDeviceReset (s : State) : Host.Outcome State Fault Refusal :=
  effect s (fun c => c.deviceRequest 0x04 (fun c r => c.walked r (walkEmpty r.body) (fun _ => c.deviceReset)))

end Sys2Proof.Machine
end

