-- ==== Sys2Proof/Machine/StoreRequests.lean ====
section
/-!
DEFINITION. The requests of the message store, Read Object, Write Object and Abort with line Fh (R10 to R16, R39 to R42).
-/
namespace Sys2Proof.Machine

/-! ## Object requests (R10 to R16) -/

/-- The kind's attributes of a Create Object, judged (R10); the kind is VOICE_CLIP or FAX_PAGE. -/
def createAttr (k : Byte) (page : Option (Byte × Byte × List Byte)) : Option Attr :=
  match page with
  | none => if k = 0 then some .clip else none
  | some (p, res, ident) =>
    match resolutionOf res with
    | some res =>
      if 1 ≤ p.toNat ∧ ident.length ≤ 20 then
        some (.page { page := p.toNat, res := res, ident := if ident.isEmpty then none else some ident })
      else none
    | none => none

/-- Create Object (R10). -/
def execCreateObject (s : State) : Host.Outcome State Fault Refusal :=
  effect s (fun c => c.deviceRequest 0x10 (fun c r => c.walked r (walkCreate r.body) (fun (k, o, page) =>
    match ownerOf o, createAttr k page with
    | some owner, some attr =>
      match c.createObj owner attr with
      | some (c, i) => c.normal r (be2 (c.handle i))
      | none => c.refuse r .noSlot
    | _, _ => c.refuse r .badParam)))

/-- The stale-handle check, before every other check on a body's values (R9). -/
def Chip.named (c : Chip) (r : Request) (h : Nat) (f : SlotNo → Obj → Chip) : Chip :=
  match c.store.lookup h with
  | some (i, o) => f i o
  | none => c.refuse r .stale

/-- The object is a data ring. -/
def Obj.isRing (o : Obj) : Bool :=
  match o.attr with
  | .ring .. => true
  | _ => false

/-- Delete Object (R11): FREED with the blocks returned, or DOOMED. -/
def execDeleteObject (s : State) : Host.Outcome State Fault Refusal :=
  effect s (fun c => c.deviceRequest 0x11 (fun c r => c.walked r (walkHandle r.body) (fun h => c.named r h (fun i o =>
    if o.isRing then c.refuse r .badParam
    else
      match c.deleteObj i o with
      | (c, true) => c.normal r ([0] ++ be2 o.chain.length)
      | (c, false) => c.normal r ([1] ++ be2 0)))))

/-- Get Object Info (R15). -/
def execGetObjectInfo (s : State) : Host.Outcome State Fault Refusal :=
  effect s (fun c => c.deviceRequest 0x12 (fun c r => c.walked r (walkHandle r.body) (fun h => c.named r h (fun _ o =>
    c.normal r (o.record h)))))

/-- Slot `i` holds an OPEN_WRITE or CLOSED object that matches both filters (R16). Kind filter 4 is ANY (log 13). -/
def Chip.listed (c : Chip) (kind owner : Byte) (i : SlotNo) : Bool :=
  match c.obj i with
  | some o =>
    decide (o.state ≠ .doomed) && (kind == 4 || o.attr.kindCode == kind) && (owner == 0xFE || o.owner.code == owner)
  | none => false

/-- The slots that a List Objects reports, and its next slot: the visit stops at its 16th entry or past slot 127 (R16). -/
def Chip.listWalk (c : Chip) (kind owner : Byte) (start : Nat) : List SlotNo × Nat :=
  let all := (List.finRange 128).filter (fun i => decide (start ≤ i.val) && c.listed kind owner i)
  let some16 := all.take 16
  (some16, if some16.length < 16 then 128 else (some16.getLast?.map (fun i => i.val + 1)).getD 128)

/-- List Objects (R16). -/
def execListObjects (s : State) : Host.Outcome State Fault Refusal :=
  effect s (fun c => c.deviceRequest 0x13 (fun c r => c.walked r (walkList r.body) (fun (kind, owner, start) =>
    if 127 < start ∨ 4 < kind.toNat ∨ ((ownerOf owner).isNone ∧ owner ≠ 0xFE) then c.refuse r .badParam
    else
      let w := c.listWalk kind owner start
      c.normal r ([b1 w.1.length, b1 w.2]
        ++ (w.1.map (fun i => ((c.obj i).map (fun o => o.entry (c.handle i))).getD [])).flatten))))

/-! ## Read Object (R39) -/

/-- Read Object is answered (R39). -/
def Chip.replyRead (c : Chip) (tag : Byte) (cls : Cls) (reason : Reason) (sent : Nat) (unread : Bool) : Chip :=
  ({ c with readReq := none }).modLink (·.reply 0x0F tag 0x18 cls reason (be4 sent ++ [flag unread]))

/-- A FAX_PAGE read to its end: UNREAD is cleared (R39). -/
def Obj.markRead (o : Obj) : Obj :=
  { o with attr := match o.attr with
      | .page a => .page { a with unread := false }
      | x => x }

/-- The object is a FAX_PAGE, not DOOMED, whose read ended at its length (R39). -/
def Obj.readWhole (o : Obj) (end_ : Nat) : Bool :=
  match o.attr with
  | .page _ => decide (o.state ≠ .doomed) && decide (end_ = o.length)
  | _ => false

/-- The terminal count of a Read Object (R39). -/
def Chip.readDone (c : Chip) (q : ReadReq) : Chip :=
  let ch := c.chans[q.chan]
  let whole := ((c.obj ch.slot).map (fun o => o.readWhole ch.cur)).getD false
  let c := if whole then c.modObj ch.slot Obj.markRead else c
  (c.unbindChan q.chan).replyRead q.tag .normal .none q.sent whole

/-- The Read Object ends ABRUPT ABORTED (R42). -/
def Chip.readAbort (c : Chip) (q : ReadReq) : Chip :=
  ((c.stopChan q.chan false).unbindChan q.chan).replyRead q.tag .abrupt .aborted q.sent false

/-- The bind of a LINK channel that starts at once (R39, R40). -/
def Chip.bindLink (c : Chip) (i : SlotNo) (d : ChanDir) (base count : Nat) (m : Mode) : Option (Chip × ChanNo) :=
  match c.bind { owner := .link, slot := i, dir := d, path := .link, base := base, count := count, mode := m, repeats := 0 } with
  | .ok (c, ch) => some (c.startChan ch, ch)
  | .error _ => none

/-- Read Object (R39). -/
def execReadObject (s : State) : Host.Outcome State Fault Refusal :=
  effect s (fun c => c.deviceRequest 0x18 (fun c r => c.walked r (walkRead r.body) (fun (h, start, count, m) =>
    c.named r h (fun i o =>
      if c.readReq.isSome then c.refuse r .busy
      else if o.isRing then c.refuse r .badParam
      else
        match linkModeOf m with
        | none => c.refuse r .badParam
        | some mode =>
          if o.length < start ∨ (count ≠ 0 ∧ o.length < start + count) then c.refuse r .badParam
          else
            let n := if count = 0 then o.length - start else count
            if n = 0 then c.normal r (be4 0 ++ [0])
            else
              match c.bindLink i .toPath start n mode with
              | some (c, ch) => { c with readReq := some { tag := r.tag, chan := ch } }
              | none => c.refuse r .noChannel))))

/-! ## Write Object (R40, R41) -/

/-- How a Write Object left its object (R41). -/
inductive CloseOutcome where
  | closed | open_ | deleted
  deriving DecidableEq, Repr

def CloseOutcome.code : CloseOutcome → Byte
  | .closed => 0 | .open_ => 1 | .deleted => 2

/-- A running Write Object is answered, and its code-1 frames leave (R40, R41). -/
def Chip.replyWrite (c : Chip) (tag : Byte) (cls : Cls) (reason : Reason) (written surplus : Nat) (x : CloseOutcome) : Chip :=
  ({ c with writeReq := none }).modLink (fun k =>
    (k.reply 0x0F tag 0x19 cls reason (be4 written ++ be4 surplus ++ [x.code])).dropWrites tag)

/-- The object a Write Object wrote has meanwhile become DOOMED. -/
def Chip.doomedAt (c : Chip) (i : SlotNo) : Bool := decide ((c.obj i).map (·.state) = some .doomed)

/-- The terminal count of a Write Object (R41): `surplus` bytes of the current frame lay beyond the count. -/
def Chip.writeDone (c : Chip) (q : WriteReq) (surplus : Nat) : Chip :=
  let i := (c.chans[q.chan]).slot
  let doomed := c.doomedAt i
  let c := if q.closeFlag then (c.closeObj i).1 else c
  (c.unbindChan q.chan).replyWrite q.tag .normal .none q.written surplus
    (if doomed then .deleted else if q.closeFlag then .closed else .open_)

/-- The Write Object ends ABRUPT (R41, R42): the close outcome is as the request stood, OPEN, or DELETED if the object had
become DOOMED (R184). -/
def Chip.writeAbort (c : Chip) (q : WriteReq) (reason : Reason) : Chip :=
  ((c.stopChan q.chan false).unbindChan q.chan).replyWrite q.tag .abrupt reason q.written 0
    (if c.doomedAt (c.chans[q.chan]).slot then .deleted else .open_)

/-- Another channel is bound FROM_PATH to the object (R40). -/
def Chip.beingWritten (c : Chip) (i : SlotNo) : Bool :=
  c.chans.toList.any (fun ch => decide (ch.state ≠ .free) && decide (ch.slot = i) && decide (ch.dir = .fromPath))

/-- Write Object (R40). A close flag other than 0 or 1 is judged with the mode at step 5: R40 lists no check of it, and R183 has it refused
among the values, so its place behind both checks for BUSY is the model's choice (log 39). -/
def execWriteObject (s : State) : Host.Outcome State Fault Refusal :=
  effect s (fun c => c.deviceRequest 0x19 (fun c r => c.walked r (walkWrite r.body) (fun (h, count, cl, m) =>
    c.named r h (fun i o =>
      if c.writeReq.isSome then c.refuse r .busy
      else if o.isRing || decide (o.state ≠ .openWrite) then c.refuse r .badParam
      else if c.beingWritten i then c.refuse r .busy
      else
        match linkModeOf m, flagOf cl with
        | some mode, some close =>
          if count = 0 ∨ 4194304 < o.length + count then c.refuse r .badParam
          else
            match c.bindLink i .fromPath o.length count mode with
            | some (c, ch) => { c with writeReq := some { tag := r.tag, chan := ch, closeFlag := close } }.takeEmpties
            | none => c.refuse r .noChannel
        | _, _ => c.refuse r .badParam))))

/-! ## Abort with line Fh (R42) -/

/-- The running Read Object is ended; the answer names it if there was one. -/
def Chip.abortRead (c : Chip) : Chip × List Byte :=
  match c.readReq with
  | some q => (c.readAbort q, [0x18])
  | none => (c, [])

/-- The running Write Object is ended; the answer names it if there was one. -/
def Chip.abortWrite (c : Chip) : Chip × List Byte :=
  match c.writeReq with
  | some q => (c.writeAbort q .aborted, [0x19])
  | none => (c, [])

/-- Abort with line Fh (R42): both replies come before its own, which names the requests it ended. Where both run, Read Object's reply
comes before Write Object's: the model's choice (log 37). -/
def execAbortDevice (s : State) : Host.Outcome State Fault Refusal :=
  effect s (fun c => c.dispatch (fun r => r.code == 0x33 && r.line == 0x0F) (fun c r =>
    c.walked r (walkEmpty r.body) (fun _ =>
      let x := c.abortRead
      let y := x.1.abortWrite
      y.1.normal r (str (x.2 ++ y.2)))))

end Sys2Proof.Machine
end

