-- ==== Sys2Proof/Machine/LineRequests.lean ====
section
/-!
DEFINITION. The requests to the line unit (R58 to R61).
-/
namespace Sys2Proof.Machine

/-- Get Line Status (R60): it changes no state but the reply. -/
def execGetLineStatus (s : State) : Host.Outcome State Fault Refusal :=
  effect s (fun c => c.lineRequest 0x20 (fun c r l => c.walked r (walkEmpty r.body) (fun _ => c.normal r (c.lineRecord l))))

/-- Set Line Settings (R59): all five, or none. -/
def execSetLineSettings (s : State) : Host.Outcome State Fault Refusal :=
  effect s (fun c => c.lineRequest 0x21 (fun c r l => c.walked r (walkLineSettings r.body) (fun g =>
    match g with
    | some g => (c.modLine l (fun n => { n with settings := g })).normal r g.code
    | none => c.refuse r .badParam)))

/-- Clear Faults (R58): the reply lists the latches after the request, and the conditions present. -/
def execClearFaults (s : State) : Host.Outcome State Fault Refusal :=
  effect s (fun c => c.lineRequest 0x22 (fun c r l => c.walked r (walkByte r.body) (fun b =>
    match faultSetOf b with
    | some f =>
      let c := c.modLine l (·.clearLatches f)
      c.normal r [(c.lines[l]).latch.code, (c.lines[l]).cond.code]
    | none => c.refuse r .badParam)))

/-- Line Reset (R61); its reply comes when the record is next IDLE. -/
def execLineReset (s : State) : Host.Outcome State Fault Refusal :=
  effect s (fun c => c.lineRequest 0x23 (fun c r l => c.walked r (walkEmpty r.body) (fun _ =>
    if (c.lines[l]).resetTag.isSome then c.refuse r .busy else c.lineReset l r.tag)))

end Sys2Proof.Machine
end

