-- ==== Sys2Proof/Machine/CallRequests.lean ====
section
/-!
DEFINITION. The requests to call control (R67 to R84).
-/
namespace Sys2Proof.Machine

/-! ## Dial (R67) -/

/-- Another long request, other than Line Reset, is in execution on the line. -/
def Chip.longBusy (c : Chip) (l : LineNo) : Bool := (c.calls[l]).long.isSome

/-- The checks that Dial and Answer share (R67, R72): `want` is the state the call record must have. -/
def Chip.seizeCheck (c : Chip) (l : LineNo) (want : CallState) : Option Reason :=
  if c.longBusy l then some .busy
  else if (c.calls[l]).state = .cooling then some .lineCooling
  else if !(c.lines[l]).usable then some .lineFault
  else if (c.calls[l]).state ≠ want then some .notIdle
  else none

/-- The engine, and for DATA the data-ring pair, that a purpose needs (R67, R72): all or nothing. -/
def Chip.takeFor (c : Chip) (l : LineNo) (p : Purpose) (side : Side) : Except Reason (Chip × Option EngineNo) :=
  match p with
  | .voice => .ok (c, none)
  | .data =>
    match c.takeData l side with
    | .ok (c, e) => .ok (c, some e)
    | .error r => .error r
  | .fax =>
    match c.claim l .fax with
    | some (c, e) => .ok (c, some e)
    | none => .error .noEngine

/-- The dial string, and for FAX the length of the page list, are valid (R67, R68). -/
def Chip.dialValid (c : Chip) (l : LineNo) (p : Purpose) (ds : List Byte) (pages : List Nat) : Bool :=
  dialOk (c.lines[l]).settings.method ds && (decide (p ≠ .fax) || within 1 16 pages.length)

/-- The line is seized for a Dial (R67, R68). -/
def Chip.seizeDial (c : Chip) (l : LineNo) (tag : Byte) (p : Purpose) (ds : List Byte) (pages : List Nat)
    (e : Option EngineNo) : Chip :=
  let g := (c.lines[l]).settings
  (c.modCall l (fun k => { k with
    state := .seized, phase := .seize, direction := some .outgoing, purpose := some p, dialString := ds
    method := g.method, dialWait := g.dialWait, limit := g.limit, engine := e, pages := pages
    long := some { kind := .dial, tag := tag } })).modLine l Line.seize

/-- Dial (R67): its reply comes when the call is connected or has failed; a fax Dial's at the end of the session. -/
def execDial (s : State) : Host.Outcome State Fault Refusal :=
  effect s (fun c => c.lineRequest 0x30 (fun c r l => c.walked r (walkDial r.body) (fun (p, ds, pages) =>
    match c.seizeCheck l .idle with
    | some reason => c.refuse r reason
    | none =>
      if c.dialValid l p ds pages then
        match c.takeFor l p .calling with
        | .error reason => c.refuse r reason
        | .ok (c, e) => c.seizeDial l r.tag p ds pages e
      else c.refuse r .badParam)))

/-! ## Answer (R72, R76) -/

/-- Answer for VOICE, DATA or FAX, after its checks (R72). -/
def Chip.answerFor (c : Chip) (r : Request) (l : LineNo) (p : Purpose) : Chip :=
  match c.takeFor l p .answering with
  | .error reason => c.refuse r reason
  | .ok (c, e) =>
    c.seizeAnswer l (fun k => { k with
      control := .host, purpose := some p, engine := e, long := some { kind := .answer, tag := r.tag } })

/-- Answer with purpose PLAN (R76): mode, ring count and screened flag are not consulted, and REJECT is taken as PASS. -/
def Chip.answerPlan (c : Chip) (r : Request) (l : LineNo) : Chip :=
  let a := c.screenAction (c.lines[l]).caller
  match c.planStart l (c.planFor l a).1 (c.planFor l a).2 with
  | .error f => c.refuse r f.stop
  | .ok c => c.modCall l (fun k => { k with long := some { kind := .answerPlan, tag := r.tag } })

/-- Answer (R72): the purposes are VOICE, DATA, FAX and PLAN. -/
def execAnswer (s : State) : Host.Outcome State Fault Refusal :=
  effect s (fun c => c.lineRequest 0x31 (fun c r l => c.walked r (walkByte r.body) (fun b =>
    match c.seizeCheck l .alerting with
    | some reason => c.refuse r reason
    | none =>
      if b = 3 then c.answerPlan r l
      else
        match purposeOf b with
        | some p => c.answerFor r l p
        | none => c.refuse r .badParam)))

/-! ## Hang Up and Abort (R83, R84) -/

/-- Hang Up (R83): NO_CALL, DECLINED, RELEASING_STARTED or ALREADY_RELEASING. -/
def execHangUp (s : State) : Host.Outcome State Fault Refusal :=
  effect s (fun c => c.lineRequest 0x32 (fun c r l => c.walked r (walkEmpty r.body) (fun _ =>
    match (c.calls[l]).state with
    | .idle => c.normal r [0]
    | .alerting => (c.modCall l (fun k => { k with screened := true })).normal r [1]
    | .releasing => c.normal r [3]
    | .cooling => c.normal r [3]
    | _ => (c.release l .hungUp).normal r [2])))

/-- A Play ends ABRUPT ABORTED: its channel is stopped and unbound, and the call stays up (R84). -/
def Chip.abortPlay (c : Chip) (l : LineNo) (i : ChanNo) : Chip :=
  let at_ := c.longAt l
  let result := c.playResult l i
  ((c.stopRetire l i).modCall l (fun k => { k with phase := .none })).endLong l .abrupt .aborted result .playing at_

/-- A Record ends ABRUPT ABORTED with the close rule, and the call stays up (R81, R84). Its buffered bytes are written within the
step, for its reply comes before the Abort's: the model's reading (log 9). -/
def Chip.abortRecord (c : Chip) (l : LineNo) : Chip :=
  let p := c.stopRecord l .stopped
  (p.1.modCall l (fun k => { k with phase := .none })).endLong l .abrupt .aborted p.2 .recording (p.1.longAt l)

/-- Send Digits ends ABRUPT ABORTED; the digit that sounds is not counted (R82, R84). -/
def Chip.abortDigits (c : Chip) (l : LineNo) : Chip :=
  (c.modCall l (fun k => { k with phase := .none, step := .none, todo := [] })).endLong l .abrupt .aborted
    [b1 (c.calls[l]).digitsSent] .sendingDigits none

/-- What Abort does to a line's long request by its phase (R84); the answer says whether the table ends the request. A Record whose
end has come has its class from that end, and runs on to its reply (R81, R84). -/
def Chip.abortLong (c : Chip) (l : LineNo) (g : Long) : Chip × Bool :=
  match g.kind with
  | .play => (match g.chan with | some i => c.abortPlay l i | none => c, true)
  | .record => if ((c.calls[l]).record.bind (·.cause)).isSome then (c, false) else (c.abortRecord l, true)
  | .sendDigits => (c.abortDigits l, true)
  | _ =>
    match (c.calls[l]).phase with
    | .fax => (c.modFax l (fun j => { j with abortPending := true }), true)
    | .seize => (c.release l .aborted, true)
    | .dialTone => (c.release l .aborted, true)
    | .dialling => (c.release l .aborted, true)
    | .progress => (c.release l .aborted, true)
    | _ => (c, false)

/-- Abort with a line field 0 to 3 (R84): the ended request's reply comes first; the Abort reply names it by its code, or
lists nothing (log 13). -/
def execAbort (s : State) : Host.Outcome State Fault Refusal :=
  effect s (fun c => c.dispatch (fun r => r.code == 0x33 && r.line != 0x0F) (fun c r =>
    match lineOf r.line with
    | none => c.refuse r .badLine
    | some l =>
      c.walked r (walkEmpty r.body) (fun _ =>
        match (c.calls[l]).long with
        | none => c.normal r (str [])
        | some g =>
          match c.abortLong l g with
          | (c, true) => c.normal r (str [g.kind.code])
          | (c, false) => c.normal r (str []))))

/-! ## Host-controlled voice calls (R79 to R82) -/

/-- The plan of a connected voice call ends, and control passes to the host (R79). The call record keeps the mailbox of its plan, which
CALL_ENDED then carries: the model's choice, as it is after a discrimination (log 33). -/
def Chip.takeOver (c : Chip) (l : LineNo) : Chip :=
  ((c.stopSequence l .stopped).endSequence l).modCall l (fun k => { k with
    job := .none, control := .host, phase := .none, digits := [], window := .closed })

/-- Take Over (R79): TAKEN or ALREADY_HOST. -/
def execTakeOver (s : State) : Host.Outcome State Fault Refusal :=
  effect s (fun c => c.lineRequest 0x34 (fun c r l => c.walked r (walkEmpty r.body) (fun _ =>
    if (c.calls[l]).state = .connected ∧ (c.calls[l]).purpose = some .voice then
      match (c.calls[l]).control with
      | .plan => (c.takeOver l).normal r [0]
      | .host => c.normal r [1]
    else c.refuse r .notConnected)))

/-- The first two checks of Play, Record and Send Digits (R80). -/
def Chip.voiceCheck (c : Chip) (l : LineNo) : Option Reason :=
  if c.longBusy l then some .busy
  else if (c.calls[l]).state ≠ .connected ∨ (c.calls[l]).purpose ≠ some .voice then some .notConnected
  else if (c.calls[l]).control = .plan then some .planActive
  else none

/-- The object is a CLOSED voice object of length 1 or more (R80). -/
def Obj.playable (o : Obj) : Bool :=
  decide (o.state = .closed) && decide (0 < o.length) &&
    (match o.attr with
      | .clip => true
      | .message .. => true
      | _ => false)

/-- Play (R80): its reply comes at terminal count. BUSY, NOT_CONNECTED and PLAN_ACTIVE come before the stale-handle check, as R80 orders
them, though R176 and R183 have an owner start with that check: the model's choice between the two (log 38). -/
def execPlay (s : State) : Host.Outcome State Fault Refusal :=
  effect s (fun c => c.lineRequest 0x35 (fun c r l => c.walked r (walkPlay r.body) (fun (h, repeats, speed) =>
    match c.voiceCheck l with
    | some reason => c.refuse r reason
    | none =>
      c.named r h (fun i o =>
        if o.playable && within 8 24 speed then
          match c.bindCodec (.callControl l) l i .toPath o.length repeats speed with
          | .error reason => c.refuse r reason
          | .ok (c, ch) => c.modCall l (fun k => { k with
              phase := .playing, long := some { kind := .play, tag := r.tag, handle := some h, chan := some ch } })
        else c.refuse r .badParam))))

/-- A VOICE_CLIP is created and a channel bound to it and started; nothing is created if the channel cannot be had (R81). -/
def Chip.startRecord (c : Chip) (r : Request) (l : LineNo) (maxLen silenceEnd : Nat) : Chip :=
  match c.createObj (.line l) .clip with
  | none => c.refuse r .noSlot
  | some (c', i) =>
    match c'.bindCodec (.callControl l) l i .fromPath (4000 * maxLen) 0 16 with
    | .error reason => c.refuse r reason
    | .ok (c', ch) =>
      c'.modCall l (fun k => { k with
        phase := .recording
        long := some { kind := .record, tag := r.tag, handle := some (c'.handle i), chan := some ch }
        record := some { handle := c'.handle i, slot := i, chan := ch, maxLen := maxLen, silenceEnd := silenceEnd } })

/-- Record (R81): its reply comes at the recording's end. -/
def execRecord (s : State) : Host.Outcome State Fault Refusal :=
  effect s (fun c => c.lineRequest 0x36 (fun c r l => c.walked r (walkRecord r.body) (fun (maxLen, silenceEnd) =>
    match c.voiceCheck l with
    | some reason => c.refuse r reason
    | none =>
      if within 1 300 maxLen && (silenceEnd == 0 || within 2 10 silenceEnd) then c.startRecord r l maxLen silenceEnd
      else c.refuse r .badParam)))

/-- Send Digits (R82): its reply comes after the last character. -/
def execSendDigits (s : State) : Host.Outcome State Fault Refusal :=
  effect s (fun c => c.lineRequest 0x37 (fun c r l => c.walked r (lastStr r.body) (fun ds =>
    match c.voiceCheck l with
    | some reason => c.refuse r reason
    | none =>
      if sendOk ds then
        Chip.sendChars ds (c.modCall l (fun k => { k with
          phase := .sendingDigits, digitsSent := 0, long := some { kind := .sendDigits, tag := r.tag } })) l
      else c.refuse r .badParam)))

/-! ## The answer plan and the screen list (R73, R74) -/

/-- Set Answer Plan (R73): all three fields, or none. -/
def execSetAnswerPlan (s : State) : Host.Outcome State Fault Refusal :=
  effect s (fun c => c.lineRequest 0x38 (fun c r l => c.walked r (walkPlan r.body) (fun p =>
    match p with
    | some p => ({ c with plans := c.plans.set l p }).normal r p.code
    | none => c.refuse r .badParam)))

/-- Get Answer Plan (R73). -/
def execGetAnswerPlan (s : State) : Host.Outcome State Fault Refusal :=
  effect s (fun c => c.lineRequest 0x39 (fun c r l => c.walked r (walkEmpty r.body) (fun _ => c.normal r (c.plans[l]).code)))

/-- Set Screen Entry (R74): an entry number 0 to 15, and EMPTY or a match and an action. -/
def execSetScreenEntry (s : State) : Host.Outcome State Fault Refusal :=
  effect s (fun c => c.deviceRequest 0x3A (fun c r => c.walked r (walkScreen r.body) (fun (n, x) =>
    match mailboxOf n, x with
    | some n, some x => ({ c with screen := c.screen.set n x }).normal r []
    | _, _ => c.refuse r .badParam)))

/-- Get Screen Entry (R74). -/
def execGetScreenEntry (s : State) : Host.Outcome State Fault Refusal :=
  effect s (fun c => c.deviceRequest 0x3B (fun c r => c.walked r (walkByte r.body) (fun n =>
    match mailboxOf n with
    | some n => c.normal r (screenCode c.screen[n])
    | none => c.refuse r .badParam)))

end Sys2Proof.Machine
end

