-- ==== Sys2Proof/Machine/Settings.lean ====
section
/-!
DEFINITION. The requests that set and read options, mailboxes and indicator trees (R103, R124, R150 to R152, R170, R171).
-/
namespace Sys2Proof.Machine

/-! ## Link and fax options (R103, R124) -/

/-- Set Link Options (R103): all four, or none. -/
def execSetLinkOptions (s : State) : Host.Outcome State Fault Refusal :=
  effect s (fun c => c.deviceRequest 0x40 (fun c r => c.walked r (walkLinkOptions r.body) (fun o =>
    match o with
    | some o => ({ c with linkOpts := o }).normal r o.code
    | none => c.refuse r .badParam)))

/-- Get Link Options (R103). -/
def execGetLinkOptions (s : State) : Host.Outcome State Fault Refusal :=
  effect s (fun c => c.deviceRequest 0x41 (fun c r => c.walked r (walkEmpty r.body) (fun _ => c.normal r c.linkOpts.code)))

/-- Set Fax Options (R124): all five, or none. -/
def execSetFaxOptions (s : State) : Host.Outcome State Fault Refusal :=
  effect s (fun c => c.deviceRequest 0x48 (fun c r => c.walked r (walkFaxOptions r.body) (fun o =>
    match o with
    | some o => ({ c with faxOpts := o }).normal r o.code
    | none => c.refuse r .badParam)))

/-- Get Fax Options (R124). -/
def execGetFaxOptions (s : State) : Host.Outcome State Fault Refusal :=
  effect s (fun c => c.deviceRequest 0x49 (fun c r => c.walked r (walkEmpty r.body) (fun _ => c.normal r c.faxOpts.code)))

/-! ## Mailboxes (R150 to R152) -/

/-- The mailbox record less its list, bytes 0 to 18 (11.5); an absent code shows FFh in its four digits (log 28), and the digits of one that
is present travel as ASCII characters, the model's choice (log 39). That the Set Mailbox reply, which
R150 gives as this record, has the list length at byte 18 and neither the start index nor the entry count is the model's choice (log 38). -/
def Mailbox.record (b : Mailbox) (m : MailboxNo) : List Byte :=
  [b1 m.val, flag b.enabled, flag b.code.isSome] ++ (match b.code with
      | some ds => ds.map digitChar
      | none => [0xFF, 0xFF, 0xFF, 0xFF])
    ++ optHandle b.greeting ++ be2 b.quota ++ be2 b.maxLen ++ [b1 b.silenceEnd] ++ be2 b.used
    ++ [b1 b.newCount, b1 b.recordings, b1 b.list.length]

/-- One list entry, 10 bytes (11.5). -/
def Chip.listEntry (c : Chip) (h : Nat) : List Byte :=
  match c.store.lookup h with
  | some (_, o) =>
    be2 h ++ [(match o.attr with
      | .message caller l st => b1 ((MsgStatus.code st).toNat + 4 * l.val + 16 * Caller.form caller)
      | _ => 0)] ++ be3 o.length ++ be4 o.created.toNat
  | none => be2 h ++ List.replicate 8 0

/-- The fields of a mailbox that Set Mailbox replaces (R150). -/
def Mailbox.settings (b : Mailbox) (x : MailboxSet) : Mailbox :=
  { b with enabled := x.enabled, code := x.code, quota := x.quota, maxLen := x.maxLen, silenceEnd := x.silenceEnd }

/-- Set Mailbox (R150): every field named, or none. -/
def execSetMailbox (s : State) : Host.Outcome State Fault Refusal :=
  effect s (fun c => c.deviceRequest 0x50 (fun c r => c.walked r (walkMailbox r.body) (fun x =>
    match x with
    | some x =>
      let c := c.modMailbox x.number (·.settings x)
      c.normal r ((c.mailboxes[x.number]).record x.number)
    | none => c.refuse r .badParam)))

/-- Get Mailbox (R150): the record, and up to 16 entries from the start index onward. -/
def execGetMailbox (s : State) : Host.Outcome State Fault Refusal :=
  effect s (fun c => c.deviceRequest 0x51 (fun c r => c.walked r (walkTwo r.body) (fun (m, start) =>
    match mailboxOf m with
    | some m =>
      if start.toNat ≤ 31 then
        let b := c.mailboxes[m]
        let hs := (b.list.drop start.toNat).take 16
        c.normal r (b.record m ++ [start, b1 hs.length] ++ (hs.map c.listEntry).flatten)
      else c.refuse r .badParam
    | none => c.refuse r .badParam)))

/-- Set Message Status (R151): the reply carries the old status and the new. -/
def execSetMessageStatus (s : State) : Host.Outcome State Fault Refusal :=
  effect s (fun c => c.deviceRequest 0x52 (fun c r => c.walked r (walkMessageStatus r.body) (fun (h, v) =>
    c.named r h (fun i o =>
      match o.attr, statusOf v with
      | .message _ _ old, some st =>
        if o.state = .closed then (c.setStatus i st).normal r [old.code, st.code] else c.refuse r .badParam
      | _, _ => c.refuse r .badParam))))

/-- The mailbox's greeting is set or made absent. -/
def Chip.setGreeting (c : Chip) (r : Request) (m : Byte) (g : Option Nat) : Chip :=
  match mailboxOf m with
  | some m => (c.modMailbox m (fun b => { b with greeting := g })).normal r []
  | none => c.refuse r .badParam

/-- Set Greeting (R152): FFFFh is "none"; a handle takes the stale-handle check first, also before that of the mailbox number (R152,
R183). -/
def execSetGreeting (s : State) : Host.Outcome State Fault Refusal :=
  effect s (fun c => c.deviceRequest 0x53 (fun c r => c.walked r (walkGreeting r.body) (fun (m, h) =>
    if h = 0xFFFF then c.setGreeting r m none
    else
      c.named r h (fun _ o =>
        if o.state = .closed ∧ o.attr = .clip then c.setGreeting r m (some h) else c.refuse r .badParam))))

/-! ## Indicators (R170, R171) -/

/-- A tree: its source set and its mode, 5 bytes (11.5). -/
def Tree.code (t : Tree) : List Byte := sourceSet t.sources ++ [if t.all then 1 else 0]

/-- Set Indicator (R170): one tree is replaced whole, and the reply carries the output as the new tree gives it. -/
def execSetIndicator (s : State) : Host.Outcome State Fault Refusal :=
  effect s (fun c => c.deviceRequest 0x58 (fun c r => c.walked r (walkIndicator r.body) (fun x =>
    match x with
    | some (i, t) =>
      let c := { c with trees := c.trees.set i t }
      c.normal r ([b1 i.val] ++ t.code ++ [flag (c.output i)])
    | none => c.refuse r .badParam)))

/-- Get Indicators (R171): the trees, the source values and the output values. -/
def execGetIndicators (s : State) : Host.Outcome State Fault Refusal :=
  effect s (fun c => c.deviceRequest 0x59 (fun c r => c.walked r (walkEmpty r.body) (fun _ =>
    c.normal r ((c.trees.toList.map Tree.code).flatten ++ sourceSet c.sources ++ [c.outputs]))))

end Sys2Proof.Machine
end

