-- ==== Sys2Proof/Machine/PathEvents.lean ====
section
/-!
DEFINITION. The events of the store port and of the paths: grants, transfers, bytes taken and produced, the end of a path's
play-out (R28 to R38, R166).
-/
namespace Sys2Proof.Machine

/-! ## The port (R29, R30, R37, R38) -/

/-- The arbiter's decision (R37). -/
def execArbiterGrant (s : State) : Host.Outcome State Fault Refusal := effect s Chip.grant

/-- The bytes of the head code-1 frame beyond a transfer that channel `ch` makes now (R41). -/
def Chip.surplus (c : Chip) (ch : Chan) : Nat := (c.writeFrame.map (fun d => d.bytes.length)).getD 0 - c.span ch

/-- The link is told how its channel fared: Read Object or Write Object ends (R39, R41). -/
def Chip.tellLink (c : Chip) (d : ChanDir) (e : XferEnd) (surplus : Nat) : Chip :=
  match d, e with
  | _, .moved => c
  | .toPath, _ => (match c.readReq with | some q => c.readDone q | none => c)
  | .fromPath, .storeFull => (match c.writeReq with | some q => c.writeAbort q .storeFull | none => c)
  | .fromPath, _ => (match c.writeReq with | some q => c.writeDone q surplus | none => c)

/-- Voice mail is told how a recording's channel fared; after growth it checks the quota (R157). At a transfer
that grows the object and comes to terminal count too, MAX_LENGTH goes before the quota: the model's choice (log 37). -/
def Chip.tellRecording (c : Chip) (l : LineNo) (e : XferEnd) (grew : Bool) : Chip :=
  match e with
  | .moved => if grew then c.quotaCheck l else c
  | .terminal => c.planRecordingDone l .maxLength
  | .storeFull => c.planRecordingDone l .storeFull
  | .stopped => c.planRecordingDone l .stopped

/-- Call control is told how a Record's channel fared (R81). -/
def Chip.tellRecord (c : Chip) (l : LineNo) (e : XferEnd) : Chip :=
  match e with
  | .moved => c
  | .terminal => c.recordDone l .maxLength
  | .storeFull => c.recordDone l .storeFull
  | .stopped => c.recordDone l .stopped

/-- The channel's owner is told (R29, R30, R33). `ch` is the record before the transfer. -/
def Chip.tellOwner (c : Chip) (ch : Chan) (e : XferEnd) (surplus : Nat) (grew : Bool) : Chip :=
  match ch.owner, ch.dir with
  | .link, d => c.tellLink d e surplus
  | .voiceMail l, .fromPath => c.tellRecording l e grew
  | .callControl l, .fromPath => c.tellRecord l e
  | .fax l, .fromPath => if e = .storeFull then c.faxStoreFull l else c
  | _, .toPath => c

/-- A transfer of channel `i`, which holds the port (R29, R38). A holder whose path does not demand makes none: a BLOCK
channel keeps the port idle, any other gives it up. That a SINGLE channel whose path stops demanding between its grant and its transfer
gives it up without one is the model's choice: R38 says "for one transfer", and R28 withdraws only what is not yet granted (log 38). -/
def Chip.chanXfer (c : Chip) (i : ChanNo) : Chip :=
  let ch := c.chans[i]
  if c.canXfer i then
    let surplus := c.surplus ch
    let before := c.blocks ch.slot
    let x := c.transfer i
    (x.1.keepPort i ch).tellOwner ch x.2 surplus (decide (before < x.1.blocks ch.slot))
  else if ch.mode = .block ∧ ch.state = .running then c
  else c.giveUp (.chan i)

/-- A transfer of the port's holder is made (R29, R38, R104, R115). -/
def Chip.portXfer (c : Chip) : Chip :=
  match c.port.holder with
  | none => c
  | some (.chan i) => c.chanXfer i
  | some (.ring e) => ((if (c.units[e]).asks then c.ringXfer e else c).giveUp (.ring e)).pump e
  | some .linkPort => (if c.linkAsks then c.linkXfer else c).giveUp .linkPort

/-- A transfer completes (R29). -/
def execTransferDone (s : State) : Host.Outcome State Fault Refusal := effect s Chip.portXfer

/-! ## Bytes taken from a path (R35, R126, R166) -/

/-- What an output sample of a codec took from the buffer. -/
inductive Took where
  | nothing | byte | empty
  deriving DecidableEq, Repr

/-- One stored sample is decoded and put out (R166, log 11). -/
def Codec.decode (k : Codec) (x : BitVec 4) : Codec :=
  { k with decoder := Config.adpcmNext k.decoder x, output := some (Config.adpcmOut (Config.adpcmNext k.decoder x)) }

/-- `n` stored samples are consumed: the half byte left, then a byte of the buffer, its high half first (log 11). Where the
buffer is empty the path plays silence. -/
def Codec.consume : Nat → Codec → Took → Codec × Took
  | 0, k, t => (k, t)
  | n + 1, k, t =>
    match k.half with
    | some x => Codec.consume n ({ k with half := none }.decode x) t
    | none =>
      match k.buf.toBuf with
      | [] => ({ k with output := none }, .empty)
      | b :: bs =>
        Codec.consume n ({ k with
          half := some (b.setWidth 4), played := k.played + 1, buf := { k.buf with toBuf := bs } }.decode
            (BitVec.extractLsb' 4 4 b)) .byte

/-- One output sample: the four steps of the speed accumulator (R166). -/
def Codec.sample (k : Codec) : Codec × Took :=
  Codec.consume ((k.phase + k.speed) / 16) { k with phase := (k.phase + k.speed) % 16 } .nothing

/-- Output samples up to the one that needs a byte of the buffer (log 11). -/
def Codec.samples : Nat → Codec → Codec × Took
  | 0, k => (k, .nothing)
  | n + 1, k =>
    match k.sample with
    | (k, .nothing) => Codec.samples n k
    | r => r

/-- A TO_PATH path needs a byte and has none (R35): an underrun of a RUNNING channel with bytes still to come. -/
def Chip.needByte (c : Chip) (i : ChanNo) : Chip :=
  let ch := c.chans[i]
  if ch.state = .running ∧ 0 < ch.remaining ∧ (c.buf ch.path).under = false then
    (c.modBuf ch.path (fun b => { b with under := true })).slip i
  else c

/-- A codec path takes its next byte; at a speed of at least 8/16 the fourth output sample needs one at the latest. -/
def Chip.codecConsume (c : Chip) (l : LineNo) (i : ChanNo) : Chip :=
  match (c.codecs[l]).samples 4 with
  | (k, t) =>
    let c := c.modCodec l (fun _ => k)
    if t = .empty then c.needByte i else c

/-- An engine path takes its next byte while a RUNNING engine sends a page's strips. With the buffer empty fill goes into the
strip, which is no byte of the run (R126, R130, R35). -/
def Chip.engineConsume (c : Chip) (l : LineNo) (i : ChanNo) : Chip :=
  if c.faxTakes l && c.engineRuns l then
    match (c.epaths[l]).toBuf with
    | [] => (c.needByte i).modFax l (fun j => { j with stripFill := true })
    | b :: rest => (c.modEpath l (fun b => { b with toBuf := rest })).runByte l b
  else c

/-- A TO_PATH path takes a byte from its buffer (R35); a path with no channel plays silence or sends fill. -/
def execPathConsume (p : LinePath) (s : State) : Host.Outcome State Fault Refusal :=
  effect s (fun c =>
    match p with
    | .codec l => (match c.chanOn (.codec l) .toPath with | some i => c.codecConsume l i | none => c)
    | .engine l => (match c.chanOn (.engine l) .toPath with | some i => c.engineConsume l i | none => c))

/-! ## Bytes produced by a path (R35) -/

/-- The path that a line path names. -/
def LinePath.path : LinePath → Path
  | .codec l => .codec l
  | .engine l => .engine l

/-- A FROM_PATH path produces a byte (R35): stored while its channel is RUNNING and not draining, an overrun when the buffer
holds 1024 bytes, else discarded. A fax receive's engine path passes whole strips in place of bytes (R137). -/
def Chip.produce (c : Chip) (i : ChanNo) (b : Byte) : Chip :=
  let ch := c.chans[i]
  if ch.state = .running ∧ ch.draining = false then
    match ch.owner with
    | .fax _ => c
    | _ =>
      if (c.buf ch.path).frm.length < 1024 then c.modBuf ch.path (fun x => { x with frm := x.frm ++ [b] })
      else if (c.buf ch.path).overNow then c
      else (c.modBuf ch.path (fun x => { x with overNow := true })).slip i
  else c

/-- A path produces a byte (R35); a path with no channel discards it. -/
def execPathProduce (p : LinePath) (b : Byte) (s : State) : Host.Outcome State Fault Refusal :=
  effect s (fun c =>
    match c.chanOn (LinePath.path p) .fromPath with
    | some i => c.produce i b
    | none => c)

/-! ## The end of a play-out (R30) -/

/-- A Play has played to its end (R80). -/
def Chip.playDone (c : Chip) (l : LineNo) (i : ChanNo) : Chip :=
  let result := c.playResult l i
  ((c.retire l i).modCall l (fun k => { k with phase := .none })).endNormal l result

/-- The owner of a TO_PATH channel is told TERMINAL (R80, R155, R163). -/
def Chip.tellDrained (c : Chip) (i : ChanNo) : Chip :=
  match (c.chans[i]).owner with
  | .callControl l => c.playDone l i
  | .voiceMail l =>
    if (c.seqs[l]).greetChan = some i then c.greetingEnd l
    else if (c.seqs[l]).playChan = some i then c.reviewPlayed l i
    else c
  | _ => c

/-- A RUNNING TO_PATH channel at remaining count 0 whose path buffer is empty ends TERMINAL (R30). -/
def execPathDrained (p : LinePath) (s : State) : Host.Outcome State Fault Refusal :=
  effect s (fun c =>
    match c.chanOn (LinePath.path p) .toPath with
    | some i =>
      if (c.chans[i]).state = .running ∧ (c.chans[i]).remaining = 0 ∧ (c.buf (LinePath.path p)).toBuf = [] then
        (c.endChan i .terminal).tellDrained i
      else c
    | none => c)

end Sys2Proof.Machine
end

