-- ==== Sys2Proof/Machine/VoiceDigits.lean ====
section
/-!
DEFINITION. What voice mail does with a digit, with the caller's hang-up, and with call control's stop for discrimination
(R154, R157, R160 to R164).
-/
namespace Sys2Proof.Machine

/-! ## GREETING (R154) -/

/-- What a digit makes of the digits read so far in GREETING. -/
inductive Read where
  | held (o : Opening) | ends | switch (n : Nat) | retrieve (n : Nat)
  deriving DecidableEq, Repr

/-- A digit read against no digits (R154). -/
def readFresh : Dtmf → Read
  | .hash => .ends
  | .star => .held .star
  | .digit _ => .held .empty

/-- The table of R154; a digit that does not fit is read afresh. -/
def Opening.read : Opening → Dtmf → Read
  | .star, .star => .held .starStar
  | .star, .digit d => .held (.starDigit d)
  | .starDigit d, .digit e => .switch (10 * d.val + e.val)
  | .starStar, .digit d => .held (.starStarDigit d)
  | .starStarDigit d, .digit e => .retrieve (10 * d.val + e.val)
  | _, x => readFresh x

/-- A mailbox number of two digits. -/
def mailboxAt (n : Nat) : Option MailboxNo := if h : n < 16 then some ⟨n, h⟩ else none

/-- A greeting switch (R154): nothing changes if the target is above 15 or disabled. The form is judged once the greeting's channel
has been unbound. -/
def Chip.switchGreeting (c : Chip) (l : LineNo) (n : Nat) : Chip :=
  let c := c.modSeq l (fun q => { q with opening := .empty })
  match mailboxAt n with
  | none => c
  | some m =>
    if (c.mailboxes[m]).enabled then
      let c := c.cutGreeting l
      (c.modSeq l (fun q => { q with mailbox := m, greetingOnly := c.mailboxFull m })).beginGreeting l
    else c

/-- A retrieval (R154): nothing changes if the target is above 15. -/
def Chip.retrieve (c : Chip) (l : LineNo) (n : Nat) : Chip :=
  match mailboxAt n with
  | none => c.modSeq l (fun q => { q with opening := .empty })
  | some m => ((c.cutGreeting l).tellGreetingEnd l).enterAccess l m

/-- What a digit in GREETING does by the table of R154. -/
def Chip.openingDigit (c : Chip) (l : LineNo) (d : Dtmf) : Chip :=
  match ((c.seqs[l]).opening).read d with
  | .held o => c.modSeq l (fun q => { q with opening := o })
  | .ends => c.greetingEnd l
  | .switch n => c.switchGreeting l n
  | .retrieve n => c.retrieve l n

/-- The prefix's 3 s timer starts afresh, if the greeting goes on (R154). -/
def PlanSeq.prefixStart (q : PlanSeq) : PlanSeq := if q.state = .greeting then { q with prefixTimer := .start 3000 } else q

/-- A digit in GREETING: read by the table, and each restarts the prefix's timer (R154). -/
def Chip.greetingDigit (c : Chip) (l : LineNo) (d : Dtmf) : Chip := (c.openingDigit l d).modSeq l PlanSeq.prefixStart

/-! ## ACCESS (R162) -/

/-- Four digits have been entered: they are compared with the target's code as it now stands (R162). -/
def Chip.compareCode (c : Chip) (l : LineNo) (ds : List (Fin 10)) : Chip :=
  if (c.mailboxes[(c.seqs[l]).target]).code = some ds then (c.noteAccess l true).enterReview l else c.wrongCode l

/-- A digit in ACCESS; after the third wrong code none is read. Each digit 0 to 9 restarts the digit timer; `*` and `#` do not (R162). -/
def Chip.accessDigit (c : Chip) (l : LineNo) (d : Dtmf) : Chip :=
  let q := c.seqs[l]
  if 3 ≤ q.wrong then c
  else
    match d with
    | .digit n =>
      let ds := q.entered ++ [n]
      if ds.length = 4 then c.compareCode l ds
      else c.modSeq l (fun q => { q with entered := ds, digitTimer := .start 10000 })
    | _ => c.modSeq l (fun q => { q with entered := [] })

/-! ## REVIEW (R164) -/

/-- The review speed changes, for the playing channel at once and for later plays. -/
def Chip.reviewSpeed (c : Chip) (l : LineNo) (v : Nat) : Chip :=
  let playing := (c.seqs[l]).playChan.isSome
  let c := c.modSeq l (fun q => { q with speed := v })
  if playing then c.modCodec l (fun k => { k with speed := v }) else c

/-- Digit 2: the message at the cursor is deleted, and the next entry plays. -/
def Chip.reviewDelete (c : Chip) (l : LineNo) : Chip :=
  match (c.seqs[l]).cursor with
  | .end_ => c.reviewTone l .endOfList
  | .at h => ((c.cutPlay l).deleteHandle h).playEntry l

/-- Digit 3: the message at the cursor becomes KEPT. -/
def Chip.reviewKeep (c : Chip) (l : LineNo) : Chip :=
  match (c.seqs[l]).cursor with
  | .end_ => c
  | .at h =>
    match c.store.lookup h with
    | some (i, _) => c.setStatus i .kept
    | none => c

/-- Digit 5: the cursor moves on, and the entry plays (R164). At END it stays there, also when a message has joined the list since: the
model's choice (R165, log 37). -/
def Chip.reviewNext (c : Chip) (l : LineNo) : Chip :=
  ((c.cutPlay l).modSeq l (fun q =>
    { q with cursor := match q.cursor with
        | .at h => cursorAfter h (c.mailboxes[q.target]).list
        | .end_ => .end_ })).playEntry l

/-- What a digit in REVIEW does by the table of R164. -/
def Chip.reviewAct (c : Chip) (l : LineNo) (d : Dtmf) : Chip :=
  match d with
  | .digit 1 => (c.cutPlay l).playEntry l
  | .digit 2 => c.reviewDelete l
  | .digit 3 => c.reviewKeep l
  | .digit 5 => c.reviewNext l
  | .digit 7 => c.reviewSpeed l (max 8 ((c.seqs[l]).speed - 2))
  | .digit 9 => c.reviewSpeed l (min 24 ((c.seqs[l]).speed + 2))
  | .digit 0 => c.cutPlay l
  | .hash => (c.cutPlay l).enterClosing l
  | _ => c

/-- A digit in REVIEW: every digit restarts the idle timer (R163), and acts at once (R164). -/
def Chip.reviewDigit (c : Chip) (l : LineNo) (d : Dtmf) : Chip := (c.modSeq l PlanSeq.idleStart).reviewAct l d

/-! ## All states -/

/-- A digit on a plan call (R154, R155, R157, R159, R162, R164). -/
def Chip.voiceDigit (c : Chip) (l : LineNo) (d : Dtmf) : Chip :=
  match (c.seqs[l]).state with
  | .greeting => c.greetingDigit l d
  | .recording => if d = .hash then c.endPlanRecording l .digit else c
  | .access => c.accessDigit l d
  | .review => c.reviewDigit l d
  | _ => c

/-- The caller's hang-up on a plan call (R160): the sequence ends, and a release with cause NONE is asked. -/
def Chip.voiceHangUp (c : Chip) (l : LineNo) : Chip :=
  ((c.stopSequence l .hangUp).endSequence l).release l .none

/-- The stop for discrimination (R161): SUSPENDED. -/
def Chip.suspendPlan (c : Chip) (l : LineNo) : Chip :=
  (c.stopSequence l .stopped).modSeq l (fun q => { q with
    state := .suspended, tone := .none, entered := [], digitTimer := .off, idleTimer := .off })

/-- The continue after a discrimination that could not take the call (R161). -/
def Chip.continuePlan (c : Chip) (l : LineNo) : Chip :=
  if (c.seqs[l]).state = .suspended then c.enterTone l else c

end Sys2Proof.Machine
end

