-- ==== Sys2Proof/Machine/LineEvents.lean ====
section
/-!
DEFINITION. The events of the line units, of the tone units and of call control's own timers (R45 to R57, R65 to R87).
-/
namespace Sys2Proof.Machine

/-- An event of line supervision, which runs once initialisation has ended (R63). -/
def supervised (s : State) (f : Chip → Chip) : Host.Outcome State Fault Refusal :=
  effect s (fun c => if c.ready then f c else c)

/-- The line is OFF_HOOK. -/
def Line.off (n : Line) : Bool := decide (n.hook = .offHook)

/-- A level stands at least 10 dB above the line's noise floor (R70). -/
def Chip.clears (c : Chip) (l : LineNo) (level : Int) : Bool := decide ((c.lines[l]).noise + 10 ≤ level)

/-- The noise floor as it stood `windows` quiet windows ago (R52, R70, log 35). -/
def Line.floorBack (n : Line) (windows : Nat) : Int := ((n.noise :: n.floors)[windows]?).getD n.noise

/-! ## Loop current (R47) -/

/-- Loop present is handed to call control (R68, R72, R76). -/
def Chip.loopTold (c : Chip) (l : LineNo) : Chip :=
  let k := c.calls[l]
  match k.state with
  | .seized =>
    (match k.dialWait with
      | .wait => c.modCall l (fun k => { k with phase := .dialTone, step := .dialTone })
      | .blind => c.modCall l (fun k => { k with step := .blindPause }))
  | .answering => c.answerLoop l
  | _ => c

/-- Loop current is present: for the first time after a seize, or again after an absence (R47). The first current sets the polarity
field at once, with no reversal told; a return of current keeps the old polarity until POLARITY_REVERSAL: the model's choice (log 37). -/
def execLoopPresent (l : LineNo) (polarity : Polarity) (s : State) : Host.Outcome State Fault Refusal :=
  supervised s (fun c =>
    let n := c.lines[l]
    if !n.off then c
    else if n.loopSeen then c.modLine l (fun n => { n with loopCurrent := true, absentTold := false })
    else
      (c.modLine l (fun n => { n with
        loopCurrent := true, polarity := polarity, loopSeen := true, absentTold := false })).loopTold l)

/-- The other polarity. -/
def Polarity.flip : Polarity → Polarity
  | .normal => .reversed
  | .reversed => .normal

/-- A polarity reversal (R47); in AWAITING_ANSWER it is an answer (R70). -/
def execPolarityReversal (l : LineNo) (s : State) : Host.Outcome State Fault Refusal :=
  supervised s (fun c =>
    let n := c.lines[l]
    if n.off && n.loopSeen && n.loopCurrent && n.pulse.isNone then
      let c := c.modLine l (fun n => { n with polarity := Polarity.flip n.polarity })
      if (c.calls[l]).state = .awaitingAnswer then c.answered l else c
    else c)

/-- A loop interruption is handed to call control, and on a plan call to voice mail (R69, R70, R87, R144, R160). A data call takes
it in any session state (R114), but for one that is dialling (R69). -/
def Chip.interruptionTold (c : Chip) (l : LineNo) : Chip :=
  let k := c.calls[l]
  match k.state with
  | .seized => if k.purpose = some .data then c.release l .remoteCleared else c
  | .awaitingAnswer => c.release l .remoteCleared
  | .connected =>
    if k.purpose = some .voice ∧ k.control = .plan then c.voiceHangUp l else c.release l .remoteCleared
  | _ => c

/-- Loop current has been absent for 400 ms (R47): reported once for each absence, not before loop present and not while
a pulse digit is sent. -/
def execLoopInterruption (l : LineNo) (s : State) : Host.Outcome State Fault Refusal :=
  supervised s (fun c =>
    let n := c.lines[l]
    if n.off && n.loopSeen && n.pulse.isNone && !n.absentTold then
      (c.modLine l (fun n => { n with loopCurrent := false, absentTold := true })).interruptionTold l
    else c)

/-! ## Line voltage (R48) -/

/-- The line voltage is present: the timer stops, and LINE_LOST goes. -/
def Chip.voltagePresent (c : Chip) (l : LineNo) : Chip :=
  (c.modLine l (fun n => { n with voltage := true, lostTimer := .off })).goes l .lineLost

/-- The on-hook line voltage becomes present or absent (R48). -/
def execLineVoltageChange (l : LineNo) (present : Bool) (s : State) : Host.Outcome State Fault Refusal :=
  supervised s (fun c =>
    let n := c.lines[l]
    if n.off then c
    else if present then c.voltagePresent l
    else if n.voltage then c.modLine l (fun n => { n with voltage := false, lostTimer := .start 2000 })
    else c)

/-- The line voltage has stayed absent for 2 s: LINE_LOST arises (R48, R53). -/
def execLineLostTimerExpiry (l : LineNo) (s : State) : Host.Outcome State Fault Refusal :=
  supervised s (fun c =>
    let n := c.lines[l]
    if n.lostTimer.run && !n.off then
      let c := c.modLine l (fun n => { n with lostTimer := .off })
      if n.cond.lineLost then c else c.arise l .lineLost none
    else c)

/-! ## Rings and the caller number (R49 to R51, R66) -/

/-- Ringing voltage begins (R49, R51): it counts as line voltage (R48), stops the abandon timer for as long as it lasts and
closes the caller-number window. The time at which it began is kept (log 34). -/
def execRingingVoltageBegin (l : LineNo) (s : State) : Host.Outcome State Fault Refusal :=
  supervised s (fun c =>
    let n := c.lines[l]
    if n.off || decide (n.burst = .burst) then c
    else (c.voltagePresent l).modLine l (fun n => { n with
      burst := .burst, began := c.clock, abandon := n.abandon.stop, window := false }))

/-- Call control acts on a ring of the sequence in progress: its screened flag is this sequence's from now on (R49, R66). -/
def Chip.ringTaken (c : Chip) (l : LineNo) : Chip := c.modLine l (fun n => { n with ringTaken := true })

/-- Call control takes a counted ring (R66); in RELEASING and COOLING it does not act on it. -/
def Chip.ringTold (c : Chip) (l : LineNo) : Chip :=
  match (c.calls[l]).state with
  | .idle =>
    ((c.ringTaken l).modCall l (fun k => { k with
      state := .alerting, direction := some .incoming, screened := false })).consultPlan l
  | .alerting => (c.ringTaken l).consultPlan l
  | _ => c

/-- The detail of RING and RING_STOPPED: ring count, caller number, screened flag. The call record keeps its flag until its next IDLE
(R66), and it counts for the ring sequence for which it was set alone: a sequence begun in RELEASING or COOLING shows it clear (R49). -/
def Chip.ringDetail (c : Chip) (l : LineNo) : List Byte :=
  [b1 (c.lines[l]).ringCount] ++ Caller.code (c.lines[l]).caller ++ [flag ((c.lines[l]).ringTaken && (c.calls[l]).screened)]

/-- A counted ring (R49): call control takes it, and then RING is posted. -/
def Chip.countedRing (c : Chip) (l : LineNo) : Chip :=
  let c := (c.modLine l (fun n => { n with
    ringCount := min 255 (n.ringCount + 1), burst := .gap, abandon := .start 8000
    window := decide (n.ringCount = 0) })).ringTold l
  c.note l .ring (c.ringDetail l)

/-- A burst shorter than 200 ms (R49, R51): the abandon timer goes on with the time it had left. The caller-number window that its
beginning closed stays closed, though the state is GAP with the same ring count: the model's choice between the two sentences
of R50 (log 33). -/
def Line.shortBurst (n : Line) : Line :=
  { n with
    burst := if n.ringCount = 0 then .quiet else .gap
    abandon := if n.ringCount = 0 then .off else { n.abandon with run := true } }

/-- Ringing voltage ends after `ms` (R49). -/
def execRingingVoltageEnd (l : LineNo) (ms : Nat) (s : State) : Host.Outcome State Fault Refusal :=
  supervised s (fun c =>
    if (c.lines[l]).burst = .burst then (if 200 ≤ ms then c.countedRing l else c.modLine l Line.shortBurst) else c)

/-- The ring sequence is abandoned (R51, R66). -/
def Chip.abandonRing (c : Chip) (l : LineNo) : Chip :=
  let c := (c.note l .ringStopped (c.ringDetail l)).modLine l (fun n => { n with
    burst := .quiet, abandon := .off, window := false, ringCount := 0, ringTaken := false, caller := .absent })
  if (c.calls[l]).state = .alerting then c.enterIdle l else c

/-- The abandon timer expires in GAP (R51). -/
def execAbandonTimerExpiry (l : LineNo) (s : State) : Host.Outcome State Fault Refusal :=
  supervised s (fun c =>
    if (c.lines[l]).burst = .gap ∧ (c.lines[l]).abandon.run = true then c.abandonRing l else c)

/-- The caller number that a good burst gives (R50). -/
def BurstContent.caller : BurstContent → Caller → Caller
  | .number ds, old => if ds.length ≤ 16 then .digits ds else old
  | .withheld, _ => .withheld
  | .unavailable, _ => .unavailable
  | .other, old => old

/-- A caller-number burst in the window after the first ring (R50). -/
def execCallerNumberBurst (l : LineNo) (content : BurstContent) (good : Bool) (s : State) :
    Host.Outcome State Fault Refusal :=
  supervised s (fun c =>
    if (c.lines[l]).window && good then c.modLine l (fun n => { n with caller := BurstContent.caller content n.caller }) else c)

/-! ## The noise floor (R52) -/

/-- The floor after a quiet window of `tenths` of a dBm: a rise of more than 10 dB does not change it; the new floor is
rounded to the nearest dB (halves upward, log 16) and held within -60 to -10. -/
def floorAfter (floor tenths : Int) : Int :=
  if 10 * floor + 100 < tenths then floor else max (-60) (min (-10) ((tenths + 5) / 10))

/-- The floor follows a quiet window, and the floor before it is kept for the cadence in progress (R52, R70). -/
def Line.quietWindow (n : Line) (tenths : Int) : Line :=
  { n with noise := floorAfter n.noise tenths, floors := (n.noise :: n.floors).take 64 }

/-- A quiet window ends while the line is OFF_HOOK (R52); none is quiet while an engine's signal occupies the line (R100). -/
def execQuietWindowEnd (l : LineNo) (tenths : Int) (s : State) : Host.Outcome State Fault Refusal :=
  supervised s (fun c =>
    if (c.lines[l]).off && !c.toneBlocked l then c.modLine l (·.quietWindow tenths) else c)

/-! ## Fault conditions (R53 to R57) -/

/-- The driver temperature (R54): rising, HOT before CRITICAL; falling, CRITICAL before HOT. -/
def Chip.temperature (c : Chip) (l : LineNo) (t : Int) : Chip :=
  let c := if 115 < t ∧ (c.lines[l]).cond.hot = false then c.arise l .hot none else c
  let c := if 135 < t ∧ (c.lines[l]).cond.critical = false then c.criticalArises l else c
  let c := if t < 115 then c.goes l .critical else c
  if t < 105 then c.goes l .hot else c

/-- The driver temperature crosses a threshold (R54). -/
def execDriverTemperatureChange (l : LineNo) (celsius : Int) (s : State) : Host.Outcome State Fault Refusal :=
  supervised s (fun c => c.temperature l celsius)

/-- The loop is not broken by a pulse digit (R46, R55). -/
def Line.unbroken (n : Line) : Bool :=
  match n.pulse with
  | some p => decide (p.part ≠ .brk)
  | none => true

/-- OVERCURRENT arises: a forced release with 1 s cool-off, whatever the setting (R55). -/
def execOvercurrentSensed (l : LineNo) (s : State) : Host.Outcome State Fault Refusal :=
  supervised s (fun c =>
    let n := c.lines[l]
    if n.off && n.unbroken && !n.cond.overcurrent then
      (c.arise l .overcurrent (some 1)).forcedRelease l 1 { overcurrent := true }
    else c)

/-- Loop current falls below 100 mA: OVERCURRENT goes (R53). -/
def execLoopCurrentFalls (l : LineNo) (s : State) : Host.Outcome State Fault Refusal :=
  supervised s (fun c => c.goes l .overcurrent)

/-- The cool-off timer expires (R57). -/
def execCoolOffExpiry (l : LineNo) (s : State) : Host.Outcome State Fault Refusal :=
  supervised s (fun c =>
    let n := c.lines[l]
    if (c.calls[l]).state = .cooling then
      if n.cond.critical = true ∧ n.settings.action = .forceRelease then
        c.modLine l (fun n => { n with coolOff := n.settings.coolOff })
      else (c.modLine l (fun n => { n with coolOff := 0 })).enterIdle l
    else c)

/-! ## Seize and dialling (R46, R68, R69, R82) -/

/-- A break, a make or the pause of a pulse digit ends (R46): after a make comes the next break, or the pause after the last. -/
def execPulseTimingExpiry (l : LineNo) (s : State) : Host.Outcome State Fault Refusal :=
  supervised s (fun c =>
    match (c.lines[l]).pulse with
    | none => c
    | some p =>
      match p.part with
      | .brk => c.modLine l (·.makeLoop p)
      | .make => if p.left = 0 then c.modLine l (fun n => { n with pulse := some { p with part := .pause } })
        else c.modLine l (·.breakLoop (p.left - 1))
      | .pause =>
        let c := c.modLine l (fun n => { n with pulse := none })
        if (c.calls[l]).step = .pulse then c.nextChar l else c)

/-- Loop present has not come within 1 s of the seize (R68, R72, R76). -/
def execSeizeTimeout (l : LineNo) (s : State) : Host.Outcome State Fault Refusal :=
  supervised s (fun c =>
    let k := c.calls[l]
    if (k.state = .seized ∨ k.state = .answering) ∧ (c.lines[l]).loopSeen = false then c.release l .noLoop else c)

/-- Dial tone has been heard for 1 s above the margin (R68, R69). -/
def execDialToneHeard (l : LineNo) (level : Int) (s : State) : Host.Outcome State Fault Refusal :=
  supervised s (fun c =>
    if (c.calls[l]).step = .dialTone ∧ c.clears l level = true then
      (if (c.calls[l]).state = .seized then c.startDialling l else c.nextChar l)
    else c)

/-- No dial tone within 5 s (R68, R69). -/
def execDialToneTimeout (l : LineNo) (s : State) : Host.Outcome State Fault Refusal :=
  supervised s (fun c => if (c.calls[l]).step = .dialTone then c.release l .noDialTone else c)

/-- The fixed pause of BLIND ends (R68). -/
def execBlindPauseEnd (l : LineNo) (s : State) : Host.Outcome State Fault Refusal :=
  supervised s (fun c => if (c.calls[l]).step = .blindPause then c.startDialling l else c)

/-- A DTMF digit of a Dial or of Send Digits is done (R69, R82). -/
def execDtmfDigitDone (l : LineNo) (s : State) : Host.Outcome State Fault Refusal :=
  supervised s (fun c =>
    if (c.calls[l]).step = .digit then
      (c.modCall l (fun k => { k with
        digitsSent := if k.phase = .sendingDigits then k.digitsSent + 1 else k.digitsSent })).nextChar l
    else c)

/-- The pause of a comma ends (R69, R82). -/
def execCommaPauseEnd (l : LineNo) (s : State) : Host.Outcome State Fault Refusal :=
  supervised s (fun c => if (c.calls[l]).step = .comma then c.nextChar l else c)

/-! ## Call progress and answer (R70, R71) -/

/-- The class of a cycle (R70). -/
inductive Cycle where
  | busy | ringback | other
  deriving DecidableEq, Repr

/-- The on-part of a ringback cycle (R70). -/
def OnPart.ringback : OnPart → Bool
  | .single ms => within 700 2500 ms
  | .double a g b => within 200 600 a && within 150 500 g && within 200 600 b

/-- The table of R70. -/
def cycleOf (on : OnPart) (off : Nat) : Cycle :=
  match on with
  | .single ms =>
    if within 250 750 ms && within 250 750 off then .busy
    else if OnPart.ringback on && within 1500 5000 off then .ringback
    else .other
  | .double _ _ _ => if OnPart.ringback on && within 1500 5000 off then .ringback else .other

/-- A cycle is counted (R70). -/
def Chip.countCycle (c : Chip) (l : LineNo) (y : Cycle) : Chip :=
  let k := c.calls[l]
  match y with
  | .busy =>
    let c := c.modCall l (fun k => { k with busyRun := k.busyRun + 1 })
    if 3 ≤ k.busyRun + 1 then c.release l .lineEngaged else c
  | .ringback =>
    let c := c.modCall l (fun k => { k with busyRun := 0, ringbacks := k.ringbacks + 1 })
    if k.limit ≤ k.ringbacks + 1 then c.release l .noAnswer else c
  | .other => c.modCall l (fun k => { k with busyRun := 0 })

/-- The call is AWAITING_ANSWER. -/
def Chip.awaiting (c : Chip) (l : LineNo) : Bool := decide ((c.calls[l]).state = .awaitingAnswer)

/-- A cycle is classified when its off-part ends; sound below the margin makes no on-part (R70). The margin stands on the floor at
the start of the on-part, so many quiet windows ago (log 35). -/
def execProgressCycle (l : LineNo) (level : Int) (on : OnPart) (off : OffPart) (s : State) :
    Host.Outcome State Fault Refusal :=
  supervised s (fun c =>
    if c.awaiting l && decide ((c.lines[l]).floorBack off.windows + 10 ≤ level) then c.countCycle l (cycleOf on off.ms) else c)

/-- An on-part of 3 s without a break (R70). -/
def execContinuousTone (l : LineNo) (level : Int) (s : State) : Host.Outcome State Fault Refusal :=
  supervised s (fun c => if c.awaiting l && c.clears l level then c.release l .lineEngaged else c)

/-- 30 s with no cycle classified (R70). -/
def execProgressSilenceTimeout (l : LineNo) (s : State) : Host.Outcome State Fault Refusal :=
  supervised s (fun c => if c.awaiting l then c.release l .noAnswer else c)

/-- The answer tone of a modem or fax (R70). -/
def execAnswerTone (l : LineNo) (s : State) : Host.Outcome State Fault Refusal :=
  supervised s (fun c => if c.awaiting l then c.answered l else c)

/-- Speech above the margin, after at least one ringback cycle (R70). -/
def execSpeechAnswer (l : LineNo) (level : Int) (s : State) : Host.Outcome State Fault Refusal :=
  supervised s (fun c =>
    if c.awaiting l && c.clears l level && decide (0 < (c.calls[l]).ringbacks) then c.answered l else c)

/-! ## Connected voice calls (R77, R78, R82, R87) -/

/-- A connected voice call. -/
def Call.voiceUp (k : Call) : Bool := decide (k.state = .connected) && decide (k.purpose = some .voice)

/-- A digit joins the received-digit list, which keeps 16 (R82). -/
def addDigit (ds : List Dtmf) (d : Dtmf) : List Dtmf := (ds ++ [d]).drop (ds.length + 1 - 16)

/-- A digit on a call under the host's control: the list, the count and a DIGITS notice (R82). The notice's single digit travels as its
ASCII character, as those of the list do: the model's choice (log 39). -/
def Chip.hostDigit (c : Chip) (l : LineNo) (d : Dtmf) : Chip :=
  if (c.calls[l]).phase = .sendingDigits then c
  else
    let c := c.modCall l (fun k => { k with digits := addDigit k.digits d, digitCount := k.digitCount + 1 })
    c.note l .digits ([Dtmf.char d] ++ be2 (c.calls[l]).digitCount.toNat ++ str ((c.calls[l]).digits.map Dtmf.char))

/-- The tone unit hears a DTMF digit (R82): to the list of a HOST call, to voice mail on a PLAN call. -/
def execDtmfDigitHeard (l : LineNo) (d : Dtmf) (s : State) : Host.Outcome State Fault Refusal :=
  supervised s (fun c =>
    if (c.calls[l]).voiceUp then
      match (c.calls[l]).control with
      | .host => c.hostDigit l d
      | .plan => c.voiceDigit l d
    else c)

/-- A busy cycle as R70 measures it: its parts by the table, its level against the floor at the start of its on-part. -/
def Chip.busyCycle (c : Chip) (l : LineNo) (y : ToneCycle) : Bool :=
  decide (cycleOf (.single y.on) y.off.ms = .busy) && decide ((c.lines[l]).floorBack y.off.windows + 10 ≤ y.level)

/-- The tone clears the call: dial tone above the margin, or two consecutive busy cycles (R160), on a call of the host's as on a plan
call (log 35). -/
def Chip.tellsClear (c : Chip) (l : LineNo) : ClearTone → Bool
  | .dialTone level => c.clears l level
  | .cycles a b => c.busyCycle l a && c.busyCycle l b

/-- Busy or dial tone heard again on a connected voice call (R87, R160). -/
def execRemoteClearTone (l : LineNo) (tone : ClearTone) (s : State) : Host.Outcome State Fault Refusal :=
  supervised s (fun c =>
    if (c.calls[l]).voiceUp && c.tellsClear l tone then
      match (c.calls[l]).control with
      | .host => c.release l .remoteCleared
      | .plan => c.voiceHangUp l
    else c)

/-- 6 s after the greeting's end the window closes (R77). -/
def execDiscriminationWindowClose (l : LineNo) (s : State) : Host.Outcome State Fault Refusal :=
  supervised s (fun c =>
    c.modCall l (fun k => { k with window := if k.window = .after then .closed else k.window }))

/-- A calling tone may turn the call: a plan's voice call whose window is open (R77). -/
def Call.turns (k : Call) : Bool := k.voiceUp && decide (k.control = .plan) && decide (k.window ≠ .closed)

/-- A machine call was heard and could not be taken (R78): the call goes on as voice mail. -/
def Chip.missMachine (c : Chip) (l : LineNo) : Chip :=
  (c.modCall l (fun k => { k with faxMissed := true, window := .closed })).continuePlan l

/-- Fax calling tone (R78). -/
def Chip.turnFax (c : Chip) (l : LineNo) : Chip :=
  let c := c.suspendPlan l
  match c.takeFax l with
  | .ok (c, e) =>
    ((c.endSequence l).modCall l (fun k => { k with purpose := some .fax, engine := some e, window := .closed })).startFax l
      .receive
  | .error _ => c.missMachine l

/-- Modem calling tone (R78). -/
def Chip.turnData (c : Chip) (l : LineNo) : Chip :=
  let c := c.suspendPlan l
  match c.takeData l .answering with
  | .ok (c, e) =>
    ((c.endSequence l).modCall l (fun k => { k with
      purpose := some .data, job := .dataLink, engine := some e, window := .closed })).startData l
  | .error _ => c.missMachine l

/-- Fax calling tone is heard while the window is open (R78). -/
def execFaxCallingTone (l : LineNo) (s : State) : Host.Outcome State Fault Refusal :=
  supervised s (fun c => if (c.calls[l]).turns then c.turnFax l else c)

/-- Modem calling tone is heard while the window is open (R78). -/
def execModemCallingTone (l : LineNo) (s : State) : Host.Outcome State Fault Refusal :=
  supervised s (fun c => if (c.calls[l]).turns then c.turnData l else c)

/-- The release guard of 1 s ends (R85). -/
def execReleaseGuardExpiry (l : LineNo) (s : State) : Host.Outcome State Fault Refusal :=
  supervised s (fun c =>
    let k := c.calls[l]
    if k.state = .releasing ∧ k.forced = false ∧ (c.lines[l]).off = false then c.enterIdle l else c)

end Sys2Proof.Machine
end

