-- ==== Sys2Proof/Machine/EngineEvents.lean ====
section
/-!
DEFINITION. The events of the signal engines: measurements, tests and verdicts, the far end's retrain signal, the carrier
(R92 to R97).
-/
namespace Sys2Proof.Machine

/-! ## Measurements (R92, R94) -/

/-- The receiver's training signal has been heard: a sender repeats its SET no more (R128). -/
def Chip.hearTraining (c : Chip) (e : EngineNo) : Chip :=
  if (c.engines[e]).purpose = .fax then c.modFax (c.engines[e]).line FaxJob.heard else c

/-- The far end's signal has been heard for 1 s (R92): the class is set, and the first test rate chosen. `announced` is the
far end's highest rate, or in a retrain that it leads its test rate (R94). -/
def execMeasurementEnd (e : EngineNo) (tenths : Int) (announced : Rate) (s : State) : Host.Outcome State Fault Refusal :=
  effect s (fun c =>
    if (c.engines[e]).measuring then Chip.tell ((c.hearTraining e).measured e (classOf tenths) announced) e else c)

/-- The far end's signal has not been heard within 6 s: class 0 (R92). -/
def execMeasurementTimeout (e : EngineNo) (s : State) : Host.Outcome State Fault Refusal :=
  effect s (fun c => if (c.engines[e]).measuring then Chip.tell (c.measured e 0 (c.engines[e]).ceiling) e else c)

/-! ## Tests (R93) -/

/-- The result of a test is settled and told. -/
def Chip.settleTest (c : Chip) (e : EngineNo) (pass : Bool) : Chip := Chip.tell (c.testResult e pass) e

/-- A DATA test with its local judgment: it passes only if both ends pass it; without the far end's verdict it waits. So it does
also where the local end has judged it bad, and only the verdict or its 3 s timeout then ends the test: the model's choice, for R93 has the
verdicts exchanged and does not say whether a test that can no longer pass ends at once (log 41). -/
def Chip.judgeData (c : Chip) (e : EngineNo) (good : Bool) (far : Option Bool) : Chip :=
  match far with
  | some v => c.settleTest e (good && v)
  | none => c.modEngine e (fun g => { g with await := some good })

/-- A FAX test: the receiving side judges it and sends its verdict; the sending side waits for that verdict (R93, R129). -/
def Chip.judgeFax (c : Chip) (e : EngineNo) (good : Bool) : Chip :=
  let l := (c.engines[e]).line
  match (c.fax[l]).map FaxJob.role, (c.engines[e]).testRate with
  | some FaxRole.receive, some r => (c.faxSend l (if good then .trainOk r else .trainBad r)).settleTest e good
  | _, _ => c.modEngine e (fun g => { g with await := some true })

/-- No more than 1 bit in 1000 is wrong (R93). -/
def testGood (wrong total : Nat) : Bool := decide (1000 * wrong ≤ total)

/-- A test is counted; in a retrain led by the far end it was made at the rate that the far end announced for it (R93, R94). -/
def Engine.tested (g : Engine) (announced : Rate) : Engine :=
  { g with attempts := g.attempts + 1, testRate := if g.farLed then some announced else g.testRate }

/-- A training test ends (R93), or for DATA the far end's verdict on the test that has ended is taken. `announced` is the rate at
which the far end made the test, read in a retrain that it leads (R94). -/
def Chip.endTest (c : Chip) (e : EngineNo) (wrong total : Nat) (far : Option Bool) (announced : Rate) : Chip :=
  let g := c.engines[e]
  match g.testRate, g.await with
  | none, _ => c
  | some _, none =>
    let c := c.modEngine e (·.tested announced)
    if g.purpose = .fax then c.judgeFax e (testGood wrong total) else c.judgeData e (testGood wrong total) far
  | some _, some good =>
    match g.purpose, far with
    | .data, some v => c.settleTest e (good && v)
    | _, _ => c

/-- The engine is in a training or retrain whose tests have begun. -/
def Engine.testing (g : Engine) : Bool :=
  (decide (g.state = .training) || decide (g.state = .retraining)) && !g.measuring && g.testRate.isSome

/-- A training test ends (R93). -/
def execTestEnd (e : EngineNo) (wrong total : Nat) (far : FarTest) (s : State) : Host.Outcome State Fault Refusal :=
  effect s (fun c => if (c.engines[e]).testing then c.endTest e wrong total far.verdict far.rate else c)

/-- No verdict within 3 s of a test's end: the test fails (R93). -/
def execVerdictTimeout (e : EngineNo) (s : State) : Host.Outcome State Fault Refusal :=
  effect s (fun c => if (c.engines[e]).testing && (c.engines[e]).await.isSome then c.settleTest e false else c)

/-! ## The far end's retrain signal (R94, R106, R129) -/

/-- A DATA engine retrains without a request from its job; not during opening (R106). A frame that sounds is lost (R119). So is a CLOSE
that sounds in CLOSING, and it is not sent again at RETRAINED: R119 has RESEND or T1 recover a frame, R120 sends later a CLOSE that could
not be sent, and neither speaks of one that had begun; the wait for CLOSED then ends as R120 gives. The model's choice (log 39). -/
def Chip.farRetrainData (c : Chip) (e : EngineNo) (d : RetrainDir) : Chip :=
  if (c.units[e]).state = .opening ∨ (c.units[e]).state = .listening then c
  else (c.beginRetrain e d true).modUnit e (fun u => { u with sounding := none })

/-- A receiving fax unit asks its own engine for a retrain DOWN (R129). -/
def Chip.farRetrainFax (c : Chip) (e : EngineNo) : Chip :=
  let l := (c.engines[e]).line
  if (c.fax[l]).map FaxJob.role = some FaxRole.receive ∧ (c.fax[l]).map FaxJob.phase ≠ some FaxPhase.closing then
    match c.askRetrain e .down true with
    | (c, .taken) => c.modFax l (fun j => { j with phase := .training })
    | (c, _) => c
  else c

/-- A RUNNING engine hears the far end's retrain signal (R94, R129). -/
def execFarEndRetrainSignal (e : EngineNo) (dir : RetrainDir) (s : State) : Host.Outcome State Fault Refusal :=
  effect s (fun c =>
    if (c.engines[e]).state = .running then
      (if (c.engines[e]).purpose = .fax then c.farRetrainFax e else c.farRetrainData e dir)
    else c)

/-! ## The carrier (R96) -/

/-- The engine is RUNNING or RETRAINING. -/
def Engine.timesLoss (g : Engine) : Bool := decide (g.state = .running) || decide (g.state = .retraining)

/-- The carrier becomes present or absent (R96). -/
def Engine.setCarrier (g : Engine) (present : Bool) : Engine :=
  { g with
    carrier := present
    loss := if present then .off else if g.timesLoss && !g.loss.run then .start 3000 else g.loss }

/-- The carrier becomes present or absent (R96). -/
def execCarrierChange (e : EngineNo) (present : Bool) (s : State) : Host.Outcome State Fault Refusal :=
  effect s (fun c => if (c.engines[e]).state = .free then c else c.modEngine e (·.setCarrier present))

/-- The carrier has been absent for 3 s: a retrain ends without a result, and the job asks for a release with cause
CARRIER_LOST (R96, R106, R119, R144). Where a Hang Up waits for the end of that retrain, its BYE is sent (R144). -/
def Chip.loseCarrier (c : Chip) (e : EngineNo) : Chip :=
  let g := c.engines[e]
  let c := c.modEngine e (fun g => { (if g.state = .retraining then g.failTest else g) with loss := .off })
  match g.purpose, c.fax[g.line] with
  | .fax, some j => if j.byeWanted then c.sendBye g.line none else c.release g.line .carrierLost
  | _, _ => c.release g.line .carrierLost

/-- Carrier lost (R96). -/
def execCarrierLost (e : EngineNo) (s : State) : Host.Outcome State Fault Refusal :=
  effect s (fun c =>
    let g := c.engines[e]
    if g.timesLoss && !g.carrier && g.loss.run then c.loseCarrier e else c)

end Sys2Proof.Machine
end

