-- ==== Sys2Proof/Machine/DataEvents.lean ====
section
/-!
DEFINITION. The events of data calls: frames sent and received, the opening and closing waits, T1 and the repeat timer, the
link port's work, PLAIN mode (R105 to R117, R120).
-/
namespace Sys2Proof.Machine

/-- The unit exchanges frames only while its engine is RUNNING (R105, R118). -/
def Chip.running (c : Chip) (e : EngineNo) : Bool := decide ((c.engines[e]).state = .running)

/-- The state takes frames (R105). -/
def SessState.framed : SessState → Bool
  | .opening => true
  | .listening => true
  | .linked => true
  | .closing => true
  | _ => false

/-- A good frame is received: judged, then taken by `f`, and the unit sends what it may (R105). -/
def goodFrame (e : EngineNo) (s : State) (f : Chip → Chip) : Host.Outcome State Fault Refusal :=
  effect s (fun c =>
    if c.running e && (c.units[e]).state.framed then Chip.pump (f (c.judgeFrame e true)) e else c)

/-- The session of unit `e` is in state `x`. -/
def Chip.sess (c : Chip) (e : EngineNo) (x : SessState) : Bool := decide ((c.units[e]).state = x)

/-! ## Frames (R105 to R113, R120) -/

/-- The engine has finished sending a frame (R105): T1 is started after a DATA frame (R110). -/
def execLineFrameSent (e : EngineNo) (s : State) : Host.Outcome State Fault Refusal :=
  effect s (fun c =>
    if c.running e then
      match (c.units[e]).sounding with
      | none => c
      | some (.data _ _ _) =>
        (c.modUnit e (fun u => { u with
          sounding := none, t1 := if u.unacked.isEmpty then u.t1 else u.t1Start })).pump e
      | some _ => (c.modUnit e (fun u => { u with sounding := none })).pump e
    else c)

/-- A frame fails its check (R105): judged bad, and no more. -/
def execBadFrame (e : EngineNo) (s : State) : Host.Outcome State Fault Refusal :=
  effect s (fun c => if c.running e && (c.units[e]).state.framed then c.judgeFrame e false else c)

/-- The session is LINKED, and the call is up (R106, R107). -/
def Chip.linkUp (c : Chip) (e : EngineNo) (w : Nat) : Chip := (c.modUnit e (·.link w)).dataUp (c.units[e]).line e

/-- OPEN (R107): answered with OPENED; a repeat in LINKED changes nothing else. -/
def execOpenFrame (e : EngineNo) (window : Nat) (s : State) : Host.Outcome State Fault Refusal :=
  goodFrame e s (fun c =>
    let answered := c.modUnit e (fun u => u.queue (.opened u.opts.window))
    match (c.units[e]).state with
    | .listening => answered.linkUp e window
    | .linked => answered
    | _ => c)

/-- OPENED (R106). -/
def execOpened (e : EngineNo) (window : Nat) (s : State) : Host.Outcome State Fault Refusal :=
  goodFrame e s (fun c => if c.sess e .opening then c.linkUp e window else c)

/-- DATA (R109, R111, R112): its receive number acknowledges, whether or not the frame is taken. -/
def execDataFrame (e : EngineNo) (send recv : SeqNo) (payload : List Byte) (s : State) : Host.Outcome State Fault Refusal :=
  goodFrame e s (fun c =>
    if c.sess e .linked then (c.takeAck e recv).modUnit e (·.receive send payload) else c)

/-- ACCEPT (R109). An acknowledgment that comes in CLOSING is discarded, as a DATA frame is (R120): the model's choice (log 33). -/
def execAccept (e : EngineNo) (n : SeqNo) (s : State) : Host.Outcome State Fault Refusal :=
  goodFrame e s (fun c =>
    if c.sess e .linked && (c.units[e]).validAck n then (c.takeAck e n).modUnit e (fun u => { u with remotePaused := false })
    else c)

/-- PAUSE (R109). -/
def execPause (e : EngineNo) (n : SeqNo) (s : State) : Host.Outcome State Fault Refusal :=
  goodFrame e s (fun c =>
    if c.sess e .linked && (c.units[e]).validAck n then (c.takeAck e n).modUnit e (fun u => { u with remotePaused := true })
    else c)

/-- RESEND (R109). -/
def execResend (e : EngineNo) (n : SeqNo) (s : State) : Host.Outcome State Fault Refusal :=
  goodFrame e s (fun c =>
    if c.sess e .linked && (c.units[e]).validAck n then (c.takeAck e n).modUnit e (·.markFrom n) else c)

/-- CLOSED is sent, if the engine is RUNNING (R120). It goes out at once, ahead of acknowledgments that wait and of a frame that sounds, and
the detach ends in the same step: the model's choice, for R105 sends waiting frames one at a time and R121 finishes the detach once its
frames have been sent (log 38). -/
def Chip.sayClosed (c : Chip) (e : EngineNo) : Chip :=
  if c.running e then c.modUnit e (fun u => { u with lastLine := some .closed }) else c

/-- CLOSE (R106, R107, R120): a remote clear, whose detach sends CLOSED; in CLOSING it is answered and ends the wait. -/
def execClose (e : EngineNo) (s : State) : Host.Outcome State Fault Refusal :=
  goodFrame e s (fun c =>
    if c.sess e .closing then (c.sayClosed e).detachEnds (c.units[e]).line
    else (c.sayClosed e).release (c.units[e]).line .remoteCleared)

/-- CLOSED (R120): in CLOSING it ends the wait. -/
def execClosed (e : EngineNo) (s : State) : Host.Outcome State Fault Refusal :=
  goodFrame e s (fun c => if c.sess e .closing then c.detachEnds (c.units[e]).line else c)

/-! ## Waits and timers (R106, R107, R110, R113, R120) -/

/-- The opening has failed (R106, R107): PLAIN if it is allowed, else LINK_FAILED. -/
def Chip.openingFails (c : Chip) (e : EngineNo) : Chip :=
  let u := c.units[e]
  if u.opts.plainAllowed then
    (c.modUnit e (fun u => { u with state := .plain, ctrl := [], sounding := none })).dataUp u.line e
  else c.release u.line .linkFailed

/-- A 3 s wait for OPENED expires (R106). -/
def execOpenWaitExpiry (e : EngineNo) (s : State) : Host.Outcome State Fault Refusal :=
  effect s (fun c =>
    if c.running e && c.sess e .opening then
      if (c.units[e]).openSends < 2 then
        (c.modUnit e (fun u => { u.queue (.openFrame u.opts.window) with openSends := u.openSends + 1 })).pump e
      else c.openingFails e
    else c)

/-- 8 s pass in LISTENING (R107). -/
def execListenTimeout (e : EngineNo) (s : State) : Host.Outcome State Fault Refusal :=
  effect s (fun c => if c.running e && c.sess e .listening then c.openingFails e else c)

/-- The oldest frame of the list is marked for resend. -/
def markOldest : List Unacked → List Unacked
  | [] => []
  | f :: rest => { f with marked := true } :: rest

/-- T1 expires (R110). -/
def execT1Expiry (e : EngineNo) (s : State) : Host.Outcome State Fault Refusal :=
  effect s (fun c =>
    let u := c.units[e]
    if c.running e && c.sess e .linked && u.t1.run then
      if u.expiries < u.opts.n2 then
        (c.modUnit e (fun u => { u with expiries := u.expiries + 1, unacked := markOldest u.unacked, t1 := .off })).pump e
      else c.release u.line .linkFailed
    else c)

/-- The repeat timer expires in RESUMING (R113). -/
def execRepeatTimerExpiry (e : EngineNo) (s : State) : Host.Outcome State Fault Refusal :=
  effect s (fun c =>
    let u := c.units[e]
    if c.running e && c.sess e .linked && decide (u.flow = .resuming) && u.rep.run then
      if u.repCount < u.opts.n2 then
        (c.modUnit e (fun u => { u.queue (.accept u.expected) with repCount := u.repCount + 1, rep := u.t1Start })).pump e
      else c.modUnit e (fun u => { u with rep := .off, flow := .flowing })
    else c)

/-- The 2 s wait for CLOSED expires (R120). -/
def execCloseWaitExpiry (e : EngineNo) (s : State) : Host.Outcome State Fault Refusal :=
  effect s (fun c => if c.sess e .closing then c.detachEnds (c.units[e]).line else c)

/-! ## The link port (R115, R117) -/

/-- The link port serves a kind of work: it is the one served last from now on (R115). -/
def Chip.serve (c : Chip) (k : Fin 3) : Chip := { c with linkPort := { c.linkPort with served := k } }

/-- The link port takes the oldest code-0 frame (R115). -/
def execLinkPortTake (s : State) : Host.Outcome State Fault Refusal :=
  effect s (fun c =>
    match c.nextKind, c.dataHead with
    | some 0, some d => (c.serve 0).takeFrame d
    | _, _ => c)

/-- The kind of work that drains the ring of unit `e`. -/
def drainKind (e : EngineNo) : Fin 3 := if e = 0 then 1 else 2

/-- The link port begins to drain a receive ring: up to 256 bytes (R117). -/
def execReceiveRingDrain (e : EngineNo) (s : State) : Host.Outcome State Fault Refusal :=
  effect s (fun c =>
    if c.nextKind = some (drainKind e) then
      { c with linkPort := { work := some (.drain e (min 256 (c.units[e]).rx.held) []), served := drainKind e } }
    else c)

/-! ## PLAIN mode (R114) -/

/-- The bytes read leave the ring as the engine takes them (R114). -/
def DataLink.plainSent (u : DataLink) (k : Cut) : DataLink :=
  { u with
    plainOut := k.got, cut := none
    tx := { u.tx with start := ringAt (u.tx.start + k.total), held := u.tx.held - k.total } }

/-- In PLAIN the engine is ready for more bytes (R114): it takes those that the unit has read. -/
def execPlainBytesSent (e : EngineNo) (s : State) : Host.Outcome State Fault Refusal :=
  effect s (fun c =>
    if c.running e && c.sess e .plain then
      match (c.units[e]).cut with
      | some k => if k.got.length = k.total then (c.modTx e (·.plainSent k)).pump e else c
      | none => c.pump e
    else c)

/-- In PLAIN the engine delivers bytes (R114). -/
def execPlainBytesReceived (e : EngineNo) (bytes : List Byte) (s : State) : Host.Outcome State Fault Refusal :=
  effect s (fun c => if c.running e && c.sess e .plain then c.plainReceive e bytes else c)

end Sys2Proof.Machine
end

