-- ==== Sys2Proof/Machine/FaxEvents.lean ====
section
/-!
DEFINITION. The events of fax sessions: control messages received, waits, rounds sent, strips judged and stored (R125 to R144).
-/
namespace Sys2Proof.Machine

/-- An event that the fax job of line `l` takes in role `role`. -/
def faxEvent (l : LineNo) (role : FaxRole) (s : State) (f : Chip → FaxJob → Chip) : Host.Outcome State Fault Refusal :=
  effect s (fun c =>
    match c.fax[l] with
    | some j => if j.role = role then f c j else c
    | none => c)

/-- The session ends and its BYE, where it sends one, is answered or not awaited (R135, R142). -/
def Chip.abortFax (c : Chip) (l : LineNo) (j : FaxJob) : Chip :=
  match j.role with
  | .send => (c.settleSent l).sendBye l (some abortEnd)
  | .receive => (c.endPage l true).sendBye l (some abortEnd)

/-! ## Opening (R127, R128) -/

/-- The sender fixes the session from a CAPS, makes the first page's turn and sends SET, or BYE if no page can be sent (R128). -/
def Chip.takeCaps (c : Chip) (l : LineNo) (x : Remote) : Chip :=
  let c := (c.modFax l (fun j => { j with
    remote := x, mode := some (if x.sectioned && j.opts.sectioned then .sectioned else .plain) })).pageTurn l true
  match (c.fax[l]).bind (·.announced) with
  | some p => ((c.takeAnnounced l).modFax l (fun j => { j with firstRes := p.res })).sendSet l (rateMin c.localMax x.rate)
  | none => c.sendBye l (some (ownEnd .pagePartial))

/-- CAPS (R128); a CAPS heard again is answered by the same SET (R125). -/
def execCaps (l : LineNo) (maxBps : Nat) (sectioned fine : Bool) (ident : Option (List Byte)) (s : State) :
    Host.Outcome State Fault Refusal :=
  faxEvent l .send s (fun c j =>
    match j.phase, j.wait with
    | .preamble, _ =>
      if j.abortPending then c.abortFax l j
      else c.takeCaps l { rate := rateBelow maxBps, sectioned := sectioned, fine := fine, ident := ident }
    | .training, some (.set m r res i) => c.faxSend l (.set m r res i)
    | _, _ => c)

/-- The receiver takes a SET and starts its engine's training (R127). -/
def Chip.takeSet (c : Chip) (l : LineNo) (j : FaxJob) (mode : FaxMode) (r : Rate) (res : Resolution)
    (ident : Option (List Byte)) : Chip :=
  (c.modFax l (fun j => { j with
    mode := some mode, remote := { rate := r, sectioned := decide (mode = .sectioned), ident := ident }
    firstRes := if j.phase = .preamble then res else j.firstRes
    phase := .training, wait := none, trainWait := false })).startTraining j.engine (some r)

/-- The SET was offered by the CAPS (R127). -/
def FaxJob.offers (j : FaxJob) (mode : FaxMode) (res : Resolution) : Bool :=
  (decide (mode = .plain) || j.opts.sectioned) && (decide (res = .standard) || j.opts.fine)

/-- The receiver takes a SET in PREAMBLE, and in TRAINING while its engine does not train (R127, R129). One that comes while the engine
still trains, where R92 refuses the start, is discarded whole: the model's choice (log 37). -/
def Chip.takesSet (c : Chip) (j : FaxJob) : Bool :=
  decide (j.phase = .preamble) || (decide (j.phase = .training) && decide ((c.engines[j.engine]).state = .claimed))

/-- SET (R127, R129); its page number is 1. -/
def execSet (l : LineNo) (mode : FaxMode) (bps : Nat) (res : Resolution) (page : Nat) (ident : Option (List Byte))
    (s : State) : Host.Outcome State Fault Refusal :=
  faxEvent l .receive s (fun c j =>
    if c.takesSet j && decide (page = 1) then
      if j.abortPending then c.abortFax l j
      else if j.offers mode res then c.takeSet l j mode (rateBelow bps) res ident
      else c.sendBye l (some (failEnd .remoteIncapable))
    else c)

/-! ## Verdicts (R93, R129) -/

/-- The sending engine takes the receiver's verdict on the test at rate `r` that awaits it (R129). -/
def Chip.takeVerdict (c : Chip) (j : FaxJob) (r : Rate) (pass : Bool) : Chip :=
  let g := c.engines[j.engine]
  if g.testing && g.await.isSome && decide (g.testRate = some r) then c.settleTest j.engine pass else c

/-- TRAIN_OK: the sending engine's test passes (R129). -/
def execTrainOk (l : LineNo) (rate : Rate) (s : State) : Host.Outcome State Fault Refusal :=
  faxEvent l .send s (fun c j => c.takeVerdict j rate true)

/-- TRAIN_BAD: the sending engine's test fails (R129). -/
def execTrainBad (l : LineNo) (rate : Rate) (s : State) : Host.Outcome State Fault Refusal :=
  faxEvent l .send s (fun c j => c.takeVerdict j rate false)

/-! ## Answers to a round (R131, R132) -/

/-- The sender waits for the answer to a round of page `page`, section `sect`. -/
def FaxJob.awaitsRound (j : FaxJob) (page sect : Nat) : Bool :=
  decide (j.phase = .page) && j.roundWait && decide ((j.cur.map (·.number)) = some page) && decide (j.sect = sect)

/-- The strip is listed by a MAP; an absent list is "whole section". -/
def mapLists (needed : Option (List Nat)) (n : Nat) : Bool :=
  match needed with
  | none => true
  | some ns => ns.contains n

/-- The marks after a MAP (R131): listed strips are NEEDED, the others TAKEN. A strip that an earlier round's answer made TAKEN and that
this MAP lists is NEEDED again: the model's choice, for R131 says only that listed strips stay NEEDED (log 41). -/
def FaxJob.mapped (j : FaxJob) (needed : Option (List Nat)) : Vector StripMark 32 :=
  Vector.ofFn (fun i =>
    if j.marks[i] = .unused then .unused else if mapLists needed (32 * j.sect + i.val) then .needed else .taken)

/-- A MAP for the current section: judged, then the next round, or the end of the rounds (R126, R131, R132, R143). -/
def Chip.takeMap (c : Chip) (l : LineNo) (j : FaxJob) (needed : Option (List Nat)) : Chip :=
  let sent := neededOf j.sect j.marks
  let bad := (sent.filter (mapLists needed)).length
  let marks := j.mapped needed
  let c := (c.judgeStrips j.engine (sent.length - bad) bad).modFax l (fun j => { j with marks := marks, roundWait := false })
  if j.abortPending then c.abortFax l j
  else if j.round < 4 then (c.modFax l (fun j => { j with round := j.round + 1 })).startRound l
  else c.roundsSpent l j.engine (neededOf j.sect marks).length

/-- MAP (R131): one that names another page or section is discarded. -/
def execMap (l : LineNo) (page sect : Nat) (needed : Option (List Nat)) (s : State) : Host.Outcome State Fault Refusal :=
  faxEvent l .send s (fun c j => if j.awaitsRound page sect then c.takeMap l j needed else c)

/-- TAKEN for the current section: it is done (R131). -/
def Chip.sectionTaken (c : Chip) (l : LineNo) (j : FaxJob) : Chip :=
  ((c.judgeStrips j.engine (neededOf j.sect j.marks).length 0).modFax l (fun j => { j with
    roundWait := false, marks := j.marks.map (fun m => if m = .needed then .taken else m) })).nextSection l

/-! ## Answers to MORE and LAST (R133, R134) -/

/-- The sender waits for the answer to MORE or LAST about page `page`. -/
def FaxJob.awaitsPage (j : FaxJob) (page : Nat) : Bool :=
  decide (j.phase = .postpage) && decide ((j.cur.map (·.number)) = some page) &&
    (match j.wait with
      | some (.more ..) => true
      | some .last => true
      | _ => false)

/-- After the page's TAKEN (R134, R143): BYE after LAST, after a PARTIAL page that is not to be followed, or for an Abort;
else the next page. -/
def Chip.afterTaken (c : Chip) (l : LineNo) (j : FaxJob) (partialFlag : Bool) : Chip :=
  if j.abortPending then c.sendBye l (some abortEnd)
  else if j.wait = some .last then c.sendBye l ((c.fax[l]).map (·.sendEnd))
  else if partialFlag && !j.opts.goOn then c.sendBye l (some (ownEnd .pagePartial))
  else c.nextPage l

/-- TAKEN for the page (R134). In PLAIN its channel is unbound now (R133). -/
def Chip.pageTaken (c : Chip) (l : LineNo) (j : FaxJob) (partialFlag : Bool) : Chip :=
  let total := (j.cur.map (·.total)).getD 0
  let partialFlag := partialFlag || decide (0 < (j.cur.map (·.givenUp)).getD 0)
  let c := if j.mode = some .plain then (c.judgeStrips j.engine total 0).unbindCur l else c
  ((c.pageSent l partialFlag).modFax l (fun j => { j with wait := none })).afterTaken l j partialFlag

/-- TAKEN (R131, R134): one that names another page or section is discarded. -/
def execTaken (l : LineNo) (page : Nat) (sect : Option Nat) (partialFlag : Bool) (s : State) :
    Host.Outcome State Fault Refusal :=
  faxEvent l .send s (fun c j =>
    match sect with
    | some n => if j.awaitsRound page n then c.sectionTaken l j else c
    | none => if j.awaitsPage page then c.pageTaken l j partialFlag else c)

/-- RETAKE (R133): the page is sent again after a retrain DOWN, twice at most. At the third the session ends ABRUPT PAGE_PARTIAL with
cause NONE, also with continue after partial set, which no row of R135 names: the model's choice (log 36). -/
def Chip.takeRetake (c : Chip) (l : LineNo) (j : FaxJob) (bad : Nat) : Chip :=
  let total := (j.cur.map (·.total)).getD 0
  let c := (c.judgeStrips j.engine (total - bad) (min bad total)).modFax l (fun j => { j with
    wait := none, cur := j.cur.map (fun p => { p with lastBad := bad }) })
  if j.abortPending then c.abortFax l j
  else if j.retakes < 2 then
    (c.modFax l (fun j => { j with retakes := j.retakes + 1 })).faxRetrain l j.engine (·.startRound l)
  else (c.pageSent l true).sendBye l (some (ownEnd .pagePartial))

/-- RETAKE (R133). -/
def execRetake (l : LineNo) (page bad : Nat) (s : State) : Host.Outcome State Fault Refusal :=
  faxEvent l .send s (fun c j =>
    if j.awaitsPage page && decide (j.mode = some .plain) then c.takeRetake l j bad else c)

/-! ## MORE and LAST (R136, R138, R139, R141) -/

/-- The receiver takes MORE and LAST in PAGE and POSTPAGE. -/
def FaxJob.takesPageEnd (j : FaxJob) : Bool := decide (j.phase = .page) || decide (j.phase = .postpage)

/-- A RETAKE has been answered, and no new pass has come since (R139). -/
def FaxJob.retakeStands (j : FaxJob) : Bool := (j.cur.map (·.between)).getD false

/-- An answer given before is sent again (R125); a pending Abort acts in its place (R143). -/
def Chip.answerAgain (c : Chip) (l : LineNo) (j : FaxJob) (given : Option FaxMsg) : Chip :=
  match given with
  | some m => if j.abortPending then c.abortFax l j else c.faxSend l m
  | none => c

/-- The pass bad count of a PLAIN pass that ends with TAKEN (R139). -/
def FaxJob.passEnds (j : FaxJob) (p : FaxPage) : FaxJob :=
  { j with passBad := if j.mode = some .plain then p.badCount else j.passBad }

/-- A MORE or LAST that has not been answered before: BYE after store exhaustion (R141) or for an Abort (R143), RETAKE (R139),
or the end of the page and TAKEN, after which `next` follows (R136, R138). `page` is the number that MORE carries. -/
def Chip.pageEnds (c : Chip) (l : LineNo) (j : FaxJob) (page : Option Nat) (next : Chip → Chip) : Chip :=
  if j.abortPending then c.abortFax l j
  else if j.storeFull then c.sendBye l (some (failEnd .storeFull))
  else
    match j.cur with
    | none => next (c.faxAnswer l page (.taken j.index none false))
    | some p =>
      if j.wantsRetake p then c.answerRetake l p page
      else next (((c.modFax l (·.passEnds p)).endPage l (j.takenPartial p)).faxAnswer l page (.taken p.number none (j.takenPartial p)))

/-- The receiver's own BYE after its last page (R136): the session ends as for LAST. -/
def lastEnd : FaxEnd := { cls := .normal, reason := .none, cause := .remoteCleared }

/-- The next page is begun in the same step; with 255 pages held, BYE is sent (R136). -/
def Chip.pageFollows (c : Chip) (l : LineNo) (pages page : Nat) (res : Resolution) : Chip :=
  if 255 ≤ pages then (c.modFax l (fun j => { j with lastDone := true })).sendBye l (some lastEnd) else c.beginPage l page res

/-- MORE (R136, R138, R139): a repeat is known by the page number (R125), and after a RETAKE by no new pass having come (R139). -/
def execMore (l : LineNo) (page : Nat) (res : Resolution) (s : State) : Host.Outcome State Fault Refusal :=
  faxEvent l .receive s (fun c j =>
    if !j.takesPageEnd then c
    else if page ≤ j.index then c.answerAgain l j (j.answerTo (some page))
    else if j.retakeStands then c.answerAgain l j (j.answers.head?.map Prod.snd)
    else c.pageEnds l j (some page) (fun c => c.pageFollows l j.pages.length page res))

/-- LAST (R138, R139). -/
def execLast (l : LineNo) (s : State) : Host.Outcome State Fault Refusal :=
  faxEvent l .receive s (fun c j =>
    if !j.takesPageEnd then c
    else if j.lastDone then c.answerAgain l j (j.answerTo none)
    else if j.retakeStands then c.answerAgain l j (j.answers.head?.map Prod.snd)
    else c.pageEnds l j none (fun c => c.modFax l (fun j => { j with lastDone := true, phase := .postpage })))

/-! ## BYE and the waits (R125, R128, R129, R135, R142, R144) -/

/-- A BYE that answers no BYE of the job's own is answered, and the session ends REMOTE_CLEARED, or NORMAL after LAST and
TAKEN (R142, R144). A page whose MORE or LAST it answers is PARTIAL (R134). -/
def Chip.farBye (c : Chip) (l : LineNo) (j : FaxJob) : Chip :=
  let c := c.faxSend l .bye
  let c := if j.role = .send ∧ j.phase = .postpage then c.pageSent l true else c
  c.faxEnds l (if j.role = .receive ∧ j.lastDone = true then lastEnd else failEnd .remoteCleared)

/-- BYE (R135, R142, R144). -/
def execBye (l : LineNo) (s : State) : Host.Outcome State Fault Refusal :=
  effect s (fun c =>
    match c.fax[l] with
    | none => c
    | some j =>
      if j.wait = some .bye then c.faxEnds l (j.ending.getD (failEnd .remoteCleared)) else c.farBye l j)

/-- A message is sent again (R125). -/
def Chip.sendAgain (c : Chip) (l : LineNo) (m : FaxMsg) : Chip :=
  c.modFax l (fun j => { j with sent := some m, sends := j.sends + 1 })

/-- A pending Abort acts in place of the next send of this message (R143): not in place of BYE, nor of SET, whose training
it waits for. -/
def FaxMsg.givesWay : FaxMsg → Bool
  | .bye => false
  | .set .. => false
  | _ => true

/-- A 3 s wait for an answer expires (R125): three sends in all, in place of which a pending Abort acts (R143). A Hang Up
waits for one BYE only (R144). -/
def execFaxMessageTimeout (l : LineNo) (s : State) : Host.Outcome State Fault Refusal :=
  effect s (fun c =>
    match c.fax[l] with
    | none => c
    | some j =>
      match j.wait with
      | none => c
      | some m =>
        if (c.calls[l]).state = .releasing then c.detachEnds l
        else if j.sends < 3 then (if j.abortPending && m.givesWay then c.abortFax l j else c.sendAgain l m)
        else c.faxEnds l (if m = .bye then j.ending.getD (failEnd .linkFailed) else failEnd .linkFailed))

/-- No CAPS within 10 s (R128). -/
def execCapsWaitTimeout (l : LineNo) (s : State) : Host.Outcome State Fault Refusal :=
  faxEvent l .send s (fun c j => if j.phase = .preamble then c.closeFax l (failEnd .linkFailed) else c)

/-- A receiver whose training failed has heard no SET or BYE within 3 s (R129). -/
def execReceiverTrainWaitExpiry (l : LineNo) (s : State) : Host.Outcome State Fault Refusal :=
  faxEvent l .receive s (fun c j =>
    if j.trainWait && decide (j.phase = .training) then c.closeFax l (failEnd .trainFailed) else c)

/-! ## Rounds and strips (R126, R130, R131, R137, R138) -/

/-- The sending engine has sent the round's last strip and the end-of-round signal (R126): the channel is held. In PLAIN the
page is done (R133). -/
def Chip.roundDone (c : Chip) (l : LineNo) (j : FaxJob) : Chip :=
  let c := match j.cur.bind (·.chan) with
    | some i => c.holdChan i
    | none => c
  let c := c.modFax l (fun j => { j with roundOn := false, sent := some .endOfRound })
  if j.mode = some .plain then c.postPage l else c.modFax l (fun j => { j with roundWait := true, sends := 1 })

/-- The round has been sent (R126). -/
def execRoundSent (l : LineNo) (s : State) : Host.Outcome State Fault Refusal :=
  faxEvent l .send s (fun c j =>
    if c.running j.engine && decide (j.phase = .page) && j.roundOn && j.runs.isEmpty && decide (j.runLeft = 0) then
      c.roundDone l j
    else c)

/-- No MAP or TAKEN within 3 s of the round's end (R131). -/
def execRoundAnswerTimeout (l : LineNo) (s : State) : Host.Outcome State Fault Refusal :=
  faxEvent l .send s (fun c j =>
    if j.roundWait && decide (j.phase = .page) then
      (if j.sends < 3 then c.sendAgain l .endOfRound else c.closeFax l (failEnd .linkFailed))
    else c)

/-- The receiver takes strips: in PAGE, and in POSTPAGE of a page that is sent again (R137, R139). -/
def FaxJob.takesStrips (j : FaxJob) : Bool := decide (j.phase = .page) || (decide (j.phase = .postpage) && j.retakeStands)

/-- The receiving engine judges a strip (R126, R137). -/
def execStripJudged (l : LineNo) (j : StripJudgment) (s : State) : Host.Outcome State Fault Refusal :=
  faxEvent l .receive s (fun c k =>
    if c.running k.engine && k.takesStrips then
      let c := c.modFax l FaxJob.stripHeard
      match j with
      | .bad => c.badStrip l k.engine
      | .good number total bytes => c.goodStrip l k.engine number total bytes
    else c)

/-- The engine path reports its buffer empty: the strip is stored (R137). -/
def execStripStored (l : LineNo) (s : State) : Host.Outcome State Fault Refusal :=
  faxEvent l .receive s (fun c j =>
    match j.strips, (c.epaths[l]).frm with
    | (n, _) :: _, [] => if j.passing then c.stripDone l n else c
    | _, _ => c)

/-- The receiving engine hears the end-of-round signal: answered in SECTIONED (R138, R143). -/
def execEndOfRound (l : LineNo) (s : State) : Host.Outcome State Fault Refusal :=
  faxEvent l .receive s (fun c j =>
    if c.running j.engine && decide (j.phase = .page) && decide (j.mode = some .sectioned) then
      (if j.abortPending then c.abortFax l j else c.answerRound l j)
    else c)

end Sys2Proof.Machine
end

