-- ==== Sys2Proof/Machine/VoiceEvents.lean ====
section
/-!
DEFINITION. The events of voice mail's tones, timers and recording-end detector (R153 to R163).
-/
namespace Sys2Proof.Machine

/-- The sequence of line `l` is in state `x` and plays tone `t`. -/
def PlanSeq.plays (q : PlanSeq) (x : SeqState) (t : PlanTone) : Bool := decide (q.state = x) && decide (q.tone = t)

/-- The greeting tone ends (R155). -/
def execGreetingToneEnd (l : LineNo) (s : State) : Host.Outcome State Fault Refusal :=
  effect s (fun c => if (c.seqs[l]).plays .greeting .greeting then c.greetingEnd l else c)

/-- The record tone ends (R155). -/
def execRecordToneEnd (l : LineNo) (s : State) : Host.Outcome State Fault Refusal :=
  effect s (fun c => if (c.seqs[l]).plays .tone .record then c.startRecording l else c)

/-- The closing tones end (R159): the sequence ends, and a release with cause NONE is asked. -/
def execClosingTonesEnd (l : LineNo) (s : State) : Host.Outcome State Fault Refusal :=
  effect s (fun c => if (c.seqs[l]).plays .closing .closing then (c.endSequence l).release l .none else c)

/-- The error tone after a wrong code ends (R162): ACCESS goes on, or after the third wrong code REMOTE_ACCESS is posted with
outcome BAD, the sequence ends and a release is asked. -/
def Chip.accessErrorEnds (c : Chip) (l : LineNo) : Chip :=
  if 3 ≤ (c.seqs[l]).wrong then ((c.noteAccess l false).endSequence l).release l .none
  else c.modSeq l (fun q => { q with tone := .none })

/-- An error tone ends (R162, R163). -/
def execErrorToneEnd (l : LineNo) (s : State) : Host.Outcome State Fault Refusal :=
  effect s (fun c =>
    if (c.seqs[l]).plays .access .error then c.accessErrorEnds l
    else if (c.seqs[l]).plays .review .error then c.modSeq l (fun q => { q with tone := .none })
    else c)

/-- A review prompt, entry or end-of-list tone. -/
def PlanTone.prompts : PlanTone → Bool
  | .entry => true
  | .prompt => true
  | .endOfList => true
  | _ => false

/-- A prompt, entry or end-of-list tone ends (R162, R163). -/
def execPromptToneEnd (l : LineNo) (s : State) : Host.Outcome State Fault Refusal :=
  effect s (fun c => c.modSeq l (fun q => { q with tone := if q.tone.prompts then .none else q.tone }))

/-- The 3 s timer of the digits read in GREETING expires: they are forgotten (R154). -/
def execDigitPrefixTimeout (l : LineNo) (s : State) : Host.Outcome State Fault Refusal :=
  effect s (fun c =>
    c.modSeq l (fun q =>
      if q.state = .greeting ∧ q.prefixTimer.run = true then { q with opening := .empty, prefixTimer := .off } else q))

/-- The position up to which the codec path has delivered bytes to a recording's channel (R156). -/
def Chip.recordedTo (c : Chip) (r : Recording) : Nat :=
  (c.chans[r.chan]).cur + (c.buf (c.chans[r.chan]).path).frm.length

/-- An interval is silent below the noise floor + 6 dB (R156). -/
def Chip.silent (c : Chip) (l : LineNo) (level : Int) : Bool := decide (level < (c.lines[l]).noise + 6)

/-- A recording takes one interval of the detector (R156). -/
def Chip.watch (c : Chip) (l : LineNo) (r : Recording) (level : Int) (tone : Bool) : Recording :=
  { r with det := r.det.interval (c.recordedTo r) (c.silent l level) (!c.silent l level && tone) }

/-- An interval of a plan recording ends (R156, R157). -/
def Chip.planInterval (c : Chip) (l : LineNo) (r : Recording) (level : Int) (tone : Bool) : Chip :=
  let r := c.watch l r level tone
  let c := c.modSeq l (fun q => { q with recording := some r })
  if r.det.silent r.silenceEnd then c.endPlanRecording l .silence else c

/-- An interval of a Record ends (R81, R156). -/
def Chip.recordInterval (c : Chip) (l : LineNo) (r : Recording) (level : Int) (tone : Bool) : Chip :=
  let r := c.watch l r level tone
  let c := c.modCall l (fun k => { k with record := some r })
  if r.det.silent r.silenceEnd then c.endRecord l .silence else c

/-- A 50 ms interval of a recording ends (R156); one whose end has come is watched no more. -/
def execDetectorInterval (l : LineNo) (level : Int) (tone : Bool) (s : State) : Host.Outcome State Fault Refusal :=
  effect s (fun c =>
    match (c.seqs[l]).recording, (c.calls[l]).record with
    | some r, _ => if r.cause.isSome then c else c.planInterval l r level tone
    | none, some r => if r.cause.isSome then c else c.recordInterval l r level tone
    | none, none => c)

/-- The 10 s digit timer of ACCESS expires: it counts as a wrong code, after which it starts again (R162, log 38). -/
def execAccessDigitTimeout (l : LineNo) (s : State) : Host.Outcome State Fault Refusal :=
  effect s (fun c =>
    if (c.seqs[l]).state = .access ∧ (c.seqs[l]).wrong < 3 ∧ (c.seqs[l]).digitTimer.run = true then c.wrongCode l else c)

/-- The idle timer of REVIEW reaches 20 s; it runs while no channel plays and no tone sounds (R163). -/
def execReviewIdleTimeout (l : LineNo) (s : State) : Host.Outcome State Fault Refusal :=
  effect s (fun c =>
    if (c.seqs[l]).idles && (c.seqs[l]).idleTimer.run then c.enterClosing l else c)

end Sys2Proof.Machine
end

