-- ==== Sys2Proof/Machine/Dispatch.lean ====
section
/-!
DEFINITION. What each command does: one arm per constructor of Instr.
-/
namespace Sys2Proof.Machine

def exec (i : Instr) (s : State) : Host.Outcome State Fault Refusal :=
  match i with
  | .readExchange clocked => Sys2Proof.Machine.execReadExchange clocked s
  | .writeExchange bytes => Sys2Proof.Machine.execWriteExchange bytes s
  | .powerOnReset => Sys2Proof.Machine.execPowerOnReset s
  | .initialisationEnd s0 s1 s2 s3 => Sys2Proof.Machine.execInitialisationEnd s0 s1 s2 s3 s
  | .clockTick => Sys2Proof.Machine.execClockTick s
  | .unknownRequest => Sys2Proof.Machine.execUnknownRequest s
  | .getStatus => Sys2Proof.Machine.execGetStatus s
  | .configureDevice => Sys2Proof.Machine.execConfigureDevice s
  | .setClock => Sys2Proof.Machine.execSetClock s
  | .deviceReset => Sys2Proof.Machine.execDeviceReset s
  | .createObject => Sys2Proof.Machine.execCreateObject s
  | .deleteObject => Sys2Proof.Machine.execDeleteObject s
  | .getObjectInfo => Sys2Proof.Machine.execGetObjectInfo s
  | .listObjects => Sys2Proof.Machine.execListObjects s
  | .readObject => Sys2Proof.Machine.execReadObject s
  | .writeObject => Sys2Proof.Machine.execWriteObject s
  | .getLineStatus => Sys2Proof.Machine.execGetLineStatus s
  | .setLineSettings => Sys2Proof.Machine.execSetLineSettings s
  | .clearFaults => Sys2Proof.Machine.execClearFaults s
  | .lineReset => Sys2Proof.Machine.execLineReset s
  | .dial => Sys2Proof.Machine.execDial s
  | .answer => Sys2Proof.Machine.execAnswer s
  | .hangUp => Sys2Proof.Machine.execHangUp s
  | .abort => Sys2Proof.Machine.execAbort s
  | .abortDevice => Sys2Proof.Machine.execAbortDevice s
  | .takeOver => Sys2Proof.Machine.execTakeOver s
  | .play => Sys2Proof.Machine.execPlay s
  | .record => Sys2Proof.Machine.execRecord s
  | .sendDigits => Sys2Proof.Machine.execSendDigits s
  | .setAnswerPlan => Sys2Proof.Machine.execSetAnswerPlan s
  | .getAnswerPlan => Sys2Proof.Machine.execGetAnswerPlan s
  | .setScreenEntry => Sys2Proof.Machine.execSetScreenEntry s
  | .getScreenEntry => Sys2Proof.Machine.execGetScreenEntry s
  | .setLinkOptions => Sys2Proof.Machine.execSetLinkOptions s
  | .getLinkOptions => Sys2Proof.Machine.execGetLinkOptions s
  | .setFaxOptions => Sys2Proof.Machine.execSetFaxOptions s
  | .getFaxOptions => Sys2Proof.Machine.execGetFaxOptions s
  | .setMailbox => Sys2Proof.Machine.execSetMailbox s
  | .getMailbox => Sys2Proof.Machine.execGetMailbox s
  | .setMessageStatus => Sys2Proof.Machine.execSetMessageStatus s
  | .setGreeting => Sys2Proof.Machine.execSetGreeting s
  | .setIndicator => Sys2Proof.Machine.execSetIndicator s
  | .getIndicators => Sys2Proof.Machine.execGetIndicators s
  | .arbiterGrant => Sys2Proof.Machine.execArbiterGrant s
  | .transferDone => Sys2Proof.Machine.execTransferDone s
  | .pathConsume p => Sys2Proof.Machine.execPathConsume p s
  | .pathProduce p b => Sys2Proof.Machine.execPathProduce p b s
  | .pathDrained p => Sys2Proof.Machine.execPathDrained p s
  | .loopPresent l polarity => Sys2Proof.Machine.execLoopPresent l polarity s
  | .polarityReversal l => Sys2Proof.Machine.execPolarityReversal l s
  | .loopInterruption l => Sys2Proof.Machine.execLoopInterruption l s
  | .lineVoltageChange l present => Sys2Proof.Machine.execLineVoltageChange l present s
  | .lineLostTimerExpiry l => Sys2Proof.Machine.execLineLostTimerExpiry l s
  | .ringingVoltageBegin l => Sys2Proof.Machine.execRingingVoltageBegin l s
  | .ringingVoltageEnd l ms => Sys2Proof.Machine.execRingingVoltageEnd l ms s
  | .abandonTimerExpiry l => Sys2Proof.Machine.execAbandonTimerExpiry l s
  | .callerNumberBurst l content good => Sys2Proof.Machine.execCallerNumberBurst l content good s
  | .quietWindowEnd l tenths => Sys2Proof.Machine.execQuietWindowEnd l tenths s
  | .driverTemperatureChange l celsius => Sys2Proof.Machine.execDriverTemperatureChange l celsius s
  | .overcurrentSensed l => Sys2Proof.Machine.execOvercurrentSensed l s
  | .loopCurrentFalls l => Sys2Proof.Machine.execLoopCurrentFalls l s
  | .coolOffExpiry l => Sys2Proof.Machine.execCoolOffExpiry l s
  | .pulseTimingExpiry l => Sys2Proof.Machine.execPulseTimingExpiry l s
  | .seizeTimeout l => Sys2Proof.Machine.execSeizeTimeout l s
  | .dialToneHeard l level => Sys2Proof.Machine.execDialToneHeard l level s
  | .dialToneTimeout l => Sys2Proof.Machine.execDialToneTimeout l s
  | .blindPauseEnd l => Sys2Proof.Machine.execBlindPauseEnd l s
  | .dtmfDigitDone l => Sys2Proof.Machine.execDtmfDigitDone l s
  | .commaPauseEnd l => Sys2Proof.Machine.execCommaPauseEnd l s
  | .progressCycle l level on off => Sys2Proof.Machine.execProgressCycle l level on off s
  | .continuousTone l level => Sys2Proof.Machine.execContinuousTone l level s
  | .progressSilenceTimeout l => Sys2Proof.Machine.execProgressSilenceTimeout l s
  | .answerTone l => Sys2Proof.Machine.execAnswerTone l s
  | .speechAnswer l level => Sys2Proof.Machine.execSpeechAnswer l level s
  | .dtmfDigitHeard l d => Sys2Proof.Machine.execDtmfDigitHeard l d s
  | .remoteClearTone l tone => Sys2Proof.Machine.execRemoteClearTone l tone s
  | .discriminationWindowClose l => Sys2Proof.Machine.execDiscriminationWindowClose l s
  | .faxCallingTone l => Sys2Proof.Machine.execFaxCallingTone l s
  | .modemCallingTone l => Sys2Proof.Machine.execModemCallingTone l s
  | .releaseGuardExpiry l => Sys2Proof.Machine.execReleaseGuardExpiry l s
  | .measurementEnd e tenths announced => Sys2Proof.Machine.execMeasurementEnd e tenths announced s
  | .measurementTimeout e => Sys2Proof.Machine.execMeasurementTimeout e s
  | .testEnd e wrong total far => Sys2Proof.Machine.execTestEnd e wrong total far s
  | .verdictTimeout e => Sys2Proof.Machine.execVerdictTimeout e s
  | .farEndRetrainSignal e dir => Sys2Proof.Machine.execFarEndRetrainSignal e dir s
  | .carrierChange e present => Sys2Proof.Machine.execCarrierChange e present s
  | .carrierLost e => Sys2Proof.Machine.execCarrierLost e s
  | .lineFrameSent e => Sys2Proof.Machine.execLineFrameSent e s
  | .badFrame e => Sys2Proof.Machine.execBadFrame e s
  | .openFrame e window => Sys2Proof.Machine.execOpenFrame e window s
  | .opened e window => Sys2Proof.Machine.execOpened e window s
  | .dataFrame e send recv payload => Sys2Proof.Machine.execDataFrame e send recv payload s
  | .accept e n => Sys2Proof.Machine.execAccept e n s
  | .pause e n => Sys2Proof.Machine.execPause e n s
  | .resend e n => Sys2Proof.Machine.execResend e n s
  | .close e => Sys2Proof.Machine.execClose e s
  | .closed e => Sys2Proof.Machine.execClosed e s
  | .openWaitExpiry e => Sys2Proof.Machine.execOpenWaitExpiry e s
  | .listenTimeout e => Sys2Proof.Machine.execListenTimeout e s
  | .t1Expiry e => Sys2Proof.Machine.execT1Expiry e s
  | .repeatTimerExpiry e => Sys2Proof.Machine.execRepeatTimerExpiry e s
  | .closeWaitExpiry e => Sys2Proof.Machine.execCloseWaitExpiry e s
  | .linkPortTake => Sys2Proof.Machine.execLinkPortTake s
  | .receiveRingDrain e => Sys2Proof.Machine.execReceiveRingDrain e s
  | .plainBytesSent e => Sys2Proof.Machine.execPlainBytesSent e s
  | .plainBytesReceived e bytes => Sys2Proof.Machine.execPlainBytesReceived e bytes s
  | .caps l maxBps sectioned fine ident => Sys2Proof.Machine.execCaps l maxBps sectioned fine ident s
  | .set l mode bps res page ident => Sys2Proof.Machine.execSet l mode bps res page ident s
  | .trainOk l rate => Sys2Proof.Machine.execTrainOk l rate s
  | .trainBad l rate => Sys2Proof.Machine.execTrainBad l rate s
  | .map l page sect needed => Sys2Proof.Machine.execMap l page sect needed s
  | .taken l page sect partialFlag => Sys2Proof.Machine.execTaken l page sect partialFlag s
  | .more l page res => Sys2Proof.Machine.execMore l page res s
  | .last l => Sys2Proof.Machine.execLast l s
  | .retake l page bad => Sys2Proof.Machine.execRetake l page bad s
  | .bye l => Sys2Proof.Machine.execBye l s
  | .faxMessageTimeout l => Sys2Proof.Machine.execFaxMessageTimeout l s
  | .capsWaitTimeout l => Sys2Proof.Machine.execCapsWaitTimeout l s
  | .receiverTrainWaitExpiry l => Sys2Proof.Machine.execReceiverTrainWaitExpiry l s
  | .roundSent l => Sys2Proof.Machine.execRoundSent l s
  | .roundAnswerTimeout l => Sys2Proof.Machine.execRoundAnswerTimeout l s
  | .stripJudged l j => Sys2Proof.Machine.execStripJudged l j s
  | .stripStored l => Sys2Proof.Machine.execStripStored l s
  | .endOfRound l => Sys2Proof.Machine.execEndOfRound l s
  | .greetingToneEnd l => Sys2Proof.Machine.execGreetingToneEnd l s
  | .recordToneEnd l => Sys2Proof.Machine.execRecordToneEnd l s
  | .closingTonesEnd l => Sys2Proof.Machine.execClosingTonesEnd l s
  | .errorToneEnd l => Sys2Proof.Machine.execErrorToneEnd l s
  | .promptToneEnd l => Sys2Proof.Machine.execPromptToneEnd l s
  | .digitPrefixTimeout l => Sys2Proof.Machine.execDigitPrefixTimeout l s
  | .detectorInterval l level tone => Sys2Proof.Machine.execDetectorInterval l level tone s
  | .accessDigitTimeout l => Sys2Proof.Machine.execAccessDigitTimeout l s
  | .reviewIdleTimeout l => Sys2Proof.Machine.execReviewIdleTimeout l s

end Sys2Proof.Machine
end

