-- ==== Sys2Proof/Safety.lean ====
section
/-!
DEFINITION. What safety means for a block that never stops: every command of the model answers a next state, and every step
keeps the part legal, that is, within the ranges that the chapters give its store, its sets, its lines and its settings.
-/
namespace Sys2Proof.Machine

/-- The command answers a next state. -/
def Runs (i : Instr) (s : State) : Prop := ∃ t, exec i s = .next t

/-- A pending event set holds one entry for each kind, with a count of 1 to 255 (R177). -/
def legalSet (es : List PendEntry) : Prop := (es.map (·.kind)).Nodup ∧ ∀ e ∈ es, 1 ≤ e.count ∧ e.count ≤ 255

/-- The ring count, the noise floor and the cool-off times (R44) and the line settings (R59) are in their ranges. -/
def Line.Legal (n : Line) : Prop :=
  n.ringCount ≤ 255 ∧ -60 ≤ n.noise ∧ n.noise ≤ -10 ∧ n.coolOff ≤ 60 ∧ n.coolPending ≤ 60 ∧ 1 ≤ n.settings.limit ∧ n.settings.limit ≤ 30 ∧
    (n.settings.coolOff = 1 ∨ n.settings.coolOff = 5 ∨ n.settings.coolOff = 10 ∨ n.settings.coolOff = 60)

/-- A mailbox record's settings are in their ranges (R147). -/
def Mailbox.Legal (b : Mailbox) : Prop :=
  (∀ ds ∈ b.code, ds.length = 4) ∧ 16 ≤ b.quota ∧ b.quota ≤ 8192 ∧ 10 ≤ b.maxLen ∧ b.maxLen ≤ 300 ∧ 2 ≤ b.silenceEnd ∧
    b.silenceEnd ≤ 10

/-- The link options are in their ranges (R103). -/
def LinkOptions.Legal (o : LinkOptions) : Prop :=
  1 ≤ o.window ∧ o.window ≤ 7 ∧ 1 ≤ o.t1 ∧ o.t1 ≤ 10 ∧ 1 ≤ o.n2 ∧ o.n2 ≤ 15

/-- What `Chip.Legal` says, of the parts it speaks of. -/
def legalParts (dram : List Host.Cell) (sets : Vector (List PendEntry) 5) (lines : Vector Line 4) (mailboxes : Vector Mailbox 16)
    (plans : Vector AnswerPlan 4) (opts : LinkOptions) (limit low reserve : Nat) : Prop :=
  Memory.wf dram = true ∧ (∀ i : Fin 5, legalSet sets[i]) ∧ (∀ l : LineNo, lines[l].Legal) ∧
    (∀ m : MailboxNo, mailboxes[m].Legal) ∧ (∀ l : LineNo, ∀ n ∈ plans[l].auto, 1 ≤ n ∧ n ≤ 9) ∧ opts.Legal ∧ limit ≤ 32 ∧
    low ≤ 4096 ∧ reserve ≤ 4096

/-- The blocks of the chain of a slot's object; none of a FREE slot. -/
def Slot.blocks (x : Slot) : List Nat := x.obj.toList.flatMap (·.chain)

/-- Every store block is on the stack or in the chain of exactly one object (R2). -/
def conserved (slots : Vector Slot 128) (free : List Nat) : Prop :=
  (free ++ slots.toList.flatMap Slot.blocks).Perm (List.range 8192)

/-- How many channels are bound to the object of slot `i` (R7, R27). -/
def boundTo (chans : Vector Chan 8) (i : SlotNo) : Nat :=
  chans.toList.countP (fun ch => decide (ch.state ≠ .free) && decide (ch.slot = i))

/-- An object's users are the channels bound to it, and it is DOOMED only while it has some (R7); no channel is bound to a FREE slot. -/
def usersRight (slots : Vector Slot 128) (chans : Vector Chan 8) : Prop :=
  ∀ i : SlotNo, (∀ o : Obj, slots[i].obj = some o → o.users = boundTo chans i ∧ (o.state = .doomed → 0 < o.users)) ∧
    (slots[i].obj = none → boundTo chans i = 0)

/-- The object that handle `h` names (R9). -/
def objectAt (slots : Vector Slot 128) (h : Nat) : Option Obj := (Store.lookup { slots := slots } h).map Prod.snd

/-- The number of NEW messages that an object stands for. -/
def Obj.newMessages (o : Obj) : Nat :=
  match o.attr with
  | .message _ _ st => MsgStatus.fresh st
  | _ => 0

/-- Mailbox `m`'s list holds no handle twice and names CLOSED messages owned by it; its used blocks are the sum of theirs, and its
new count the number of NEW ones (R147). -/
def Mailbox.Filed (slots : Vector Slot 128) (m : MailboxNo) (b : Mailbox) : Prop :=
  b.list.Nodup ∧
    (∀ h ∈ b.list, ∃ o, objectAt slots h = some o ∧ o.state = .closed ∧ o.isMessage = true ∧ o.owner = .mailbox m) ∧
    b.used = (b.list.map (fun h => ((objectAt slots h).map (fun o => o.chain.length)).getD 0)).sum ∧
    b.newCount = (b.list.map (fun h => ((objectAt slots h).map Obj.newMessages).getD 0)).sum

/-- The store's books are right: blocks, users, and the lists of the mailboxes. -/
def legalStore (slots : Vector Slot 128) (free : List Nat) (chans : Vector Chan 8) (mailboxes : Vector Mailbox 16) : Prop :=
  conserved slots free ∧ usersRight slots chans ∧ ∀ m : MailboxNo, (mailboxes[m]).Filed slots m

/-- The part is legal: the DRAM's list is in canonical form, every pending event set is as R177 keeps it, the ring counts, the
noise floors and every setting that has a range are in their ranges, and the store's books are right. -/
def Chip.Legal (c : Chip) : Prop :=
  legalParts c.store.dram c.link.sets c.lines c.mailboxes c.plans c.linkOpts c.faxOpts.limit c.lowMark c.faxReserve ∧
    legalStore c.store.slots c.store.free c.chans c.mailboxes

end Sys2Proof.Machine
end

