-- ==== Sys2Proof/Certificates/Slice0/Obligations.lean ====
section
/-!
DEFINITION. The statements for the provers, from the numbered rules of spec/, chapter by chapter. A command's statement gives
the whole next state, or what the next state holds and what it keeps, for every state and operands that meet its premises.
-/
namespace Sys2Proof.Machine

/-! ## Words the statements use -/

/-- `s` with its part replaced: the queue of waiting commands stays. -/
def State.but (s : State) (c : Chip) : State := { s with chip := c }

/-- The reply frame of request `r` with body `bs`: kind REPLY, with the line, tag and code of the request (R175). -/
def Request.answer (r : Request) (bs : List Byte) : Frame :=
  { kind := 2, line := r.line, tag := r.tag, code := r.code, body := bs }

/-- Link `k` once request `r`, at the head of its inbound queue with `rest` behind it, has been dispatched and answered with
body `bs`: the request leaves the queue, and its reservation becomes the FILLED slot of the reply (R175, R176). -/
def Link.answered (k : Link) (r : Request) (rest : List Request) (bs : List Byte) : Link :=
  { k with inq := rest, reserved := k.reserved - 1, out := k.out ++ [r.answer bs] }

/-- The part after the short request `r` has been answered with body `bs` and nothing else has changed, but that a Write Object which is
refused takes the code-1 frames of its tag with it (R40), unless they belong to the running Write Object (R174). -/
def Chip.repliedTo (c : Chip) (r : Request) (rest : List Request) (bs : List Byte) : Chip :=
  { c with link := { c.link.answered r rest bs with
      data := if r.code = 0x19 ∧ ∀ w ∈ c.writeReq, w.tag ≠ r.tag then c.link.data.filter (fun d => !(d.code == 1 && d.tag == r.tag))
        else c.link.data } }

/-- Request `r`, with this code, line field and body, is at the head of the inbound queue of a part that is ready. -/
abbrev Asked (s : State) (r : Request) (rest : List Request) (code line : Byte) (body : List Byte) : Prop :=
  s.chip.ready = true ∧ s.chip.link.inq = r :: rest ∧ r.code = code ∧ r.line = line ∧ r.body = body

/-- A set of `k` is the next to be served: the first non-empty one after the marker, in circular order (R177). -/
abbrev Link.ServedNext (k : Link) (i : Fin 5) : Prop :=
  ∃ d : Fin 5, i = k.marker + d + 1 ∧ ∀ e : Fin 5, e < d → k.sets[k.marker + e + 1] = []

end Sys2Proof.Machine

open Sys2Proof Sys2Proof.Machine

/-! ## The queue of commands -/

/-- The command at the front of the queue is taken and run on the rest of the queue; with no command waiting the part idles,
which is the model's choice (log 2), not a rule of the spec. -/
def Obligations.StepRunsFrontCommand : Prop :=
  (∀ (c : Instr) (s : State) (rest : List Instr), s.pending = c :: rest → step s = exec c { s with pending := rest }) ∧
  ∀ s : State, s.pending = [] → step s = .next s

/-- Every command, in every state, answers a next state, and leaves the commands that wait behind it as they are. That an event
which the state does not admit does nothing, where the spec is silent, is the model's choice (log 1). -/
def Obligations.EveryCommandAnswersNext : Prop :=
  ∀ (i : Instr) (s : State), ∃ t : State, exec i s = .next t ∧ t.pending = s.pending

/-! ## Reset -/

/-- What the chapters' tables of reset values give: store, channels, lines, calls, engines, data links, fax, voice mail,
indicators, link and clock. Every value here is one the spec gives; that the link table is read from the chains is the model's
form (log 8). -/
def Obligations.PowerOnValues : Prop :=
  let c := State.reset.chip
  c.store.free = List.range 8192 ∧ c.store.slots = Vector.replicate 128 { gen := 0, obj := none } ∧ c.store.low = false ∧
  (∀ b : Nat, c.store.linkEntry b = none) ∧ c.lowMark = 256 ∧ c.faxReserve = 128 ∧
  (∀ i : Fin 8, c.chans[i].state = .free ∧ c.chans[i].slips = 0 ∧ c.chans[i].endCause = .none) ∧
  (∀ l : Fin 4, c.codecs[l].buf = {} ∧ c.epaths[l] = {}) ∧ c.priority = .rotating ∧ c.port = {} ∧ c.readReq = none ∧
  c.writeReq = none ∧
  (∀ l : Fin 4, c.lines[l].hook = .onHook ∧ c.lines[l].loopCurrent = false ∧ c.lines[l].polarity = .normal ∧
    c.lines[l].burst = .quiet ∧ c.lines[l].ringCount = 0 ∧ c.lines[l].caller = .absent ∧ c.lines[l].noise = -50 ∧
    c.lines[l].cond = {} ∧ c.lines[l].latch = {} ∧ c.lines[l].coolOff = 0 ∧ c.lines[l].coolPending = 0 ∧
    c.lines[l].settings = { action := .forceRelease, coolOff := 10, method := .tone, dialWait := .wait, limit := 10 } ∧
    c.lines[l].lastFault.valid = false ∧ c.lines[l].keptRate = none ∧
    c.lines[l].kept = { cls := 0, noise := -50, good := 0, bad := 0, changes := 0 }) ∧
  (∀ l : Fin 4, c.calls[l].state = .idle ∧ c.plans[l] = { auto := none, kind := .voiceMail, mailbox := 0 }) ∧
  (∀ n : Fin 16, c.screen[n] = none) ∧
  (∀ e : Fin 2, c.engines[e].state = .free ∧ c.engines[e].rate = none ∧ c.engines[e].attempts = 0 ∧ c.engines[e].dir = none ∧
    c.units[e].state = .none) ∧
  c.localMax = 5 ∧ c.linkOpts = { window := 7, t1 := 2, n2 := 8, plainAllowed := true } ∧ c.linkPort.served = 2 ∧
  (∀ l : Fin 4, c.fax[l] = none ∧ c.seqs[l].state = .none ∧ c.codecs[l].phase = 0 ∧ c.codecs[l].speed = 16) ∧
  c.faxOpts = { sectioned := true, fine := true, limit := 2, goOn := true, ident := none } ∧
  (∀ m : Fin 16, c.mailboxes[m] = {
    enabled := decide (m = 0), code := none, greeting := none, quota := 1024, maxLen := 120
    silenceEnd := 5, list := [], used := 0, newCount := 0, recordings := 0 }) ∧
  c.trees = #v[{ sources := 0x0000FFFF#29, all := false }, { sources := 0x000F0000#29, all := false },
    { sources := 0x01F00000#29, all := false }, { sources := 0x02000000#29, all := false }] ∧
  c.clock = 0 ∧ c.clockNotSet = true ∧ c.ready = false ∧ c.link.inq = [] ∧ c.link.data = [] ∧ c.link.reserved = 0 ∧
  c.link.out = [] ∧ (∀ i : Fin 5, c.link.sets[i] = []) ∧ c.link.marker = 4 ∧ c.link.rejected = false

/-- What line `l` shows once supervision has begun with its sensors cool: the line voltage, and the LINE_LOST timer started
if the voltage is absent (R63). -/
def Sys2Proof.Machine.sensed (voltage : Bool) : Line :=
  { voltage := voltage, lostTimer := if voltage then {} else { run := true, ms := 2000 } }

/-- Power-on reset puts every block into its power-on state; until initialisation has ended every flag of the status byte is
false and ATN and the four outputs are inactive; then READY is posted with cause POWER, count 0 and flag true, and line
supervision begins; a line found CRITICAL goes into COOLING, its HOT and CRITICAL following READY. The model's choices: the end
of initialisation is a command that brings what the sensors read (log 3), the timer's 2 s are kept as 2000 ms (log 5), the
bytes of FAULT's detail (log 13) with the numbers of the conditions in it (log 39), and the phase NONE in COOLING (log 38). -/
def Obligations.StartUp : Prop :=
  (∀ s : State, exec .powerOnReset s = .next (s.but State.reset.chip)) ∧
  (∀ c : Chip, c.ready = false → c.status = 0 ∧ c.atn = false ∧ c.outputs = 0) ∧
  (∀ (s : State) (v : Fin 4 → Bool), s.chip = State.reset.chip →
    exec (.initialisationEnd ⟨v 0, false, false⟩ ⟨v 1, false, false⟩ ⟨v 2, false, false⟩ ⟨v 3, false, false⟩) s =
      .next (s.but { State.reset.chip with
        ready := true
        link := { out := [{ kind := 3, line := 0x0F, tag := 0, code := 1, body := [1, 0, 0, 0, 0, 0, 1] }] }
        lines := #v[sensed (v 0), sensed (v 1), sensed (v 2), sensed (v 3)] })) ∧
  (∀ s : State, s.chip = State.reset.chip →
    exec (.initialisationEnd ⟨true, true, true⟩ ⟨true, false, false⟩ ⟨true, false, false⟩ ⟨true, false, false⟩) s =
      .next (s.but { State.reset.chip with
        ready := true
        link := { out := [{ kind := 3, line := 0x0F, tag := 0, code := 1, body := [1, 0, 0, 0, 0, 0, 1] },
          { kind := 3, line := 0, tag := 0, code := 7, body := [1, 1, 1, 0xFF] },
          { kind := 3, line := 0, tag := 0, code := 7, body := [1, 2, 0, 10] }] }
        calls := #v[{ state := .cooling, forced := true, cause := some .lineFault, faultCond := { critical := true } }, {}, {}, {}]
        lines := #v[{
          voltage := true, cond := { hot := true, critical := true }, latch := { hot := true, critical := true }
          coolOff := 10, coolPending := 10 }, sensed true, sensed true, sensed true] }))

/-! ## The host message link (10_host_message_link.md) -/

/-- The bytes of a write exchange are read as a frame exactly when they are the frame's own bytes (sync, kind, line, tag, code,
length, body of at most 256 bytes, CRC) followed by any others. The bytes of the exchange after the direction byte are the
command's operand (log 1). -/
def Obligations.FramesReadExactly : Prop :=
  (∀ (f : Frame) (more : List Byte), f.body.length ≤ 256 → parseFrame (f.bytes ++ more) = some f) ∧
  (∀ (bs : List Byte) (f : Frame), parseFrame bs = some f → f.body.length ≤ 256 ∧ ∃ more, bs = f.bytes ++ more)

/-- The link status byte and ATN of a part that is ready, flag by flag; READ_EXCHANGE: the status byte is shifted out first; with an
empty queue the empty marker follows; a head frame not clocked out whole stays; one clocked out whole leaves, and if no slot was FREE
the oldest entry of the next non-empty set takes its slot and the marker moves. How many bytes are clocked is the command's operand
(log 1), `ldo` is the model's record of the bytes shifted out (log 12), and it records none past the frame's CRC or past the empty
marker, where the spec is silent (log 38). -/
def Obligations.ReadExchange : Prop :=
  (∀ c : Chip, c.ready = true →
    c.status.getLsbD 0 = true ∧
    (c.status.getLsbD 1 = true ↔ c.link.inq.length < 8 ∧ c.link.reserved < 12 ∧ c.link.reserved + c.link.out.length < 16) ∧
    (c.status.getLsbD 2 = true ↔ c.link.data.length < 2) ∧ (c.status.getLsbD 3 = true ↔ c.link.out ≠ []) ∧
    c.status.getLsbD 4 = c.link.rejected ∧ (c.status.getLsbD 5 = true ↔ ∃ i : Fin 5, c.link.sets[i] ≠ []) ∧
    c.status.getLsbD 6 = false ∧ c.status.getLsbD 7 = false ∧ (c.atn = true ↔ c.link.out ≠ [])) ∧
  ∀ (s : State) (n : Nat),
    let k := s.chip.link
    let shown (bs : List Byte) (k : Link) : Chip := { s.chip with link := { k with ldo := s.chip.status :: bs } }
    (k.out = [] → exec (.readExchange n) s = .next (s.but (shown (([0] : List Byte).take n) k))) ∧
    ∀ (f : Frame) (rest : List Frame), k.out = f :: rest →
      (n < f.bytes.length → exec (.readExchange n) s = .next (s.but (shown (f.bytes.take n) k))) ∧
      (f.bytes.length ≤ n → (∀ i : Fin 5, k.sets[i] = []) →
        exec (.readExchange n) s = .next (s.but (shown f.bytes { k with out := rest }))) ∧
      (f.bytes.length ≤ n → k.reserved + k.out.length = 16 → ∀ (i : Fin 5) (e : PendEntry) (more : List PendEntry),
        k.ServedNext i → k.sets[i] = e :: more →
          exec (.readExchange n) s = .next (s.but (shown f.bytes { k with
            out := rest ++ [{ kind := 3, line := if i = 4 then 0x0F else BitVec.ofNat 8 i.val, tag := 0, code := e.kind.code,
                              body := BitVec.ofNat 8 e.count :: e.detail }]
            sets := k.sets.set i more, marker := i })))

/-- WRITE_EXCHANGE: LSEL rising after the direction byte alone has no effect; a REQUEST is accepted with READY and ACCEPT, and
takes a reservation; a DATA frame with READY and DATA_ACCEPT and code 0, or code 1 with the tag of a Write Object not yet
replied to, joins the buffer, but a zero-length one that comes to the head of the running Write Object's frames is taken and
leaves at once (R36); any other frame sets FRAME_REJECTED and does nothing else. `ldo` is the model's record of the bytes
shifted out (log 12). That a frame written before READY sets the flag too, and that it shows once initialisation has ended, is the
model's choice between R174 and R181 (log 38). -/
def Obligations.WriteExchange : Prop :=
  ∀ (s : State) (f : Frame) (more : List Byte), f.body.length ≤ 256 →
    let k := s.chip.link
    let shown (n : Nat) (k : Link) : Chip := { s.chip with link := { k with ldo := s.chip.status :: List.replicate n 0 } }
    let bs := f.bytes ++ more
    let tagged : Prop := (∃ w, s.chip.writeReq = some w ∧ w.tag = f.tag) ∨ ∃ r ∈ k.inq, r.code = 0x19 ∧ r.tag = f.tag
    let request : Prop := s.chip.ready = true ∧ f.kind = 1 ∧ k.inq.length < 8 ∧ k.reserved < 12 ∧ k.reserved + k.out.length < 16
    let data : Prop := s.chip.ready = true ∧ f.kind = 4 ∧ k.data.length < 2 ∧ (f.code = 0 ∨ f.code = 1 ∧ tagged)
    exec (.writeExchange []) s = .next (s.but (shown 0 k)) ∧
    (request → exec (.writeExchange bs) s = .next (s.but (shown bs.length { k with
      rejected := false, reserved := k.reserved + 1
      inq := k.inq ++ [{ line := f.line, tag := f.tag, code := f.code, body := f.body }] }))) ∧
    (data → (∀ d ∈ k.data, d.code = 1 → d.bytes ≠ []) →
      (f.body ≠ [] ∨ f.code = 0 ∨ (∀ w ∈ s.chip.writeReq, w.tag ≠ f.tag) ∨ (∃ d ∈ k.data, d.code = 1 ∧ d.tag = f.tag) →
        exec (.writeExchange bs) s = .next (s.but (shown bs.length { k with
          rejected := false, data := k.data ++ [{ code := f.code, line := f.line, tag := f.tag, bytes := f.body }] }))) ∧
      (f.body = [] → f.code = 1 → (∃ w, s.chip.writeReq = some w ∧ w.tag = f.tag) → (∀ d ∈ k.data, d.code = 1 → d.tag ≠ f.tag) →
        exec (.writeExchange bs) s = .next (s.but (shown bs.length { k with rejected := false })))) ∧
    (¬ request → ¬ data → exec (.writeExchange bs) s = .next (s.but (shown bs.length { k with rejected := true }))) ∧
    (∀ bad : List Byte, bad ≠ [] → parseFrame bad = none →
      exec (.writeExchange bad) s = .next (s.but (shown bad.length { k with rejected := true })))

/-- CLOCK_TICK and SET_CLOCK: the count rises by 1 each second from the end of initialisation and wraps; off-hook, connected and
cool-off seconds are counted, and so are a plan sequence's three timers, its idle timer while it waits in REVIEW for a digit; Set Clock
gives the count and clears the flag. That one tick is the second of every timer counted in seconds, what it does to the timers the
statement leaves open, and that a sequence's timers are kept in milliseconds and stand at 0 until their expiry is told, is the model's
choice (log 5). -/
def Obligations.Clock : Prop :=
  (∀ s : State, s.chip.ready = true → ∃ t : State, exec .clockTick s = .next t ∧ t.pending = s.pending ∧
    t.chip = { s.chip with
      clock := s.chip.clock + 1, lines := t.chip.lines, calls := t.chip.calls, engines := t.chip.engines
      units := t.chip.units, seqs := t.chip.seqs } ∧
    (∀ l : Fin 4,
      t.chip.lines[l] = { s.chip.lines[l] with
        lostTimer := t.chip.lines[l].lostTimer, abandon := t.chip.lines[l].abandon
        coolOff := if s.chip.calls[l].state = .cooling then s.chip.lines[l].coolOff - 1 else s.chip.lines[l].coolOff } ∧
      t.chip.calls[l] = { s.chip.calls[l] with
        offHook := if s.chip.lines[l].hook = .offHook then min 65535 (s.chip.calls[l].offHook + 1) else s.chip.calls[l].offHook
        connected := if s.chip.calls[l].state = .connected then min 65535 (s.chip.calls[l].connected + 1)
          else s.chip.calls[l].connected } ∧
      let q := s.chip.seqs[l]
      let counted (x : Timer) : Timer := if x.run = true then { x with ms := x.ms - 1000 } else x
      t.chip.seqs[l] = { q with
        prefixTimer := counted q.prefixTimer, digitTimer := counted q.digitTimer
        idleTimer := if q.state = .review ∧ q.tone = .none ∧ q.playChan = none then counted q.idleTimer else q.idleTimer }) ∧
    (∀ e : Fin 2,
      t.chip.engines[e] = { s.chip.engines[e] with loss := t.chip.engines[e].loss } ∧
      t.chip.units[e] = { s.chip.units[e] with t1 := t.chip.units[e].t1, rep := t.chip.units[e].rep })) ∧
  (∀ s : State, s.chip.ready = false → exec .clockTick s = .next s) ∧
  (∀ (s : State) (r : Request) (rest : List Request) (a b x y : Byte), Asked s r rest 0x03 0x0F [a, b, x, y] →
    exec .setClock s = .next (s.but ({ s.chip with clock := a ++ b ++ x ++ y, clockNotSet := false }.repliedTo r rest
      [0, 0, a, b, x, y])))

/-- CONFIGURE_DEVICE: all four settings or none; the low mark re-evaluates the store-low flag at once (R23). That the priority is numbered
ROTATING 0, FIXED 1, as R178 lists it and not as R37 does, is the model's choice (log 39). -/
def Obligations.ConfigureDevice : Prop :=
  ∀ (s : State) (r : Request) (rest : List Request) (l1 l0 x1 x0 p m : Byte), Asked s r rest 0x02 0x0F [l1, l0, x1, x0, p, m] →
    let low := 256 * l1.toNat + l0.toNat
    let reserve := 256 * x1.toNat + x0.toNat
    let free := s.chip.store.free.length
    (∀ rate : Rate, low ≤ 4096 → reserve ≤ 4096 → p.toNat ≤ 1 → m.toNat = rate.val + 1 →
      exec .configureDevice s = .next (s.but { s.chip with
        lowMark := low, faxReserve := reserve, priority := if p = 0 then .rotating else .fixed, localMax := rate
        store := { s.chip.store with low := decide (free < low) }
        link := (if free < low ∧ s.chip.store.low = false then s.chip.link.post 4 .storeLow (be2 free ++ be2 low)
          else s.chip.link).answered r rest [0, 0, l1, l0, x1, x0, p, m] })) ∧
    (4096 < low ∨ 4096 < reserve ∨ 1 < p.toNat ∨ m.toNat = 0 ∨ 6 < m.toNat →
      exec .configureDevice s = .next (s.but (s.chip.repliedTo r rest [2, 3])))

/-- The device status record of 11.5: the store; the engines; local maximum and arbiter priority; the channels; the data link
units; the fax jobs, FFh where a line has none; the link, with `waiting` requests still in the inbound queue; the clock and the
reset cause. A channel's owner and path are each a kind byte and the line, FFh for the link (log 13); a job's mode NONE is 2. -/
def Sys2Proof.Machine.Chip.statusRecord (c : Chip) (waiting : Nat) : List Byte :=
  be2 c.store.free.length ++ [b1 ((List.finRange 128).filter (fun i : SlotNo => c.store.slots[i].obj.isNone)).length]
    ++ be2 c.lowMark ++ [flag c.store.low] ++ be2 c.faxReserve
    ++ ((List.finRange 2).map (fun e : EngineNo =>
      let g := c.engines[e]
      [g.state.code, if g.state = .free then 0xFF else b1 g.line.val, if g.state = .free then 0xFF else if g.purpose = .fax then 1 else 0,
        rateCode g.rate])).flatten
    ++ [b1 (c.localMax.val + 1), if c.priority = .rotating then 0 else 1]
    ++ ((List.finRange 8).map (fun i : ChanNo =>
      let ch := c.chans[i]
      [ch.state.code] ++ (match ch.owner with
          | .callControl l => [0, b1 l.val] | .fax l => [1, b1 l.val] | .voiceMail l => [2, b1 l.val] | .link => [3, 0xFF])
        ++ (match ch.path with | .codec l => [0, b1 l.val] | .engine l => [1, b1 l.val] | .link => [2, 0xFF])
        ++ [if ch.dir = .toPath then 0 else 1, ch.endCause.code])).flatten
    ++ ((List.finRange 2).map (fun e : EngineNo =>
      let u := c.units[e]
      [u.state.code, if u.state = .none then 0xFF else b1 u.line.val, b1 u.windowInUse])).flatten
    ++ ((List.finRange 4).map (fun l : LineNo =>
      match c.fax[l] with
      | none => [0xFF, 0xFF, 0xFF, 0xFF, 0xFF]
      | some j =>
        [if j.role = .send then 0 else 1, j.phase.code,
          match j.mode with | some .sectioned => 0 | some .plain => 1 | none => 2, rateCode j.rate, b1 j.index])).flatten
    ++ [b1 c.link.reserved, b1 waiting] ++ be4 c.clock.toNat ++ [flag c.clockNotSet, match c.resetCause with | .power => 0 | .soft => 1]

/-- The bytes of an answer plan: 0, or 1 and the ring count; the kind; the mailbox (log 14). -/
def Sys2Proof.Machine.planBytes (p : AnswerPlan) : List Byte :=
  (match p.auto with | none => [0] | some n => [1, b1 n])
    ++ [match p.kind with | .voiceMail => 0 | .fax => 1 | .data => 2 | .discriminate => 3, b1 p.mailbox.val]

/-- The bytes of a digit string: its length and the digits. -/
def Sys2Proof.Machine.digitBytes (ds : List (Fin 10)) : List Byte := b1 ds.length :: ds.map digitChar

/-- The bytes of a match: its kind, 1 to 4, and its patterns (log 14). -/
def Sys2Proof.Machine.matchBytes : Match → List Byte
  | .equal p => 1 :: digitBytes p
  | .starts p => 2 :: digitBytes p
  | .range lo hi => 3 :: digitBytes lo ++ digitBytes hi
  | .withheld => [4]

/-- The bytes of an action: REJECT 0, MAILBOX 1 and its number, FAX 2, PASS 3 (log 14). -/
def Sys2Proof.Machine.actionBytes : Action → List Byte
  | .reject => [0]
  | .mailbox m => [1, b1 m.val]
  | .fax => [2]
  | .pass => [3]

/-- Bytes 0 to 18 of the mailbox record of 11.5. An absent code shows presence byte 0 and FFh in its four digits (log 28). -/
def Sys2Proof.Machine.mailboxBytes (b : Mailbox) (m : MailboxNo) : List Byte :=
  [b1 m.val, if b.enabled then 1 else 0] ++ (match b.code with | some ds => 1 :: ds.map digitChar | none => [0, 0xFF, 0xFF, 0xFF, 0xFF])
    ++ be2 (b.greeting.getD 65535) ++ be2 b.quota ++ be2 b.maxLen ++ [b1 b.silenceEnd] ++ be2 b.used
    ++ [b1 b.newCount, b1 b.recordings, b1 b.list.length]

/-- The object, not DOOMED, that handle `h` names: slot number times 16 plus generation (R8, R9). -/
def Sys2Proof.Machine.Store.objectOf (st : Store) (h : Nat) : Option Obj :=
  (List.finRange 128).findSome? (fun i : SlotNo =>
    if h = 16 * i.val + st.slots[i].gen.toNat then st.slots[i].obj.filter (fun o => decide (o.state ≠ .doomed)) else none)

/-- The ten bytes of a list entry of the mailbox record of 11.5: handle; status, line and caller form in one byte; length; time. -/
def Sys2Proof.Machine.Store.entryBytes (st : Store) (h : Nat) : List Byte :=
  match st.objectOf h with
  | none => be2 h ++ List.replicate 8 0
  | some o =>
    be2 h ++ [match o.attr with
        | .message caller l st => b1 ((match st with | .new => 0 | .heard => 1 | .kept => 2) + 4 * l.val + 16 * Caller.form caller)
        | _ => 0] ++ be3 o.length ++ be4 o.created.toNat

/-- GET_STATUS, GET_ANSWER_PLAN, GET_SCREEN_ENTRY, GET_LINK_OPTIONS, GET_FAX_OPTIONS, GET_MAILBOX: the reply is NORMAL with
the record as it stands, and nothing else changes. Parts of the records whose layout 11.5 does not give are encoded by the
model's choice (logs 13, 14 and 16: the widths of three counts of the device status record among them), and so is an absent
code (log 28), the line, purpose and window of a unit not in use (log 36), and the numbers of the arbiter priority and the ASCII digits of a
code that is present (log 39). -/
def Obligations.QueriesChangeNothing : Prop :=
  ∀ (s : State) (r : Request) (rest : List Request),
    (Asked s r rest 0x01 0x0F [] →
      exec .getStatus s = .next (s.but (s.chip.repliedTo r rest (0 :: 0 :: s.chip.statusRecord rest.length)))) ∧
    (∀ l : Fin 4, Asked s r rest 0x39 (BitVec.ofNat 8 l.val) [] →
      exec .getAnswerPlan s = .next (s.but (s.chip.repliedTo r rest (0 :: 0 :: planBytes s.chip.plans[l])))) ∧
    (∀ n : Fin 16, Asked s r rest 0x3B 0x0F [BitVec.ofNat 8 n.val] →
      (s.chip.screen[n] = none → exec .getScreenEntry s = .next (s.but (s.chip.repliedTo r rest [0, 0, 0]))) ∧
      (∀ (p : Match) (a : Action), s.chip.screen[n] = some { pat := p, action := a } →
        exec .getScreenEntry s = .next (s.but (s.chip.repliedTo r rest (0 :: 0 :: matchBytes p ++ actionBytes a))))) ∧
    (Asked s r rest 0x41 0x0F [] →
      exec .getLinkOptions s = .next (s.but (s.chip.repliedTo r rest [0, 0, b1 s.chip.linkOpts.window, b1 s.chip.linkOpts.t1,
        b1 s.chip.linkOpts.n2, flag s.chip.linkOpts.plainAllowed]))) ∧
    (Asked s r rest 0x49 0x0F [] →
      exec .getFaxOptions s = .next (s.but (s.chip.repliedTo r rest ([0, 0, flag s.chip.faxOpts.sectioned,
        flag s.chip.faxOpts.fine, b1 s.chip.faxOpts.limit, flag s.chip.faxOpts.goOn] ++ optStr s.chip.faxOpts.ident)))) ∧
    (∀ (m : Fin 16) (start : Fin 32), Asked s r rest 0x51 0x0F [BitVec.ofNat 8 m.val, BitVec.ofNat 8 start.val] →
      let hs := (s.chip.mailboxes[m].list.drop start.val).take 16
      exec .getMailbox s = .next (s.but (s.chip.repliedTo r rest (0 :: 0 :: (mailboxBytes s.chip.mailboxes[m] m
        ++ [BitVec.ofNat 8 start.val, b1 hs.length] ++ (hs.map s.chip.store.entryBytes).flatten)))))

/-- The requests whose line field must be Fh, with their codes (11.3). -/
def Sys2Proof.Machine.deviceCodes : List (Instr × Byte) :=
  [(.getStatus, 0x01), (.configureDevice, 0x02), (.setClock, 0x03), (.deviceReset, 0x04), (.createObject, 0x10),
    (.deleteObject, 0x11), (.getObjectInfo, 0x12), (.listObjects, 0x13), (.readObject, 0x18), (.writeObject, 0x19),
    (.setScreenEntry, 0x3A), (.getScreenEntry, 0x3B), (.setLinkOptions, 0x40), (.getLinkOptions, 0x41), (.setFaxOptions, 0x48),
    (.getFaxOptions, 0x49), (.setMailbox, 0x50), (.getMailbox, 0x51), (.setMessageStatus, 0x52), (.setGreeting, 0x53),
    (.setIndicator, 0x58), (.getIndicators, 0x59)]

/-- The requests whose line field must be 0 to 3, with their codes (11.3). -/
def Sys2Proof.Machine.lineCodes : List (Instr × Byte) :=
  [(.getLineStatus, 0x20), (.setLineSettings, 0x21), (.clearFaults, 0x22), (.lineReset, 0x23), (.dial, 0x30), (.answer, 0x31),
    (.hangUp, 0x32), (.takeOver, 0x34), (.play, 0x35), (.record, 0x36), (.sendDigits, 0x37), (.setAnswerPlan, 0x38),
    (.getAnswerPlan, 0x39)]

/-- The requests whose body has one length, with it (11.3). -/
def Sys2Proof.Machine.bodyLengths : List (Byte × Nat) :=
  [(0x01, 0), (0x02, 6), (0x03, 4), (0x04, 0), (0x11, 2), (0x12, 2), (0x13, 3), (0x18, 11), (0x19, 8), (0x20, 0), (0x21, 5), (0x22, 1),
    (0x23, 0), (0x31, 1), (0x32, 0), (0x33, 0), (0x34, 0), (0x35, 4), (0x36, 3), (0x39, 0), (0x3B, 1), (0x40, 4), (0x41, 0), (0x49, 0),
    (0x51, 2), (0x52, 3), (0x53, 3), (0x58, 6), (0x59, 0)]

/-- A count byte, that many bytes, and then what `after` fits. -/
def Sys2Proof.Machine.countFits (after : List Byte → Bool) : List Byte → Bool
  | [] => false
  | n :: rest => decide (n.toNat ≤ rest.length) && after (rest.drop n.toNat)

/-- An action: its kind, and the mailbox of MAILBOX (R74, log 14). -/
def Sys2Proof.Machine.actionFits : List Byte → Bool
  | [a] => decide (a = 0 ∨ a = 2 ∨ a = 3)
  | [a, _] => decide (a = 1)
  | _ => false

/-- The walk of a request's body by the fields its rule names ends where the body ends (R182): one length for most; a count byte before a
varying part; a FAX_PAGE of Create Object, the pages of a FAX Dial, the ring count of AUTO, and match and action follow the value
before them. -/
def Sys2Proof.Machine.bodyFits (code : Byte) (bs : List Byte) : Bool :=
  match bodyLengths.find? (fun p => p.1 == code), code.toNat, bs with
  | some p, _, bs => decide (bs.length = p.2)
  | none, 0x10, k :: _ :: rest =>
    if k = 2 then (match rest with | _ :: _ :: ident => countFits List.isEmpty ident | _ => false)
    else decide (k = 0 ∨ k = 1 ∨ k = 3) && rest.isEmpty
  | none, 0x30, p :: rest =>
    if p = 2 then countFits (fun | [] => false | n :: hs => decide (hs.length = 2 * n.toNat)) rest
    else decide (p = 0 ∨ p = 1) && countFits List.isEmpty rest
  | none, 0x37, bs => countFits List.isEmpty bs
  | none, 0x38, m :: rest => decide (m = 0 ∧ rest.length = 2) || decide (m = 1 ∧ rest.length = 3)
  | none, 0x3A, _ :: k :: rest =>
    if k = 0 then rest.isEmpty
    else if k = 1 ∨ k = 2 then countFits actionFits rest
    else if k = 3 then countFits (countFits actionFits) rest
    else decide (k = 4) && actionFits rest
  | none, 0x48, _ :: _ :: _ :: _ :: ident => countFits List.isEmpty ident
  | none, 0x50, _ :: _ :: rest => countFits (fun more => decide (more.length = 5)) rest
  | _, _, _ => false

/-- The checks at dispatch: an unknown code is REFUSED UNKNOWN_REQUEST, a line field that the request does not allow BAD_LINE;
a body whose length is not that of its fields, walked as the rule of the request names them (R182), BAD_PARAM; and nothing
else changes. Abort allows 0 to 3 and Fh. That a request whose line field is 4 to 14 is answered with that field is the
model's reading (log 13), and so is the layout of a screen entry's body (log 14). -/
def Obligations.RefusedAtDispatch : Prop :=
  ∀ (s : State) (r : Request) (rest : List Request), s.chip.ready = true → s.chip.link.inq = r :: rest →
    (r.code ≠ 0x33 → (∀ p ∈ deviceCodes ++ lineCodes, p.2 ≠ r.code) →
      exec .unknownRequest s = .next (s.but (s.chip.repliedTo r rest [2, 4]))) ∧
    (∀ p ∈ deviceCodes, r.code = p.2 → r.line ≠ 0x0F → exec p.1 s = .next (s.but (s.chip.repliedTo r rest [2, 2]))) ∧
    (∀ p ∈ (Instr.abort, (0x33 : Byte)) :: lineCodes, r.code = p.2 → 4 ≤ r.line.toNat → r.line ≠ 0x0F →
      exec p.1 s = .next (s.but (s.chip.repliedTo r rest [2, 2]))) ∧
    (∀ p ∈ lineCodes, r.code = p.2 → r.line = 0x0F → exec p.1 s = .next (s.but (s.chip.repliedTo r rest [2, 2]))) ∧
    (bodyFits r.code r.body = false →
      (∀ p ∈ (Instr.abortDevice, (0x33 : Byte)) :: deviceCodes, r.code = p.2 → r.line = 0x0F →
        exec p.1 s = .next (s.but (s.chip.repliedTo r rest [2, 3]))) ∧
      (∀ p ∈ (Instr.abort, (0x33 : Byte)) :: lineCodes, r.code = p.2 → r.line.toNat < 4 →
        exec p.1 s = .next (s.but (s.chip.repliedTo r rest [2, 3]))))

/-- No job runs that has an object of its own to close out: no data session, no fax session, no recording (R25). -/
abbrev Sys2Proof.Machine.Chip.NoJob (c : Chip) : Prop :=
  (∀ e : EngineNo, c.units[e].state = .none) ∧ (∀ l : LineNo, c.fax[l] = none ∧ c.seqs[l].recording = none ∧ c.calls[l].record = none)

/-- DEVICE_RESET receives no reply: the link is emptied but for a READY notice with cause SOFT; every call record is IDLE, every
channel FREE with empty path buffers, every engine FREE at rate NONE, every data session, plan sequence and fax session NONE;
no Read or Write Object runs; clock, settings, answer plans, screen list, options and trees are kept, and of each mailbox its
settings. Where no job has objects to close out, the mailboxes and the DRAM are kept whole and every object that is not DOOMED
keeps all but its users; with every channel FREE as well, the store is kept as it was. -/
def Obligations.DeviceReset : Prop :=
  ∀ (s : State) (r : Request) (rest : List Request), Asked s r rest 0x04 0x0F [] →
    ∃ t : State, exec .deviceReset s = .next t ∧ t.pending = s.pending ∧ t.chip.ready = true ∧ t.chip.resetCause = .soft ∧
      t.chip.link = {
        out := [{
          kind := 3, line := 0x0F, tag := 0, code := 1
          body := [1, 1] ++ be4 s.chip.clock.toNat ++ [flag s.chip.clockNotSet] }]
        ldo := s.chip.link.ldo } ∧
      t.chip.calls = Vector.replicate 4 {} ∧ (∀ i : Fin 8, t.chip.chans[i].state = .free) ∧
      (∀ l : Fin 4, t.chip.codecs[l].buf = {} ∧ t.chip.epaths[l] = {} ∧ t.chip.lines[l].hook = .onHook ∧ t.chip.lines[l].coolOff = 0 ∧
        t.chip.lines[l].coolPending = 0 ∧ t.chip.lines[l].settings = s.chip.lines[l].settings ∧ t.chip.fax[l] = none ∧
        t.chip.seqs[l] = {}) ∧
      (∀ e : EngineNo, t.chip.engines[e].state = .free ∧ t.chip.units[e].state = .none ∧
        (s.chip.engines[e].state ≠ .free → t.chip.engines[e].rate = none)) ∧
      (∀ m : MailboxNo,
        let a := s.chip.mailboxes[m]
        let b := t.chip.mailboxes[m]
        b.enabled = a.enabled ∧ b.code = a.code ∧ b.quota = a.quota ∧ b.maxLen = a.maxLen ∧ b.silenceEnd = a.silenceEnd) ∧
      (s.chip.NoJob → t.chip.mailboxes = s.chip.mailboxes ∧ t.chip.store.dram = s.chip.store.dram ∧
        (∀ (i : SlotNo) (o : Obj), s.chip.store.slots[i].obj = some o → o.state ≠ .doomed →
          ∃ n : Nat, t.chip.store.slots[i] = { gen := s.chip.store.slots[i].gen, obj := some { o with users := n } }) ∧
        ((∀ i : ChanNo, s.chip.chans[i].state = .free) → t.chip.store = s.chip.store)) ∧
      t.chip.port = {} ∧ t.chip.linkPort = {} ∧ t.chip.readReq = none ∧ t.chip.writeReq = none ∧
      t.chip.clock = s.chip.clock ∧ t.chip.clockNotSet = s.chip.clockNotSet ∧ t.chip.lowMark = s.chip.lowMark ∧
      t.chip.faxReserve = s.chip.faxReserve ∧ t.chip.priority = s.chip.priority ∧ t.chip.localMax = s.chip.localMax ∧
      t.chip.plans = s.chip.plans ∧ t.chip.screen = s.chip.screen ∧ t.chip.linkOpts = s.chip.linkOpts ∧
      t.chip.faxOpts = s.chip.faxOpts ∧ t.chip.trees = s.chip.trees

/-! ## The message store (01_message_store.md) -/

/-- Slot `i` is the lowest-numbered FREE slot. -/
abbrev Sys2Proof.Machine.Store.LowestFree (st : Store) (i : SlotNo) : Prop :=
  st.slots[i].obj = none ∧ ∀ j : SlotNo, j < i → st.slots[j].obj ≠ none

/-- CREATE_OBJECT: the lowest FREE slot takes an empty OPEN_WRITE object with the owner and the kind's attributes given, and the
reply is NORMAL with its handle; without a FREE slot the request is REFUSED NO_SLOT; a kind made inside the part, an owner that
is none, an invalid page number or resolution, and an identifier longer than 20 bytes are REFUSED BAD_PARAM. The byte of the
owner is that of 11.2. -/
def Obligations.CreateObject : Prop :=
  ∀ (s : State) (r : Request) (rest : List Request) (o : Byte),
    let c := s.chip
    let made (i : SlotNo) (owner : Owner) (attr : Attr) : State :=
      s.but { c with
        store := { c.store with slots := c.store.slots.set i { c.store.slots[i] with obj := some {
          state := .openWrite, owner := owner, chain := [], length := 0, users := 0, created := c.clock, attr := attr } } }
        link := c.link.answered r rest (0 :: 0 :: be2 (16 * i.val + c.store.slots[i].gen.toNat)) }
    (∀ (i : SlotNo) (owner : Owner), ownerOf o = some owner → Asked s r rest 0x10 0x0F [0, o] → c.store.LowestFree i →
      exec .createObject s = .next (made i owner .clip)) ∧
    (∀ (i : SlotNo) (owner : Owner) (page res : Byte) (ident : List Byte), ownerOf o = some owner →
      Asked s r rest 0x10 0x0F ([2, o, page, res, b1 ident.length] ++ ident) → ident.length ≤ 20 → 1 ≤ page.toNat →
      res.toNat ≤ 1 → c.store.LowestFree i →
        exec .createObject s = .next (made i owner (.page {
          page := page.toNat, res := if res = 0 then .standard else .fine, rate := none, sectioned := false, strips := 0
          badStrips := 0, partialFlag := false, unread := false, ident := if ident = [] then none else some ident }))) ∧
    (∀ owner : Owner, ownerOf o = some owner → Asked s r rest 0x10 0x0F [0, o] →
      (∀ j : SlotNo, c.store.slots[j].obj ≠ none) → exec .createObject s = .next (s.but (c.repliedTo r rest [2, 6]))) ∧
    (∀ k : Byte, Asked s r rest 0x10 0x0F [k, o] → k ≠ 0 ∨ ownerOf o = none →
      exec .createObject s = .next (s.but (c.repliedTo r rest [2, 3]))) ∧
    (∀ page res : Byte, Asked s r rest 0x10 0x0F [2, o, page, res, 0] → page = 0 ∨ 1 < res.toNat ∨ ownerOf o = none →
      exec .createObject s = .next (s.but (c.repliedTo r rest [2, 3]))) ∧
    (∀ (page res : Byte) (ident : List Byte), Asked s r rest 0x10 0x0F ([2, o, page, res, b1 ident.length] ++ ident) → 20 < ident.length →
      ident.length ≤ 251 → exec .createObject s = .next (s.but (c.repliedTo r rest [2, 3])))

/-- A handle names the object `o` of slot `i`: slot number times 16 plus generation, not FREE and not DOOMED (R8, R9). -/
abbrev Sys2Proof.Machine.Store.Names (st : Store) (h : Nat) (i : SlotNo) (o : Obj) : Prop :=
  h = 16 * i.val + st.slots[i].gen.toNat ∧ st.slots[i].obj = some o ∧ o.state ≠ .doomed

/-- No object that is neither FREE nor DOOMED has handle `h` (R9). -/
abbrev Sys2Proof.Machine.Store.Stale (st : Store) (h : Nat) : Prop :=
  ∀ i : SlotNo, h = 16 * i.val + st.slots[i].gen.toNat → ∀ o ∈ st.slots[i].obj, o.state = .doomed

/-- DELETE_OBJECT on a FAX_PAGE, which no other block is told of: with users 0 its chain is pushed in order, its slot becomes
FREE and the generation rises, and the reply is FREED with the number of blocks; with users above 0 it becomes DOOMED, the
generation rises, and the reply is DOOMED with 0 blocks; a stale handle is REFUSED STALE, a data ring BAD_PARAM. -/
def Obligations.DeleteObject : Prop :=
  ∀ (s : State) (r : Request) (rest : List Request) (h1 h0 : Byte), Asked s r rest 0x11 0x0F [h1, h0] →
    let c := s.chip
    let h := 256 * h1.toNat + h0.toNat
    (∀ (i : SlotNo) (o : Obj) (a : PageAttr), c.store.Names h i o → o.attr = .page a → o.users = 0 →
      let free := o.chain.reverse ++ c.store.free
      exec .deleteObject s = .next (s.but { c with
        store := { c.store with
          slots := c.store.slots.set i { gen := c.store.slots[i].gen + 1, obj := none }
          free := free
          low := if o.chain = [] then c.store.low else decide (free.length < c.lowMark) }
        link := (if o.chain ≠ [] ∧ free.length < c.lowMark ∧ c.store.low = false then
            c.link.post 4 .storeLow (be2 free.length ++ be2 c.lowMark)
          else c.link).answered r rest ([0, 0, 0] ++ be2 o.chain.length) })) ∧
    (∀ (i : SlotNo) (o : Obj) (a : PageAttr), c.store.Names h i o → o.attr = .page a → o.users ≠ 0 →
      exec .deleteObject s = .next (s.but { c with
        store := { c.store with
          slots := c.store.slots.set i { gen := c.store.slots[i].gen + 1, obj := some { o with state := .doomed } } }
        link := c.link.answered r rest [0, 0, 1, 0, 0] })) ∧
    (∀ (i : SlotNo) (o : Obj), c.store.Names h i o → o.isRing = true →
      exec .deleteObject s = .next (s.but (c.repliedTo r rest [2, 3]))) ∧
    (c.store.Stale h → exec .deleteObject s = .next (s.but (c.repliedTo r rest [2, 5])))

/-- The part after the object `o` of slot `i` has been deleted, but for what voice mail then forgets (R11, R13, R23): with users 0 the chain
goes back to the stack in order, the slot is FREE, and the store-low flag is re-evaluated; else the object is DOOMED. The
generation rises. -/
abbrev Sys2Proof.Machine.Chip.drops (c : Chip) (i : SlotNo) (o : Obj) : Chip :=
  let free := o.chain.reverse ++ c.store.free
  let slot (x : Option Obj) : Vector Slot 128 := c.store.slots.set i { gen := c.store.slots[i].gen + 1, obj := x }
  if o.users = 0 then { c with
    store := { c.store with
      slots := slot none, free := free, low := if o.chain = [] then c.store.low else decide (free.length < c.lowMark) }
    link := if o.chain ≠ [] ∧ free.length < c.lowMark ∧ c.store.low = false then
        c.link.post 4 .storeLow (be2 free.length ++ be2 c.lowMark)
      else c.link }
  else { c with store := { c.store with slots := slot (some { o with state := .doomed }) } }

/-- The same, once Delete Object has answered: FREED with the number of blocks, or DOOMED with 0 blocks (R11). -/
abbrev Sys2Proof.Machine.Chip.deletes (c : Chip) (r : Request) (rest : List Request) (i : SlotNo) (o : Obj) : Chip :=
  { c.drops i o with link := (c.drops i o).link.answered r rest (if o.users = 0 then [0, 0, 0] ++ be2 o.chain.length else [0, 0, 1, 0, 0]) }

/-- A recording of the object with handle `h` is marked deleted (R149, R157). -/
abbrev Sys2Proof.Machine.Recording.forgets (x : Recording) (h : Nat) : Recording := if x.handle = h then { x with deleted := true } else x

/-- A plan sequence once the message with handle `h`, before `post` in its mailbox's list, is deleted (R157, R165): a recording of it is
marked, and a review cursor on it moves to the entry after it. -/
abbrev Sys2Proof.Machine.PlanSeq.forgets (q : PlanSeq) (h : Nat) (post : List Nat) : PlanSeq :=
  { q with
    recording := q.recording.map (·.forgets h)
    cursor := if q.cursor = .at h then (match post with | y :: _ => .at y | [] => .end_) else q.cursor }

/-- DELETE_OBJECT on a VOICE_MESSAGE and on a VOICE_CLIP: the object is FREED or DOOMED, with its blocks and its reply, as DELETE_OBJECT
does it on a FAX_PAGE. A VOICE_MESSAGE leaves the owning mailbox's list, with its blocks and its share of the new count, a review
cursor on it moves to the entry after it, and a recording of it is marked deleted; one that no list names changes no mailbox. A
VOICE_CLIP leaves every greeting reference that names it, and a Record of it is marked deleted. -/
def Obligations.DeletionTellsVoiceMail : Prop :=
  ∀ (s : State) (r : Request) (rest : List Request) (h1 h0 : Byte), Asked s r rest 0x11 0x0F [h1, h0] →
    let c := s.chip
    let h := 256 * h1.toNat + h0.toNat
    (∀ (i : SlotNo) (o : Obj) (m : MailboxNo) (caller : Caller) (l : LineNo) (st : MsgStatus), c.store.Names h i o →
      o.attr = .message caller l st → o.owner = .mailbox m →
        let b := c.mailboxes[m]
        (∀ pre post : List Nat, b.list = pre ++ h :: post → h ∉ pre → exec .deleteObject s = .next (s.but { c.deletes r rest i o with
          seqs := c.seqs.map (·.forgets h post)
          mailboxes := c.mailboxes.set m { b with
            list := pre ++ post, used := b.used - o.chain.length, newCount := if st = .new then b.newCount - 1 else b.newCount } })) ∧
        (h ∉ b.list → exec .deleteObject s = .next (s.but { c.deletes r rest i o with
          seqs := c.seqs.map (fun q => { q with recording := q.recording.map (·.forgets h) }) }))) ∧
    (∀ (i : SlotNo) (o : Obj), c.store.Names h i o → o.attr = .clip →
      exec .deleteObject s = .next (s.but { c.deletes r rest i o with
        mailboxes := c.mailboxes.map (fun b => if b.greeting = some h then { b with greeting := none } else b)
        calls := c.calls.map (fun k => { k with record := k.record.map (·.forgets h) }) }))

/-- GET_OBJECT_INFO: after the stale-handle check (R9) the reply is NORMAL with the object's record as it stands (R15), in the bytes of 11.5.
That a FAX_PAGE's record ends with its identifier and has no fill up to offset 48 is the model's choice (log 39). -/
def Obligations.GetObjectInfo : Prop :=
  ∀ (s : State) (r : Request) (rest : List Request) (h1 h0 : Byte), Asked s r rest 0x12 0x0F [h1, h0] →
    let h := 256 * h1.toNat + h0.toNat
    (∀ (i : SlotNo) (o : Obj), s.chip.store.Names h i o →
      exec .getObjectInfo s = .next (s.but (s.chip.repliedTo r rest ([0, 0, h1, h0, o.attr.kindCode, o.state.code, o.owner.code,
          b1 o.users] ++ optHandle o.chain.head? ++ optHandle o.chain.getLast? ++ be2 o.chain.length ++ be4 o.length
        ++ be4 o.created.toNat
        ++ match o.attr with
          | .clip => []
          | .message caller l st => Caller.code caller ++ [b1 l.val, st.code]
          | .page a =>
            [b1 a.page, (match a.res with | .standard => 0 | .fine => 1), rateCode a.rate,
                b1 (a.sectioned.toNat + 2 * a.partialFlag.toNat + 4 * a.unread.toNat)]
              ++ be2 a.strips ++ be2 a.badStrips ++ optStr a.ident
          | .ring transmit e => [if transmit then 0 else 1, b1 e.val])))) ∧
    (s.chip.store.Stale h → exec .getObjectInfo s = .next (s.but (s.chip.repliedTo r rest [2, 5])))

/-- LIST_OBJECTS: from the start slot upward, the first 16 slots that hold an OPEN_WRITE or CLOSED object matching both filters,
and the slot after the last one reported, or 128 when the visit passed slot 127. The model's choices: the byte of the kind
filter ANY (log 13), and that a list which stops at its 16th entry answers the slot after it (log 29). -/
def Obligations.ListObjects : Prop :=
  ∀ (s : State) (r : Request) (rest : List Request) (kind owner start : Byte), Asked s r rest 0x13 0x0F [kind, owner, start] →
    let c := s.chip
    let matching (i : SlotNo) : Bool :=
      match c.store.slots[i].obj with
      | some o => decide (o.state ≠ .doomed) && (decide (kind = 4) || decide (o.attr.kindCode = kind)) &&
          (decide (owner = 0xFE) || decide (o.owner.code = owner))
      | none => false
    let found := ((List.finRange 128).filter (fun i => decide (start.toNat ≤ i.val) && matching i)).take 16
    let entry (i : SlotNo) : List Byte :=
      ((c.store.slots[i].obj).map (fun o => be2 (16 * i.val + c.store.slots[i].gen.toNat) ++ [o.attr.kindCode, o.state.code,
        o.owner.code] ++ be4 o.length ++ be2 o.chain.length ++ be4 o.created.toNat)).getD []
    (start.toNat ≤ 127 → kind.toNat ≤ 4 → owner = 0xFE ∨ (ownerOf owner).isSome = true →
      exec .listObjects s = .next (s.but (c.repliedTo r rest ([0, 0, b1 found.length,
        b1 (if found.length < 16 then 128 else (found.getLast?.map (fun i => i.val + 1)).getD 128)]
          ++ (found.map entry).flatten)))) ∧
    (127 < start.toNat → exec .listObjects s = .next (s.but (c.repliedTo r rest [2, 3])))

/-! ## Transfer channels and the store port (02_transfer_channels_and_the_store_port.md) -/

/-- Channel `i` is the lowest-numbered FREE channel. -/
abbrev Sys2Proof.Machine.Chip.LowestFreeChan (c : Chip) (i : ChanNo) : Prop :=
  c.chans[i].state = .free ∧ ∀ j : ChanNo, j < i → c.chans[j].state ≠ .free

/-- READ_OBJECT binds the lowest FREE channel TO_PATH to the link over the span asked, and starts it: the object's users rise
by 1 and the request is in execution; its reply comes later. A resolved count of 0 replies at once; a Read Object already
running is BUSY; a span beyond the length BAD_PARAM. At terminal count the last bytes go out as a code-1 Data frame, a
FAX_PAGE read to its length loses UNREAD, the channel is unbound and the reply carries the count and whether UNREAD was
cleared. The result record, four bytes of count and one for the unread flag, is the model's layout (log 13). -/
def Obligations.ReadObject : Prop :=
  (∀ (s : State) (i : ChanNo) (o : Obj) (q : ReadReq),
    let c := s.chip
    let ch := c.chans[i]
    c.port.holder = some (.chan i) → ch.state = .running → ch.path = .link → ch.dir = .toPath → ch.owner = .link → ch.draining = false →
    ch.repeats = 0 → c.store.slots[ch.slot].obj = some o → o.state ≠ .doomed → c.readReq = some q → q.chan = i →
    c.link.reserved + c.link.out.length < 16 → (∀ k : Fin 5, c.link.sets[k] = []) → 0 < ch.remaining → ch.remaining ≤ 256 →
    ch.cur % 512 + ch.remaining ≤ 512 →
    let n := ch.remaining
    let byte (p : Nat) : Byte :=
      if p < o.length then ((o.chain[p / 512]?).map (fun b => Mem.read c.store.dram (512 * b + p % 512))).getD 0 else 0
    let whole : Bool := decide (o.attr.kindCode = 2) && decide (ch.cur + n = o.length)
    ∃ t : State, exec .transferDone s = .next t ∧ t.pending = s.pending ∧ t.chip = { c with
      port := { c.port with holder := none }, readReq := none
      chans := c.chans.set i { ch with state := .free, endCause := .terminal, cur := ch.cur + n, remaining := 0 }
      store := { c.store with slots := c.store.slots.set ch.slot { c.store.slots[ch.slot] with obj := some { o with
        users := o.users - 1
        attr := match o.attr with
          | .page a => .page (if whole = true then { a with unread := false } else a)
          | x => x } } }
      link := { c.link with
        reserved := c.link.reserved - 1
        out := c.link.out ++ [
          { kind := 4, line := 0x0F, tag := q.tag, code := 1, body := (List.range n).map (fun k => byte (ch.cur + k)) },
          { kind := 2, line := 0x0F, tag := q.tag, code := 0x18, body := [0, 0] ++ be4 (q.sent + n) ++ [flag whole] }] } }) ∧
  ∀ (s : State) (r : Request) (rest : List Request) (h1 h0 p3 p2 p1 p0 n3 n2 n1 n0 m : Byte),
    Asked s r rest 0x18 0x0F [h1, h0, p3, p2, p1, p0, n3, n2, n1, n0, m] →
    let c := s.chip
    let start := ofBytes [p3, p2, p1, p0]
    let count := ofBytes [n3, n2, n1, n0]
    ∀ (i : SlotNo) (o : Obj), c.store.Names (256 * h1.toNat + h0.toNat) i o →
      let n := if count = 0 then o.length - start else count
      (∀ ch : ChanNo, c.readReq = none → o.isRing = false → m = 0 ∨ m = 2 → start + n ≤ o.length → 0 < n →
        (∀ j : ChanNo, c.chans[j].state = .free ∨ c.chans[j].path ≠ .link ∨ c.chans[j].dir ≠ .toPath) →
        c.LowestFreeChan ch →
        exec .readObject s = .next (s.but { c with
          link := { c.link with inq := rest }
          readReq := some { tag := r.tag, chan := ch, sent := 0 }
          store := { c.store with slots := c.store.slots.set i { c.store.slots[i] with obj := some { o with users := o.users + 1 } } }
          chans := c.chans.set ch {
            state := .running, owner := .link, slot := i, dir := .toPath, path := .link, basePos := start, cur := start
            baseCount := n, remaining := n, mode := if m = 0 then .single else .block, repeats := 0, repeatsDone := 0
            slips := 0, endCause := .none } })) ∧
      (c.readReq = none → o.isRing = false → m = 0 ∨ m = 2 → start = o.length → count = 0 →
        exec .readObject s = .next (s.but (c.repliedTo r rest [0, 0, 0, 0, 0, 0, 0]))) ∧
      (c.readReq ≠ none → exec .readObject s = .next (s.but (c.repliedTo r rest [2, 1]))) ∧
      (c.readReq = none → o.length < start ∨ o.length < start + count →
        exec .readObject s = .next (s.but (c.repliedTo r rest [2, 3])))

/-- WRITE_OBJECT binds the lowest FREE channel FROM_PATH to the link, from the object's length on, and starts it; a Write Object
already running is BUSY; an object that is not OPEN_WRITE is BAD_PARAM. -/
def Obligations.WriteObject : Prop :=
  ∀ (s : State) (r : Request) (rest : List Request) (h1 h0 n3 n2 n1 n0 cl m : Byte),
    Asked s r rest 0x19 0x0F [h1, h0, n3, n2, n1, n0, cl, m] →
    let c := s.chip
    let count := ofBytes [n3, n2, n1, n0]
    ∀ (i : SlotNo) (o : Obj), c.store.Names (256 * h1.toNat + h0.toNat) i o →
      (∀ ch : ChanNo, c.writeReq = none → o.isRing = false → o.state = .openWrite → m = 0 ∨ m = 2 → cl.toNat ≤ 1 → 0 < count →
        o.length + count ≤ 4194304 →
        (∀ j : ChanNo, c.chans[j].state = .free ∨ (c.chans[j].path ≠ .link ∧ c.chans[j].slot ≠ i) ∨ c.chans[j].dir ≠ .fromPath) →
        c.LowestFreeChan ch → (∀ d ∈ c.link.data, d.code = 1 → d.bytes ≠ []) →
        exec .writeObject s = .next (s.but { c with
          link := { c.link with inq := rest }
          writeReq := some { tag := r.tag, chan := ch, closeFlag := decide (cl = 1), written := 0 }
          store := { c.store with slots := c.store.slots.set i { c.store.slots[i] with obj := some { o with users := o.users + 1 } } }
          chans := c.chans.set ch {
            state := .running, owner := .link, slot := i, dir := .fromPath, path := .link, basePos := o.length
            cur := o.length, baseCount := count, remaining := count, mode := if m = 0 then .single else .block, repeats := 0
            repeatsDone := 0, slips := 0, endCause := .none } })) ∧
      (c.writeReq ≠ none → exec .writeObject s = .next (s.but (c.repliedTo r rest [2, 1]))) ∧
      (c.writeReq = none → o.isRing = true ∨ o.state ≠ .openWrite →
        exec .writeObject s = .next (s.but (c.repliedTo r rest [2, 3])))

/-- ABORT_DEVICE ends the running Read Object and the running Write Object, each with its ABRUPT ABORTED reply and the bytes
moved so far, before its own reply, which names them; a Write Object's object stays OPEN_WRITE, or the outcome says that it
had been deleted; with neither running the reply says that there is nothing to abort. Where both run, Read Object's reply
comes first: the model's choice (log 37). The bytes of the two result records are the model's layout (log 13). -/
def Obligations.AbortDevice : Prop :=
  ∀ (s : State) (r : Request) (rest : List Request), Asked s r rest 0x33 0x0F [] →
    let c := s.chip
    (c.readReq = none → c.writeReq = none → exec .abortDevice s = .next (s.but (c.repliedTo r rest [0, 0, 0]))) ∧
    (∀ q : WriteReq, c.writeReq = some q → c.readReq = none → c.chans[q.chan].state ≠ .free → c.chans[q.chan].path = .link →
      ∀ o : Obj, c.store.slots[c.chans[q.chan].slot].obj = some o → (o.state = .doomed → c.lowMark ≤ c.store.free.length) →
      ∃ t : State, exec .abortDevice s = .next t ∧ t.pending = s.pending ∧ t.chip.readReq = none ∧ t.chip.writeReq = none ∧
        t.chip.chans[q.chan].state = .free ∧ t.chip.link.inq = rest ∧ t.chip.link.reserved = c.link.reserved - 2 ∧
        t.chip.link.out = c.link.out ++
          [{ kind := 2, line := 0x0F, tag := q.tag, code := 0x19
             body := [1, 0x0F] ++ be4 q.written ++ be4 0 ++ [if o.state = .doomed then 2 else 1] }, r.answer [0, 0, 1, 0x19]] ∧
        t.chip.link.data = c.link.data.filter (fun d => !(d.code == 1 && d.tag == q.tag)) ∧
        (∀ j : ChanNo, j ≠ q.chan → t.chip.chans[j] = c.chans[j]) ∧ t.chip.store.dram = c.store.dram ∧
        (o.state ≠ .doomed → t.chip.store = { c.store with
          slots := c.store.slots.set c.chans[q.chan].slot { c.store.slots[c.chans[q.chan].slot] with
            obj := some { o with users := o.users - 1 } } }) ∧
        t.chip.lines = c.lines ∧ t.chip.calls = c.calls) ∧
    (∀ (q : ReadReq) (w : WriteReq), c.readReq = some q → c.writeReq = some w → q.chan ≠ w.chan → c.chans[q.chan].state ≠ .free →
      c.chans[q.chan].path = .link → c.chans[w.chan].state ≠ .free → c.chans[w.chan].path = .link →
      (∀ o ∈ c.store.slots[c.chans[q.chan].slot].obj, o.state ≠ .doomed) →
      (∀ o ∈ c.store.slots[c.chans[w.chan].slot].obj, o.state ≠ .doomed) →
      ∃ t : State, exec .abortDevice s = .next t ∧ t.pending = s.pending ∧ t.chip.readReq = none ∧ t.chip.writeReq = none ∧
        t.chip.chans[q.chan].state = .free ∧ t.chip.chans[w.chan].state = .free ∧ t.chip.link.inq = rest ∧
        t.chip.link.reserved = c.link.reserved - 3 ∧
        t.chip.link.out = c.link.out ++
          [{ kind := 2, line := 0x0F, tag := q.tag, code := 0x18, body := [1, 0x0F] ++ be4 q.sent ++ [0] },
            { kind := 2, line := 0x0F, tag := w.tag, code := 0x19, body := [1, 0x0F] ++ be4 w.written ++ be4 0 ++ [1] },
            r.answer [0, 0, 2, 0x18, 0x19]] ∧
        t.chip.link.data = c.link.data.filter (fun d => !(d.code == 1 && d.tag == w.tag)) ∧
        (∀ j : ChanNo, j ≠ q.chan → j ≠ w.chan → t.chip.chans[j] = c.chans[j]) ∧ t.chip.store.dram = c.store.dram ∧
        t.chip.store.free = c.store.free ∧ t.chip.lines = c.lines ∧ t.chip.calls = c.calls) ∧
    ∀ q : ReadReq, c.readReq = some q → c.writeReq = none → c.chans[q.chan].state ≠ .free → c.chans[q.chan].path = .link →
      (∀ o ∈ c.store.slots[c.chans[q.chan].slot].obj, o.state ≠ .doomed) →
      ∃ t : State, exec .abortDevice s = .next t ∧ t.pending = s.pending ∧ t.chip.readReq = none ∧
        t.chip.writeReq = none ∧ t.chip.chans[q.chan].state = .free ∧
        t.chip.link.out = c.link.out ++
          [{ kind := 2, line := 0x0F, tag := q.tag, code := 0x18, body := [1, 0x0F] ++ be4 q.sent ++ [0] }, r.answer [0, 0, 1, 0x18]] ∧
        t.chip.link.inq = rest ∧ t.chip.link.reserved = c.link.reserved - 2 ∧
        (∀ j : ChanNo, j ≠ q.chan → t.chip.chans[j] = c.chans[j]) ∧ t.chip.store.dram = c.store.dram ∧
        t.chip.store.free = c.store.free ∧ t.chip.lines = c.lines ∧ t.chip.calls = c.calls

/-- The path of channel record `ch` asks for service (R35, R36): TO_PATH, while its buffer holds 512 bytes or fewer; FROM_PATH, while it holds
512 or more, or any byte of a drain; on an engine path only while an engine RUNS for its line (R97). To the link, while an outbound
slot is free for data and no notice waits (R39); from the link, while the running Write Object has untaken bytes. -/
def Sys2Proof.Machine.Chip.Wants (c : Chip) (ch : Chan) : Prop :=
  let full (frm : List Byte) : Prop := 512 ≤ frm.length ∨ (ch.draining = true ∧ frm ≠ [])
  let runs (l : LineNo) : Prop := ∃ e : EngineNo, c.engines[e].state = .running ∧ c.engines[e].line = l
  match ch.path, ch.dir with
  | .codec l, .toPath => c.codecs[l].buf.toBuf.length ≤ 512
  | .codec l, .fromPath => full c.codecs[l].buf.frm
  | .engine l, .toPath => runs l ∧ c.epaths[l].toBuf.length ≤ 512
  | .engine l, .fromPath => runs l ∧ full c.epaths[l].frm
  | .link, .toPath => c.link.reserved + c.link.out.length < 16 ∧ ∀ i : Fin 5, c.link.sets[i] = []
  | .link, .fromPath => ∃ w : WriteReq, c.writeReq = some w ∧ ∃ d ∈ c.link.data, d.code = 1 ∧ d.tag = w.tag ∧ d.bytes ≠ []

/-- ARBITER_GRANT: a free port goes to the first asking requester in the order of preference, which under FIXED, and under
ROTATING before the first grant, is ring port E0, ring port E1, channels 0 to 7, link port, and under ROTATING afterwards
begins with the requester after the one granted last; a held port stays, and with nobody asking nothing changes. A requester
asks (R28, R35, R36, R104, R115): a ring port while a payload waits in the receive hold or a read of the transmit ring has
bytes to come; a RUNNING channel with bytes to come while its path demands service; the link port while its work has transfers
to make. -/
def Obligations.ArbiterGrant : Prop :=
  ∀ s : State,
    let c := s.chip
    let fixed : List Requester :=
      [.ring 0, .ring 1, .chan 0, .chan 1, .chan 2, .chan 3, .chan 4, .chan 5, .chan 6, .chan 7, .linkPort]
    (∀ e : EngineNo, c.asks (.ring e) = true ↔ c.units[e].portBound = true ∧
      (c.units[e].hold ≠ [] ∨ ∃ k : Cut, c.units[e].cut = some k ∧ k.got.length < k.total)) ∧
    (∀ i : ChanNo, c.asks (.chan i) = true ↔ c.chans[i].state = .running ∧ 0 < c.chans[i].remaining ∧ c.Wants c.chans[i]) ∧
    (c.asks .linkPort = true ↔
      (∃ (e : EngineNo) (n : Nat) (pre post : List DataIn) (d : DataIn), c.linkPort.work = some (.take e n) ∧
        c.link.data = pre ++ d :: post ∧ (∀ x ∈ pre, x.code ≠ 0) ∧ d.code = 0 ∧ n < d.bytes.length) ∨
      ∃ (e : EngineNo) (total : Nat) (got : List Byte), c.linkPort.work = some (.drain e total got) ∧ got.length < total) ∧
    (∀ h : Requester, c.port.holder = some h → exec .arbiterGrant s = .next s) ∧
    (c.port.holder = none → (∀ q : Requester, c.asks q = false) → exec .arbiterGrant s = .next s) ∧
    (∀ (n : Fin 11), c.port.holder = none → c.priority = .fixed ∨ c.port.lastGranted = none → c.asks fixed[n] = true →
      (∀ k : Fin 11, k < n → c.asks fixed[k] = false) →
        exec .arbiterGrant s = .next (s.but { c with port := { holder := some fixed[n], lastGranted := some fixed[n] } })) ∧
    (∀ (g n : Fin 11), c.port.holder = none → c.priority = .rotating → c.port.lastGranted = some fixed[g] →
      c.asks fixed[g + 1 + n] = true → (∀ k : Fin 11, k < n → c.asks fixed[g + 1 + k] = false) →
        exec .arbiterGrant s = .next (s.but { c with
          port := { holder := some fixed[g + 1 + n], lastGranted := some fixed[g + 1 + n] } }))

/-- TRANSFER_DONE for a channel that plays to a codec: the bytes from the current position, up to the block's end, the
remaining count and the free space of the buffer, are read and appended to the buffer, 00h at or beyond the object's length;
the position and the remaining count move on, and the object, the DRAM and the other channels stay. That a DEMAND channel
whose path still demands keeps the port over a reload at terminal count is the model's choice between R30 and R38 (log 30). -/
def Obligations.TransferToCodec : Prop :=
  ∀ (s : State) (i : ChanNo) (l : LineNo) (o : Obj),
    let c := s.chip
    let ch := c.chans[i]
    c.port.holder = some (.chan i) → ch.state = .running → ch.path = .codec l → ch.dir = .toPath → ch.mode = .demand →
    ch.draining = false → c.store.slots[ch.slot].obj = some o → 0 < ch.remaining → c.codecs[l].buf.toBuf.length ≤ 512 →
    let n := min (min (512 - ch.cur % 512) ch.remaining) (1024 - c.codecs[l].buf.toBuf.length)
    let byte (p : Nat) : Byte :=
      if p < o.length then ((o.chain[p / 512]?).map (fun b => Mem.read c.store.dram (512 * b + p % 512))).getD 0 else 0
    let again : Bool := decide (ch.repeats = 255) || decide (ch.repeatsDone < ch.repeats)
    let ch' : Chan :=
      if ch.remaining = n ∧ again = true then
        { ch with cur := ch.basePos, remaining := ch.baseCount, repeatsDone := min 254 (ch.repeatsDone + 1) }
      else { ch with cur := ch.cur + n, remaining := ch.remaining - n }
    ∃ t : State, exec .transferDone s = .next t ∧ t.pending = s.pending ∧
      t.chip = { c with
        port := { t.chip.port with lastGranted := c.port.lastGranted }
        chans := c.chans.set i ch'
        codecs := c.codecs.set l { c.codecs[l] with buf := { c.codecs[l].buf with
          toBuf := c.codecs[l].buf.toBuf ++ (List.range n).map (fun k => byte (ch.cur + k)), under := false } } } ∧
      t.chip.port.holder = if 0 < ch'.remaining ∧ c.codecs[l].buf.toBuf.length + n ≤ 512 then some (.chan i) else none

/-- The running Write Object `q` holds the store port by its channel `i`, to the OPEN_WRITE object `o`; the head of the inbound data
buffer is its code-1 frame `d`, with untaken bytes; the DRAM's list is canonical. -/
abbrev Sys2Proof.Machine.Chip.Writes (c : Chip) (i : ChanNo) (o : Obj) (q : WriteReq) (d : DataIn) (more : List DataIn) : Prop :=
  let ch := c.chans[i]
  c.port.holder = some (.chan i) ∧ ch.state = .running ∧ ch.path = .link ∧ ch.dir = .fromPath ∧ ch.owner = .link ∧ ch.draining = false ∧
    c.store.slots[ch.slot].obj = some o ∧ o.state = .openWrite ∧ c.writeReq = some q ∧ c.link.data = d :: more ∧ d.code = 1 ∧
    d.tag = q.tag ∧ d.bytes ≠ [] ∧ (∀ e ∈ more, e.code = 1 → e.bytes ≠ []) ∧ 0 < ch.remaining ∧ Memory.wf c.store.dram = true

/-- The FROM_PATH channel `i` of line `l`, DEMAND and not draining, holds the store port, to the OPEN_WRITE object `o`; the position is that of
block `b`, which the object has, or has once it has taken the blocks `taken` from the top of the stack, `free` being what stays there;
the DRAM's list is canonical. -/
abbrev Sys2Proof.Machine.Chip.Stores (c : Chip) (i : ChanNo) (o : Obj) (taken free : List Nat) (b : Nat) : Prop :=
  let ch := c.chans[i]
  c.port.holder = some (.chan i) ∧ ch.state = .running ∧ ch.dir = .fromPath ∧ ch.mode = .demand ∧ ch.draining = false ∧ ch.repeats = 0 ∧
    0 < ch.remaining ∧ c.store.slots[ch.slot].obj = some o ∧ o.state = .openWrite ∧ c.store.free = taken ++ free ∧
    (o.chain ++ taken)[ch.cur / 512]? = some b ∧ (taken = [] ∨ o.chain.length + taken.length = ch.cur / 512 + 1) ∧
    Memory.wf c.store.dram = true

/-- The object `o` after a write of `n` bytes at position `p`, the blocks `taken` having joined its chain (R17). -/
abbrev Sys2Proof.Machine.Obj.takes (o : Obj) (taken : List Nat) (p n : Nat) : Obj :=
  { o with chain := o.chain ++ taken, length := max o.length (p + n) }

/-- The part after a transfer of `n` bytes of channel `i` into the object `o`, but for the path's buffer and the port (R17, R23, R29). -/
abbrev Sys2Proof.Machine.Chip.stored (c : Chip) (i : ChanNo) (o : Obj) (taken free : List Nat) (n : Nat) (dram : List Host.Cell) : Chip :=
  let ch := c.chans[i]
  { c with
    chans := c.chans.set i { ch with cur := ch.cur + n, remaining := ch.remaining - n }
    link := if taken ≠ [] ∧ free.length < c.lowMark ∧ c.store.low = false then c.link.post 4 .storeLow (be2 free.length ++ be2 c.lowMark)
      else c.link
    store := { c.store with
      dram := dram, free := free, low := if taken = [] then c.store.low else decide (free.length < c.lowMark)
      slots := c.store.slots.set ch.slot { c.store.slots[ch.slot] with obj := some (o.takes taken ch.cur n) } } }

/-- The DRAM `d` after the first `n` of the bytes `bs` have been written at address `a`: these read there, and every other byte as before. -/
abbrev Sys2Proof.Machine.Memory.Holds (d d' : List Host.Cell) (a n : Nat) (bs : List Byte) : Prop :=
  (∀ k : Nat, (h : k < n) → ∀ x ∈ bs[k]?, Mem.read d' (a + k) = x) ∧ ∀ x : Nat, x < a ∨ a + n ≤ x → Mem.read d' x = Mem.read d x

/-- What the close rule keeps of the object `o` of recording `x` (R158): up to the start of the empty run in progress, and never more than
its length. -/
abbrev Sys2Proof.Machine.Recording.keeps (x : Recording) (o : Obj) : Nat := min (x.det.empty.getD o.length) o.length

/-- The part once channel `i` of line `l` has ended with `cause`, the close rule has kept `n` bytes of its object `o`, of which it is the one
user, and the channel has been unbound (R34, R86, R158): below 4000 bytes the object is gone, else trimmed to the blocks of `n` bytes and
CLOSED; the blocks not kept go back to the stack. -/
abbrev Sys2Proof.Machine.Chip.settles (c : Chip) (l : LineNo) (i : ChanNo) (o : Obj) (n : Nat) (cause : EndCause) : Chip :=
  let ch := c.chans[i]
  let slot := c.store.slots[ch.slot]
  let gone := if n < 4000 then o.chain else o.chain.drop ((n + 511) / 512)
  let free := gone.reverse ++ c.store.free
  { c with
    port := if c.port.holder = some (.chan i) then { c.port with holder := none } else c.port
    chans := c.chans.set i { ch with state := .free, endCause := cause }
    codecs := c.codecs.set l { c.codecs[l] with buf := { c.codecs[l].buf with frm := [], overNow := false } }
    calls := c.calls.set l { c.calls[l] with codecSlips := min 65535 (c.calls[l].codecSlips + ch.slips) }
    store := { c.store with
      free := free, low := if gone = [] then c.store.low else decide (free.length < c.lowMark)
      slots := c.store.slots.set ch.slot (if n < 4000 then { gen := slot.gen + 1, obj := none } else { slot with
        obj := some { o with chain := o.chain.take ((n + 511) / 512), length := n, state := .closed, users := 0 } }) }
    link := if gone ≠ [] ∧ free.length < c.lowMark ∧ c.store.low = false then
        c.link.post 4 .storeLow (be2 free.length ++ be2 c.lowMark)
      else c.link }

/-- A plan's recording `x` on line `l`, whose end has not come: channel `i` on the line's codec path records into the VOICE_MESSAGE `o`, of
which it is the one user, for the mailbox in use; no list and no other recording names it. -/
abbrev Sys2Proof.Machine.Chip.PlanRecords (c : Chip) (l : LineNo) (x : Recording) (i : ChanNo) (o : Obj) : Prop :=
  let q := c.seqs[l]
  c.chans[i].owner = .voiceMail l ∧ c.chans[i].path = .codec l ∧ q.recording = some x ∧ x.cause = none ∧ x.chan = i ∧
    x.slot = c.chans[i].slot ∧ c.store.Names x.handle x.slot o ∧ (∃ caller : Caller, o.attr = .message caller l .new) ∧
    o.owner = .mailbox q.mailbox ∧ o.users = 1 ∧ x.handle ∉ c.mailboxes[q.mailbox].list ∧
    ∀ m : LineNo, m ≠ l → ∀ y ∈ c.seqs[m].recording, y.handle ≠ x.handle

/-- The part once a plan's recording has been settled over the chip `c` and the object `o`, its end being `why` (R148, R157, R158, R159): of 1 s
or more the message joins its mailbox's list as NEW, and MESSAGE_RECORDED is posted; CLOSING begins. -/
abbrev Sys2Proof.Machine.Chip.planSettles (c : Chip) (l : LineNo) (x : Recording) (i : ChanNo) (o : Obj) (cause : EndCause) (why : RecEnd) : Chip :=
  let q := c.seqs[l]
  let b := c.mailboxes[q.mailbox]
  let n := x.keeps o
  let done := c.settles l i o n cause
  { done with
    seqs := c.seqs.set l { q with state := .closing, tone := .closing, recording := none, idleTimer := { run := false, ms := 0 } }
    mailboxes := c.mailboxes.set q.mailbox (if n < 4000 then { b with recordings := b.recordings - 1 } else { b with
      recordings := b.recordings - 1, list := b.list ++ [x.handle], used := b.used + (o.chain.take ((n + 511) / 512)).length
      newCount := b.newCount + 1 })
    link := if n < 4000 then done.link else done.link.post l.castSucc .messageRecorded
      ([b1 q.mailbox.val] ++ be2 x.handle ++ be4 n ++ [why.code] ++ Caller.code q.caller ++ be2 c.chans[i].slips) }

/-- A Record `g` on line `l` with its recording `x`, whose end has not come: channel `i` on the line's codec path records into the VOICE_CLIP
`o`, of which it is the one user; no greeting and no other Record names it. -/
abbrev Sys2Proof.Machine.Chip.HostRecords (c : Chip) (l : LineNo) (g : Long) (x : Recording) (i : ChanNo) (o : Obj) : Prop :=
  let k := c.calls[l]
  c.chans[i].owner = .callControl l ∧ c.chans[i].path = .codec l ∧ k.long = some g ∧ g.kind = .record ∧ g.handle = some x.handle ∧
    g.chan = some i ∧ k.record = some x ∧ x.cause = none ∧ x.chan = i ∧ x.slot = c.chans[i].slot ∧ c.store.Names x.handle x.slot o ∧
    o.attr = .clip ∧ o.users = 1 ∧ (∀ m : MailboxNo, c.mailboxes[m].greeting ≠ some x.handle) ∧
    ∀ m : LineNo, m ≠ l → ∀ y ∈ c.calls[m].record, y.handle ≠ x.handle

/-- The part once such a Record has been settled over the chip `c` and the object `o`, at the maximum length or with the store exhausted (R62,
R81, R158): its reply carries the end, the length kept, the slips, the handle if the clip was kept, and the outcome; the call stays up. -/
abbrev Sys2Proof.Machine.Chip.hostSettles (c : Chip) (l : LineNo) (g : Long) (x : Recording) (i : ChanNo) (o : Obj) (full : Bool) : Chip :=
  let n := x.keeps o
  let done := c.settles l i o n (if full then .storeFull else .terminal)
  { done with
    calls := c.calls.set l { done.calls[l] with phase := .none, record := none, long := none }
    lines := c.lines.set l { c.lines[l] with lastFault := if full then
        { valid := true, reason := .storeFull, condition := {}, phase := .recording, handle := some x.handle, position := some c.chans[i].cur }
      else { c.lines[l].lastFault with valid := false } }
    link := { done.link with
      reserved := done.link.reserved - 1
      out := done.link.out ++ [{
        kind := 2, line := b1 l.val, tag := g.tag, code := 0x36
        body := (if full then [1, 0x18, 2] else [0, 0, 0]) ++ be4 n ++ be2 c.chans[i].slips
          ++ (if n < 4000 then [0xFF, 0xFF, 1] else be2 x.handle ++ [0]) }] } }

/-- TRANSFER_DONE for a Write Object in SINGLE mode: the untaken bytes of the head code-1 frame, up to the block's end, are
written at the address of the current position and leave the frame, every other byte of the DRAM stays, the object grows, and
the port is given up. Where the position is the start of a block the object does not have, the block on top of the stack is
taken first, and the store-low flag re-evaluated. At terminal count the object, here a VOICE_CLIP, is closed if so asked, the
channel is unbound and the reply carries the count, the surplus of the last frame and the close outcome. For the codec channel of a
recording and the channel of a fax page being received: the bytes of the path's buffer are written so, blocks the object lacks, several
where a strip lies ahead, coming from the stack, and the port stays while the buffer holds 512 bytes; a plan's recording below its
quota and a Record go on. At terminal count, the maximum length, the close rule settles a recording (R158): kept up to the empty run,
deleted below 4000 bytes, else trimmed, closed and filed NEW with MESSAGE_RECORDED, or reported in the Record reply. Where the transfer of
a plan's recording also takes the block at which the quota is reached, the end is MAX_LENGTH all the same and no quota check is made: so far
that clause is the model's choice, since R157 gives no order of events that come at once (log 37). The bytes of the result records and of
MESSAGE_RECORDED are the model's layout (log 13). -/
def Obligations.TransferStoresBytes : Prop :=
  (∀ (s : State) (i : ChanNo) (o : Obj) (q : WriteReq) (d : DataIn) (more : List DataIn) (a : Nat),
    let c := s.chip
    let ch := c.chans[i]
    c.Writes i o q d more → ch.mode = .single → o.addr ch.cur = some a →
    let n := min (min (512 - ch.cur % 512) ch.remaining) d.bytes.length
    0 < n → n < ch.remaining →
    ∃ t : State, exec .transferDone s = .next t ∧ t.pending = s.pending ∧
      (∀ k : Nat, (h : k < n) → ∀ b ∈ d.bytes[k]?, Mem.read t.chip.store.dram (a + k) = b) ∧
      (∀ x : Nat, x < a ∨ a + n ≤ x → Mem.read t.chip.store.dram x = Mem.read c.store.dram x) ∧
      t.chip = { c with
        port := { c.port with holder := none }
        writeReq := some { q with written := q.written + n }
        chans := c.chans.set i { ch with cur := ch.cur + n, remaining := ch.remaining - n }
        link := { c.link with data := if n = d.bytes.length then more else { d with bytes := d.bytes.drop n } :: more }
        store := { c.store with
          dram := t.chip.store.dram
          slots := c.store.slots.set ch.slot { c.store.slots[ch.slot] with
            obj := some { o with length := max o.length (ch.cur + n) } } } }) ∧
  (∀ (s : State) (i : ChanNo) (o : Obj) (q : WriteReq) (d : DataIn) (more : List DataIn) (b : Nat) (free : List Nat),
    let c := s.chip
    let ch := c.chans[i]
    c.Writes i o q d more → ch.mode = .single → c.store.free = b :: free → o.chain.length = ch.cur / 512 → ch.cur % 512 = 0 →
    let n := min (min 512 ch.remaining) d.bytes.length
    n < ch.remaining →
    ∃ t : State, exec .transferDone s = .next t ∧ t.pending = s.pending ∧
      (∀ k : Nat, (h : k < n) → ∀ x ∈ d.bytes[k]?, Mem.read t.chip.store.dram (512 * b + k) = x) ∧
      (∀ x : Nat, x < 512 * b ∨ 512 * b + n ≤ x → Mem.read t.chip.store.dram x = Mem.read c.store.dram x) ∧
      t.chip = { c with
        port := { c.port with holder := none }
        writeReq := some { q with written := q.written + n }
        chans := c.chans.set i { ch with cur := ch.cur + n, remaining := ch.remaining - n }
        link := { (if free.length < c.lowMark ∧ c.store.low = false then c.link.post 4 .storeLow (be2 free.length ++ be2 c.lowMark)
            else c.link) with data := if n = d.bytes.length then more else { d with bytes := d.bytes.drop n } :: more }
        store := { c.store with
          dram := t.chip.store.dram, free := free, low := decide (free.length < c.lowMark)
          slots := c.store.slots.set ch.slot { c.store.slots[ch.slot] with
            obj := some { o with chain := o.chain ++ [b], length := max o.length (ch.cur + n) } } } }) ∧
  (∀ (s : State) (i : ChanNo) (o : Obj) (q : WriteReq) (d : DataIn) (more : List DataIn) (a : Nat),
    let c := s.chip
    let ch := c.chans[i]
    c.Writes i o q d more → q.chan = i → o.attr = .clip → o.addr ch.cur = some a → ch.repeats = 0 →
    ch.remaining ≤ d.bytes.length → ch.cur % 512 + ch.remaining ≤ 512 →
    let n := ch.remaining
    ∃ t : State, exec .transferDone s = .next t ∧ t.pending = s.pending ∧
      (∀ k : Nat, (h : k < n) → ∀ x ∈ d.bytes[k]?, Mem.read t.chip.store.dram (a + k) = x) ∧
      (∀ x : Nat, x < a ∨ a + n ≤ x → Mem.read t.chip.store.dram x = Mem.read c.store.dram x) ∧
      t.chip = { c with
        port := { c.port with holder := none }, writeReq := none
        chans := c.chans.set i { ch with state := .free, endCause := .terminal, cur := ch.cur + n, remaining := 0 }
        link := { c.link with
          reserved := c.link.reserved - 1, data := c.link.data.filter (fun d => !(d.code == 1 && d.tag == q.tag))
          out := c.link.out ++ [{
            kind := 2, line := 0x0F, tag := q.tag, code := 0x19
            body := [0, 0] ++ be4 (q.written + n) ++ be4 (d.bytes.length - n) ++ [if q.closeFlag then 0 else 1] }] }
        store := { c.store with
          dram := t.chip.store.dram
          slots := c.store.slots.set ch.slot { c.store.slots[ch.slot] with obj := some { o with
            length := max o.length (ch.cur + n), users := o.users - 1
            state := if q.closeFlag then .closed else .openWrite } } } }) ∧
  ∀ (s : State) (i : ChanNo) (l : LineNo) (o : Obj) (taken free : List Nat) (b : Nat),
    let c := s.chip
    let ch := c.chans[i]
    let q := c.seqs[l]
    c.Stores i o taken free b →
    let bytes (p : Path) : List Byte := match p with | .codec l => c.codecs[l].buf.frm | .engine l => c.epaths[l].frm | .link => []
    let n := min (min (512 - ch.cur % 512) ch.remaining) (bytes ch.path).length
    let left := (bytes ch.path).drop n
    let port : Port := { c.port with holder := if 512 ≤ left.length then some (.chan i) else none }
    let writes (c' : List Host.Cell → Chip) : Prop := ∃ t : State, exec .transferDone s = .next t ∧ t.pending = s.pending ∧
      Memory.Holds c.store.dram t.chip.store.dram (512 * b + ch.cur % 512) n (bytes ch.path) ∧ t.chip = c' t.chip.store.dram
    512 ≤ (bytes ch.path).length →
    (n < ch.remaining →
      (ch.path = .codec l → ch.owner = .callControl l ∨
          (ch.owner = .voiceMail l ∧ ∃ x : Recording, q.recording = some x ∧ x.slot = ch.slot ∧
            (∀ m : LineNo, m ≠ l → c.seqs[m].recording = none) ∧
            c.mailboxes[q.mailbox].used + o.chain.length + taken.length < c.mailboxes[q.mailbox].quota) →
        writes (fun d => { c.stored i o taken free n d with
          port := port, codecs := c.codecs.set l { c.codecs[l] with buf := { c.codecs[l].buf with frm := left, overNow := false } } })) ∧
      (ch.path = .engine l → ch.owner = .fax l → (∃ e : EngineNo, c.engines[e].state = .running ∧ c.engines[e].line = l) →
        writes (fun d => { c.stored i o taken free n d with
          port := port, epaths := c.epaths.set l { c.epaths[l] with frm := left, overNow := false } }))) ∧
    (n = ch.remaining →
      (∀ x : Recording, c.PlanRecords l x i o → writes (fun d =>
        (c.stored i o taken free n d).planSettles l x i (o.takes taken ch.cur n) .terminal .maxLength)) ∧
      (∀ (g : Long) (x : Recording), c.HostRecords l g x i o → writes (fun d =>
        (c.stored i o taken free n d).hostSettles l g x i (o.takes taken ch.cur n) false)))

/-- A write transfer that needs more blocks than the stack holds: nothing is written, the object keeps its chain, count and
length, and the channel ends STORE_FULL; a Write Object ends ABRUPT STORE_FULL with the bytes written before; a plan's recording
is settled by the close rule with cause STORE_FULL and CLOSING begins; a Record is settled so and ends ABRUPT STORE_FULL, the call
staying up; a fax page being received is closed PARTIAL with what was written, and PAGE_RECEIVED posted, or deleted where no strip
was ever stored good, and the job is marked full (R141). The bytes of the result records, of MESSAGE_RECORDED and of PAGE_RECEIVED
are the model's layout (log 13). -/
def Obligations.StoreExhaustion : Prop :=
  (∀ (s : State) (i : ChanNo) (o : Obj) (q : WriteReq) (d : DataIn) (more : List DataIn),
    let c := s.chip
    let ch := c.chans[i]
    c.port.holder = some (.chan i) → ch.state = .running → ch.path = .link → ch.dir = .fromPath → ch.owner = .link →
    ch.draining = false → c.store.slots[ch.slot].obj = some o → o.state = .openWrite → c.writeReq = some q → q.chan = i →
    c.link.data = d :: more → d.code = 1 → d.tag = q.tag → d.bytes ≠ [] → 0 < ch.remaining →
    o.chain.length ≤ ch.cur / 512 → c.store.free.length < ch.cur / 512 + 1 - o.chain.length →
    ∃ t : State, exec .transferDone s = .next t ∧ t.pending = s.pending ∧ t.chip.store.dram = c.store.dram ∧
      t.chip.store.free = c.store.free ∧
      t.chip.store.slots = c.store.slots.set ch.slot { c.store.slots[ch.slot] with obj := some { o with users := o.users - 1 } } ∧
      t.chip.chans[i].state = .free ∧ t.chip.chans[i].endCause = .storeFull ∧ t.chip.writeReq = none ∧
      t.chip.link.out = c.link.out ++ [{ kind := 2, line := 0x0F, tag := q.tag, code := 0x19
                                         body := [1, 0x18] ++ be4 q.written ++ be4 0 ++ [1] }] ∧
      t.chip.port.holder = none ∧ t.chip.lines = c.lines ∧ t.chip.calls = c.calls ∧
      ∀ j : ChanNo, j ≠ i → t.chip.chans[j] = c.chans[j]) ∧
  ∀ (s : State) (i : ChanNo) (l : LineNo) (o : Obj),
    let c := s.chip
    let ch := c.chans[i]
    c.port.holder = some (.chan i) → ch.state = .running → ch.dir = .fromPath → ch.draining = false → 0 < ch.remaining →
    c.store.slots[ch.slot].obj = some o → o.state = .openWrite → o.chain.length ≤ ch.cur / 512 →
    c.store.free.length < ch.cur / 512 + 1 - o.chain.length →
    (512 ≤ c.codecs[l].buf.frm.length →
      (∀ x : Recording, c.PlanRecords l x i o → exec .transferDone s = .next (s.but (c.planSettles l x i o .storeFull .storeFull))) ∧
      (∀ (g : Long) (x : Recording), c.HostRecords l g x i o → exec .transferDone s = .next (s.but (c.hostSettles l g x i o true)))) ∧
    (∀ (j : FaxJob) (p : FaxPage) (a : PageAttr) (r : Rate), 512 ≤ c.epaths[l].frm.length → ch.path = .engine l → ch.owner = .fax l →
      (∃ e : EngineNo, c.engines[e].state = .running ∧ c.engines[e].line = l) → c.fax[l] = some j → j.cur = some p → p.chan = some i →
      ch.slot = p.slot → c.store.Names p.handle p.slot o → o.attr = .page a → o.users = 1 → j.rate = some r → p.between = false →
      p.told = true →
      let bad := p.total - p.stored.length
      let ended : FaxJob := { j with cur := none, strips := [], passing := false, storeFull := true }
      let idle (c : Chip) : Chip := { c with
        port := { c.port with holder := none }, chans := c.chans.set i { ch with state := .free, endCause := .storeFull }
        epaths := c.epaths.set l { c.epaths[l] with frm := [], overNow := false }
        calls := c.calls.set l { c.calls[l] with engineSlips := min 65535 (c.calls[l].engineSlips + ch.slips) } }
      (p.ever = true → exec .transferDone s = .next (s.but { idle c with
        store := { c.store with slots := c.store.slots.set p.slot { c.store.slots[p.slot] with obj := some { o with
          state := .closed, owner := .unowned, users := 0
          attr := .page { a with strips := p.total, badStrips := bad, rate := some r, partialFlag := true, unread := true } } } }
        link := c.link.post l.castSucc .pageReceived (be2 p.handle ++ [b1 p.number] ++ be2 p.total ++ be2 bad ++ [1])
        fax := c.fax.set l (some { ended with
          pagesRecv := j.pagesRecv + 1
          outcomes := j.outcomes ++ [{
            kind := .partial_, handle := p.handle, number := p.number, total := p.total, resent := min 65535 p.resent
            rate := some r, needed := bad }] }) })) ∧
      (p.ever = false → exec .transferDone s = .next (s.but { idle (c.drops p.slot { o with users := 0 }) with
        fax := c.fax.set l (some ended) })))

/-- PATH_PRODUCE: a RUNNING FROM_PATH channel's codec buffer takes the byte while it holds fewer than 1024; at 1024 the byte
is discarded and an overrun begins, counted once and notified; with no channel bound the byte is discarded. The engine path of
a receiving fax passes whole strips in place of bytes (R137), and the command does nothing there: that the path takes its
bytes from STRIP_JUDGED alone is the model's reading (log 24). The detail of CHANNEL_SLIP is encoded as log 13 says. -/
def Obligations.PathProduce : Prop :=
  ∀ (s : State) (l : LineNo) (b : Byte),
    let c := s.chip
    let buf := c.codecs[l].buf
    let put (c : Chip) (x : PathBuf) : Chip := { c with codecs := c.codecs.set l { c.codecs[l] with buf := x } }
    (∀ i : ChanNo, c.chanOn (.codec l) .fromPath = some i → c.chans[i].state = .running → c.chans[i].draining = false →
      c.chans[i].owner = .callControl l ∨ c.chans[i].owner = .voiceMail l →
      (buf.frm.length < 1024 → exec (.pathProduce (.codec l) b) s = .next (s.but (put c { buf with frm := buf.frm ++ [b] }))) ∧
      (1024 ≤ buf.frm.length → buf.overNow = true → exec (.pathProduce (.codec l) b) s = .next s) ∧
      (1024 ≤ buf.frm.length → buf.overNow = false →
        exec (.pathProduce (.codec l) b) s = .next (s.but { (put c { buf with overNow := true }) with
          chans := c.chans.set i { c.chans[i] with slips := min 65535 (c.chans[i].slips + 1) }
          link := c.link.post l.castSucc .channelSlip ([b1 i.val, c.chans[i].dir.code] ++ c.chans[i].path.code
            ++ be2 (min 65535 (c.chans[i].slips + 1))) }))) ∧
    (c.chanOn (.codec l) .fromPath = none → exec (.pathProduce (.codec l) b) s = .next s) ∧
    (c.chanOn (.engine l) .fromPath = none → exec (.pathProduce (.engine l) b) s = .next s) ∧
    (∀ i : ChanNo, c.chanOn (.engine l) .fromPath = some i → c.chans[i].owner = .fax l → exec (.pathProduce (.engine l) b) s = .next s)

/-- PATH_CONSUME on a codec path: output samples are put out up to the one that takes the oldest byte of the buffer. At each
the accumulator takes the speed, and each whole 16 in it is one stored sample decoded: the half byte left over, then the
byte's high half and its low half. A speed of 8 to 24 so makes none, one or two steps in an output sample, whether a half byte
is left over or not. The decoder's arithmetic is free. With the buffer empty, bytes to come and the channel RUNNING the path
is silent and an underrun begins, counted once and notified. On an engine path a RUNNING engine that sends a page takes the
oldest byte of the run into its strip; the 512th makes the strip sent, with page number, strip number and total (R126), here
in a round that is not the first resent; with the buffer empty fill goes into the strip; without a RUNNING engine nothing is
taken. That fill is no byte of the run and marks the strip then being formed is the model's reading (log 24). The decoder's
arithmetic, and that one command is one byte taken, are the model's (log 11); the detail of CHANNEL_SLIP is log 13, and the
strip kept as it was sent log 12. -/
def Obligations.PathConsume : Prop :=
  (∀ (s : State) (l : LineNo) (i : ChanNo) (j : FaxJob) (p : FaxPage),
    let c := s.chip
    let buf := c.epaths[l]
    c.chanOn (.engine l) .toPath = some i → c.chans[i].path = .engine l → c.fax[l] = some j → j.role = .send → j.roundOn = true →
    0 < j.runLeft →
    ((∀ e : EngineNo, c.engines[e].state ≠ .running ∨ c.engines[e].line ≠ l) → exec (.pathConsume (.engine l)) s = .next s) ∧
    ((∃ e : EngineNo, c.engines[e].state = .running ∧ c.engines[e].line = l) →
      (∀ (b : Byte) (bs : List Byte), buf.toBuf = b :: bs → j.runLeft % 512 ≠ 1 → exec (.pathConsume (.engine l)) s = .next (s.but { c with
        epaths := c.epaths.set l { buf with toBuf := bs }
        fax := c.fax.set l (some { j with runLeft := j.runLeft - 1, strip := j.strip ++ [b] }) })) ∧
      (∀ (b : Byte) (bs : List Byte), buf.toBuf = b :: bs → j.runLeft % 512 = 1 → 1 < j.runLeft → j.cur = some p →
        let sent : FaxJob := { j with
          runLeft := j.runLeft - 1, runAt := j.runAt + 1, strip := [], stripFill := false
          lastStrip := some {
            page := p.number, number := j.runAt, total := p.total, bytes := j.strip ++ [b], filled := j.stripFill } }
        exec (.pathConsume (.engine l)) s = .next (s.but { c with
          epaths := c.epaths.set l { buf with toBuf := bs }
          fax := c.fax.set l (some (if j.repass = true then
            { sent with resent := j.resent + 1, cur := some { p with resent := p.resent + 1 } } else sent)) })) ∧
      (buf.toBuf = [] → c.chans[i].state ≠ .running ∨ c.chans[i].remaining = 0 ∨ buf.under = true →
        exec (.pathConsume (.engine l)) s = .next (s.but { c with fax := c.fax.set l (some { j with stripFill := true }) })) ∧
      (buf.toBuf = [] → c.chans[i].state = .running → 0 < c.chans[i].remaining → buf.under = false → c.chans[i].owner = .fax l →
        exec (.pathConsume (.engine l)) s = .next (s.but { c with
          epaths := c.epaths.set l { buf with under := true }
          chans := c.chans.set i { c.chans[i] with slips := min 65535 (c.chans[i].slips + 1) }
          link := c.link.post l.castSucc .channelSlip ([b1 i.val, c.chans[i].dir.code, 1, b1 l.val]
            ++ be2 (min 65535 (c.chans[i].slips + 1)))
          fax := c.fax.set l (some { j with stripFill := true }) })))) ∧
  (∀ (s : State) (l : LineNo) (i : ChanNo) (b : Byte) (bs : List Byte),
    let c := s.chip
    let k := c.codecs[l]
    let hi : BitVec 4 := BitVec.extractLsb' 4 4 b
    let lo : BitVec 4 := b.setWidth 4
    let next := Config.adpcmNext
    let takes (phase decoder : Nat) (half : Option (BitVec 4)) : Prop :=
      exec (.pathConsume (.codec l)) s = .next (s.but { c with codecs := c.codecs.set l { k with
        phase := phase, buf := { k.buf with toBuf := bs }, played := k.played + 1, half := half, decoder := decoder
        output := some (Config.adpcmOut decoder) } })
    let begins (phase decoder : Nat) : Prop :=
      (phase + k.speed < 16 → takes (phase + k.speed + k.speed - 16) (next decoder hi) (some lo)) ∧
      (16 ≤ phase + k.speed → phase + k.speed < 32 → takes (phase + k.speed - 16) (next decoder hi) (some lo)) ∧
      (32 ≤ phase + k.speed → takes (phase + k.speed - 32) (next (next decoder hi) lo) none)
    let sum := k.phase + k.speed
    c.chanOn (.codec l) .toPath = some i → k.buf.toBuf = b :: bs → k.phase < 16 → 8 ≤ k.speed → k.speed ≤ 24 →
    (k.half = none → begins k.phase k.decoder) ∧
    (∀ x : BitVec 4, k.half = some x →
      (32 ≤ sum → takes (sum - 32) (next (next k.decoder x) hi) (some lo)) ∧
      (16 ≤ sum → sum < 32 → begins (sum - 16) (next k.decoder x)) ∧
      (sum < 16 → begins (sum + k.speed - 16) (next k.decoder x)))) ∧
  ∀ (s : State) (l : LineNo) (i : ChanNo),
    let c := s.chip
    let k := c.codecs[l]
    c.chanOn (.codec l) .toPath = some i → c.chans[i].path = .codec l → k.speed = 16 → k.phase < 16 → k.half = none →
    (∀ (b : Byte) (bs : List Byte), k.buf.toBuf = b :: bs →
      exec (.pathConsume (.codec l)) s = .next (s.but { c with codecs := c.codecs.set l { k with
        buf := { k.buf with toBuf := bs }, played := k.played + 1, half := some (b.setWidth 4)
        decoder := Config.adpcmNext k.decoder (BitVec.extractLsb' 4 4 b)
        output := some (Config.adpcmOut (Config.adpcmNext k.decoder (BitVec.extractLsb' 4 4 b))) } })) ∧
    (k.buf.toBuf = [] → c.chans[i].state = .running → 0 < c.chans[i].remaining → k.buf.under = false →
      c.chans[i].owner = .callControl l ∨ c.chans[i].owner = .voiceMail l →
      exec (.pathConsume (.codec l)) s = .next (s.but { c with
        codecs := c.codecs.set l { k with output := none, buf := { k.buf with under := true } }
        chans := c.chans.set i { c.chans[i] with slips := min 65535 (c.chans[i].slips + 1) }
        link := c.link.post l.castSucc .channelSlip ([b1 i.val, c.chans[i].dir.code] ++ c.chans[i].path.code
          ++ be2 (min 65535 (c.chans[i].slips + 1))) }))

/-- The store and the link once one channel fewer is bound to the object `o` of slot `i` (R14): a DOOMED object is freed at its last unbind, and
its chain goes back to the stack. -/
abbrev Sys2Proof.Machine.Chip.unused (c : Chip) (i : SlotNo) (o : Obj) : Chip :=
  let free := o.chain.reverse ++ c.store.free
  if o.state = .doomed ∧ o.users = 1 then { c with
    store := { c.store with
      slots := c.store.slots.set i { c.store.slots[i] with obj := none }, free := free
      low := if o.chain = [] then c.store.low else decide (free.length < c.lowMark) }
    link := if o.chain ≠ [] ∧ free.length < c.lowMark ∧ c.store.low = false then
        c.link.post 4 .storeLow (be2 free.length ++ be2 c.lowMark)
      else c.link }
  else { c with store := { c.store with
    slots := c.store.slots.set i { c.store.slots[i] with obj := some { o with users := o.users - 1 } } } }

/-- Channel `x` plays the object `o`, CLOSED or since DOOMED, on the codec path of line `l`. -/
abbrev Sys2Proof.Machine.Chip.PlaysOn (c : Chip) (l : LineNo) (x : ChanNo) (o : Obj) : Prop :=
  c.chans[x].state = .running ∧ c.chans[x].path = .codec l ∧ c.chans[x].dir = .toPath ∧
    c.store.slots[c.chans[x].slot].obj = some o ∧ (o.state = .closed ∨ o.state = .doomed) ∧ 1 ≤ o.users

/-- The part once such a channel has been unbound with end cause `cause` (R30, R33, R34, R86): its path is silent, and its slips are counted
for the line. -/
abbrev Sys2Proof.Machine.Chip.quiets (c : Chip) (l : LineNo) (x : ChanNo) (o : Obj) (cause : EndCause) : Chip :=
  let ch := c.chans[x]
  { c.unused ch.slot o with
    port := if c.port.holder = some (.chan x) then { c.port with holder := none } else c.port
    chans := c.chans.set x { ch with state := .free, endCause := cause, draining := false }
    codecs := c.codecs.set l { c.codecs[l] with
      buf := { c.codecs[l].buf with toBuf := [], under := false }, half := none, output := none }
    calls := c.calls.set l { c.calls[l] with codecSlips := min 65535 (c.calls[l].codecSlips + ch.slips) } }

/-- The part once such a channel has been stopped and unbound. -/
abbrev Sys2Proof.Machine.Chip.silenced (c : Chip) (l : LineNo) (x : ChanNo) (o : Obj) : Chip := c.quiets l x o .stopped

/-- PATH_DRAINED: a RUNNING channel of a codec path, with remaining count 0 and its buffer empty, ends TERMINAL and is unbound, and its slips
join the codec slips. For a Play the phase is NONE and the Play ends NORMAL; for voice mail the greeting has ended, and the record tone or
the closing tones follow, or a message has been played to its end in REVIEW: NEW becomes HEARD, with the new count of the mailbox whose list
names it, and the prompt tone plays. Before that nothing happens, nor on a path with no channel. The bytes of
the Play's result record are the model's layout (log 13); that the bytes played are sent modulo 2^32 is its choice (log 38). -/
def Obligations.PathDrained : Prop :=
  ∀ (s : State) (l : LineNo),
    let c := s.chip
    let q := c.seqs[l]
    (c.chanOn (.codec l) .toPath = none → exec (.pathDrained (.codec l)) s = .next s) ∧
    (c.chanOn (.engine l) .toPath = none → exec (.pathDrained (.engine l)) s = .next s) ∧
    (∀ i : ChanNo, c.chanOn (.engine l) .toPath = some i → c.chans[i].remaining ≠ 0 → exec (.pathDrained (.engine l)) s = .next s) ∧
    ∀ (i : ChanNo) (o : Obj), c.chanOn (.codec l) .toPath = some i →
      let ch := c.chans[i]
      let plays : Chip := c.quiets l i o .terminal
      let makes (c' : Chip) : Prop := exec (.pathDrained (.codec l)) s = .next (s.but c')
      (ch.state ≠ .running ∨ ch.remaining ≠ 0 ∨ c.codecs[l].buf.toBuf ≠ [] → exec (.pathDrained (.codec l)) s = .next s) ∧
      (c.PlaysOn l i o → ch.remaining = 0 → c.codecs[l].buf.toBuf = [] →
        (∀ g : Long, ch.owner = .callControl l → c.calls[l].long = some g → g.kind = .play → makes { plays with
          calls := c.calls.set l { plays.calls[l] with long := none, phase := .none }
          lines := c.lines.set l { c.lines[l] with lastFault := { c.lines[l].lastFault with valid := false } }
          link := { plays.link with
            reserved := plays.link.reserved - 1
            out := plays.link.out ++ [{
              kind := 2, line := b1 l.val, tag := g.tag, code := 0x35
              body := [0, 0] ++ be4 c.codecs[l].played ++ [b1 ch.repeatsDone] ++ be2 ch.slips ++ [flag (decide (o.state = .doomed))] }] } }) ∧
        (ch.owner = .voiceMail l → q.greetChan = some i → makes { plays with
          calls := c.calls.set l { plays.calls[l] with
            window := if c.calls[l].window = .greeting then .after else c.calls[l].window }
          seqs := c.seqs.set l { q with
            state := if q.greetingOnly then .closing else .tone, tone := if q.greetingOnly then .closing else .record
            greetChan := none, opening := .empty, prefixTimer := { run := false, ms := 0 }
            idleTimer := if q.greetingOnly then { run := false, ms := 0 } else q.idleTimer } }) ∧
        (∀ (caller : Caller) (n : LineNo) (st : MsgStatus), ch.owner = .voiceMail l → q.greetChan ≠ some i → q.playChan = some i →
          o.attr = .message caller n st →
          let prompts : Vector PlanSeq 4 := c.seqs.set l { q with playChan := none, tone := .prompt }
          (st ≠ .new ∨ o.state = .doomed → makes { plays with seqs := prompts }) ∧
          (∀ m : MailboxNo, st = .new → o.state = .closed → o.owner = .mailbox m →
            makes { c.quiets l i { o with attr := .message caller n .heard } .terminal with
              seqs := prompts
              mailboxes := c.mailboxes.set m { c.mailboxes[m] with
                newCount := if 16 * ch.slot.val + c.store.slots[ch.slot].gen.toNat ∈ c.mailboxes[m].list
                  then c.mailboxes[m].newCount - 1 else c.mailboxes[m].newCount } })))

/-! ## Line supervision and faults (03_line_supervision_and_faults.md) -/

/-- The line field of line `l`. -/
abbrev Sys2Proof.Machine.lineField (l : LineNo) : Byte := BitVec.ofNat 8 l.val

/-- GET_LINE_STATUS: the reply is NORMAL with the line status record as it stands, and nothing else changes, whatever runs on
the line (R60, 11.5). The model's choices: the record's 56 bytes hold no live call phase, as R60's list and 11.5 have it and R64 does not
(log 33), and a level's signed byte is in two's complement, which is DEDUCED (log 16). -/
def Obligations.GetLineStatus : Prop :=
  ∀ (s : State) (r : Request) (rest : List Request) (l : LineNo), Asked s r rest 0x20 (lineField l) [] →
    let n := s.chip.lines[l]
    let k := s.chip.calls[l]
    exec .getLineStatus s = .next (s.but (s.chip.repliedTo r rest ([0, 0, n.hook.code, if n.loopCurrent then 0 else 1,
        (match n.polarity with | .normal => 0 | .reversed => 1), if n.voltage then 0 else 1, n.burst.code, b1 n.ringCount]
      ++ Caller.code n.caller ++ [level n.noise, n.cond.code, n.latch.code] ++ n.settings.code ++ [b1 n.coolOff, b1 n.coolPending,
        flag n.lastFault.valid, n.lastFault.reason.code, n.lastFault.condition.code, n.lastFault.phase.code]
      ++ optHandle n.lastFault.handle ++ optPos n.lastFault.position
      ++ [k.state.code, (if k.state = .idle then 0xFF else opt1 (k.direction.map (·.num))),
        (if k.state = .idle ∨ k.state = .alerting then 0xFF else opt1 (k.purpose.map (·.num))),
        opt1 ((s.chip.engineFor l).map (·.val))]
      ++ match s.chip.engineFor l with
        | some e => s.chip.engines[e].quality.code s.chip.engines[e].rate
        | none => n.kept.code n.keptRate)))

/-- CLEAR_FAULTS: each named latch whose condition is absent is cleared; a named kind whose condition is present and a kind not
named keep their latches; the reply lists the latches after the request and the conditions present, and nothing else changes;
once no latch is set the line's indicator source is false; a bit beyond the four is REFUSED BAD_PARAM. -/
def Obligations.ClearFaults : Prop :=
  ∀ (s : State) (r : Request) (rest : List Request) (l : LineNo) (f : Byte), Asked s r rest 0x22 (lineField l) [f] →
    let n := s.chip.lines[l]
    let latch : FaultSet := {
      overcurrent := n.latch.overcurrent && !(f.getLsbD 0 && !n.cond.overcurrent)
      hot := n.latch.hot && !(f.getLsbD 1 && !n.cond.hot)
      critical := n.latch.critical && !(f.getLsbD 2 && !n.cond.critical)
      lineLost := n.latch.lineLost && !(f.getLsbD 3 && !n.cond.lineLost) }
    (f.toNat < 16 → exec .clearFaults s = .next (s.but { s.chip with
      lines := s.chip.lines.set l { n with latch := latch }
      link := s.chip.link.answered r rest [0, 0, latch.code, n.cond.code] })) ∧
    (latch = {} → ({ s.chip with lines := s.chip.lines.set l { n with latch := latch } } : Chip).source ⟨20 + l.val, by omega⟩ = false) ∧
    (16 ≤ f.toNat → exec .clearFaults s = .next (s.but (s.chip.repliedTo r rest [2, 3])))

/-- The patterns of a match have 1 to 16 digits; those of a range have one length, and the first is not above the second (R74). -/
abbrev Sys2Proof.Machine.Match.Fits : Match → Prop
  | .equal p => 1 ≤ p.length ∧ p.length ≤ 16
  | .starts p => 1 ≤ p.length ∧ p.length ≤ 16
  | .range lo hi =>
    1 ≤ lo.length ∧ lo.length ≤ 16 ∧ hi.length = lo.length ∧
      lo.foldl (fun n d => 10 * n + d.val) 0 ≤ hi.foldl (fun n d => 10 * n + d.val) 0
  | .withheld => True

/-- The lengths of the patterns fit their count bytes. -/
abbrev Sys2Proof.Machine.Match.Short : Match → Prop
  | .equal p => p.length ≤ 255
  | .starts p => p.length ≤ 255
  | .range lo hi => lo.length ≤ 255 ∧ hi.length ≤ 255
  | .withheld => True

/-- SET_LINE_SETTINGS, SET_ANSWER_PLAN, SET_SCREEN_ENTRY, SET_LINK_OPTIONS, SET_FAX_OPTIONS: every value in its range replaces
the settings whole and the reply is NORMAL with them (of a screen entry, NORMAL alone); a value out of range changes no setting.
Every mode and kind of a plan, every match and action of a screen entry, and every station identifier have their clause. The
bytes of a plan's mode and of a screen entry are the model's encodings (log 14). -/
def Obligations.SettingsReplacedWhole : Prop :=
  ∀ (s : State) (r : Request) (rest : List Request),
    let c := s.chip
    (∀ (l : LineNo) (a t m w n : Byte), Asked s r rest 0x21 (lineField l) [a, t, m, w, n] →
      let ok : Prop := a.toNat ≤ 1 ∧ (t = 1 ∨ t = 5 ∨ t = 10 ∨ t = 60) ∧ m.toNat ≤ 1 ∧ w.toNat ≤ 1 ∧ 1 ≤ n.toNat ∧ n.toNat ≤ 30
      (ok → exec .setLineSettings s = .next (s.but { c with
        lines := c.lines.set l { c.lines[l] with settings := {
          action := if a = 0 then .forceRelease else .hostOnly, coolOff := t.toNat
          method := if m = 0 then .tone else .pulse, dialWait := if w = 0 then .wait else .blind, limit := n.toNat } }
        link := c.link.answered r rest [0, 0, a, t, m, w, n] })) ∧
      (¬ ok → exec .setLineSettings s = .next (s.but (c.repliedTo r rest [2, 3])))) ∧
    (∀ (l : LineNo) (n k : Byte) (m : MailboxNo) (kind : PlanKind), 1 ≤ n.toNat → n.toNat ≤ 9 → kind.code = k →
      Asked s r rest 0x38 (lineField l) [1, n, k, BitVec.ofNat 8 m.val] → exec .setAnswerPlan s = .next (s.but { c with
        plans := c.plans.set l { auto := some n.toNat, kind := kind, mailbox := m }
        link := c.link.answered r rest [0, 0, 1, n, k, BitVec.ofNat 8 m.val] })) ∧
    (∀ (l : LineNo) (m : MailboxNo) (k : Byte) (kind : PlanKind), kind.code = k →
      Asked s r rest 0x38 (lineField l) [0, k, BitVec.ofNat 8 m.val] → exec .setAnswerPlan s = .next (s.but { c with
        plans := c.plans.set l { auto := none, kind := kind, mailbox := m }
        link := c.link.answered r rest [0, 0, 0, k, BitVec.ofNat 8 m.val] })) ∧
    (∀ (l : LineNo) (n k m : Byte), n = 0 ∨ 9 < n.toNat ∨ 3 < k.toNat ∨ 15 < m.toNat → Asked s r rest 0x38 (lineField l) [1, n, k, m] →
      exec .setAnswerPlan s = .next (s.but (c.repliedTo r rest [2, 3]))) ∧
    (∀ (l : LineNo) (k m : Byte), 3 < k.toNat ∨ 15 < m.toNat → Asked s r rest 0x38 (lineField l) [0, k, m] →
      exec .setAnswerPlan s = .next (s.but (c.repliedTo r rest [2, 3]))) ∧
    (∀ i : Fin 16, Asked s r rest 0x3A 0x0F [BitVec.ofNat 8 i.val, 0] → exec .setScreenEntry s = .next (s.but { c with
        screen := c.screen.set i none, link := c.link.answered r rest [0, 0] })) ∧
    (∀ (i : Fin 16) (p : Match) (a : Action), p.Fits → Asked s r rest 0x3A 0x0F (BitVec.ofNat 8 i.val :: matchBytes p ++ actionBytes a) →
      exec .setScreenEntry s = .next (s.but { c with
        screen := c.screen.set i (some { pat := p, action := a }), link := c.link.answered r rest [0, 0] })) ∧
    (∀ (i : Fin 16) (p : Match) (a : Action), ¬ p.Fits → p.Short → Asked s r rest 0x3A 0x0F (BitVec.ofNat 8 i.val :: matchBytes p ++ actionBytes a) →
      exec .setScreenEntry s = .next (s.but (c.repliedTo r rest [2, 3]))) ∧
    (∀ (i m : Byte) (p : Match), p.Fits → 15 < m.toNat → Asked s r rest 0x3A 0x0F (i :: matchBytes p ++ [1, m]) →
      exec .setScreenEntry s = .next (s.but (c.repliedTo r rest [2, 3]))) ∧
    (∀ i : Byte, 15 < i.toNat → Asked s r rest 0x3A 0x0F [i, 0] →
      exec .setScreenEntry s = .next (s.but (c.repliedTo r rest [2, 3]))) ∧
    (∀ w t n p : Byte, Asked s r rest 0x40 0x0F [w, t, n, p] →
      let ok : Prop := 1 ≤ w.toNat ∧ w.toNat ≤ 7 ∧ 1 ≤ t.toNat ∧ t.toNat ≤ 10 ∧ 1 ≤ n.toNat ∧ n.toNat ≤ 15 ∧ p.toNat ≤ 1
      (ok → exec .setLinkOptions s = .next (s.but { c with
        linkOpts := { window := w.toNat, t1 := t.toNat, n2 := n.toNat, plainAllowed := decide (p = 1) }
        link := c.link.answered r rest [0, 0, w, t, n, p] })) ∧
      (¬ ok → exec .setLinkOptions s = .next (s.but (c.repliedTo r rest [2, 3])))) ∧
    (∀ (a b q k : Byte) (ident : List Byte), ident.length ≤ 250 → Asked s r rest 0x48 0x0F ([a, b, q, k, b1 ident.length] ++ ident) →
      let ok : Prop := a.toNat ≤ 1 ∧ b.toNat ≤ 1 ∧ q.toNat ≤ 32 ∧ k.toNat ≤ 1 ∧ ident.length ≤ 20 ∧
        ∀ x ∈ ident, x = 0x20 ∨ x = 0x2B ∨ (0x30 ≤ x.toNat ∧ x.toNat ≤ 0x39)
      (ok → exec .setFaxOptions s = .next (s.but { c with
        faxOpts := {
          sectioned := decide (a = 1), fine := decide (b = 1), limit := q.toNat, goOn := decide (k = 1)
          ident := if ident = [] then none else some ident }
        link := c.link.answered r rest ([0, 0, a, b, q, k, b1 ident.length] ++ ident) })) ∧
      (¬ ok → exec .setFaxOptions s = .next (s.but (c.repliedTo r rest [2, 3]))))

/-- A voice call that holds nothing but its line, which is OFF_HOOK: no engine, plan sequence, fax job, recording or channel, and no Line
Reset running; the long request in execution, if any, is its Dial or Answer. -/
abbrev Sys2Proof.Machine.Chip.Bare (c : Chip) (l : LineNo) : Prop :=
  c.calls[l].purpose = some .voice ∧ c.calls[l].engine = none ∧ c.seqs[l].state = .none ∧ c.fax[l] = none ∧
    c.calls[l].record = none ∧ (∀ i : ChanNo, c.chans[i].state = .free ∨ c.chans[i].owner.line ≠ some l) ∧
    c.lines[l].resetTag = none ∧ c.lines[l].hook = .offHook ∧
    ∀ g ∈ c.calls[l].long, (g.kind = .dial ∨ g.kind = .answer) ∧ g.handle = none

/-- The call-ended record of 11.5, byte by byte (R87): the cause, NONE where there is none; direction (0 OUTGOING, 1 INCOMING), purpose (0
VOICE, 1 DATA, 2 FAX), control (0 HOST, 1 PLAN) and mailbox, FFh where absent; off-hook and connected time; final rate, 0 for NONE; bytes
sent and received; pages; frames resent; rate changes; fax missed; the codec's and the engine's slips. -/
def Sys2Proof.Machine.callEndedBytes (k : Call) : List Byte :=
  [match k.cause with | some x => x.code | none => 0,
    match k.direction with | some .outgoing => 0 | some .incoming => 1 | none => 0xFF,
    match k.purpose with | some .voice => 0 | some .data => 1 | some .fax => 2 | none => 0xFF,
    match k.control with | .host => 0 | .plan => 1,
    match k.mailbox with | some m => b1 m.val | none => 0xFF,
    b1 (k.offHook / 256), b1 k.offHook, b1 (k.connected / 256), b1 k.connected,
    match k.finalRate with | some r => b1 (r.val + 1) | none => 0,
    b1 (k.bytesSent / 16777216), b1 (k.bytesSent / 65536), b1 (k.bytesSent / 256), b1 k.bytesSent,
    b1 (k.bytesRecv / 16777216), b1 (k.bytesRecv / 65536), b1 (k.bytesRecv / 256), b1 k.bytesRecv,
    b1 k.pagesSent, b1 k.pagesRecv, b1 (k.resent / 256), b1 k.resent, b1 k.changes, if k.faxMissed then 1 else 0,
    b1 (k.codecSlips / 256), b1 k.codecSlips, b1 (k.engineSlips / 256), b1 k.engineSlips]

/-- LINE_RESET from IDLE or ALERTING, where no long request is in execution: the record enters RELEASING at once with cause
LINE_RESET, the line's pending event set is emptied, each latch whose condition is absent is cleared, and the reply waits;
from COOLING the cool-off is stopped as well. From SEIZED to CONNECTED, here on a voice call that holds nothing but its line, the long
request in execution is first answered ABRUPT LINE_RESET with Last Fault written; the call is then torn down, the hook goes ON_HOOK, the
set is emptied, the latches are cleared, and CALL_ENDED with cause LINE_RESET is posted after that; no cool-off begins, and Line Reset's own
reply waits. In RELEASING with the hook ON_HOOK the guard runs on and the cause recorded stands; in RELEASING with a detach that waits,
O49 and O54 say how the wait ends. While a Line Reset already runs it is REFUSED BUSY. RELEASE_GUARD_EXPIRY then
brings the record to IDLE with its fields cleared, and the reply is NORMAL with the latches still set; without a Line Reset
the record alone changes. The byte of latches in the reply is encoded as 11.2 numbers the conditions. OVERCURRENT is present only within
the forced release that it starts (R55), so that a call in these states does not have it. The LINE_LOST timer at ON_HOOK is logs 19 and 5. -/
def Obligations.LineResetAndGuard : Prop :=
  ∀ (s : State) (l : LineNo),
    let c := s.chip
    let n := c.lines[l]
    let k := c.calls[l]
    let kept : FaultSet := {
      overcurrent := n.latch.overcurrent && n.cond.overcurrent, hot := n.latch.hot && n.cond.hot
      critical := n.latch.critical && n.cond.critical, lineLost := n.latch.lineLost && n.cond.lineLost }
    (∀ (r : Request) (rest : List Request), Asked s r rest 0x23 (lineField l) [] →
      (n.resetTag = none → k.long = none → k.record = none →
        (k.state = .idle ∨ k.state = .alerting →
          exec .lineReset s = .next (s.but { c with
            calls := c.calls.set l { k with state := .releasing, phase := .releasing, cause := some .lineReset, forced := false }
            lines := c.lines.set l { n with resetTag := some r.tag, latch := kept }
            link := { c.link with inq := rest, sets := c.link.sets.set l.castSucc [] } })) ∧
        (k.state = .cooling →
          exec .lineReset s = .next (s.but { c with
            calls := c.calls.set l { k with state := .releasing, phase := .releasing, cause := some .lineReset, forced := false }
            lines := c.lines.set l { n with resetTag := some r.tag, latch := kept, coolOff := 0 }
            link := { c.link with inq := rest, sets := c.link.sets.set l.castSucc [] } })) ∧
        (k.state = .releasing → n.hook = .onHook →
          exec .lineReset s = .next (s.but { c with
            lines := c.lines.set l { n with resetTag := some r.tag, latch := kept }
            link := { c.link with inq := rest, sets := c.link.sets.set l.castSucc [] } }))) ∧
      (k.state = .seized ∨ k.state = .dialling ∨ k.state = .awaitingAnswer ∨ k.state = .answering ∨ k.state = .connected →
        c.Bare l → n.cond.overcurrent = false →
        let ended : Call := { k with
          state := .releasing, phase := .releasing, prevPhase := k.phase, cause := some .lineReset, forced := false, faultCond := {}
          step := .none, long := none, job := .none, window := .closed }
        let replied : Link := match k.long with
          | none => { c.link with inq := rest }
          | some g => { c.link with
              inq := rest, reserved := c.link.reserved - 1
              out := c.link.out ++ [{ kind := 2, line := b1 l.val, tag := g.tag, code := g.kind.code, body := [1, 0x1C] }] }
        exec .lineReset s = .next (s.but { c with
          calls := c.calls.set l ended
          lines := c.lines.set l { n with
            hook := .onHook, ringCount := 0, caller := .absent, loopCurrent := false, pulse := none
            lostTimer := if n.voltage then { run := false, ms := 0 } else { run := true, ms := 2000 }
            resetTag := some r.tag, latch := kept
            lastFault := if k.long.isSome then
                { valid := true, reason := .lineReset, condition := {}, phase := k.phase, handle := none, position := none }
              else n.lastFault }
          link := { replied with sets := replied.sets.set l.castSucc [] }.post l.castSucc .callEnded (callEndedBytes ended) })) ∧
      (n.resetTag ≠ none → exec .lineReset s = .next (s.but (c.repliedTo r rest [2, 1])))) ∧
    (c.ready = true → k.state = .releasing → k.forced = false → n.hook = .onHook →
      (n.resetTag = none → exec (.releaseGuardExpiry l) s = .next (s.but { c with calls := c.calls.set l {} })) ∧
      (∀ tag : Byte, n.resetTag = some tag → exec (.releaseGuardExpiry l) s = .next (s.but { c with
        calls := c.calls.set l {}
        lines := c.lines.set l { n with resetTag := none, lastFault := { n.lastFault with valid := false } }
        link := { c.link with
          reserved := c.link.reserved - 1
          out := c.link.out ++ [{ kind := 2, line := b1 l.val, tag := tag, code := 0x23, body := [0, 0, n.latch.code] }] } })))

/-- LINE_VOLTAGE_CHANGE and LINE_LOST_TIMER_EXPIRY on hook: an absence starts the 2 s timer; its expiry marks LINE_LOST present,
sets its latch and posts FAULT with action NONE; the voltage's return stops the timer and makes a present LINE_LOST go with
FAULT_GONE, its latch kept. Off hook neither does anything. QUIET_WINDOW_END off hook with no engine's signal on the line (none serves it,
or it is CLAIMED only): at or below the floor, or above it by 10 dB or less, the floor takes the window's level, held within -60 and
-10; a rise of more than 10 dB leaves it. A line that is on hook, or served by an engine TRAINING, RUNNING or RETRAINING, has no quiet
window (R100). The model's choices: the 2 s timer is kept as 2000 ms whose
expiry is a command (logs 5 and 6), a window's level is given in tenths of a dB and halves round upward (log 16), the last 64
floors are kept for the cadence in progress (log 35), and the detail of FAULT is log 13. -/
def Obligations.LineVoltageAndNoise : Prop :=
  (∀ (s : State) (l : LineNo), s.chip.ready = true →
      let c := s.chip
      let n := c.lines[l]
      (n.hook = .offHook → ∀ v : Bool, exec (.lineVoltageChange l v) s = .next s ∧ exec (.lineLostTimerExpiry l) s = .next s) ∧
      (n.hook = .onHook →
        (n.voltage = true → exec (.lineVoltageChange l false) s = .next (s.but { c with
          lines := c.lines.set l { n with voltage := false, lostTimer := { run := true, ms := 2000 } } })) ∧
        (n.cond.lineLost = false → exec (.lineVoltageChange l true) s = .next (s.but { c with
          lines := c.lines.set l { n with voltage := true, lostTimer := { run := false, ms := 0 } } })) ∧
        (n.cond.lineLost = true → exec (.lineVoltageChange l true) s = .next (s.but { c with
          lines := c.lines.set l { n with
            voltage := true, lostTimer := { run := false, ms := 0 }, cond := { n.cond with lineLost := false } }
          link := c.link.post l.castSucc .faultGone [3, flag n.latch.lineLost] })) ∧
        (n.lostTimer.run = true → n.cond.lineLost = false → exec (.lineLostTimerExpiry l) s = .next (s.but { c with
          lines := c.lines.set l { n with
            lostTimer := { run := false, ms := 0 }, cond := { n.cond with lineLost := true }
            latch := { n.latch with lineLost := true } }
          link := c.link.post l.castSucc .fault [3, 1, 0xFF] })))) ∧
  ∀ (s : State) (l : LineNo) (dbm : Int), s.chip.ready = true →
    let c := s.chip
    let n := c.lines[l]
    (n.hook = .offHook → (∀ e : EngineNo, c.engines[e].line = l → c.engines[e].state = .free ∨ c.engines[e].state = .claimed) →
      let floors := (n.noise :: n.floors).take 64
      (dbm ≤ n.noise + 10 → exec (.quietWindowEnd l (10 * dbm)) s = .next (s.but { c with
        lines := c.lines.set l { n with noise := if dbm < -60 then -60 else if -10 < dbm then -10 else dbm, floors := floors } })) ∧
      (n.noise + 10 < dbm → exec (.quietWindowEnd l (10 * dbm)) s = .next (s.but { c with
        lines := c.lines.set l { n with floors := floors } }))) ∧
    (n.hook = .onHook ∨ (∃ e : EngineNo, c.engines[e].line = l ∧
        (c.engines[e].state = .training ∨ c.engines[e].state = .running ∨ c.engines[e].state = .retraining) ∧
        ∀ d : EngineNo, d ≠ e → c.engines[d].state = .free ∨ c.engines[d].line ≠ l) → exec (.quietWindowEnd l (10 * dbm)) s = .next s)

/-- Line `n` just seized: OFF_HOOK, with ring detection, the caller-number window and line-voltage sensing stopped (R45, R51). -/
abbrev Sys2Proof.Machine.Line.taken (n : Line) : Line :=
  { n with
    hook := .offHook, burst := .quiet, abandon := { run := false, ms := 0 }, window := false
    lostTimer := { run := false, ms := 0 }, ringTaken := false, loopSeen := false, absentTold := false, pulse := none }

/-- The line is usable: no LINE_LOST, and no CRITICAL under FORCE_RELEASE (R57). -/
abbrev Sys2Proof.Machine.Line.canSeize (n : Line) : Prop :=
  n.cond.lineLost = false ∧ (n.cond.critical = false ∨ n.settings.action = .hostOnly)

/-- Engine `e` is the first FREE one, and no engine serves the line (R90). -/
abbrev Sys2Proof.Machine.Chip.Claimable (c : Chip) (l : LineNo) (e : EngineNo) : Prop :=
  c.engines[e].state = .free ∧ (∀ d : EngineNo, d < e → c.engines[d].state ≠ .free) ∧
    ∀ d : EngineNo, c.engines[d].state = .free ∨ c.engines[d].line ≠ l

/-- The engine record at the claim (R90, R98). -/
abbrev Sys2Proof.Machine.claimed (l : LineNo) (p : Purpose) (noise : Int) : Engine :=
  { state := .claimed, line := l, purpose := p, quality := { cls := 0, noise := noise, good := 0, bad := 0, changes := 0 } }

/-- Slots `i` and `j` are the two lowest FREE ones, and eight blocks are free (R20). -/
abbrev Sys2Proof.Machine.Store.PairFree (st : Store) (i j : SlotNo) : Prop :=
  st.LowestFree i ∧ i < j ∧ st.slots[j].obj = none ∧ (∀ k : SlotNo, i < k → k < j → st.slots[k].obj ≠ none) ∧ 8 ≤ st.free.length

/-- Fewer than two slots are FREE (R20). -/
abbrev Sys2Proof.Machine.Store.OneFree (st : Store) : Prop :=
  ∀ i j : SlotNo, st.slots[i].obj = none → st.slots[j].obj = none → i = j

/-- Two slots are FREE, but not eight blocks (R20). -/
abbrev Sys2Proof.Machine.Store.PairShort (st : Store) : Prop :=
  (∃ i j : SlotNo, i ≠ j ∧ st.slots[i].obj = none ∧ st.slots[j].obj = none) ∧ st.free.length < 8

/-- What a data call takes with engine `e` (R20, R90, R102): the claim, the data-ring pair over the first eight blocks of the stack, and a
READY session record on the side given, whose window in use is 1 by the model's choice (log 41). Channels, lines other than `l`, and DRAM
are as before. -/
abbrev Sys2Proof.Machine.Chip.TakesData (c t : Chip) (l : LineNo) (side : Side) (e : EngineNo) (i j : SlotNo) : Prop :=
  let ring (transmit : Bool) (bs : List Nat) : Slot :=
    { gen := c.store.slots[if transmit then i else j].gen
      obj := some { state := .openWrite, owner := .line l, chain := bs, length := 2048, users := 0, created := c.clock
                    attr := .ring transmit e } }
  t.engines = c.engines.set e (claimed l .data c.lines[l].noise) ∧
    t.units = c.units.set e {
      state := .ready, line := l, side := side, opts := c.linkOpts, portBound := true
      tx := { handle := 16 * i.val + c.store.slots[i].gen.toNat, slot := i, start := 0, held := 0, reserved := 0 }
      rx := { handle := 16 * j.val + c.store.slots[j].gen.toNat, slot := j, start := 0, held := 0, reserved := 0 } } ∧
    t.store.slots = (c.store.slots.set i (ring true (c.store.free.take 4))).set j (ring false ((c.store.free.drop 4).take 4)) ∧
    t.store.free = c.store.free.drop 8 ∧ t.store.dram = c.store.dram ∧ t.chans = c.chans ∧ t.clock = c.clock ∧
    t.fax = c.fax ∧ t.seqs = c.seqs ∧ t.mailboxes = c.mailboxes

/-- A caller number matches the pattern of a screen entry (R74). -/
def Sys2Proof.Machine.screens : Match → Caller → Bool
  | .equal p, .digits ds => decide (ds = p)
  | .starts p, .digits ds => decide (ds.take p.length = p)
  | .range lo hi, .digits ds => decide (ds.length = lo.length) && decide (lo ≤ ds) && decide (ds ≤ hi)
  | .withheld, .digits _ => false
  | .withheld, _ => true
  | _, _ => false

/-- The screen list gives the caller number `x` action `a` (R74): that of the first entry which matches, and PASS where none does. -/
abbrev Sys2Proof.Machine.Chip.Screens (c : Chip) (x : Caller) (a : Action) : Prop :=
  (∃ i : Fin 16, (∃ y ∈ c.screen[i], y.action = a ∧ screens y.pat x = true) ∧
    ∀ j : Fin 16, j < i → ∀ y ∈ c.screen[j], screens y.pat x = false) ∨
  (a = .pass ∧ ∀ j : Fin 16, ∀ y ∈ c.screen[j], screens y.pat x = false)

/-- The kind and the mailbox with which action `a` answers under plan `p` (R74, R75). -/
abbrev Sys2Proof.Machine.Action.plans (a : Action) (p : AnswerPlan) : PlanKind × MailboxNo :=
  match a with
  | .mailbox m => (.voiceMail, m)
  | .fax => (.fax, p.mailbox)
  | _ => (p.kind, p.mailbox)

/-- Line `n`, with call record `k`, after a counted ring (R49, R50, R51): in IDLE and ALERTING call control acts on it, and the screened
flag is from now on that of the sequence in progress (R49, R66). -/
abbrev Sys2Proof.Machine.Line.rung (n : Line) (k : Call) : Line :=
  { n with
    ringCount := min 255 (n.ringCount + 1), burst := .gap, abandon := { run := true, ms := 8000 }, window := decide (n.ringCount = 0)
    ringTaken := decide (k.state = .idle) || decide (k.state = .alerting) || n.ringTaken }

/-- The call record after a counted ring (R66): an IDLE one is ALERTING. -/
abbrev Sys2Proof.Machine.Call.rung (k : Call) : Call :=
  if k.state = .idle then { k with state := .alerting, direction := some .incoming, screened := false } else k

/-- RINGING_VOLTAGE_BEGIN, RINGING_VOLTAGE_END, CALLER_NUMBER_BURST, ABANDON_TIMER_EXPIRY on hook: a burst of 200 ms or more
is counted, starts the abandon timer afresh, opens the caller-number window after the first ring, brings an IDLE record to
ALERTING and posts RING; a shorter one is ignored; a good burst in the window sets the caller number; abandonment posts
RING_STOPPED, clears both and ends ALERTING. With an AUTO plan the ring that reaches its count screens the caller by the first
entry that fits (R75): REJECT marks the call and is final; any other action, or none, is carried out after the start checks of
R76, with a voice-mail fallback for a fax or data plan that finds no engine, no store or no slot, and ANSWER_FAILED where the
line or a channel is wanting. The model's choices: the abandon timer is kept in ms and its expiry is a command (log 6), a
ringing burst marks the line voltage present (log 19), the time at which it began is kept in seconds and its length comes with
its end (log 34), and a short burst leaves the caller-number window closed (log 33). RING and RING_STOPPED show the screened flag
that call control set for the sequence in progress: in RELEASING and COOLING it acts on no ring, and one begun there shows the flag
clear (R49). ANSWER_FAILED's first reason is FFh
where there is none (R184). The details of RING, RING_STOPPED and ANSWER_FAILED are encoded as log 13 says. The window in use
of a READY session, 1, is the model's choice (log 41). -/
def Obligations.Rings : Prop :=
  ∀ (s : State) (l : LineNo), s.chip.ready = true → s.chip.lines[l].hook = .onHook →
    let c := s.chip
    let n := c.lines[l]
    let k := c.calls[l]
    let plan := c.plans[l]
    let up := n.rung k
    let rings (ms : Nat) (c' : Chip) (n' : Line) (k' : Call) : Prop := exec (.ringingVoltageEnd l ms) s = .next (s.but { c' with
      lines := c.lines.set l n'
      calls := c.calls.set l k'
      link := c'.link.post l.castSucc .ring ([b1 up.ringCount] ++ Caller.code n.caller ++ [flag (n'.ringTaken && k'.screened)]) })
    (n.burst ≠ .burst → n.cond.lineLost = false → exec (.ringingVoltageBegin l) s = .next (s.but { c with
      lines := c.lines.set l { n with
        voltage := true, lostTimer := { run := false, ms := 0 }, burst := .burst, began := c.clock
        abandon := { n.abandon with run := false }, window := false } })) ∧
    (∀ ms : Nat, n.burst = .burst → 200 ≤ ms →
      (k.state = .idle ∨ k.state = .alerting) ∧ plan.auto = none ∨ k.state = .releasing ∨ k.state = .cooling → rings ms c up k.rung) ∧
    (∀ ms : Nat, n.burst = .burst → ms < 200 → exec (.ringingVoltageEnd l ms) s = .next (s.but { c with
      lines := c.lines.set l (if n.ringCount = 0 then { n with burst := .quiet, abandon := { run := false, ms := 0 } }
        else { n with burst := .gap, abandon := { n.abandon with run := true } }) })) ∧
    (∀ ds : List (Fin 10), n.window = true → ds ≠ [] →
      exec (.callerNumberBurst l (.number ds) true) s = .next (s.but { c with
        lines := c.lines.set l { n with caller := if ds.length ≤ 16 then .digits ds else n.caller } })) ∧
    (n.window = true → exec (.callerNumberBurst l .withheld true) s = .next (s.but { c with
      lines := c.lines.set l { n with caller := .withheld } })) ∧
    (n.window = true → exec (.callerNumberBurst l .unavailable true) s = .next (s.but { c with
      lines := c.lines.set l { n with caller := .unavailable } })) ∧
    (∀ x : BurstContent, n.window = false → exec (.callerNumberBurst l x true) s = .next s) ∧
    (∀ x : BurstContent, exec (.callerNumberBurst l x false) s = .next s) ∧
    (n.burst = .gap → n.abandon.run = true → n.resetTag = none → exec (.abandonTimerExpiry l) s = .next (s.but { c with
      lines := c.lines.set l { n with
        burst := .quiet, abandon := { run := false, ms := 0 }, window := false, ringCount := 0, ringTaken := false
        caller := .absent }
      calls := if k.state = .alerting then c.calls.set l {} else c.calls
      link := c.link.post l.castSucc .ringStopped ([b1 n.ringCount] ++ Caller.code n.caller
        ++ [flag (n.ringTaken && k.screened)]) })) ∧
    (∀ count ms : Nat, plan.auto = some count → n.burst = .burst → 200 ≤ ms → k.state = .idle ∨ k.state = .alerting →
      (up.ringCount < count ∨ k.rung.screened = true → rings ms c up k.rung) ∧
      (count ≤ up.ringCount → k.rung.screened = false → ∀ a : Action, c.Screens n.caller a →
        (a = .reject → rings ms c up { k.rung with screened := true }) ∧
        (a ≠ .reject →
          let kind := (a.plans plan).1
          let fails (first : Option Reason) (stop : Reason) : Prop := rings ms
            { c with link := c.link.post l.castSucc .answerFailed [kind.code, (first.map Reason.code).getD 0xFF, stop.code] } up k.rung
          let answering : Call := { k.rung with
            state := .answering, phase := .seize, direction := some .incoming, caller := n.caller, ringCount := up.ringCount
            control := .plan }
          let asVoice (kind : PlanKind) (m : MailboxNo) (first : Option Reason) : Prop :=
            ((∀ i : ChanNo, c.chans[i].state ≠ .free) → fails first .noChannel) ∧
            ((∃ i : ChanNo, c.chans[i].state = .free) →
              let m := if c.mailboxes[m].enabled = true then m else plan.mailbox
              let b := c.mailboxes[m]
              rings ms c up.taken { answering with
                purpose := some .voice, job := .plan, mailbox := some m, planKind := kind
                greetingOnly := !b.enabled || (decide (32 ≤ b.list.length + b.recordings) || decide (b.quota ≤ b.used) || c.store.low) })
          let fallsBack (first : Reason) : Prop := asVoice .voiceMail plan.mailbox (some first)
          (¬ n.canSeize → fails .none .lineFault) ∧
          (n.canSeize →
            (kind = .voiceMail ∨ kind = .discriminate → asVoice kind (a.plans plan).2 .none) ∧
            (kind = .fax ∨ kind = .data → (∀ e : EngineNo, c.engines[e].state ≠ .free) → fallsBack .noEngine) ∧
            (∀ e : EngineNo, c.Claimable l e →
              (kind = .fax →
                (c.store.free.length < c.faxReserve → fallsBack .noStore) ∧
                (c.faxReserve ≤ c.store.free.length → rings ms { c with engines := c.engines.set e (claimed l .fax n.noise) } up.taken
                  { answering with purpose := some .fax, job := .faxJob, engine := some e, planKind := .fax })) ∧
              (kind = .data →
                ((∀ i j : SlotNo, c.store.slots[i].obj = none → c.store.slots[j].obj = none → i = j) → fallsBack .noSlot) ∧
                (∀ i j : SlotNo, i ≠ j → c.store.slots[i].obj = none → c.store.slots[j].obj = none → c.store.free.length < 8 →
                  fallsBack .noStore) ∧
                (∀ i j : SlotNo, c.store.PairFree i j → ∃ t : State, exec (.ringingVoltageEnd l ms) s = .next t ∧ t.pending = s.pending ∧
                  c.TakesData t.chip l .answering e i j ∧ t.chip.lines = c.lines.set l up.taken ∧
                  t.chip.calls = c.calls.set l { answering with
                    purpose := some .data, job := .dataLink, engine := some e, planKind := .data })))))))

/-- DRIVER_TEMPERATURE_CHANGE, OVERCURRENT_SENSED, LOOP_CURRENT_FALLS, COOL_OFF_EXPIRY. Above 115 degrees HOT arises; above 135 CRITICAL as
well, with FAULT after FAULT, and under FORCE_RELEASE an IDLE record enters COOLING with cause LINE_FAULT and the settings' time; below 115
CRITICAL goes and below 105 HOT, each with FAULT_GONE and its latch kept. The phase NONE in COOLING is the model's choice (log 38).
OVERCURRENT_SENSED does nothing on hook, in a break of a pulse digit, or while the condition is present (that it arises else is stated with
the ends of calls); it goes when loop current falls. At a cool-off's expiry CRITICAL under FORCE_RELEASE restarts it, and otherwise the
record enters IDLE. The detail of FAULT is log 13, the numbers of the conditions in FAULT and FAULT_GONE are the model's choice (log 39),
and the expiry of a cool-off is a command whatever the count of seconds left (log 6). -/
def Obligations.Faults : Prop :=
  ∀ (s : State) (l : LineNo), s.chip.ready = true →
    let c := s.chip
    let n := c.lines[l]
    let at_ := l.castSucc
    (∀ t : Int, 115 < t → t ≤ 135 → n.cond.hot = false → exec (.driverTemperatureChange l t) s = .next (s.but { c with
      lines := c.lines.set l { n with cond := { n.cond with hot := true }, latch := { n.latch with hot := true } }
      link := c.link.post at_ .fault [1, 1, 0xFF] })) ∧
    (∀ t : Int, 135 < t → n.cond.hot = false → n.cond.critical = false → n.settings.action = .hostOnly →
      exec (.driverTemperatureChange l t) s = .next (s.but { c with
        lines := c.lines.set l { n with
          cond := { n.cond with hot := true, critical := true }, latch := { n.latch with hot := true, critical := true } }
        link := (c.link.post at_ .fault [1, 1, 0xFF]).post at_ .fault [2, 1, 0xFF] })) ∧
    (∀ t : Int, 135 < t → n.cond.hot = true → n.cond.critical = false → n.settings.action = .forceRelease →
      c.calls[l].state = .idle → exec (.driverTemperatureChange l t) s = .next (s.but { c with
        lines := c.lines.set l { n with
          cond := { n.cond with critical := true }, latch := { n.latch with critical := true }
          coolPending := n.settings.coolOff, coolOff := n.settings.coolOff }
        calls := c.calls.set l { c.calls[l] with
          state := .cooling, phase := .none, forced := true, cause := some .lineFault, faultCond := { critical := true }
          long := c.calls[l].long.map (fun g => { g with mark := some .lineFault }) }
        link := c.link.post at_ .fault [2, 0, b1 n.settings.coolOff] })) ∧
    (∀ t : Int, 105 ≤ t → t < 115 → n.cond.critical = true → exec (.driverTemperatureChange l t) s = .next (s.but { c with
      lines := c.lines.set l { n with cond := { n.cond with critical := false } }
      link := c.link.post at_ .faultGone [2, flag n.latch.critical] })) ∧
    (∀ t : Int, t < 105 → n.cond.critical = false → n.cond.hot = true →
      exec (.driverTemperatureChange l t) s = .next (s.but { c with
        lines := c.lines.set l { n with cond := { n.cond with hot := false } }
        link := c.link.post at_ .faultGone [1, flag n.latch.hot] })) ∧
    (∀ t : Int, 105 ≤ t → t ≤ 115 → n.cond.critical = false → exec (.driverTemperatureChange l t) s = .next s) ∧
    (n.hook = .onHook ∨ n.cond.overcurrent = true ∨ (∃ x : Nat, n.pulse = some { part := .brk, left := x }) →
      exec (.overcurrentSensed l) s = .next s) ∧
    (n.cond.overcurrent = true → exec (.loopCurrentFalls l) s = .next (s.but { c with
      lines := c.lines.set l { n with cond := { n.cond with overcurrent := false } }
      link := c.link.post at_ .faultGone [0, flag n.latch.overcurrent] })) ∧
    (c.calls[l].state = .cooling →
      (n.cond.critical = true → n.settings.action = .forceRelease → exec (.coolOffExpiry l) s = .next (s.but { c with
        lines := c.lines.set l { n with coolOff := n.settings.coolOff } })) ∧
      (n.cond.critical = false ∨ n.settings.action = .hostOnly → n.resetTag = none →
        exec (.coolOffExpiry l) s = .next (s.but { c with
          lines := c.lines.set l { n with coolOff := 0 }, calls := c.calls.set l {} })))

/-! ## Calls (04_calls_dialling_progress_and_answering.md) -/

/-- The dialling method in force after the characters `bs` of a dial string, begun with `m` (R68). -/
def Sys2Proof.Machine.methodAfter (m : DialMethod) (bs : List Byte) : DialMethod :=
  bs.foldl (fun m b => if b = 0x50 then .pulse else if b = 0x54 then .tone else m) m

/-- DIAL: the checks in order (BUSY, LINE_COOLING, LINE_FAULT, NOT_IDLE, BAD_PARAM, NO_ENGINE, and for DATA NO_SLOT and NO_STORE, the
claim then given back); then the line is seized with
the line settings' dialling fields copied, the record is SEIZED in phase SEIZE and the request in execution; a FAX or DATA
Dial claims the first FREE engine, and DATA creates the data-ring pair. A dial string is 1 to 32 digits, commas, W, P and T,
and * and # while the method in force is TONE (R68). The window in use
of a READY session, 1, is the model's choice (log 41). -/
def Obligations.Dial : Prop :=
  (∀ (m : DialMethod) (ds : List Byte), dialOk m ds = true ↔ 1 ≤ ds.length ∧ ds.length ≤ 32 ∧
    ∀ (pre post : List Byte) (b : Byte), ds = pre ++ b :: post →
      (0x30 ≤ b.toNat ∧ b.toNat ≤ 0x39) ∨ b = 0x2C ∨ b = 0x57 ∨ b = 0x50 ∨ b = 0x54 ∨
        ((b = 0x2A ∨ b = 0x23) ∧ methodAfter m pre = .tone)) ∧
  ∀ (s : State) (r : Request) (rest : List Request) (l : LineNo) (ds : List Byte),
    let c := s.chip
    let n := c.lines[l]
    let k := c.calls[l]
    let seized (p : Purpose) (pages : List Nat) (e : Option EngineNo) : Call := { k with
      state := .seized, phase := .seize, direction := some .outgoing, purpose := some p, dialString := ds
      method := n.settings.method, dialWait := n.settings.dialWait, limit := n.settings.limit, engine := e, pages := pages
      long := some { kind := .dial, tag := r.tag, handle := none, chan := none, mark := none } }
    let refused (x : Byte) : Prop := exec .dial s = .next (s.but (c.repliedTo r rest [2, x]))
    (Asked s r rest 0x30 (lineField l) (0 :: b1 ds.length :: ds) → ds.length ≤ 255 →
      (k.long ≠ none → refused 0x01) ∧
      (k.long = none → k.state = .cooling → refused 0x0D) ∧
      (k.long = none → k.state ≠ .cooling → ¬ n.canSeize → refused 0x0E) ∧
      (k.long = none → k.state ≠ .cooling → n.canSeize → k.state ≠ .idle → refused 0x0A) ∧
      (k.long = none → n.canSeize → k.state = .idle →
        (dialOk n.settings.method ds = false → refused 0x03) ∧
        (dialOk n.settings.method ds = true → exec .dial s = .next (s.but { c with
          link := { c.link with inq := rest }, calls := c.calls.set l (seized .voice [] none)
          lines := c.lines.set l n.taken })))) ∧
    (∀ pages : List Nat, pages.length ≤ 16 → (∀ h ∈ pages, h < 65536) →
      Asked s r rest 0x30 (lineField l) (2 :: b1 ds.length :: ds ++ b1 pages.length :: pages.flatMap be2) →
      dialOk n.settings.method ds = true → k.long = none → n.canSeize → k.state = .idle →
      (pages = [] → refused 0x03) ∧
      (pages ≠ [] → (∀ e : EngineNo, ¬ c.Claimable l e) → refused 0x09) ∧
      (pages ≠ [] → ∀ e : EngineNo, c.Claimable l e → exec .dial s = .next (s.but { c with
        link := { c.link with inq := rest }, calls := c.calls.set l (seized .fax pages (some e))
        lines := c.lines.set l n.taken, engines := c.engines.set e (claimed l .fax n.noise) }))) ∧
    (Asked s r rest 0x30 (lineField l) (1 :: b1 ds.length :: ds) → dialOk n.settings.method ds = true → k.long = none →
      n.canSeize → k.state = .idle →
      ((∀ e : EngineNo, ¬ c.Claimable l e) → refused 0x09) ∧
      (∀ e : EngineNo, c.Claimable l e → (c.store.OneFree → refused 0x06) ∧ (c.store.PairShort → refused 0x07)) ∧
      ∀ (e : EngineNo) (i j : SlotNo), c.Claimable l e → c.store.PairFree i j →
        ∃ t : State, exec .dial s = .next t ∧ t.pending = s.pending ∧ c.TakesData t.chip l .calling e i j ∧
          t.chip.calls = c.calls.set l (seized .data [] (some e)) ∧ t.chip.lines = c.lines.set l n.taken)

/-- ANSWER: the checks in order (BUSY, LINE_COOLING, LINE_FAULT, NOT_IDLE, BAD_PARAM, NO_ENGINE, and for DATA NO_SLOT and NO_STORE, the
claim then given back). In ALERTING the line is then seized, caller number and ring count are copied, the record is ANSWERING in phase SEIZE
and the request in execution; DATA and FAX take their engine; with PLAN the line's answer plan decides, here voice mail into its
mailbox with no screen entry in force, refused NO_CHANNEL where no channel is FREE. That PLAN takes the checks of the other purposes
first is the model's reading (log 28). The window in use
of a READY session, 1, is the model's choice (log 41). -/
def Obligations.Answer : Prop :=
  ∀ (s : State) (r : Request) (rest : List Request) (l : LineNo),
    let c := s.chip
    let n := c.lines[l]
    let k := c.calls[l]
    let answering (kind : LongKind) (p : Purpose) (control : Control) (e : Option EngineNo) : Call := { k with
      state := .answering, phase := .seize, direction := some .incoming, caller := n.caller, ringCount := n.ringCount
      control := control, purpose := some p, engine := e
      long := some { kind := kind, tag := r.tag, handle := none, chan := none, mark := none } }
    let refused (b x : Byte) : Prop := Asked s r rest 0x31 (lineField l) [b] → exec .answer s = .next (s.but (c.repliedTo r rest [2, x]))
    (∀ b : Byte,
      (k.long ≠ none → refused b 0x01) ∧
      (k.long = none → k.state = .cooling → refused b 0x0D) ∧
      (k.long = none → k.state ≠ .cooling → ¬ n.canSeize → refused b 0x0E) ∧
      (k.long = none → k.state ≠ .cooling → n.canSeize → k.state ≠ .alerting → refused b 0x0A)) ∧
    (k.long = none → n.canSeize → k.state = .alerting →
        (∀ b : Byte, 3 < b.toNat → refused b 0x03) ∧
        ((∀ e : EngineNo, ¬ c.Claimable l e) → refused 1 0x09 ∧ refused 2 0x09) ∧
        (∀ e : EngineNo, c.Claimable l e → (c.store.OneFree → refused 1 0x06) ∧ (c.store.PairShort → refused 1 0x07)) ∧
        ((∀ x : Fin 16, c.screen[x] = none) → c.plans[l].kind = .voiceMail → (∀ i : ChanNo, c.chans[i].state ≠ .free) → refused 3 0x08) ∧
        (Asked s r rest 0x31 (lineField l) [0] → exec .answer s = .next (s.but { c with
          link := { c.link with inq := rest }, calls := c.calls.set l (answering .answer .voice .host none)
          lines := c.lines.set l n.taken })) ∧
        (∀ e : EngineNo, c.Claimable l e → Asked s r rest 0x31 (lineField l) [2] → exec .answer s = .next (s.but { c with
          link := { c.link with inq := rest }, calls := c.calls.set l (answering .answer .fax .host (some e))
          lines := c.lines.set l n.taken, engines := c.engines.set e (claimed l .fax n.noise) })) ∧
        (∀ (e : EngineNo) (i j : SlotNo), c.Claimable l e → c.store.PairFree i j → Asked s r rest 0x31 (lineField l) [1] →
          ∃ t : State, exec .answer s = .next t ∧ t.pending = s.pending ∧ c.TakesData t.chip l .answering e i j ∧
            t.chip.calls = c.calls.set l (answering .answer .data .host (some e)) ∧ t.chip.lines = c.lines.set l n.taken) ∧
        (∀ m : MailboxNo, (∀ x : Fin 16, c.screen[x] = none) → c.plans[l].kind = .voiceMail → c.plans[l].mailbox = m →
          k.engine = none → (∃ i : ChanNo, c.chans[i].state = .free) → Asked s r rest 0x31 (lineField l) [3] →
          let b := c.mailboxes[m]
          exec .answer s = .next (s.but { c with
            link := { c.link with inq := rest }
            calls := c.calls.set l { answering .answerPlan .voice .plan none with
              job := .plan, mailbox := some m, planKind := .voiceMail
              greetingOnly := !b.enabled || (decide (32 ≤ b.list.length + b.recordings) || decide (b.quota ≤ b.used) || c.store.low) }
            lines := c.lines.set l n.taken })))

/-- The part after the teardown of a bare call that ends with `cause`, or by a forced release under condition `cond` (R86, R87): the long
request ends ABRUPT, with LINE_FAULT if forced; the line goes ON_HOOK, and OVERCURRENT with it; CALL_ENDED is posted last; the record is
RELEASING, or COOLING with the pending cool-off time, in phase NONE (the model's choice, log 38). At ON_HOOK the LINE_LOST timer starts if the
voltage was last known absent (log 19), at 2000 ms (log 5). OVERCURRENT has the number 0 in FAULT_GONE by the model's choice (log 39). -/
def Sys2Proof.Machine.Chip.tornDown (c : Chip) (l : LineNo) (cause : Reason) (forced : Bool) (cond : FaultSet) : Chip :=
  let n := c.lines[l]
  let k := c.calls[l]
  let reason : Reason := if forced then .lineFault else cause
  let ended : Call := { k with
    state := if forced then .cooling else .releasing, phase := if forced then .none else .releasing, prevPhase := k.phase
    cause := some cause, forced := forced, faultCond := cond, step := .none, long := none, job := .none, window := .closed }
  let replied : Link := match k.long with
    | none => c.link
    | some g => { c.link with
        reserved := c.link.reserved - 1
        out := c.link.out ++ [{ kind := 2, line := b1 l.val, tag := g.tag, code := g.kind.code, body := [1, reason.code] }] }
  let told := if n.cond.overcurrent then replied.post l.castSucc .faultGone [0, flag n.latch.overcurrent] else replied
  { c with
    calls := c.calls.set l ended
    lines := c.lines.set l { n with
      hook := .onHook, ringCount := 0, caller := .absent, loopCurrent := false, pulse := none
      lostTimer := if n.voltage then { run := false, ms := 0 } else { run := true, ms := 2000 }
      cond := { n.cond with overcurrent := false }
      coolOff := if forced then n.coolPending else n.coolOff
      lastFault := if k.long.isSome then
          { valid := true, reason := reason, condition := if forced then cond else {}, phase := k.phase, handle := none
            position := none }
        else n.lastFault }
    link := told.post l.castSucc .callEnded ended.endedRecord }

/-- HANG_UP answers what it finds: NO_CALL, DECLINED with the call marked screened, ALREADY_RELEASING; on a bare call,
whatever it was doing, the teardown with cause HUNG_UP and then RELEASING_STARTED; on a LINKED data call, CLOSE sent and the
release begun. Where the call holds a long request, the order of the replies is log 21; the LINE_LOST timer at ON_HOOK is logs
19 and 5; the condition's number in FAULT_GONE is log 39. -/
def Obligations.HangUp : Prop :=
  ∀ (s : State) (r : Request) (rest : List Request) (l : LineNo), Asked s r rest 0x32 (lineField l) [] →
    let c := s.chip
    let k := c.calls[l]
    let found : Chip := { c with link := { c.link with inq := rest } }
    let ended := found.tornDown l .hungUp false {}
    (k.state = .idle → exec .hangUp s = .next (s.but (c.repliedTo r rest [0, 0, 0]))) ∧
    (k.state = .alerting → exec .hangUp s = .next (s.but
      ({ c with calls := c.calls.set l { k with screened := true } }.repliedTo r rest [0, 0, 1]))) ∧
    (k.state = .releasing ∨ k.state = .cooling → exec .hangUp s = .next (s.but (c.repliedTo r rest [0, 0, 3]))) ∧
    (k.state = .seized ∨ k.state = .dialling ∨ k.state = .awaitingAnswer ∨ k.state = .answering ∨ k.state = .connected →
      c.Bare l → exec .hangUp s = .next (s.but { ended with link := { ended.link with
        reserved := ended.link.reserved - 1, out := ended.link.out ++ [r.answer [0, 0, 2]] } })) ∧
    (∀ e : EngineNo, k.state = .connected → k.long = none → k.engine = some e → c.engines[e].state = .running → c.units[e].state = .linked →
      c.units[e].ctrl = [] → c.units[e].sounding = none → c.linkPort.work = none → exec .hangUp s = .next (s.but
        ({ c with
          calls := c.calls.set l { k with
            state := .releasing, phase := .releasing, prevPhase := k.phase, cause := some .hungUp, forced := false, faultCond := {}
            step := .none }
          units := c.units.set e { c.units[e] with
            state := .closing, cut := none, t1 := { run := false, ms := 0 }, rep := { run := false, ms := 0 }
            sounding := some .close, lastLine := some .close } }.repliedTo r rest [0, 0, 2])))

/-- The noise floor of line `n` so many quiet windows back; the floor now if so many have not been kept (log 35). -/
abbrev Sys2Proof.Machine.Line.floorAt (n : Line) (back : Nat) : Int := ((n.noise :: n.floors)[back]?).getD n.noise

/-- The tone unit hears a busy cycle of line `n` (R70): each part lasts 250 to 750 ms, and the level stands 10 dB above the noise floor as it
was at the start of the on-part. -/
abbrev Sys2Proof.Machine.Line.hearsBusy (n : Line) (y : ToneCycle) : Prop :=
  250 ≤ y.on ∧ y.on ≤ 750 ∧ 250 ≤ y.off.ms ∧ y.off.ms ≤ 750 ∧ n.floorAt y.off.windows + 10 ≤ y.level

/-- A connected voice call that line `l`'s plan holds, and nothing but its sequence with it (R153): OFF_HOOK, no engine, fax job or Record, no
long request in execution and no Line Reset running. -/
abbrev Sys2Proof.Machine.Chip.PlanCall (c : Chip) (l : LineNo) : Prop :=
  c.calls[l].state = .connected ∧ c.calls[l].purpose = some .voice ∧ c.calls[l].control = .plan ∧ c.calls[l].engine = none ∧
    c.calls[l].long = none ∧ c.calls[l].record = none ∧ c.fax[l] = none ∧ c.lines[l].resetTag = none ∧ c.lines[l].hook = .offHook ∧
    c.seqs[l].state ≠ .none

/-- Event `i` tells that the caller on line `l` has hung up (R160): LOOP_INTERRUPTION, or the tone of a cleared call, a dial tone or two busy
cycles each loud enough. `c'` is the part once the event is noted: after an interruption the loop current is absent. -/
abbrev Sys2Proof.Machine.Chip.HangsUp (c : Chip) (l : LineNo) (i : Instr) (c' : Chip) : Prop :=
  let n := c.lines[l]
  (i = .loopInterruption l ∧ n.loopSeen = true ∧ n.pulse = none ∧ n.absentTold = false ∧
    c' = { c with lines := c.lines.set l { n with loopCurrent := false, absentTold := true } }) ∨
  ((∃ level : Int, i = .remoteClearTone l (.dialTone level) ∧ n.noise + 10 ≤ level) ∧ c' = c) ∨
  ((∃ a b : ToneCycle, i = .remoteClearTone l (.cycles a b) ∧ n.hearsBusy a ∧ n.hearsBusy b) ∧ c' = c)

/-- The bytes of CALL_ENDED's record, 28 of them (11.5). The events that end a bare call: SEIZE_TIMEOUT with NO_LOOP, DIAL_TONE_TIMEOUT with
NO_DIAL_TONE, CONTINUOUS_TONE and the third busy PROGRESS_CYCLE with LINE_ENGAGED, PROGRESS_SILENCE_TIMEOUT and the ringback cycle at the
ringback limit with NO_ANSWER, LOOP_INTERRUPTION and REMOTE_CLEAR_TONE, of a dial tone or of two busy cycles each loud enough, with
REMOTE_CLEARED, OVERCURRENT_SENSED by a forced release with 1 s cool-off, FAULT first. On a plan call LOOP_INTERRUPTION and such a
REMOTE_CLEAR_TONE are the caller's hang-up (R160): in each state of the sequence its tone is cut or its playing channel stopped and unbound,
the sequence ends, and the call is released with cause NONE; a recording ends HANG_UP under the close rule, here in full where no byte of it
is buffered. A cycle's level is held against the noise floor at the start of its on-part, so many quiet windows back (log 35), and so is that
of each busy cycle of a clear tone, of which a host's call needs two as well (log 35). The reply's result record and FAULT's detail are
encoded as log 13 says, OVERCURRENT's number in FAULT and FAULT_GONE as log 39; the LINE_LOST timer at ON_HOOK is logs 19 and 5; the phase
NONE of a record in COOLING is log 38. -/
def Obligations.CallsEnd : Prop :=
  (∀ k : Call, k.endedRecord = callEndedBytes k ∧ (callEndedBytes k).length = 28) ∧
  (∀ (s : State) (l : LineNo), s.chip.ready = true → s.chip.Bare l →
    let c := s.chip
    let n := c.lines[l]
    let k := c.calls[l]
    let ends (i : Instr) (c : Chip) (cause : Reason) : Prop := exec i s = .next (s.but (c.tornDown l cause false {}))
    (k.state = .seized ∨ k.state = .answering → n.loopSeen = false → ends (.seizeTimeout l) c .noLoop) ∧
    (k.state = .seized ∨ k.state = .dialling → k.step = .dialTone → ends (.dialToneTimeout l) c .noDialTone) ∧
    (k.state = .awaitingAnswer →
      ends (.progressSilenceTimeout l) c .noAnswer ∧
      (∀ level : Int, n.noise + 10 ≤ level → ends (.continuousTone l level) c .lineEngaged) ∧
      (∀ (level : Int) (on off back : Nat), n.floorAt back + 10 ≤ level → 250 ≤ on → on ≤ 750 → 250 ≤ off → off ≤ 750 → k.busyRun = 2 →
        ends (.progressCycle l level (.single on) ⟨off, back⟩) { c with calls := c.calls.set l { k with busyRun := 3 } } .lineEngaged) ∧
      (∀ (level : Int) (on off back : Nat), n.floorAt back + 10 ≤ level → 700 ≤ on → on ≤ 2500 → 1500 ≤ off → off ≤ 5000 →
        k.limit = k.ringbacks + 1 → ends (.progressCycle l level (.single on) ⟨off, back⟩)
          { c with calls := c.calls.set l { k with busyRun := 0, ringbacks := k.ringbacks + 1 } } .noAnswer)) ∧
    (k.state = .awaitingAnswer ∨ (k.state = .connected ∧ k.control = .host) → n.loopSeen = true → n.pulse = none →
      n.absentTold = false → ends (.loopInterruption l)
        { c with lines := c.lines.set l { n with loopCurrent := false, absentTold := true } } .remoteCleared) ∧
    (k.state = .connected → k.control = .host →
      (∀ level : Int, n.noise + 10 ≤ level → ends (.remoteClearTone l (.dialTone level)) c .remoteCleared) ∧
      (∀ level : Int, level < n.noise + 10 → exec (.remoteClearTone l (.dialTone level)) s = .next s) ∧
      (∀ a b : ToneCycle, n.hearsBusy a → n.hearsBusy b → ends (.remoteClearTone l (.cycles a b)) c .remoteCleared) ∧
      (∀ a b : ToneCycle, ¬ n.hearsBusy a ∨ ¬ n.hearsBusy b → exec (.remoteClearTone l (.cycles a b)) s = .next s)) ∧
    (k.state = .seized ∨ k.state = .dialling ∨ k.state = .awaitingAnswer ∨ k.state = .answering ∨ k.state = .connected →
      n.cond.overcurrent = false → n.pulse = none → exec (.overcurrentSensed l) s = .next (s.but
        (Chip.tornDown { c with
          lines := c.lines.set l { n with
            cond := { n.cond with overcurrent := true }, latch := { n.latch with overcurrent := true }, coolPending := 1 }
          link := c.link.post l.castSucc .fault [0, 0, 1] } l .lineFault true { overcurrent := true })))) ∧
  ∀ (s : State) (l : LineNo) (i : Instr) (c : Chip), s.chip.ready = true → s.chip.PlanCall l → s.chip.HangsUp l i c →
    let q := c.seqs[l]
    let ends (c' : Chip) : Prop := exec i s = .next (s.but (Chip.tornDown { c' with seqs := c'.seqs.set l {} } l .none false {}))
    let others (y : ChanNo) : Prop := ∀ x : ChanNo, x ≠ y → c.chans[x].state = .free ∨ c.chans[x].owner.line ≠ some l
    (q.recording = none →
      (q.greetChan = none → q.playChan = none → (∀ x : ChanNo, c.chans[x].state = .free ∨ c.chans[x].owner.line ≠ some l) → ends c) ∧
      (∀ (y : ChanNo) (o : Obj), (q.greetChan = some y ∧ q.playChan = none) ∨ (q.greetChan = none ∧ q.playChan = some y) →
        c.PlaysOn l y o → others y → ends (c.silenced l y o))) ∧
    (∀ (x : Recording) (y : ChanNo), q.recording = some x → q.greetChan = none → q.playChan = none → x.chan = y →
      c.chans[y].state = .running → c.chans[y].owner = .voiceMail l → c.chans[y].path = .codec l → c.chans[y].dir = .fromPath →
      (∀ o : Obj, c.PlanRecords l x y o → c.chans[y].draining = false → c.codecs[l].buf.frm = [] → o.state = .openWrite → others y →
        ends (c.planSettles l x y o .stopped .hangUp)) ∧
      ∃ t : State, exec i s = .next t ∧ t.pending = s.pending ∧ t.chip.seqs[l] = {} ∧ t.chip.calls[l].state = .releasing ∧
        t.chip.calls[l].cause = some .none ∧ t.chip.lines[l].hook = .onHook ∧
        (∀ z : ChanNo, c.chans[z].owner.line = some l → t.chip.chans[z].state = .free) ∧
        t.chip.mailboxes[q.mailbox].recordings = c.mailboxes[q.mailbox].recordings - 1 ∧
        ∀ m : LineNo, m ≠ l → t.chip.lines[m] = c.lines[m])

/-- ABORT with nothing in execution, or in a phase it does not end, lists nothing; on a bare call's Dial in SEIZE, DIAL_TONE,
DIALLING or PROGRESS the call is torn down with cause ABORTED and the reply names the Dial; Send Digits ends ABRUPT ABORTED
with the digits sent and the call stays up; in phase FAX the session's abort is pending. TAKE_OVER answers ALREADY_HOST or
NOT_CONNECTED, and ends the plan of a connected voice call, here one whose greeting tone plays, with TAKEN; that the call
record keeps its mailbox is the model's choice (log 33). The list in the reply of Abort, a count and the codes of the requests
ended, is the model's layout (log 13); that Abort of a fax names the request that ends later is log 24 and log 26; the
LINE_LOST timer at ON_HOOK is logs 19 and 5; the condition's number in FAULT_GONE is log 39. -/
def Obligations.AbortAndTakeOver : Prop :=
  ∀ (s : State) (r : Request) (rest : List Request) (l : LineNo),
    let c := s.chip
    let k := c.calls[l]
    let found : Chip := { c with link := { c.link with inq := rest } }
    let named (c : Chip) (bs : List Byte) : Chip := { c with link := { c.link with
      reserved := c.link.reserved - 1, out := c.link.out ++ [r.answer bs] } }
    (Asked s r rest 0x33 (lineField l) [] →
      (k.long = none → exec .abort s = .next (s.but (c.repliedTo r rest [0, 0, 0]))) ∧
      (∀ g : Long, k.long = some g → g.kind = .dial →
        (k.phase = .training ∨ k.phase = .linkOpening ∨ k.phase = .releasing →
          exec .abort s = .next (s.but (c.repliedTo r rest [0, 0, 0]))) ∧
        (k.state = .seized ∨ k.state = .dialling ∨ k.state = .awaitingAnswer →
          k.phase = .seize ∨ k.phase = .dialTone ∨ k.phase = .dialling ∨ k.phase = .progress → c.Bare l →
          exec .abort s = .next (s.but (named (found.tornDown l .aborted false {}) [0, 0, 1, 0x30]))) ∧
        (∀ j : FaxJob, k.phase = .fax → c.fax[l] = some j → exec .abort s = .next (s.but
          ({ c with fax := c.fax.set l (some { j with abortPending := true }) }.repliedTo r rest [0, 0, 1, 0x30])))) ∧
      (∀ g : Long, k.long = some g → g.kind = .sendDigits → exec .abort s = .next (s.but (named { c with
        calls := c.calls.set l { k with phase := .none, step := .none, todo := [], long := none }
        lines := c.lines.set l { c.lines[l] with lastFault := {
          valid := true, reason := .aborted, condition := {}, phase := .sendingDigits, handle := none, position := none } }
        link := { c.link with
          inq := rest, reserved := c.link.reserved - 1
          out := c.link.out ++ [{
            kind := 2, line := b1 l.val, tag := g.tag, code := 0x37, body := [1, 0x0F, b1 k.digitsSent] }] } }
        [0, 0, 1, 0x37])))) ∧
    (Asked s r rest 0x34 (lineField l) [] →
      (k.state ≠ .connected ∨ k.purpose ≠ some .voice → exec .takeOver s = .next (s.but (c.repliedTo r rest [2, 0x0B]))) ∧
      (k.state = .connected → k.purpose = some .voice → k.control = .host →
        exec .takeOver s = .next (s.but (c.repliedTo r rest [0, 0, 1]))) ∧
      (k.state = .connected → k.purpose = some .voice → k.control = .plan → c.seqs[l].greetChan = none →
        c.seqs[l].playChan = none → c.seqs[l].recording = none → exec .takeOver s = .next (s.but ({ c with
          seqs := c.seqs.set l {}
          calls := c.calls.set l { k with
            job := .none, control := .host, phase := .none, digits := [], window := .closed } }.repliedTo r rest [0, 0, 0]))))

/-- A connected voice call under the host's control with no long request in execution (R80). -/
abbrev Sys2Proof.Machine.Call.HostVoice (k : Call) : Prop :=
  k.state = .connected ∧ k.purpose = some .voice ∧ k.control = .host ∧ k.long = none

/-- No channel holds path `p` in direction `d` (R27). -/
abbrev Sys2Proof.Machine.Chip.PathFree (c : Chip) (p : Path) (d : ChanDir) : Prop :=
  ∀ j : ChanNo, c.chans[j].state = .free ∨ c.chans[j].path ≠ p ∨ c.chans[j].dir ≠ d

/-- No channel but `i` holds path `p` in direction `d`. -/
abbrev Sys2Proof.Machine.Chip.PathFreeBut (c : Chip) (i : ChanNo) (p : Path) (d : ChanDir) : Prop :=
  ∀ j : ChanNo, j ≠ i → c.chans[j].state = .free ∨ c.chans[j].path ≠ p ∨ c.chans[j].dir ≠ d

/-- A codec path at the bind of a channel that will play (R35, R166), with the speed asked. -/
abbrev Sys2Proof.Machine.Codec.fresh (k : Codec) (speed : Nat) : Codec :=
  { k with
    buf := { k.buf with toBuf := [], under := false }, phase := 0, speed := speed, half := none, decoder := 0, output := none
    played := 0 }

/-- A RUNNING DEMAND channel on a codec path, over `count` bytes from position 0 (R27, R28). -/
abbrev Sys2Proof.Machine.codecChan (owner : ChanOwner) (i : SlotNo) (dir : ChanDir) (l : LineNo) (count repeats : Nat) : Chan :=
  { state := .running, owner := owner, slot := i, dir := dir, path := .codec l, basePos := 0, cur := 0, baseCount := count
    remaining := count, mode := .demand, repeats := repeats, repeatsDone := 0, slips := 0, endCause := .none, draining := false }

/-- The checks that Play, Record and Send Digits make first, in order (R80, R81, R82): a long request in execution is BUSY, a call that is not
CONNECTED VOICE NOT_CONNECTED, a plan's PLAN_ACTIVE. -/
abbrev Sys2Proof.Machine.Call.VoiceChecks (k : Call) (refused : Byte → Prop) : Prop :=
  (k.long ≠ none → refused 0x01) ∧ (k.long = none → k.state ≠ .connected ∨ k.purpose ≠ some .voice → refused 0x0B) ∧
    (k.long = none → k.state = .connected → k.purpose = some .voice → k.control = .plan → refused 0x0C)

/-- PLAY, RECORD and SEND_DIGITS on a connected voice call of the host: Play binds and starts a channel over the whole object
at the speed asked, Record creates a VOICE_CLIP of the line and a channel of 4000 bytes for each second, Send Digits begins
its first character; each is then in execution. The checks of each come in order: BUSY, NOT_CONNECTED, PLAN_ACTIVE; for Play STALE;
BAD_PARAM; for Record NO_SLOT; then for Play and Record NO_CHANNEL, or BUSY where a channel holds the codec path in the same
direction (R27). The string of Send Digits is 1 to 32 digits, *, # and commas (R82). The model's choices: Play's stale-handle check
comes where R80 puts it and not first, as R176 and R183 say (log 38), and a decoder begins each play in state 0 (log 11). -/
def Obligations.VoiceJobs : Prop :=
  (∀ bs : List Byte, sendOk bs = true ↔ 1 ≤ bs.length ∧ bs.length ≤ 32 ∧
    ∀ b ∈ bs, (0x30 ≤ b.toNat ∧ b.toNat ≤ 0x39) ∨ b = 0x2A ∨ b = 0x23 ∨ b = 0x2C) ∧
  ∀ (s : State) (r : Request) (rest : List Request) (l : LineNo),
    let c := s.chip
    let k := c.calls[l]
    let found : Link := { c.link with inq := rest }
    let refused (i : Instr) (x : Byte) : Prop := exec i s = .next (s.but (c.repliedTo r rest [2, x]))
    (∀ h1 h0 rep v : Byte, Asked s r rest 0x35 (lineField l) [h1, h0, rep, v] →
      let h := 256 * h1.toNat + h0.toNat
      k.VoiceChecks (refused .play) ∧
      (k.HostVoice →
        (c.store.Stale h → refused .play 0x05) ∧
        ∀ (i : SlotNo) (o : Obj), c.store.Names h i o →
          let good : Prop := o.state = .closed ∧ 0 < o.length ∧ (o.attr.kindCode = 0 ∨ o.attr.kindCode = 1) ∧ 8 ≤ v.toNat ∧ v.toNat ≤ 24
          (¬ good → refused .play 0x03) ∧
          (good → ¬ c.PathFree (.codec l) .toPath → refused .play 0x01) ∧
          (good → c.PathFree (.codec l) .toPath → (∀ j : ChanNo, c.chans[j].state ≠ .free) → refused .play 0x08) ∧
          (good → c.PathFree (.codec l) .toPath → ∀ ch : ChanNo, c.LowestFreeChan ch →
            exec .play s = .next (s.but { c with
              link := found
              store := { c.store with slots := c.store.slots.set i { c.store.slots[i] with obj := some { o with users := o.users + 1 } } }
              chans := c.chans.set ch (codecChan (.callControl l) i .toPath l o.length rep.toNat)
              codecs := c.codecs.set l (c.codecs[l].fresh v.toNat)
              calls := c.calls.set l { k with
                phase := .playing, long := some { kind := .play, tag := r.tag, handle := some h, chan := some ch, mark := none } } })))) ∧
    (∀ m1 m0 v : Byte, Asked s r rest 0x36 (lineField l) [m1, m0, v] → k.VoiceChecks (refused .record) ∧ (k.HostVoice →
      let m := 256 * m1.toNat + m0.toNat
      (m = 0 ∨ 300 < m ∨ v = 1 ∨ 10 < v.toNat → refused .record 0x03) ∧
      (1 ≤ m → m ≤ 300 → v = 0 ∨ (2 ≤ v.toNat ∧ v.toNat ≤ 10) →
        ((∀ j : SlotNo, c.store.slots[j].obj ≠ none) → refused .record 0x06) ∧
        ((∃ j : SlotNo, c.store.slots[j].obj = none) →
          (¬ c.PathFree (.codec l) .fromPath → refused .record 0x01) ∧
          (c.PathFree (.codec l) .fromPath → (∀ j : ChanNo, c.chans[j].state ≠ .free) → refused .record 0x08)) ∧
        (∀ (i : SlotNo) (ch : ChanNo), c.store.LowestFree i → c.PathFree (.codec l) .fromPath → c.LowestFreeChan ch →
          let h := 16 * i.val + c.store.slots[i].gen.toNat
          exec .record s = .next (s.but { c with
            link := found
            store := { c.store with slots := c.store.slots.set i { c.store.slots[i] with obj := some {
              state := .openWrite, owner := .line l, chain := [], length := 0, users := 1, created := c.clock, attr := .clip } } }
            chans := c.chans.set ch (codecChan (.callControl l) i .fromPath l (4000 * m) 0)
            codecs := c.codecs.set l { c.codecs[l] with buf := { c.codecs[l].buf with frm := [], overNow := false } }
            calls := c.calls.set l { k with
              phase := .recording, long := some { kind := .record, tag := r.tag, handle := some h, chan := some ch, mark := none }
              record := some { handle := h, slot := i, chan := ch, deleted := false, cause := none, maxLen := m
                               silenceEnd := v.toNat, det := {} } } }))))) ∧
    (∀ bs : List Byte, bs.length ≤ 255 → Asked s r rest 0x37 (lineField l) (b1 bs.length :: bs) → k.VoiceChecks (refused .sendDigits)) ∧
    (∀ (b : Byte) (more : List Byte), Asked s r rest 0x37 (lineField l) (b1 (more.length + 1) :: b :: more) → k.HostVoice →
      more.length ≤ 254 →
      (sendOk (b :: more) = false → refused .sendDigits 0x03) ∧
      (sendOk (b :: more) = true → exec .sendDigits s = .next (s.but { c with
        link := found
        calls := c.calls.set l { k with
          phase := .sendingDigits, digitsSent := 0, todo := more, step := if b = 0x2C then .comma else .digit
          long := some { kind := .sendDigits, tag := r.tag, handle := none, chan := none, mark := none } } })))

/-- An engine whose training starts: TRAINING, measuring, with the line's noise floor copied (R92) and the local maximum that this
measurement applies (R99). That the rate is NONE is log 33. -/
abbrev Sys2Proof.Machine.Engine.trains (g : Engine) (noise : Int) (localMax : Rate) : Engine :=
  { g with
    state := .training, rate := none, attempts := 0, dir := none, measuring := true, localMax := localMax, testRate := none, await := none, farLed := false
    loss := { run := false, ms := 0 }, quality := { g.quality with noise := noise } }

/-- A receiving fax job as it attaches, its CAPS sent and awaiting SET (R123, R127). -/
abbrev Sys2Proof.Machine.Chip.receivingJob (c : Chip) (e : EngineNo) (pages : List Nat) : FaxJob :=
  let m : FaxMsg := .caps c.localMax c.faxOpts.sectioned c.faxOpts.fine c.faxOpts.ident
  { role := .receive, engine := e, opts := c.faxOpts, pages := pages, sent := some m, wait := some m, sends := 1 }

/-- LOOP_PRESENT off hook: for the first time after the seize it fixes the polarity, and leads a SEIZED call on to its dial
tone or its fixed pause, an ANSWERING voice call to CONNECTED with the reply and then CALL_CONNECTED (their order is log 21),
a fax or data call to its job, and a plan to its greeting; again later it marks the current present; on hook nothing. The model's
choices: the first current sets the polarity at once, and a return of current keeps the old one (log 37); a plan's voice call is
in phase NONE, in both clauses of its greeting (log 36); the decoder begins the greeting's clip in state 0 (log 11). That an engine's
rate is NONE as its training starts is log 33. -/
def Obligations.LoopPresent : Prop :=
  ∀ (s : State) (l : LineNo) (p : Polarity), s.chip.ready = true →
    let c := s.chip
    let n := c.lines[l]
    let k := c.calls[l]
    let seen : Line := { n with loopCurrent := true, polarity := p, loopSeen := true, absentTold := false }
    let up : Call := { k with state := .connected, step := .none }
    (n.hook = .onHook → exec (.loopPresent l p) s = .next s) ∧
    (n.hook = .offHook → n.loopSeen = true → exec (.loopPresent l p) s = .next (s.but { c with
      lines := c.lines.set l { n with loopCurrent := true, absentTold := false } })) ∧
    (n.hook = .offHook → n.loopSeen = false →
      (k.state = .seized → k.dialWait = .wait → exec (.loopPresent l p) s = .next (s.but { c with
        lines := c.lines.set l seen, calls := c.calls.set l { k with phase := .dialTone, step := .dialTone } })) ∧
      (k.state = .seized → k.dialWait = .blind → exec (.loopPresent l p) s = .next (s.but { c with
        lines := c.lines.set l seen, calls := c.calls.set l { k with step := .blindPause } })) ∧
      (k.state = .answering → k.direction = some .incoming →
        (∀ g : Long, k.purpose = some .voice → k.control = .host → k.long = some g → g.kind = .answer →
          exec (.loopPresent l p) s = .next (s.but { c with
            lines := c.lines.set l { seen with lastFault := { n.lastFault with valid := false } }
            calls := c.calls.set l { up with phase := .none, long := none }
            link := ({ c.link with
              reserved := c.link.reserved - 1
              out := c.link.out ++ [{ kind := 2, line := b1 l.val, tag := g.tag, code := 0x31, body := [0, 0] }] } : Link).post
                l.castSucc .callConnected [1, 0, 0, 0] })) ∧
        (∀ e : EngineNo, k.purpose = some .fax → k.engine = some e → k.control = .plan → k.long = none →
          exec (.loopPresent l p) s = .next (s.but { c with
            lines := c.lines.set l seen, calls := c.calls.set l { up with phase := .fax, job := .faxJob }
            fax := c.fax.set l (some (c.receivingJob e k.pages))
            link := c.link.post l.castSucc .callConnected [1, 2, 1, 0] })) ∧
        (∀ e : EngineNo, k.purpose = some .data → k.engine = some e → c.engines[e].state = .claimed → c.engines[e].line = l →
          k.long.map (·.kind) ≠ some .answerPlan →
          exec (.loopPresent l p) s = .next (s.but { c with
            lines := c.lines.set l seen, calls := c.calls.set l { up with phase := .training }
            engines := c.engines.set e (c.engines[e].trains n.noise c.localMax) })) ∧
        (∀ m : MailboxNo, k.purpose = some .voice → k.control = .plan → k.mailbox = some m → k.long = none →
          let seq : PlanSeq := { state := .greeting, greetingOnly := k.greetingOnly, mailbox := m, caller := k.caller }
          let window : Window := if k.planKind = .discriminate then .greeting else .closed
          (c.mailboxes[m].greeting = none → exec (.loopPresent l p) s = .next (s.but { c with
            lines := c.lines.set l seen, calls := c.calls.set l { up with phase := .none, window := window }
            seqs := c.seqs.set l { seq with tone := .greeting }
            link := c.link.post l.castSucc .callConnected [1, 0, 1, 0] })) ∧
          (∀ (h : Nat) (i : SlotNo) (o : Obj) (ch : ChanNo), c.mailboxes[m].greeting = some h → c.store.Names h i o → o.state = .closed →
            o.attr = .clip → 0 < o.length → c.PathFree (.codec l) .toPath → c.LowestFreeChan ch →
            exec (.loopPresent l p) s = .next (s.but { c with
              lines := c.lines.set l seen, calls := c.calls.set l { up with phase := .none, window := window }
              seqs := c.seqs.set l { seq with greetChan := some ch }
              store := { c.store with slots := c.store.slots.set i { c.store.slots[i] with obj := some { o with users := o.users + 1 } } }
              chans := c.chans.set ch (codecChan (.voiceMail l) i .toPath l o.length 0)
              codecs := c.codecs.set l (c.codecs[l].fresh 16)
              link := c.link.post l.castSucc .callConnected [1, 0, 1, 0] })))))

/-- The call record and the line after the characters `bs` are taken up in DIALLING (R69): P and T change the method and send nothing, a
comma pauses, W waits for dial tone with the phase kept (log 36), a digit is sent by the method in force (* and # by tone), a pulse digit
opening the loop at once; after the last one the call awaits answer. -/
def Sys2Proof.Machine.dials : List Byte → Call → Line → Call × Line
  | [], k, n => ({ k with state := .awaitingAnswer, phase := .progress, step := .none, busyRun := 0, ringbacks := 0, todo := [] }, n)
  | b :: rest, k, n =>
    if b = 0x50 then dials rest { k with method := .pulse } n
    else if b = 0x54 then dials rest { k with method := .tone } n
    else if b = 0x2C then ({ k with step := .comma, todo := rest }, n)
    else if b = 0x57 then ({ k with step := .dialTone, todo := rest }, n)
    else if k.method = .pulse ∧ 48 ≤ b.toNat ∧ b.toNat ≤ 57 then
      ({ k with step := .pulse, todo := rest },
        { n with pulse := some { part := .brk, left := if b = 0x30 then 9 else b.toNat - 49 }, loopCurrent := false })
    else ({ k with step := .digit, todo := rest }, n)

/-- DIAL_TONE_HEARD and BLIND_PAUSE_END bring SEIZED to DIALLING; DIAL_TONE_HEARD in DIALLING, DTMF_DIGIT_DONE,
COMMA_PAUSE_END and the end of the pause of a pulse digit go on to the next character; PULSE_TIMING_EXPIRY steps through
breaks and makes, with loop current absent in a break; the last digit of Send Digits ends it NORMAL with the count sent. Dial
tone below noise floor + 10 dB does nothing. The model's choices: the end of each wait is a command, whatever time the model would count
(log 6), and a W in the dial string waits for dial tone with the phase kept DIALLING, where R69 names none (log 36). -/
def Obligations.DialSteps : Prop :=
  ∀ (s : State) (l : LineNo), s.chip.ready = true →
    let c := s.chip
    let n := c.lines[l]
    let k := c.calls[l]
    let goesOn (i : Instr) (bs : List Byte) (k : Call) (n : Line) : Prop := exec i s = .next (s.but { c with
      calls := c.calls.set l (dials bs k n).1, lines := c.lines.set l (dials bs k n).2 })
    (∀ level : Int, level < n.noise + 10 → exec (.dialToneHeard l level) s = .next s) ∧
    (∀ level : Int, n.noise + 10 ≤ level → k.step = .dialTone → k.state = .seized →
      goesOn (.dialToneHeard l level) k.dialString { k with state := .dialling, phase := .dialling } n) ∧
    (k.step = .blindPause → goesOn (.blindPauseEnd l) k.dialString { k with state := .dialling, phase := .dialling } n) ∧
    (k.phase = .dialling → k.state = .dialling →
      (∀ level : Int, n.noise + 10 ≤ level → k.step = .dialTone → goesOn (.dialToneHeard l level) k.todo k n) ∧
      (k.step = .digit → goesOn (.dtmfDigitDone l) k.todo k n) ∧
      (k.step = .comma → goesOn (.commaPauseEnd l) k.todo k n) ∧
      (n.pulse = some { part := .pause, left := 0 } → k.step = .pulse →
        goesOn (.pulseTimingExpiry l) k.todo k { n with pulse := none })) ∧
    (∀ x : Nat, n.pulse = some { part := .brk, left := x } → exec (.pulseTimingExpiry l) s = .next (s.but { c with
      lines := c.lines.set l { n with pulse := some { part := .make, left := x }, loopCurrent := !n.absentTold } })) ∧
    (∀ x : Nat, n.pulse = some { part := .make, left := x + 1 } → exec (.pulseTimingExpiry l) s = .next (s.but { c with
      lines := c.lines.set l { n with pulse := some { part := .brk, left := x }, loopCurrent := false } })) ∧
    (n.pulse = some { part := .make, left := 0 } → exec (.pulseTimingExpiry l) s = .next (s.but { c with
      lines := c.lines.set l { n with pulse := some { part := .pause, left := 0 } } })) ∧
    (k.phase = .sendingDigits → k.step = .digit →
      (∀ (b : Byte) (more : List Byte), k.todo = b :: more → b ≠ 0x50 → b ≠ 0x54 → b ≠ 0x57 →
        exec (.dtmfDigitDone l) s = .next (s.but { c with
          calls := c.calls.set l { k with
            digitsSent := k.digitsSent + 1, todo := more, step := if b = 0x2C then .comma else .digit } })) ∧
      (∀ g : Long, k.todo = [] → k.long = some g → g.kind = .sendDigits →
        exec (.dtmfDigitDone l) s = .next (s.but { c with
          calls := c.calls.set l { k with digitsSent := k.digitsSent + 1, phase := .none, step := .none, long := none }
          lines := c.lines.set l { n with lastFault := { n.lastFault with valid := false } }
          link := { c.link with
            reserved := c.link.reserved - 1
            out := c.link.out ++ [{
              kind := 2, line := b1 l.val, tag := g.tag, code := 0x37, body := [0, 0, b1 (k.digitsSent + 1)] }] } })))

/-- In AWAITING_ANSWER: ANSWER_TONE, SPEECH_ANSWER after a ringback and POLARITY_REVERSAL are the answer, after which a voice
Dial ends NORMAL and CALL_CONNECTED is posted, a data call trains and a fax call's job attaches; PROGRESS_CYCLE counts busy
cycles in a run, ringback cycles in all, and any other cycle ends the run; sound below noise floor + 10 dB counts for nothing,
for a cycle the floor at the start of its on-part, so many quiet windows back (log 35). The order of reply and CALL_CONNECTED
is log 21. -/
def Obligations.Answered : Prop :=
  ∀ (s : State) (l : LineNo), s.chip.ready = true → s.chip.calls[l].state = .awaitingAnswer → s.chip.calls[l].direction = some .outgoing →
    let c := s.chip
    let n := c.lines[l]
    let k := c.calls[l]
    let up : Call := { k with state := .connected, step := .none }
    let answers (i : Instr) (n : Line) : Prop :=
      (∀ g : Long, k.purpose = some .voice → k.long = some g → g.kind = .dial → exec i s = .next (s.but { c with
        lines := c.lines.set l { n with lastFault := { n.lastFault with valid := false } }
        calls := c.calls.set l { up with phase := .none, control := .host, long := none }
        link := ({ c.link with
          reserved := c.link.reserved - 1
          out := c.link.out ++ [{ kind := 2, line := b1 l.val, tag := g.tag, code := 0x30, body := [0, 0] }] } : Link).post
            l.castSucc .callConnected [0, 0, 0, 0] })) ∧
      (∀ e : EngineNo, k.engine = some e →
        (k.purpose = some .data → c.engines[e].state = .claimed → c.engines[e].line = l → exec i s = .next (s.but { c with
          lines := c.lines.set l n, calls := c.calls.set l { up with phase := .training }
          engines := c.engines.set e (c.engines[e].trains n.noise c.localMax) })) ∧
        (k.purpose = some .fax → k.control = .host → exec i s = .next (s.but { c with
          lines := c.lines.set l n, calls := c.calls.set l { up with phase := .fax, job := .faxJob }
          fax := c.fax.set l (some { role := .send, engine := e, opts := c.faxOpts, pages := k.pages })
          link := c.link.post l.castSucc .callConnected [0, 2, 0, 0] })))
    answers (.answerTone l) n ∧
    (∀ level : Int, n.noise + 10 ≤ level → 0 < k.ringbacks → answers (.speechAnswer l level) n) ∧
    (∀ level : Int, level < n.noise + 10 ∨ k.ringbacks = 0 → exec (.speechAnswer l level) s = .next s) ∧
    (n.hook = .offHook → n.loopSeen = true → n.loopCurrent = true → n.pulse = none → answers (.polarityReversal l)
      { n with polarity := match n.polarity with | .normal => .reversed | .reversed => .normal }) ∧
    (∀ (level : Int) (on : OnPart) (off back : Nat), level < n.floorAt back + 10 → exec (.progressCycle l level on ⟨off, back⟩) s = .next s) ∧
    (∀ (level : Int) (on off back : Nat), n.floorAt back + 10 ≤ level →
      (250 ≤ on → on ≤ 750 → 250 ≤ off → off ≤ 750 → k.busyRun < 2 →
        exec (.progressCycle l level (.single on) ⟨off, back⟩) s = .next (s.but { c with
          calls := c.calls.set l { k with busyRun := k.busyRun + 1 } })) ∧
      (700 ≤ on → on ≤ 2500 → 1500 ≤ off → off ≤ 5000 → k.ringbacks + 1 < k.limit →
        exec (.progressCycle l level (.single on) ⟨off, back⟩) s = .next (s.but { c with
          calls := c.calls.set l { k with busyRun := 0, ringbacks := k.ringbacks + 1 } })) ∧
      (2500 < on → exec (.progressCycle l level (.single on) ⟨off, back⟩) s = .next (s.but { c with
        calls := c.calls.set l { k with busyRun := 0 } }))) ∧
    (∀ (level : Int) (a g b off back : Nat), n.floorAt back + 10 ≤ level → 200 ≤ a → a ≤ 600 → 150 ≤ g → g ≤ 500 → 200 ≤ b → b ≤ 600 → 1500 ≤ off →
      off ≤ 5000 → k.ringbacks + 1 < k.limit → exec (.progressCycle l level (.double a g b) ⟨off, back⟩) s = .next (s.but { c with
        calls := c.calls.set l { k with busyRun := 0, ringbacks := k.ringbacks + 1 } }))

/-- The part once channel `x` has been bound and started to play the object `o` of slot `i` for the plan of line `l`, its sequence then
being `q` (R27, R149, R163). -/
abbrev Sys2Proof.Machine.Chip.voices (c : Chip) (l : LineNo) (x : ChanNo) (i : SlotNo) (o : Obj) (speed : Nat) (q : PlanSeq) : Chip :=
  { c with
    chans := c.chans.set x (codecChan (.voiceMail l) i .toPath l o.length 0)
    codecs := c.codecs.set l (c.codecs[l].fresh speed)
    store := { c.store with slots := c.store.slots.set i { c.store.slots[i] with obj := some { o with users := o.users + 1 } } }
    seqs := c.seqs.set l q }

/-- The handle names a message that is NEW (R151). -/
def Sys2Proof.Machine.Store.unheard (st : Store) (h : Nat) : Bool :=
  match st.objectOf h with
  | some { attr := .message _ _ .new, .. } => true
  | _ => false

/-- `h` is where a review of this list begins (R163): its oldest NEW entry, or its oldest where none is NEW. -/
abbrev Sys2Proof.Machine.Chip.OldestNew (c : Chip) (list : List Nat) (h : Nat) : Prop :=
  (∃ pre post : List Nat, list = pre ++ h :: post ∧ c.store.unheard h = true ∧ ∀ z ∈ pre, c.store.unheard z = false) ∨
  (list.head? = some h ∧ ∀ z ∈ list, c.store.unheard z = false)

/-- DTMF_DIGIT_HEARD on the host's call joins the list of the latest 16, raises the count and posts DIGITS, and while Send Digits sends it
is ignored; on a plan call voice mail reads it: prefixes in GREETING, the greeting switch of * and two digits (R154), which begins the
greeting of the mailbox named, its clip or a tone; in RECORDING # alone, which ends the recording, at once where no byte of it is buffered,
else once its channel has drained, and no digit in TONE and CLOSING (R157); the code in ACCESS, after a right one REVIEW with the oldest NEW
entry played, or the oldest (R163); in REVIEW the speed, and at the cursor play, delete, keep and next, and stop and end while a message
plays (R164, R165). DISCRIMINATION_WINDOW_CLOSE ends a window left open by the greeting's end. Each digit read in GREETING starts the
prefix's 3 s timer afresh, each digit 0 to 9 in ACCESS the 10 s digit timer, each digit in REVIEW the 20 s idle timer (R154, R162, R163).
FAX_CALLING_TONE and MODEM_CALLING_TONE in an open window turn the call to fax or data, and without an engine mark it missed and go on to
the record tone. That digit 0, and each play begun, cuts a tone too, and that 5 at END stays there, is the model's choice (log 37), and that
a decoder begins each play in state 0 is log 11. That a wrong code starts the digit timer afresh, and the third stops it, is the model's
choice (log 38); that the timers are kept in ms is log 5. That the call record keeps its mailbox through a discrimination to FAX or DATA is
the model's choice (log 33); the details of DIGITS and REMOTE_ACCESS are encoded as log 13 says, and DIGITS's single digit as its ASCII
character by the model's choice (log 39). -/
def Obligations.ConnectedVoice : Prop :=
  ∀ (s : State) (l : LineNo), s.chip.ready = true →
    let c := s.chip
    let k := c.calls[l]
    let q := c.seqs[l]
    (exec (.discriminationWindowClose l) s = .next (s.but { c with
      calls := c.calls.set l { k with window := if k.window = .after then .closed else k.window } })) ∧
    (∀ d : Dtmf, k.state ≠ .connected ∨ k.purpose ≠ some .voice → exec (.dtmfDigitHeard l d) s = .next s) ∧
    (k.state = .connected → k.purpose = some .voice → k.control = .host →
      (∀ d : Dtmf, k.phase = .sendingDigits → exec (.dtmfDigitHeard l d) s = .next s) ∧
      (∀ d : Dtmf, k.phase ≠ .sendingDigits →
        let ds := if k.digits.length < 16 then k.digits ++ [d] else (k.digits ++ [d]).drop (k.digits.length - 15)
        exec (.dtmfDigitHeard l d) s = .next (s.but { c with
          calls := c.calls.set l { k with digits := ds, digitCount := k.digitCount + 1 }
          link := c.link.post l.castSucc .digits (Dtmf.char d :: be2 (k.digitCount + 1).toNat ++ b1 ds.length :: ds.map Dtmf.char) }))) ∧
    (k.state = .connected → k.purpose = some .voice → k.control = .plan →
      let makes (d : Dtmf) (c' : Chip) : Prop := exec (.dtmfDigitHeard l d) s = .next (s.but c')
      let hears (d : Dtmf) (q' : PlanSeq) : Prop := makes d { c with seqs := c.seqs.set l q' }
      (q.state = .greeting →
        let held (o : Opening) : PlanSeq := { q with opening := o, prefixTimer := { run := true, ms := 3000 } }
        (q.opening = .empty → hears .star (held .star) ∧ ∀ d : Fin 10, hears (.digit d) (held .empty)) ∧
        (q.opening = .star → hears .star (held .starStar) ∧ ∀ d : Fin 10, hears (.digit d) (held (.starDigit d))) ∧
        (q.opening = .starStar → ∀ d : Fin 10, hears (.digit d) (held (.starStarDigit d))) ∧
        (∀ (a b : Fin 10) (m : MailboxNo), q.opening = .starStarDigit a → 10 * a.val + b.val = m.val → q.greetChan = none →
          k.window = .closed → hears (.digit b) { q with
            state := .access, target := m, entered := [], tone := .entry, opening := .empty
            prefixTimer := { run := false, ms := 0 }, digitTimer := { run := true, ms := 10000 } }) ∧
        (q.opening = .empty → q.greetChan = none → k.window = .closed → hears .hash { q with
          state := if q.greetingOnly then .closing else .tone, tone := if q.greetingOnly then .closing else .record
          prefixTimer := { run := false, ms := 0 }, idleTimer := if q.greetingOnly then { run := false, ms := 0 } else q.idleTimer }) ∧
        (∀ a b : Fin 10, q.opening = .starDigit a →
          (15 < 10 * a.val + b.val → hears (.digit b) (held .empty)) ∧
          (∀ m : MailboxNo, 10 * a.val + b.val = m.val →
            let x := c.mailboxes[m]
            let full : Bool := decide (32 ≤ x.list.length + x.recordings) || decide (x.quota ≤ x.used) || c.store.low
            let switched : PlanSeq := { held .empty with mailbox := m, greetingOnly := full, tone := .none, greetChan := none }
            (x.enabled = false → hears (.digit b) (held .empty)) ∧
            (x.enabled = true → q.greetChan = none →
              (x.greeting = none → hears (.digit b) { switched with tone := .greeting }) ∧
              (∀ h : Nat, x.greeting = some h → c.store.Stale h → makes (.digit b) { c with
                seqs := c.seqs.set l { switched with tone := .greeting }, mailboxes := c.mailboxes.set m { x with greeting := none } }) ∧
              (∀ (h : Nat) (i : SlotNo) (o : Obj), x.greeting = some h → c.store.Names h i o → o.state = .closed → o.attr = .clip → 0 < o.length →
                ((∀ y : ChanNo, c.chans[y].state ≠ .free) → hears (.digit b) { switched with tone := .greeting }) ∧
                (∀ y : ChanNo, c.PathFree (.codec l) .toPath → c.LowestFreeChan y →
                  makes (.digit b) (c.voices l y i o 16 { switched with greetChan := some y })))) ∧
            (∀ (y : ChanNo) (o : Obj), x.enabled = true → q.greetChan = some y → c.PlaysOn l y o → x.greeting = none →
              makes (.digit b) { c.silenced l y o with seqs := c.seqs.set l { switched with
                tone := .greeting
                greetingOnly := decide (32 ≤ x.list.length + x.recordings) || decide (x.quota ≤ x.used) || (c.silenced l y o).store.low } })))) ∧
      (q.state = .tone ∨ q.state = .closing → ∀ d : Dtmf, exec (.dtmfDigitHeard l d) s = .next s) ∧
      (q.state = .recording →
        (∀ d : Dtmf, d ≠ .hash → exec (.dtmfDigitHeard l d) s = .next s) ∧
        (∀ x : Recording, q.recording = some x → x.cause ≠ none → exec (.dtmfDigitHeard l .hash) s = .next s) ∧
        (∀ (x : Recording) (y : ChanNo) (o : Obj), c.PlanRecords l x y o → o.state = .openWrite → c.chans[y].state = .running →
          c.chans[y].dir = .fromPath → c.chans[y].draining = false →
          (c.codecs[l].buf.frm = [] → makes .hash (c.planSettles l x y o .stopped .digit)) ∧
          (c.codecs[l].buf.frm ≠ [] → makes .hash { c with
            chans := c.chans.set y { c.chans[y] with draining := true }
            seqs := c.seqs.set l { q with recording := some { x with cause := some .digit } } }))) ∧
      (q.state = .access → q.wrong < 3 →
        hears .star { q with entered := [] } ∧ hears .hash { q with entered := [] } ∧
        (∀ d : Fin 10, q.entered.length < 3 → hears (.digit d) { q with
          entered := q.entered ++ [d], digitTimer := { run := true, ms := 10000 } }) ∧
        (∀ d : Fin 10, q.entered.length = 3 → c.mailboxes[q.target].code ≠ some (q.entered ++ [d]) →
          hears (.digit d) { q with
            wrong := q.wrong + 1, entered := [], tone := .error
            digitTimer := if q.wrong = 2 then { run := false, ms := 0 } else { run := true, ms := 10000 } }) ∧
        (∀ d : Fin 10, q.entered.length = 3 → c.mailboxes[q.target].code = some (q.entered ++ [d]) → c.mailboxes[q.target].list = [] →
          exec (.dtmfDigitHeard l (.digit d)) s = .next (s.but { c with
            seqs := c.seqs.set l { q with
              state := .review, speed := 16, cursor := .end_, entered := [], tone := .endOfList
              digitTimer := { run := false, ms := 0 }, idleTimer := { run := true, ms := 20000 } }
            link := c.link.post l.castSucc .remoteAccess ([b1 q.target.val, 0, b1 q.wrong] ++ Caller.code q.caller) })) ∧
        (∀ (d : Fin 10) (h : Nat) (i : SlotNo) (o : Obj), q.entered.length = 3 → c.mailboxes[q.target].code = some (q.entered ++ [d]) →
          c.OldestNew c.mailboxes[q.target].list h → c.store.Names h i o →
          let told : Chip := { c with
            link := c.link.post l.castSucc .remoteAccess ([b1 q.target.val, 0, b1 q.wrong] ++ Caller.code q.caller) }
          let begun : PlanSeq := { q with
            state := .review, speed := 16, cursor := .at h, entered := [], digitTimer := { run := false, ms := 0 }
            idleTimer := { run := true, ms := 20000 } }
          (¬ c.PathFree (.codec l) .toPath ∨ (∀ y : ChanNo, c.chans[y].state ≠ .free) →
            makes (.digit d) { told with seqs := c.seqs.set l { begun with tone := .error } }) ∧
          (∀ y : ChanNo, c.PathFree (.codec l) .toPath → c.LowestFreeChan y →
            makes (.digit d) (told.voices l y i o 16 { begun with playChan := some y, tone := .none })))) ∧
      let idled : PlanSeq := { q with idleTimer := { run := true, ms := 20000 } }
      (q.state = .review → q.playChan = none →
        hears (.digit 7) { idled with speed := if q.speed < 10 then 8 else q.speed - 2 } ∧
        hears (.digit 9) { idled with speed := if 22 < q.speed then 24 else q.speed + 2 } ∧
        hears .hash { q with state := .closing, tone := .closing, idleTimer := { run := false, ms := 0 } } ∧ hears (.digit 0) { idled with tone := .none } ∧
        (q.cursor = .end_ → hears (.digit 1) { idled with tone := .endOfList } ∧ hears (.digit 2) { idled with tone := .endOfList }) ∧
        (∀ (h : Nat) (i : SlotNo) (o : Obj), q.cursor = .at h → c.store.Names h i o →
          ((∀ y : ChanNo, c.chans[y].state ≠ .free) → hears (.digit 1) { idled with tone := .error }) ∧
          (∀ y : ChanNo, c.PathFree (.codec l) .toPath → c.LowestFreeChan y →
            makes (.digit 1) (c.voices l y i o q.speed { idled with playChan := some y, tone := .none })) ∧
          (∀ (caller : Caller) (n : LineNo) (old : MsgStatus) (m : MailboxNo), o.attr = .message caller n old → o.owner = .mailbox m →
            makes (.digit 3) { c with
              seqs := c.seqs.set l idled
              store := { c.store with slots := c.store.slots.set i { c.store.slots[i] with
                obj := some { o with attr := .message caller n .kept } } }
              mailboxes := c.mailboxes.set m { c.mailboxes[m] with
                newCount := if h ∈ c.mailboxes[m].list then c.mailboxes[m].newCount - (if old = .new then 1 else 0)
                  else c.mailboxes[m].newCount } }) ∧
          (∀ pre post : List Nat, c.mailboxes[q.target].list = pre ++ h :: post → h ∉ pre →
            (post = [] → hears (.digit 5) { idled with cursor := .end_, tone := .endOfList }) ∧
            (∀ (y : Nat) (more : List Nat) (z : SlotNo) (oz : Obj) (x : ChanNo), post = y :: more → c.store.Names y z oz →
              c.PathFree (.codec l) .toPath → c.LowestFreeChan x →
              makes (.digit 5) (c.voices l x z oz q.speed { idled with cursor := .at y, playChan := some x, tone := .none })) ∧
            (∀ (caller : Caller) (n : LineNo) (st : MsgStatus), o.attr = .message caller n st → o.owner = .mailbox q.target →
              let b := c.mailboxes[q.target]
              let gone : Chip := { c.drops i o with
                seqs := c.seqs.map (·.forgets h post)
                mailboxes := c.mailboxes.set q.target { b with
                  list := pre ++ post, used := b.used - o.chain.length, newCount := if st = .new then b.newCount - 1 else b.newCount } }
              let after : PlanSeq := idled.forgets h post
              (post = [] → makes (.digit 2) { gone with seqs := gone.seqs.set l { after with tone := .endOfList } }) ∧
              (∀ (y : Nat) (more : List Nat) (z : SlotNo) (oz : Obj) (x : ChanNo), post = y :: more → z ≠ i → c.store.Names y z oz →
                c.PathFree (.codec l) .toPath → c.LowestFreeChan x →
                makes (.digit 2) (gone.voices l x z oz q.speed { after with playChan := some x, tone := .none })))))) ∧
      (∀ (y : ChanNo) (o : Obj), q.state = .review → q.playChan = some y → c.PlaysOn l y o →
        let at_ (v : Nat) : Chip := { c with seqs := c.seqs.set l { idled with speed := v }, codecs := c.codecs.set l { c.codecs[l] with speed := v } }
        makes (.digit 7) (at_ (if q.speed < 10 then 8 else q.speed - 2)) ∧
        makes (.digit 9) (at_ (if 22 < q.speed then 24 else q.speed + 2)) ∧
        makes (.digit 0) { c.silenced l y o with seqs := c.seqs.set l { idled with playChan := none, tone := .none } } ∧
        makes .hash { c.silenced l y o with seqs := c.seqs.set l { q with
          state := .closing, playChan := none, tone := .closing, idleTimer := { run := false, ms := 0 } } }) ∧
      (k.window ≠ .closed → q.greetChan = none → q.playChan = none → q.recording = none →
        let missed : State := s.but { c with
          calls := c.calls.set l { k with faxMissed := true, window := .closed }
          seqs := c.seqs.set l { q with
            state := .tone, tone := .record, opening := .empty, entered := [], prefixTimer := { run := false, ms := 0 }
            digitTimer := { run := false, ms := 0 }, idleTimer := { run := false, ms := 0 } } }
        ((∀ e : EngineNo, c.engines[e].state ≠ .free) →
          exec (.faxCallingTone l) s = .next missed ∧ exec (.modemCallingTone l) s = .next missed) ∧
        (∀ e : EngineNo, c.Claimable l e → k.direction = some .incoming →
          (c.store.free.length < c.faxReserve → exec (.faxCallingTone l) s = .next missed) ∧
          (c.faxReserve ≤ c.store.free.length → exec (.faxCallingTone l) s = .next (s.but { c with
            seqs := c.seqs.set l {}, engines := c.engines.set e (claimed l .fax c.lines[l].noise)
            calls := c.calls.set l { k with
              purpose := some .fax, engine := some e, window := .closed, phase := .fax, job := .faxJob }
            fax := c.fax.set l (some (c.receivingJob e k.pages))
            link := c.link.post l.castSucc .callConnected [1, 2, 1, 0] })) ∧
          (∀ i j : SlotNo, c.store.PairFree i j → ∃ t : State, exec (.modemCallingTone l) s = .next t ∧ t.pending = s.pending ∧
            t.chip.engines = c.engines.set e ((claimed l .data c.lines[l].noise).trains c.lines[l].noise c.localMax) ∧
            t.chip.units[e].state = .ready ∧ t.chip.units[e].line = l ∧ t.chip.units[e].side = .answering ∧
            t.chip.units[e].opts = c.linkOpts ∧ t.chip.seqs = c.seqs.set l {} ∧ t.chip.store.free = c.store.free.drop 8 ∧
            t.chip.calls = c.calls.set l { k with
              purpose := some .data, engine := some e, window := .closed, phase := .training, job := .dataLink } ∧
            t.chip.lines = c.lines ∧ t.chip.chans = c.chans))) ∧
      (q.state = .review → (∀ d : Fin 10, d = 4 ∨ d = 6 ∨ d = 8 → hears (.digit d) idled) ∧ hears .star idled))

/-! ## Signal engines (05_signal_engines_and_line_quality.md) -/

/-- A data call: the line is OFF_HOOK, engine `e` and data link unit `e` serve it, the unit's handles name data rings, and it holds nothing
else; the long request in execution, if any, is its Dial or Answer. -/
abbrev Sys2Proof.Machine.Chip.DataCall (c : Chip) (l : LineNo) (e : EngineNo) : Prop :=
  c.calls[l].purpose = some .data ∧ c.calls[l].engine = some e ∧ c.engines[e].line = l ∧ c.engines[e].purpose = .data ∧
    c.engines[e].state ≠ .free ∧ c.units[e].line = l ∧ c.units[e].state ≠ .none ∧ c.seqs[l].state = .none ∧ c.fax[l] = none ∧
    c.calls[l].record = none ∧ (∀ i : ChanNo, c.chans[i].state = .free ∨ c.chans[i].owner.line ≠ some l) ∧
    c.lines[l].resetTag = none ∧ c.lines[l].hook = .offHook ∧
    (∀ g ∈ c.calls[l].long, (g.kind = .dial ∨ g.kind = .answer) ∧ g.handle = none) ∧
    ∀ i : SlotNo, ∀ o ∈ c.store.slots[i].obj,
      c.units[e].tx.handle = 16 * i.val + c.store.slots[i].gen.toNat ∨ c.units[e].rx.handle = 16 * i.val + c.store.slots[i].gen.toNat →
        o.isRing = true

/-- A data call in a state from which a release starts (R85). -/
abbrev Sys2Proof.Machine.Chip.LiveData (c : Chip) (l : LineNo) (e : EngineNo) : Prop :=
  c.DataCall l e ∧ (c.calls[l].state = .connected ∨ c.calls[l].state = .awaitingAnswer ∨ c.calls[l].state = .answering)

/-- The link port takes a code-0 frame for unit `e`. -/
def Sys2Proof.Machine.Chip.takesFor (c : Chip) (e : EngineNo) : Bool :=
  match c.linkPort.work with
  | some (.take f _) => decide (f = e)
  | _ => false

/-- The link port drains the receive ring of unit `e`. -/
def Sys2Proof.Machine.Chip.drainsFor (c : Chip) (e : EngineNo) : Bool :=
  match c.linkPort.work with
  | some (.drain f _ _) => decide (f = e)
  | _ => false

/-- Slots `i` and `j` hold the transmit ring `o` and the receive ring `p` of unit `e`, to which no channel is bound (R20, R104). -/
abbrev Sys2Proof.Machine.Chip.Rings (c : Chip) (e : EngineNo) (i j : SlotNo) (o p : Obj) : Prop :=
  c.store.Names c.units[e].tx.handle i o ∧ c.store.Names c.units[e].rx.handle j p ∧ i ≠ j ∧ o.users = 0 ∧ p.users = 0

/-- The link and the store once unit `e` of line `l` has finished its detach (R121): a frame being taken for it has left the data buffer;
DATA_DROPPED with END has been posted where bytes are lost; the transmit ring and then the receive ring have been deleted. -/
abbrev Sys2Proof.Machine.Chip.ringsGone (c : Chip) (l : LineNo) (e : EngineNo) (i j : SlotNo) (o p : Obj) : Chip :=
  let u := c.units[e]
  let recv := u.rx.held + (u.hold.map (fun b => b.bytes.length)).sum
  let given : Link := if c.takesFor e then { c.link with data := c.link.data.eraseP (fun d => d.code == 0) } else c.link
  let told : Link := if 0 < u.tx.held ∨ 0 < recv then
      given.post l.castSucc .dataDropped ([2] ++ be4 u.tx.held ++ be4 recv ++ [b1 u.unacked.length] ++ be2 0)
    else given
  ({ c with link := told }.drops i o).drops j p

/-- The link once the long request of line `l`, if one is in execution, has ended ABRUPT with `cause` and the data result record (R86, R106):
the rate as it stands, and mode and window absent. -/
abbrev Sys2Proof.Machine.Chip.dataReplied (c : Chip) (l : LineNo) (e : EngineNo) (k : Link) (cause : Reason) : Link :=
  match c.calls[l].long with
  | none => k
  | some g => { k with
      reserved := k.reserved - 1
      out := k.out ++ [{
        kind := 2, line := b1 l.val, tag := g.tag, code := g.kind.code
        body := [1, cause.code] ++ [rateCode c.engines[e].rate, 0xFF, 0xFF] ++ be4 2048 ++ be4 2048 }] }

/-- What the teardown of a data call with `cause` leaves (R86, R87, R91, R121): record RELEASING with its cause and without long request or
engine, the unit's counters and the engine's rate handed over, the line ON_HOOK with the rate kept for it and Last Fault written for
a long request, engine FREE and session NONE, port and link port given up; the other lines and the channels as they were. The rings are
deleted, the blocks of the receive ring last; on the link stand DATA_DROPPED END where bytes are lost, the reply of the long request,
FAULT_GONE of an OVERCURRENT, and CALL_ENDED last, a Line Reset having emptied the line's set before it. `after` is what the command then still
does to the link. The order of the two deletions, the transmit ring first, is log 33, the layout of the records log 13, the 0 of
DATA_DROPPED's free space log 36, and the ring size given twice log 39. -/
abbrev Sys2Proof.Machine.Chip.DataEnded (c : Chip) (s t : State) (l : LineNo) (e : EngineNo) (cause : Reason) (after : Link → Link := id) :
    Prop :=
  let k := t.chip.calls[l]
  let was := c.calls[l]
  let n := c.lines[l]
  let u := c.units[e]
  let ours : Bool := c.takesFor e || c.drainsFor e
  t.pending = s.pending ∧ k.state = .releasing ∧ k.cause = some cause ∧ k.engine = none ∧ k.long = none ∧
    k.bytesSent = min 4294967295 u.bytesSent ∧ k.bytesRecv = min 4294967295 u.bytesRecv ∧ k.resent = min 65535 u.resent ∧
    k.finalRate = c.engines[e].rate ∧ k.changes = c.engines[e].quality.changes ∧
    t.chip.lines[l].hook = .onHook ∧ t.chip.lines[l].keptRate = c.engines[e].rate ∧
    t.chip.lines[l].lastFault = (if was.long.isSome then
        { valid := true, reason := cause, condition := {}, phase := if was.state = .releasing then was.prevPhase else was.phase
          handle := none, position := none }
      else n.lastFault) ∧
    t.chip.engines[e].state = .free ∧ t.chip.engines[e].rate = none ∧ t.chip.units[e].state = .none ∧ t.chip.units[e].portBound = false ∧
    t.chip.linkPort = { c.linkPort with work := if ours then none else c.linkPort.work } ∧
    t.chip.port = { c.port with
      holder := if c.port.holder = some (.ring e) ∨ (ours = true ∧ c.port.holder = some .linkPort) then none else c.port.holder } ∧
    (∀ f : EngineNo, f ≠ e → t.chip.engines[f] = s.chip.engines[f] ∧ t.chip.units[f] = s.chip.units[f]) ∧
    (∀ m : LineNo, m ≠ l → t.chip.lines[m] = s.chip.lines[m] ∧ t.chip.calls[m] = s.chip.calls[m]) ∧
    t.chip.chans = s.chip.chans ∧ t.chip.store.dram = s.chip.store.dram ∧
    ∀ (i j : SlotNo) (o p : Obj), c.Rings e i j o p →
      let gone := c.ringsGone l e i j o p
      let replied := c.dataReplied l e gone.link cause
      let told := if n.cond.overcurrent then replied.post l.castSucc .faultGone [0, flag n.latch.overcurrent] else replied
      let emptied : Link := if n.resetTag.isSome then { told with sets := told.sets.set l.castSucc [] } else told
      t.chip.store = gone.store ∧ t.chip.store.free = p.chain.reverse ++ o.chain.reverse ++ c.store.free ∧
        t.chip.link = after (emptied.post l.castSucc .callEnded (callEndedBytes k))

/-- The lowest of three rates. -/
abbrev Sys2Proof.Machine.lowest (a b c : Rate) : Rate := if a ≤ b ∧ a ≤ c then a else if b ≤ c then b else c

/-- The engine runs at rate `r` after a passed test (R93, R95); without a carrier it times the absence (R96). -/
abbrev Sys2Proof.Machine.Engine.runs (g : Engine) (r : Rate) : Engine :=
  { g with
    state := .running, rate := some r, dir := none, measuring := false, await := none, farLed := false
    loss := if g.carrier || g.loss.run then g.loss else { run := true, ms := 3000 } }

/-- MEASUREMENT_END sets the class by the measured ratio and the first test rate, the lowest of the local maximum as the measurement began
with it, ceiling and class maximum; class 0 and MEASUREMENT_TIMEOUT end a data call TRAIN_FAILED. TEST_END: a test passes with at most 1 bit
in 1000 wrong and the far end's verdict good, and waits for that verdict; a failed one, or VERDICT_TIMEOUT, steps down, and fails the
training at the third attempt or at 2400. A fax job has no BYE pending here (a job has one only after a Hang Up, until it is sent), and a
training is never led by the far end. The ratio is given in tenths of a dB, the bits wrong as a count against a count sent, and the rate the
far end announces for a test as the command's operands (log 1); that an attempt is counted when TEST_END comes is the model's reading (log
22), and that a test judged bad here waits for the verdict as well its choice (log 41); the end of the call leaves the LINE_LOST timer as
logs 19 and 5 say. What the end of a data call leaves, its rings deleted with it, `Chip.DataEnded` says: a transfer granted and not done is
given up (log 41), the transmit ring goes first (log 33), the layout of the records log 13, 0 for the free space in DATA_DROPPED log 36, the
ring size given twice log 39. -/
def Obligations.Training : Prop :=
  ∀ (s : State) (e : EngineNo),
    let c := s.chip
    let g := c.engines[e]
    let l := g.line
    let u := c.units[e]
    let sets (i : Instr) (g' : Engine) : Prop := exec i s = .next (s.but { c with engines := c.engines.set e g' })
    (g.measuring = false → (∀ (x : Int) (a : Rate), exec (.measurementEnd e x a) s = .next s) ∧ exec (.measurementTimeout e) s = .next s) ∧
    (g.measuring = true → g.state = .training → g.farLed = false →
      (∀ (n a : Rate) (x : Int), 120 + 30 * n.val ≤ x → x < 150 + 30 * n.val ∨ n = 5 →
        (g.purpose = .data → sets (.measurementEnd e x a) { g with
          measuring := false, ceiling := a, quality := { g.quality with cls := n.val + 1 }, testRate := some (lowest g.localMax a n) }) ∧
        (∀ (j : FaxJob) (m : FaxMode) (r : Rate) (res : Resolution) (ident : Option (List Byte)), g.purpose = .fax → c.fax[l] = some j →
          j.wait = some (.set m r res ident) → j.byeWanted = false → exec (.measurementEnd e x a) s = .next (s.but { c with
            engines := c.engines.set e { g with
              measuring := false, quality := { g.quality with cls := n.val + 1 }, testRate := some (lowest g.localMax g.ceiling n) }
            fax := c.fax.set l (some { j with wait := none }) }))) ∧
      (∀ (a : Rate) (x : Int), c.LiveData l e → x < 120 →
        ∃ t : State, exec (.measurementEnd e x a) s = .next t ∧ Chip.DataEnded { c with engines := c.engines.set e { g with rate := none } }
          s t l e .trainFailed) ∧
      (c.LiveData l e → ∃ t : State, exec (.measurementTimeout e) s = .next t ∧
        Chip.DataEnded { c with engines := c.engines.set e { g with rate := none } } s t l e .trainFailed)) ∧
    (∀ (wrong total : Nat) (far : Option Bool) (an : Rate), g.measuring = true ∨ g.state = .running ∨ g.state = .claimed ∨ g.testRate = none →
      exec (.testEnd e wrong total ⟨far, an⟩) s = .next s ∧ exec (.verdictTimeout e) s = .next s) ∧
    (∀ (r an : Rate) (wrong total : Nat), g.measuring = false → g.state = .training → g.farLed = false → g.testRate = some r →
      (g.purpose = .fax → ∀ j ∈ c.fax[l], j.byeWanted = false) →
      (g.await = none →
        (g.purpose = .data → sets (.testEnd e wrong total ⟨none, an⟩) { g with
          attempts := g.attempts + 1, await := some (decide (1000 * wrong ≤ total)) }) ∧
        (∀ far : Bool, g.purpose = .data → ¬ (1000 * wrong ≤ total ∧ far = true) → g.attempts < 2 → ∀ q : Rate, q.val + 1 = r.val →
          sets (.testEnd e wrong total ⟨some far, an⟩) { g with attempts := g.attempts + 1, testRate := some q }) ∧
        (∀ far : Bool, c.LiveData l e → ¬ (1000 * wrong ≤ total ∧ far = true) → 2 ≤ g.attempts ∨ r = 0 →
          ∃ t : State, exec (.testEnd e wrong total ⟨some far, an⟩) s = .next t ∧
            Chip.DataEnded { c with engines := c.engines.set e { g with rate := none } } s t l e .trainFailed) ∧
        (g.purpose = .data → 1000 * wrong ≤ total → u.state = .ready → u.line = l →
          (u.side = .answering → exec (.testEnd e wrong total ⟨some true, an⟩) s = .next (s.but { c with
            engines := c.engines.set e ({ g with attempts := g.attempts + 1 }.runs r)
            units := c.units.set e { u with state := .listening }
            calls := c.calls.set l { c.calls[l] with phase := .linkOpening, job := .dataLink } })) ∧
          (u.side = .calling → u.ctrl = [] → u.sounding = none → exec (.testEnd e wrong total ⟨some true, an⟩) s = .next (s.but { c with
            engines := c.engines.set e ({ g with attempts := g.attempts + 1 }.runs r)
            units := c.units.set e { u with
              state := .opening, openSends := 1, sounding := some (.openFrame u.opts.window), lastLine := some (.openFrame u.opts.window) }
            calls := c.calls.set l { c.calls[l] with phase := .linkOpening, job := .dataLink } }))) ∧
        (∀ j : FaxJob, g.purpose = .fax → c.fax[l] = some j →
          (j.role = .send → sets (.testEnd e wrong total ⟨none, an⟩) { g with attempts := g.attempts + 1, await := some true }) ∧
          (j.role = .receive → total < 1000 * wrong → g.attempts < 2 → ∀ q : Rate, q.val + 1 = r.val →
            exec (.testEnd e wrong total ⟨none, an⟩) s = .next (s.but { c with
              engines := c.engines.set e { g with attempts := g.attempts + 1, testRate := some q }
              fax := c.fax.set l (some { j with sent := some (.trainBad r) }) })))) ∧
      (∀ b : Bool, g.await = some b →
        (g.attempts < 3 → ∀ q : Rate, q.val + 1 = r.val → sets (.verdictTimeout e) { g with testRate := some q, await := none }) ∧
        (c.LiveData l e → 3 ≤ g.attempts ∨ r = 0 → ∃ t : State, exec (.verdictTimeout e) s = .next t ∧
          Chip.DataEnded { c with engines := c.engines.set e { g with rate := none } } s t l e .trainFailed)))

/-- The engine starts a retrain that the far end leads (R94). -/
abbrev Sys2Proof.Machine.Engine.led (g : Engine) (d : RetrainDir) (noise : Int) (localMax : Rate) : Engine :=
  { g with
    state := .retraining, dir := some d, farLed := true, attempts := 0, measuring := true, localMax := localMax, testRate := none, await := none
    quality := { g.quality with noise := noise }
    loss := if g.carrier || g.loss.run then g.loss else { run := true, ms := 3000 } }

/-- The engine starts a retrain that its own job has asked for (R94). -/
abbrev Sys2Proof.Machine.Engine.asked (g : Engine) (d : RetrainDir) (noise : Int) (localMax : Rate) : Engine :=
  { g.led d noise localMax with farLed := false }

/-- The engine's line-quality record after a good or a bad judgment (R98). -/
abbrev Sys2Proof.Machine.Engine.heard (g : Engine) (good : Bool) : Engine :=
  { g with quality := if good then { g.quality with good := min 65535 (g.quality.good + 1) }
                      else { g.quality with bad := min 65535 (g.quality.bad + 1) } }

/-- The last 32 judgments of the unit, with one more (R118). -/
abbrev Sys2Proof.Machine.DataLink.heardOf (u : DataLink) (good : Bool) : List Bool :=
  if u.history.length < 32 then u.history ++ [good] else (u.history ++ [good]).drop (u.history.length - 31)

/-- FAR_END_RETRAIN_SIGNAL in RUNNING makes a linked data call's engine retrain, and a receiving fax job's engine when its rate is above
2400; not while a data link opens. A passed test of a retrain at a new rate counts the change and posts RATE_CHANGED; in a retrain that the
far end leads each test is made at the rate it announces. The unit retrains of itself (R118): DOWN at 8 bad frames among the last 32 unless
at 2400, UP at 256 good frames in a row if the class and the two limits allow a higher rate; after each decision the counts begin afresh.
Hang Up while the engine retrains ends the call at once (R119). CARRIER_CHANGE starts and stops the 3 s of absence, and CARRIER_LOST then
ends the data call. The model's choices: no retrain while a link opens, and the tests of a retrain led by the far end (log 22), also those
of an UP at an announced rate that is not above the one in use (log 38); RATE_CHANGED's direction is numbered DOWN 1, UP 2 (log 39); the
absence is kept as 3000 ms (log 5). What the end of a data call leaves, its rings deleted with it, `Chip.DataEnded` says: a transfer granted
and not done is given up (log 41), the transmit ring goes first (log 33), the layout of the records log 13, 0 for the free space in
DATA_DROPPED log 36, the ring size given twice log 39. -/
def Obligations.RetrainAndCarrier : Prop :=
  ∀ (s : State) (e : EngineNo),
    let c := s.chip
    let g := c.engines[e]
    let l := g.line
    let u := c.units[e]
    (∀ d : RetrainDir,
      (g.state ≠ .running → exec (.farEndRetrainSignal e d) s = .next s) ∧
      (g.state = .running → g.purpose = .data → u.state = .opening ∨ u.state = .listening → exec (.farEndRetrainSignal e d) s = .next s) ∧
      (g.state = .running → g.purpose = .data → u.state = .linked ∨ u.state = .plain →
        exec (.farEndRetrainSignal e d) s = .next (s.but { c with
          engines := c.engines.set e (g.led d c.lines[l].noise c.localMax), units := c.units.set e { u with sounding := none } })) ∧
      (∀ (j : FaxJob) (r : Rate), g.state = .running → g.purpose = .fax → c.fax[l] = some j → j.role = .receive → j.phase ≠ .closing →
        g.rate = some r → 0 < r.val → exec (.farEndRetrainSignal e d) s = .next (s.but { c with
          engines := c.engines.set e (g.led .down c.lines[l].noise c.localMax), fax := c.fax.set l (some { j with phase := .training }) }))) ∧
    (∀ (old r an : Rate) (d : RetrainDir) (wrong total : Nat), g.state = .retraining → g.purpose = .data → g.measuring = false →
      g.testRate = some r → g.await = none → g.rate = some old → g.dir = some d →
      let q : Rate := if g.farLed then an else r
      (old ≠ q → 1000 * wrong ≤ total →
        u.state = .linked → u.unacked = [] → u.tx.held = 0 → u.ctrl = [] → u.sounding = none → u.cut = none →
        exec (.testEnd e wrong total ⟨some true, an⟩) s = .next (s.but { c with
          engines := c.engines.set e ({ g with
            attempts := g.attempts + 1, testRate := some q
            quality := { g.quality with changes := min 255 (g.quality.changes + 1) } }.runs q)
          units := c.units.set e { u with history := [], goodRun := 0 }
          link := c.link.post l.castSucc .rateChanged
            [b1 e.val, b1 (old.val + 1), b1 (q.val + 1), (match d with | .down => 1 | .up => 2), b1 g.quality.cls] })) ∧
      (total < 1000 * wrong → g.attempts < 2 → g.farLed = true → 0 < an.val → ∀ far : Bool,
        exec (.testEnd e wrong total ⟨some far, an⟩) s = .next (s.but { c with
          engines := c.engines.set e { g with attempts := g.attempts + 1, testRate := some an } }))) ∧
    (∀ (r : Request) (rest : List Request), c.LiveData l e → c.calls[l].state = .connected → u.state = .linked → g.state = .retraining →
      Asked s r rest 0x32 (lineField l) [] → ∃ t : State, exec .hangUp s = .next t ∧
        Chip.DataEnded { c with link := { c.link with inq := rest } } s t l e .hungUp (fun k => { k with
          reserved := k.reserved - 1, out := k.out ++ [r.answer [0, 0, 2]] }) ∧
        t.chip.link.out.getLast? = some (r.answer [0, 0, 2])) ∧
    (∀ p : Bool,
      (g.state = .free → exec (.carrierChange e p) s = .next s) ∧
      (g.state ≠ .free → exec (.carrierChange e p) s = .next (s.but { c with
        engines := c.engines.set e { g with
          carrier := p
          loss := if p then { run := false, ms := 0 }
            else if (g.state = .running ∨ g.state = .retraining) ∧ g.loss.run = false then { run := true, ms := 3000 } else g.loss } }))) ∧
    (g.carrier = true ∨ g.loss.run = false → exec (.carrierLost e) s = .next s) ∧
    (c.LiveData l e → g.state = .running → g.carrier = false → g.loss.run = true →
      ∃ t : State, exec (.carrierLost e) s = .next t ∧ c.DataEnded s t l e .carrierLost) ∧
    (∀ r : Rate, u.state = .linked → g.state = .running → g.purpose = .data → g.rate = some r →
      let bads (good : Bool) : Nat := ((u.heardOf good).filter (fun b => !b)).length
      let fresh : DataLink := { u with history := [], goodRun := 0 }
      let retrains (i : Instr) (good : Bool) (d : RetrainDir) : Prop := exec i s = .next (s.but { c with
        engines := c.engines.set e ((g.heard good).asked d c.lines[l].noise c.localMax), units := c.units.set e { fresh with sounding := none } })
      let stays (i : Instr) (good : Bool) (u' : DataLink) : Prop := exec i s = .next (s.but { c with
        engines := c.engines.set e (g.heard good), units := c.units.set e u' })
      (8 ≤ bads false →
        (0 < r.val → retrains (.badFrame e) false .down) ∧ (r = 0 → stays (.badFrame e) false fresh)) ∧
      (∀ (n : SeqNo) (m : Rate), u.unacked = [] → n ≠ u.nextSend → bads true < 8 → 255 ≤ u.goodRun → g.quality.cls = m.val + 1 →
        (r < m → r < c.localMax → r < g.ceiling → retrains (.accept e n) true .up) ∧
        (u.sounding.isSome = true →
          (r < m → c.localMax ≤ r ∨ g.ceiling ≤ r → stays (.accept e n) true fresh) ∧
          (m ≤ r → stays (.accept e n) true { u with history := u.heardOf true, goodRun := 256 }))))

/-! ## Data calls (06_data_calls.md) -/

/-- The part of a data call once its session is up (R106, R107, R114): phase DATA, the Dial or Answer ends NORMAL with rate, mode, window and
the sizes of the rings, and CALL_CONNECTED is posted. -/
abbrev Sys2Proof.Machine.Chip.dataIsUp (c : Chip) (l : LineNo) (g : Long) (rate : Option Rate) (mode window : Byte) : Chip :=
  let k := c.calls[l]
  { c with
    calls := c.calls.set l { k with phase := .data, long := none }
    lines := c.lines.set l { c.lines[l] with lastFault := { c.lines[l].lastFault with valid := false } }
    link := ({ c.link with
      reserved := c.link.reserved - 1
      out := c.link.out ++ [{
        kind := 2, line := b1 l.val, tag := g.tag, code := g.kind.code
        body := [0, 0, rateCode rate, mode, window] ++ be4 2048 ++ be4 2048 }] } : Link).post l.castSucc .callConnected
          [opt1 (k.direction.map (·.num)), 1, k.control.code, rateCode rate] }

/-- The session just LINKED with the window field `w` of the far end (R106): sequence numbers 0, receive flow FLOWING. -/
abbrev Sys2Proof.Machine.DataLink.opened (u : DataLink) (w : Nat) : DataLink :=
  { u with
    state := .linked, windowInUse := if w < 1 then min u.opts.window 1 else if 7 < w then min u.opts.window 7 else min u.opts.window w
    nextSend := 0, expected := 0, unacked := [], flow := .flowing, remotePaused := false, gap := false, t1 := { run := false, ms := 0 }
    expiries := 0, rep := { run := false, ms := 0 } }

/-- OPEN in LISTENING and OPENED in OPENING make the session LINKED, the former answered by OPENED; OPEN_WAIT_EXPIRY repeats
OPEN once, and then, as LISTEN_TIMEOUT, goes PLAIN if that is allowed, else ends the call LINK_FAILED. LINE_FRAME_SENT starts
T1 after a DATA frame and goes on to the next frame; BAD_FRAME is judged bad and does nothing else. `lastLine` is the model's
record of the last frame handed to the engine (log 12); T1 is kept in ms (log 5); that the reply of Dial or Answer comes
before CALL_CONNECTED is log 21; that the reply gives the ring size twice, in four bytes each, is the model's choice (log 39); the end of a
call leaves the LINE_LOST timer as logs 19 and 5 say. What the end of a data call leaves, its
rings deleted with it, `Chip.DataEnded` says: a transfer granted and not done is given up
(log 41), the transmit ring goes first (log 33), the layout of the records log 13, 0 for the free space in
DATA_DROPPED log 36, the ring size given twice log 39. -/
def Obligations.DataOpening : Prop :=
  ∀ (s : State) (e : EngineNo) (l : LineNo), s.chip.engines[e].state = .running → s.chip.LiveData l e →
    let c := s.chip
    let g := c.engines[e]
    let u := c.units[e]
    (∀ (a : Long) (w : Nat), c.calls[l].long = some a → c.calls[l].purpose = some .data →
      let heard : Chip := { c with engines := c.engines.set e (g.heard true) }
      (u.state = .listening → u.ctrl = [] → u.sounding = none → exec (.openFrame e w) s = .next (s.but
        ({ heard with units := c.units.set e { u.opened w with
          sounding := some (.opened u.opts.window), lastLine := some (.opened u.opts.window) } }.dataIsUp l a g.rate 0
            (b1 (u.opened w).windowInUse)))) ∧
      (u.state = .opening → u.ctrl = [] → u.tx.held = 0 → u.cut = none → exec (.opened e w) s = .next (s.but
        ({ heard with units := c.units.set e (u.opened w) }.dataIsUp l a g.rate 0 (b1 (u.opened w).windowInUse)))) ∧
      (u.opts.plainAllowed = true → u.tx.held = 0 →
        let plain : Chip := { c with units := c.units.set e { u with state := .plain, ctrl := [], sounding := none } }
        (u.state = .opening → 2 ≤ u.openSends → exec (.openWaitExpiry e) s = .next (s.but (plain.dataIsUp l a g.rate 1 0))) ∧
        (u.state = .listening → exec (.listenTimeout e) s = .next (s.but (plain.dataIsUp l a g.rate 1 0))))) ∧
    (u.opts.plainAllowed = false →
      (u.state = .opening → 2 ≤ u.openSends → ∃ t : State, exec (.openWaitExpiry e) s = .next t ∧ c.DataEnded s t l e .linkFailed) ∧
      (u.state = .listening → ∃ t : State, exec (.listenTimeout e) s = .next t ∧ c.DataEnded s t l e .linkFailed)) ∧
    (u.state = .opening → u.openSends < 2 → u.ctrl = [] → u.sounding = none → exec (.openWaitExpiry e) s = .next (s.but { c with
      units := c.units.set e { u with
        openSends := u.openSends + 1, sounding := some (.openFrame u.opts.window), lastLine := some (.openFrame u.opts.window) } })) ∧
    (∀ f h : LinkFrame, u.state = .opening ∨ u.state = .listening ∨ u.state = .linked → u.sounding = some f →
      (∀ (a b : SeqNo) (p : List Byte), f ≠ .data a b p) → u.ctrl = [h] → exec (.lineFrameSent e) s = .next (s.but { c with
        units := c.units.set e { u with sounding := some h, lastLine := some h, ctrl := [] } })) ∧
    (∀ (a b : SeqNo) (p : List Byte), u.state = .linked → u.sounding = some (.data a b p) → u.ctrl = [] → u.cut = none → u.unacked ≠ [] →
      (∀ f ∈ u.unacked, f.marked = false) → u.tx.held ≤ u.unackedBytes → exec (.lineFrameSent e) s = .next (s.but { c with
        units := c.units.set e { u with sounding := none, t1 := { run := true, ms := 1000 * u.opts.t1 } } })) ∧
    (u.sounding = none → exec (.lineFrameSent e) s = .next s) ∧
    (u.state = .opening ∨ u.state = .listening → exec (.badFrame e) s = .next (s.but { c with
      engines := c.engines.set e (g.heard false) })) ∧
    (u.state = .linked → (u.history.filter (fun b => !b)).length < 7 → exec (.badFrame e) s = .next (s.but { c with
      engines := c.engines.set e (g.heard false)
      units := c.units.set e { u with
        history := if u.history.length < 32 then u.history ++ [false] else (u.history ++ [false]).drop (u.history.length - 31)
        goodRun := 0 } }))

/-- A good frame judged in LINKED, where neither fallback nor fall-forward follows (R118). -/
abbrev Sys2Proof.Machine.DataLink.calm (u : DataLink) : Prop := (u.history.filter (fun b => !b)).length < 8 ∧ u.goodRun < 255

/-- The unit after a good judgment in LINKED (R118). -/
abbrev Sys2Proof.Machine.DataLink.heardGood (u : DataLink) : DataLink :=
  { u with
    history := if u.history.length < 32 then u.history ++ [true] else (u.history ++ [true]).drop (u.history.length - 31)
    goodRun := min 256 (u.goodRun + 1) }

/-- The unacknowledged list is `gone ++ rest`, numbered without a break up to the next send number, and `n` acknowledges `gone` (R109). -/
abbrev Sys2Proof.Machine.DataLink.Acks (u : DataLink) (n : SeqNo) (gone rest : List Unacked) : Prop :=
  u.unacked = gone ++ rest ∧ gone.length + rest.length ≤ 7 ∧
    ((gone ++ rest).head?.map (·.num)).getD u.nextSend = u.nextSend - BitVec.ofNat 4 (gone.length + rest.length) ∧
    n = u.nextSend - BitVec.ofNat 4 rest.length

/-- The unit after `gone` has been acknowledged (R109, R110, R116): the bytes leave the transmit ring; a removal is progress. -/
abbrev Sys2Proof.Machine.DataLink.acked (u : DataLink) (gone rest : List Unacked) : DataLink :=
  let n := (gone.map (fun f => f.payload.length)).sum
  { u with
    unacked := rest
    tx := if gone = [] then u.tx else { u.tx with start := (u.tx.start + n) % 2048, held := u.tx.held - n }
    expiries := if gone = [] then u.expiries else 0
    t1 := if gone = [] then u.t1 else if rest = [] then { run := false, ms := 0 } else { run := true, ms := 1000 * u.opts.t1 }
    creditLow := decide (2048 - (u.tx.held - n + u.tx.reserved) < 1024) }

/-- The link after the transmit ring's free space has changed from `old` to `now` (R116). -/
abbrev Sys2Proof.Machine.Link.credited (k : Link) (l : LineNo) (low : Bool) (old now : Nat) : Link :=
  if low = true ∧ 1024 ≤ now then k.post l.castSucc .txCredit (be2 now)
  else if low = false ∧ now = 2048 ∧ old < 2048 then k.post l.castSucc .txCredit (be2 2048)
  else k

/-- ACCEPT, PAUSE and RESEND with a valid number remove the frames before it from the list and from the transmit ring, restart
or stop T1 and settle the credit; then ACCEPT clears remote paused, PAUSE sets it, and RESEND marks what is left; an invalid
number does nothing. DATA_FRAME in sequence joins the receive hold and is acknowledged, by PAUSE when the ring is nearly full; a
gap asks RESEND once; any other is acknowledged again. A DATA_FRAME's own receive number, where it is valid, acknowledges as
ACCEPT's does, but leaves remote paused as it is. The engine is sending here, so that no further frame starts. T1 is kept in ms
(log 5). -/
def Obligations.DataFrames : Prop :=
  ∀ (s : State) (e : EngineNo), s.chip.engines[e].state = .running → s.chip.units[e].state = .linked → s.chip.units[e].sounding.isSome = true →
    s.chip.units[e].calm →
    let c := s.chip
    let u := c.units[e]
    let h := u.heardGood
    let heard : Chip := { c with engines := c.engines.set e (c.engines[e].heard true) }
    (∀ (n : SeqNo) (gone rest : List Unacked), u.Acks n gone rest →
      let a := h.acked gone rest
      let link := c.link.credited u.line u.creditLow (2048 - (u.tx.held + u.tx.reserved)) (2048 - (a.tx.held + a.tx.reserved))
      exec (.accept e n) s = .next (s.but { heard with units := c.units.set e { a with remotePaused := false }, link := link }) ∧
      exec (.pause e n) s = .next (s.but { heard with units := c.units.set e { a with remotePaused := true }, link := link }) ∧
      (exec (.resend e n) s = .next (s.but { heard with
        units := c.units.set e { a with unacked := rest.map (fun f => { f with
          marked := decide ((n - a.oldest).toNat ≤ (f.num - a.oldest).toNat) }) }
        link := link }))) ∧
    (∀ n : SeqNo, u.unacked = [] → n ≠ u.nextSend →
      let same := State.but s { heard with units := c.units.set e h }
      exec (.accept e n) s = .next same ∧ exec (.pause e n) s = .next same ∧ exec (.resend e n) s = .next same) ∧
    (∀ (n x : SeqNo) (p : List Byte), u.unacked = [] → x ≠ u.nextSend → u.flow = .flowing → u.ctrl = [] →
      let takes (u' : DataLink) : Prop := exec (.dataFrame e n x p) s = .next (s.but { heard with units := c.units.set e u' })
      let free := 2048 - (u.rx.held + u.rx.reserved)
      let fits : Prop := p.length ≤ free ∧ (u.hold.map (fun b => b.bytes.length)).sum + p.length ≤ 512 ∧ u.hold.length < 2
      (n = u.expected → fits → takes { h with
        hold := u.hold ++ [{ bytes := p, written := 0 }], rx := { u.rx with reserved := u.rx.reserved + p.length }
        expected := u.expected + 1, gap := false
        flow := if 2048 - (u.rx.held + (u.rx.reserved + p.length)) < 256 then .paused else .flowing
        ctrl := [if 2048 - (u.rx.held + (u.rx.reserved + p.length)) < 256 then .pause (u.expected + 1) else .accept (u.expected + 1)] }) ∧
      (n = u.expected → ¬ fits → 256 ≤ free → takes h) ∧
      (n = u.expected → ¬ fits → free < 256 → takes { h with flow := .paused, ctrl := [.pause u.expected] }) ∧
      (n ≠ u.expected → (n - u.expected).toNat < u.windowInUse → u.gap = false → takes { h with gap := true, ctrl := [.resend u.expected] }) ∧
      (n ≠ u.expected → (n - u.expected).toNat < u.windowInUse → u.gap = true → takes h) ∧
      (u.windowInUse ≤ (n - u.expected).toNat → n ≠ u.expected → takes { h with ctrl := [.accept u.expected] })) ∧
    (∀ (n x : SeqNo) (gone rest : List Unacked) (p : List Byte), u.Acks x gone rest → u.flow = .flowing → u.ctrl = [] →
      let a := h.acked gone rest
      let link := c.link.credited u.line u.creditLow (2048 - (u.tx.held + u.tx.reserved)) (2048 - (a.tx.held + a.tx.reserved))
      let takes (u' : DataLink) : Prop := exec (.dataFrame e n x p) s = .next (s.but { heard with
        units := c.units.set e u', link := link })
      (n = u.expected → p.length ≤ 2048 - (u.rx.held + u.rx.reserved) → (u.hold.map (fun b => b.bytes.length)).sum + p.length ≤ 512 →
        u.hold.length < 2 → 256 ≤ 2048 - (u.rx.held + (u.rx.reserved + p.length)) → takes { a with
          hold := u.hold ++ [{ bytes := p, written := 0 }], rx := { u.rx with reserved := u.rx.reserved + p.length }
          expected := u.expected + 1, gap := false, ctrl := [.accept (u.expected + 1)] }) ∧
      (n ≠ u.expected → (n - u.expected).toNat < u.windowInUse → u.gap = false → takes { a with gap := true, ctrl := [.resend u.expected] }))

/-- T1_EXPIRY marks the oldest frame and counts, and beyond N2 ends the call LINK_FAILED; REPEAT_TIMER_EXPIRY sends ACCEPT again, and after
N2 sends stops. CLOSE in LINKED ends the call REMOTE_CLEARED, with CLOSED sent; in CLOSING the answer CLOSED, a CLOSE, or CLOSE_WAIT_EXPIRY
ends the wait of the teardown, which keeps its cause. `lastLine` is the model's record of the last frame handed to the engine (log 12); the
expiries are commands (log 6). LOOP_INTERRUPTION on a data call that is SEIZED, after its loop current has been seen, is a remote clear as
well (R114). LINE_RESET on a data call ends it without a frame, the long request first, and ends the wait for CLOSED at once, the cause then
standing (R61, R120). That CLOSED goes out at once, ahead of frames that wait or sound, and the detach ends in the same step, is the model's
choice (log 38). The ends of calls leave the LINE_LOST timer as logs 19 and 5 say. What the end of a data call leaves, its rings deleted
with it, `Chip.DataEnded` says: a transfer granted and not done is given up (log 41), the transmit ring goes first (log 33), the layout of
the records log 13, 0 for the free space in DATA_DROPPED log 36, the ring size given twice log 39. -/
def Obligations.DataTimersAndClosing : Prop :=
  ∀ (s : State) (e : EngineNo),
    let c := s.chip
    let u := c.units[e]
    let run : Prop := c.engines[e].state = .running
    (∀ (f : Unacked) (rest : List Unacked), run → u.state = .linked → u.t1.run = true → u.expiries < u.opts.n2 → u.unacked = f :: rest →
      u.sounding.isSome = true → exec (.t1Expiry e) s = .next (s.but { c with
        units := c.units.set e { u with
          expiries := u.expiries + 1, unacked := { f with marked := true } :: rest, t1 := { run := false, ms := 0 } } })) ∧
    (∀ l : LineNo, run → u.state = .linked → u.t1.run = true → u.opts.n2 ≤ u.expiries → c.LiveData l e →
      ∃ t : State, exec (.t1Expiry e) s = .next t ∧ c.DataEnded s t l e .linkFailed) ∧
    (c.engines[e].state ≠ .running → exec (.t1Expiry e) s = .next s ∧ exec (.repeatTimerExpiry e) s = .next s) ∧
    (run → u.state = .linked → u.flow = .resuming → u.rep.run = true →
      (u.repCount < u.opts.n2 → u.sounding.isSome = true → u.ctrl = [] → exec (.repeatTimerExpiry e) s = .next (s.but { c with
        units := c.units.set e { u with
          ctrl := [.accept u.expected], repCount := u.repCount + 1, rep := { run := true, ms := 1000 * u.opts.t1 } } })) ∧
      (u.opts.n2 ≤ u.repCount → exec (.repeatTimerExpiry e) s = .next (s.but { c with
        units := c.units.set e { u with rep := { run := false, ms := 0 }, flow := .flowing } }))) ∧
    (∀ l : LineNo, run → u.state = .linked → c.LiveData l e → u.calm →
      ∃ t : State, exec (.close e) s = .next t ∧ c.DataEnded s t l e .remoteCleared ∧ t.chip.units[e].lastLine = some .closed) ∧
    (∀ l : LineNo, c.ready = true → c.DataCall l e → c.calls[l].state = .seized → c.lines[l].loopSeen = true → c.lines[l].pulse = none →
      c.lines[l].absentTold = false → ∃ t : State, exec (.loopInterruption l) s = .next t ∧ c.DataEnded s t l e .remoteCleared) ∧
    (∀ (l : LineNo) (cause : Reason), u.state = .closing → c.DataCall l e → c.calls[l].state = .releasing → c.calls[l].forced = false →
      c.calls[l].cause = some cause → (∀ g ∈ c.calls[l].long, g.mark = some cause) →
      (∃ t : State, exec (.closeWaitExpiry e) s = .next t ∧ c.DataEnded s t l e cause) ∧
      (run → (∃ t : State, exec (.closed e) s = .next t ∧ c.DataEnded s t l e cause) ∧
        ∃ t : State, exec (.close e) s = .next t ∧ c.DataEnded s t l e cause)) ∧
    (∀ (l : LineNo) (r : Request) (rest : List Request), c.DataCall l e → Asked s r rest 0x23 (lineField l) [] →
      let n := c.lines[l]
      let k := c.calls[l]
      let asked : Chip := { c with link := { c.link with inq := rest }, lines := c.lines.set l { n with resetTag := some r.tag } }
      let resets (c' : Chip) (cause : Reason) : Prop := ∃ t : State, exec .lineReset s = .next t ∧ c'.DataEnded s t l e cause ∧
        t.chip.lines[l].resetTag = some r.tag ∧ t.chip.lines[l].latch = {
          overcurrent := false, hot := n.latch.hot && n.cond.hot, critical := n.latch.critical && n.cond.critical
          lineLost := n.latch.lineLost && n.cond.lineLost }
      (∀ cause : Reason, u.state = .closing → k.state = .releasing → k.forced = false → k.long = none → k.cause = some cause → resets asked cause) ∧
      (k.state = .seized ∨ k.state = .dialling ∨ k.state = .awaitingAnswer ∨ k.state = .answering ∨ k.state = .connected →
        resets { asked with
          calls := c.calls.set l { k with long := none }
          link := c.dataReplied l e asked.link .lineReset
          lines := c.lines.set l { n with
            resetTag := some r.tag
            lastFault := if k.long.isSome then
                { valid := true, reason := .lineReset, condition := {}, phase := k.phase, handle := none, position := none }
              else n.lastFault } } .lineReset))

/-- Slot `i` holds the data ring `o`: OPEN_WRITE, 2048 bytes long (R20). -/
abbrev Sys2Proof.Machine.Chip.RingAt (c : Chip) (i : SlotNo) (o : Obj) : Prop :=
  c.store.slots[i].obj = some o ∧ o.state = .openWrite ∧ o.length = 2048 ∧ o.chain.length = 4 ∧ Memory.wf c.store.dram = true

/-- The byte of ring `o` at position `p`. -/
abbrev Sys2Proof.Machine.Chip.ringByte (c : Chip) (o : Obj) (p : Nat) : Byte :=
  ((o.chain[p / 512]?).map (fun b => Mem.read c.store.dram (512 * b + p % 512))).getD 0

/-- LINK_PORT_TAKE takes the oldest code-0 frame: reserved in the transmit ring of the line's data call, or lost with
DATA_DROPPED NO_ROOM or NO_CALL, an empty one just leaving. RECEIVE_RING_DRAIN begins a frame of up to 256 bytes. In PLAIN,
PLAIN_BYTES_SENT frees the bytes sent and reads the next, and PLAIN_BYTES_RECEIVED holds the bytes that find room; the first
byte lost posts DATA_OVERRUN. TRANSFER_DONE for a ring port writes the receive hold's oldest payload into the receive ring, or
reads a payload from the transmit ring; for the link port it writes the frame being taken, whose bytes then are in the
transmit ring, or reads a receive ring, whose bytes then go out as a code-0 Data frame: each within one block of the ring. Where the flow
is PAUSED and the ring's free space has so risen to 1024 or more, ACCEPT is sent, the flow is RESUMING and the repeat timer starts (R113). A
line whose call has a ring but is not up tells its free space with NO_CALL. The model's choices: `plainOut` is its record of
the bytes sent (log 12), the detail of DATA_DROPPED (log 13), with 0 for the receive bytes, which R115 leaves unnamed (log
36), how PLAIN bytes are held (log 23), and that the overrun counter holds at 4294967295 (log 39). -/
def Obligations.LinkPortAndPlain : Prop :=
  ∀ s : State,
    let c := s.chip
    (c.linkPort.work.isSome = true ∨ (∀ d ∈ c.link.data, d.code ≠ 0) → exec .linkPortTake s = .next s) ∧
    (∀ (d : DataIn) (more : List DataIn), c.link.data = d :: more → d.code = 0 → c.linkPort.work = none →
      c.linkPort.served = 2 ∨ (∀ e : EngineNo, c.units[e].rx.held = 0) →
      let port : LinkPort := { c.linkPort with served := 0 }
      let gone : Link := { c.link with data := more }
      (d.bytes = [] → exec .linkPortTake s = .next (s.but { c with link := gone, linkPort := port })) ∧
      (d.bytes ≠ [] → 4 ≤ d.line.toNat → exec .linkPortTake s = .next (s.but { c with
        linkPort := port, link := gone.post 4 .dataDropped ([1] ++ be4 d.bytes.length ++ be4 0 ++ [0xFF] ++ be2 0) })) ∧
      (∀ l : LineNo, d.bytes ≠ [] → d.line = lineField l → c.calls[l].phase ≠ .data →
        let space : Nat := match c.calls[l].engine with
          | none => 0
          | some e => if c.units[e].state = .none then 0 else 2048 - (c.units[e].tx.held + c.units[e].tx.reserved)
        exec .linkPortTake s = .next (s.but { c with
          linkPort := port, link := gone.post l.castSucc .dataDropped ([1] ++ be4 d.bytes.length ++ be4 0 ++ [0xFF] ++ be2 space) })) ∧
      (∀ (l : LineNo) (e : EngineNo), d.bytes ≠ [] → d.line = lineField l → c.calls[l].phase = .data → c.calls[l].state = .connected →
        c.calls[l].purpose = some .data → c.calls[l].engine = some e →
        let u := c.units[e]
        let free := 2048 - (u.tx.held + u.tx.reserved)
        (d.bytes.length ≤ free → u.creditLow = false → exec .linkPortTake s = .next (s.but { c with
          linkPort := { port with work := some (.take e 0) }
          units := c.units.set e { u with
            tx := { u.tx with reserved := u.tx.reserved + d.bytes.length }
            creditLow := decide (2048 - (u.tx.held + (u.tx.reserved + d.bytes.length)) < 1024) } })) ∧
        (free < d.bytes.length → exec .linkPortTake s = .next (s.but { c with
          linkPort := port
          link := gone.post l.castSucc .dataDropped ([0] ++ be4 d.bytes.length ++ be4 0 ++ [0xFF] ++ be2 free) })))) ∧
    (∀ e : EngineNo, c.linkPort.work = none → c.linkPort.served.val = e.val → c.units[e].state ≠ .none → 0 < c.units[e].rx.held →
      c.link.reserved + c.link.out.length < 16 → (∀ i : Fin 5, c.link.sets[i] = []) → c.calls[c.units[e].line].state = .connected →
      exec (.receiveRingDrain e) s = .next (s.but { c with
        linkPort := { work := some (.drain e (min 256 c.units[e].rx.held) []), served := if e = 0 then 1 else 2 } })) ∧
    (∀ e : EngineNo, c.units[e].rx.held = 0 → exec (.receiveRingDrain e) s = .next s) ∧
    (∀ e : EngineNo, c.engines[e].state = .running → c.units[e].state = .plain → c.units[e].unacked = [] →
      let u := c.units[e]
      let free := 2048 - (u.tx.held + u.tx.reserved)
      (∀ k : Cut, u.cut = some k → k.got.length = k.total → u.tx.held = k.total → exec (.plainBytesSent e) s = .next (s.but { c with
        units := c.units.set e { u with
          plainOut := k.got, cut := none, tx := { u.tx with start := (u.tx.start + k.total) % 2048, held := 0 }
          creditLow := decide (2048 - u.tx.reserved < 1024) }
        link := c.link.credited u.line u.creditLow free (2048 - u.tx.reserved) })) ∧
      (u.cut = none → 0 < u.tx.held → exec (.plainBytesSent e) s = .next (s.but { c with
        units := c.units.set e { u with cut := some { total := min 256 u.tx.held, got := [] } } })) ∧
      (∀ bs : List Byte, bs ≠ [] → u.hold.length < 2 → bs.length ≤ 2048 - (u.rx.held + u.rx.reserved) →
        (u.hold.map (fun b => b.bytes.length)).sum + bs.length ≤ 512 → u.overrun ≤ 4294967295 → exec (.plainBytesReceived e bs) s = .next (s.but { c with
          units := c.units.set e { u with
            hold := u.hold ++ [{ bytes := bs, written := 0 }], rx := { u.rx with reserved := u.rx.reserved + bs.length }
            overrunNow := false } })) ∧
      (∀ bs : List Byte, bs ≠ [] → u.overrunNow = false → 2048 ≤ u.rx.held + u.rx.reserved →
        exec (.plainBytesReceived e bs) s = .next (s.but { c with
          units := c.units.set e { u with overrun := min 4294967295 (u.overrun + bs.length), overrunNow := true }
          link := c.link.post u.line.castSucc .dataOverrun (be4 (min 4294967295 (u.overrun + 1))) }))) ∧
    (∀ (e : EngineNo) (o : Obj) (h : Held) (rest : List Held) (a : Nat),
      let u := c.units[e]
      let p := (u.rx.start + u.rx.held + h.written) % 2048
      let n := min (h.bytes.length - h.written) (512 - p % 512)
      c.port.holder = some (.ring e) → u.portBound = true → u.sounding.isSome = true → u.state = .linked → u.hold = h :: rest → u.cut = none →
      h.written < h.bytes.length → c.RingAt u.rx.slot o → o.addr p = some a →
      ∃ t : State, exec .transferDone s = .next t ∧ t.pending = s.pending ∧
        (∀ k : Nat, k < n → ∀ b ∈ h.bytes[h.written + k]?, Mem.read t.chip.store.dram (a + k) = b) ∧
        (∀ x : Nat, x < a ∨ a + n ≤ x → Mem.read t.chip.store.dram x = Mem.read c.store.dram x) ∧
        t.chip = { c with
          port := { c.port with holder := none }, store := { c.store with dram := t.chip.store.dram }
          units := c.units.set e (if h.written + n < h.bytes.length then
              { u with hold := { h with written := h.written + n } :: rest, servedHold := true }
            else { u with
              hold := rest, servedHold := true
              rx := { u.rx with held := u.rx.held + h.bytes.length, reserved := u.rx.reserved - h.bytes.length } }) }) ∧
    (∀ (e : EngineNo) (o : Obj) (k : Cut),
      let u := c.units[e]
      let p := (u.tx.start + u.unackedBytes + k.got.length) % 2048
      let n := min (k.total - k.got.length) (512 - p % 512)
      c.port.holder = some (.ring e) → u.portBound = true → u.sounding.isSome = true → u.state = .linked → u.hold = [] → u.cut = some k →
      k.got.length < k.total → c.RingAt u.tx.slot o →
      exec .transferDone s = .next (s.but { c with
        port := { c.port with holder := none }
        units := c.units.set e { u with
          cut := some { k with got := k.got ++ (List.range n).map (fun x => c.ringByte o (p + x)) }, servedHold := false } })) ∧
    (∀ (e : EngineNo) (o : Obj) (d : DataIn) (more : List DataIn) (w a : Nat),
      let u := c.units[e]
      let p := (u.tx.start + u.tx.held + w) % 2048
      let n := min (d.bytes.length - w) (512 - p % 512)
      c.port.holder = some .linkPort → c.linkPort.work = some (.take e w) → c.link.data = d :: more → d.code = 0 → w < d.bytes.length →
      u.sounding.isSome = true → u.state = .linked → c.RingAt u.tx.slot o → o.addr p = some a →
      ∃ t : State, exec .transferDone s = .next t ∧ t.pending = s.pending ∧
        (∀ k : Nat, k < n → ∀ b ∈ d.bytes[w + k]?, Mem.read t.chip.store.dram (a + k) = b) ∧
        (∀ x : Nat, x < a ∨ a + n ≤ x → Mem.read t.chip.store.dram x = Mem.read c.store.dram x) ∧
        t.chip = { c with
          port := { c.port with holder := none }, store := { c.store with dram := t.chip.store.dram }
          linkPort := { c.linkPort with work := if w + n < d.bytes.length then some (.take e (w + n)) else none }
          link := if w + n < d.bytes.length then c.link else { c.link with data := more }
          units := if w + n < d.bytes.length then c.units else c.units.set e { u with
            tx := { u.tx with held := u.tx.held + d.bytes.length, reserved := u.tx.reserved - d.bytes.length }
            bytesSent := u.bytesSent + d.bytes.length } }) ∧
    (∀ (e : EngineNo) (o : Obj) (total : Nat) (got : List Byte),
      let u := c.units[e]
      let p := (u.rx.start + got.length) % 2048
      let n := min (total - got.length) (512 - p % 512)
      let now := got ++ (List.range n).map (fun x => c.ringByte o (p + x))
      c.port.holder = some .linkPort → c.linkPort.work = some (.drain e total got) → got.length < total → c.RingAt u.rx.slot o →
      u.state = .linked →
      (now.length < total → exec .transferDone s = .next (s.but { c with
        port := { c.port with holder := none }, linkPort := { c.linkPort with work := some (.drain e total now) } })) ∧
      (total ≤ now.length → c.link.reserved + c.link.out.length < 16 → (∀ i : Fin 5, c.link.sets[i] = []) →
        let given : DataLink := { u with
          rx := { u.rx with start := (u.rx.start + total) % 2048, held := u.rx.held - total }, bytesRecv := u.bytesRecv + total }
        let resuming : DataLink := { given with flow := .resuming, rep := { run := true, ms := 1000 * u.opts.t1 }, repCount := 0 }
        let free := 2048 - (u.rx.held - total + u.rx.reserved)
        let leaves (u' : DataLink) : Prop := exec .transferDone s = .next (s.but { c with
          port := { c.port with holder := none }, linkPort := { c.linkPort with work := none }
          link := { c.link with out := c.link.out ++ [{ kind := 4, line := b1 u.line.val, tag := 0, code := 0, body := now }] }
          units := c.units.set e u' })
        (u.sounding.isSome = true →
          (u.flow ≠ .paused ∨ free < 1024 → leaves given) ∧
          (u.flow = .paused → 1024 ≤ free → leaves { resuming with
            ctrl := u.ctrl.filter (fun f => match f with | .accept _ => false | _ => true) ++ [.accept u.expected] })) ∧
        (u.sounding = none → u.ctrl = [] → c.engines[e].state = .running → u.flow = .paused → 1024 ≤ free → leaves { resuming with
          sounding := some (.accept u.expected), lastLine := some (.accept u.expected) })))

/-! ## Fax (07_fax.md) -/

/-- A job that has just sent BYE and awaits its answer (R125): CLOSING, with no round, run or retrain pending. -/
abbrev Sys2Proof.Machine.FaxJob.saysBye (j : FaxJob) (n : FaxEnd) : FaxJob :=
  { j with
    phase := .closing, ending := some n, endReason := n.reason, roundOn := false, roundWait := false, runs := [], runLeft := 0
    byeWanted := false, retrainWanted := false, trainWait := false, sent := some .bye, wait := some .bye, sends := 1 }

/-- The highest of the six rates that is not above `bps`, and 2400 below that (R127). -/
abbrev Sys2Proof.Machine.rateNotAbove (bps : Nat) : Rate :=
  if 14400 ≤ bps then 5 else if 12000 ≤ bps then 4 else if 9600 ≤ bps then 3 else if 7200 ≤ bps then 2 else if 4800 ≤ bps then 1 else 0

/-- A channel started over the first `n` bytes of its object (R28, R32). -/
abbrev Sys2Proof.Machine.Chan.runs (ch : Chan) (n : Nat) : Chan :=
  { ch with state := .running, basePos := 0, cur := 0, baseCount := n, remaining := n, repeatsDone := 0 }

/-- `rs` are the runs of the strips `ns`, in strip order: one, of its first strip and its length, for each span of consecutive strips (R131). -/
abbrev Sys2Proof.Machine.StripRuns (rs : List (Nat × Nat)) (ns : List Nat) : Prop :=
  rs.flatMap (fun r => List.range' r.1 r.2) = ns ∧ (∀ r ∈ rs, 0 < r.2) ∧ rs.Pairwise (fun x y => x.1 + x.2 < y.1)

/-- Channel `i` of line `l` positioned for a span of `n` strips from strip `a` on, and RUNNING, its path empty (R28, R31, R32, R130). -/
abbrev Sys2Proof.Machine.Chip.spans (c : Chip) (l : LineNo) (i : ChanNo) (a n : Nat) : Chip :=
  { c with
    chans := c.chans.set i { c.chans[i] with
      state := .running, basePos := 512 * a, cur := 512 * a, baseCount := 512 * n, remaining := 512 * n, repeatsDone := 0 }
    epaths := c.epaths.set l { c.epaths[l] with toBuf := [], under := false } }

/-- A round, or in PLAIN a pass, begins with a span of `n` strips from strip `a` on, and `more` spans behind it (R126, R131): its strips count as
resent unless it is the first. -/
abbrev Sys2Proof.Machine.FaxJob.roundOf (j : FaxJob) (a n : Nat) (more : List (Nat × Nat)) : FaxJob :=
  { j with
    phase := .page, roundWait := false, roundOn := true, wait := none, repass := j.begun, begun := true
    runs := more, runLeft := 512 * n, runAt := a, strip := [], stripFill := false }

/-- Section `sect` of a page of `total` strips begins with round 1, all its strips NEEDED (R131). -/
abbrev Sys2Proof.Machine.FaxJob.sectionOf (j : FaxJob) (sect total : Nat) : FaxJob :=
  { j with
    sect := sect, round := 1, begun := false
    marks := Vector.ofFn (fun x : Fin 32 => if 32 * sect + x.val < total then .needed else .unused) }.roundOf
      (32 * sect) (min 32 (total - 32 * sect)) []

/-- CAPS in PREAMBLE fixes mode and rate, takes the page's turn with its channel, sends SET and trains; a list with no page that can be sent
ends in BYE. SET that was offered makes the receiver train with the SET's rate as ceiling, one that was not is answered BYE. TRAIN_OK passes
the awaited test and the page begins, with the one run of PLAIN, or in SECTIONED with the runs of the section's NEEDED strips, as it does
after a retrain; TRAIN_BAD steps the test down, and after the last test a SET one step lower. The receiver's passed test is answered
TRAIN_OK, and at its TRAINED page 1 is begun: the rate is copied, an empty FAX_PAGE created and a channel bound to it for the whole of the
store's span; with no slot FREE the page is not begun (R129, R136, R141). That TRAIN_OK and TRAIN_BAD count only for the rate under test,
and that an attempt is counted at TEST_END, is the model's reading (log 22). `sent` is its record of the message awaiting an answer (log
12). -/
def Obligations.FaxOpening : Prop :=
  ∀ (s : State) (l : LineNo) (j : FaxJob), s.chip.fax[l] = some j → j.abortPending = false →
    let c := s.chip
    let g := c.engines[j.engine]
    let noise := c.lines[g.line].noise
    (∀ (bps h : Nat) (sect fine : Bool) (ident : Option (List Byte)), j.role = .send → j.phase = .preamble → j.pages = [h] → j.found = 0 →
      j.outcomes = [] → j.cur = none →
      let r0 := rateNotAbove bps
      let rate := if c.localMax ≤ r0 then c.localMax else r0
      let mode : FaxMode := if sect = true ∧ j.opts.sectioned = true then .sectioned else .plain
      let knows : FaxJob := { j with
        remote := { rate := r0, sectioned := sect, fine := fine, ident := ident }, mode := some mode, found := 1, announced := none }
      (c.store.Stale h → exec (.caps l bps sect fine ident) s = .next (s.but { c with
        fax := c.fax.set l (some ({ knows with outcomes := [{ kind := .missing, detail := .stale, handle := h }] }.saysBye
          { cls := .abrupt, reason := .pagePartial, cause := .none })) })) ∧
      (∀ (i : SlotNo) (o : Obj) (a : PageAttr) (ch : ChanNo), c.store.Names h i o → o.attr = .page a → o.state = .closed → 0 < o.length →
        a.res = .standard ∨ fine = true → c.PathFree (.engine l) .toPath → c.LowestFreeChan ch → g.state = .claimed →
        let total := (o.length + 511) / 512
        let m : FaxMsg := .set mode rate a.res j.opts.ident
        exec (.caps l bps sect fine ident) s = .next (s.but { c with
          store := { c.store with slots := c.store.slots.set i { c.store.slots[i] with obj := some { o with users := o.users + 1 } } }
          chans := c.chans.set ch {
            state := .bound, owner := .fax l, slot := i, dir := .toPath, path := .engine l, basePos := 0, cur := 0
            baseCount := 512 * total, remaining := 512 * total, mode := .demand, repeats := 255, repeatsDone := 0, slips := 0
            endCause := .none, draining := false }
          epaths := c.epaths.set l { c.epaths[l] with toBuf := [], under := false }
          engines := c.engines.set j.engine { g.trains noise c.localMax with ceiling := rate }
          fax := c.fax.set l (some { knows with
            cur := some { handle := h, slot := i, number := 1, res := a.res, total := total, chan := some ch }
            index := 1, sect := 0, round := 1, retakes := 0, begun := false, pageDone := false, firstRes := a.res, phase := .training
            pageChan := some (h, ch)
            marks := Vector.ofFn (fun x : Fin 32 => if x.val < total then .needed else .unused)
            sent := some m, wait := some m, sends := 1 }) }))) ∧
    (∀ (bps : Nat) (sect fine : Bool) (ident : Option (List Byte)), j.role = .send → j.phase = .page ∨ j.phase = .postpage →
      exec (.caps l bps sect fine ident) s = .next s) ∧
    (∀ (mode : FaxMode) (bps : Nat) (res : Resolution) (ident : Option (List Byte)), j.role = .receive → j.phase = .preamble →
      let ok : Prop := (mode = .plain ∨ j.opts.sectioned = true) ∧ (res = .standard ∨ j.opts.fine = true)
      (ok → g.state = .claimed → exec (.set l mode bps res 1 ident) s = .next (s.but { c with
        engines := c.engines.set j.engine { g.trains noise c.localMax with ceiling := rateNotAbove bps }
        fax := c.fax.set l (some { j with
          mode := some mode, remote := { rate := rateNotAbove bps, sectioned := decide (mode = .sectioned), fine := false, ident := ident }
          firstRes := res, phase := .training, wait := none, trainWait := false }) })) ∧
      (¬ ok → exec (.set l mode bps res 1 ident) s = .next (s.but { c with
        fax := c.fax.set l (some (j.saysBye { cls := .abrupt, reason := .remoteIncapable, cause := .remoteIncapable })) }))) ∧
    (∀ r : Rate, j.role = .send → g.state = .training → g.measuring = false → g.testRate = some r → g.await.isSome = true → g.purpose = .fax →
      g.line = l → j.byeWanted = false → j.phase = .training →
      (∀ (p : FaxPage) (i : ChanNo), j.mode = some .plain → j.retrainWanted = false → j.cur = some p → p.chan = some i → 0 < p.total →
        p.total ≤ 8192 → c.chans[i].state = .bound → c.chans[i].path = .engine l → c.chans[i].dir = .toPath →
        exec (.trainOk l r) s = .next (s.but { c with
          engines := c.engines.set j.engine (g.runs r)
          chans := c.chans.set i { c.chans[i] with
            state := .running, basePos := 0, cur := 0, baseCount := 512 * p.total, remaining := 512 * p.total, repeatsDone := 0 }
          epaths := c.epaths.set l { c.epaths[l] with toBuf := [], under := false }
          fax := c.fax.set l (some { j with
            rate := some r, phase := .page, round := 1, wait := none, roundOn := true, roundWait := false, repass := j.begun, begun := true
            runs := [], runLeft := 512 * p.total, runAt := 0, strip := [], stripFill := false }) })) ∧
      (∀ (p : FaxPage) (i : ChanNo) (a n : Nat) (more : List (Nat × Nat)), j.mode = some .sectioned → j.retrainWanted = false →
        StripRuns ((a, n) :: more) (((List.finRange 32).filter (fun y => decide (j.marks[y] = .needed))).map (fun y => 32 * j.sect + y.val)) →
        a + n ≤ 8192 → j.cur = some p → p.chan = some i → c.chans[i].state = .bound ∨ c.chans[i].state = .held → c.chans[i].path = .engine l →
        c.chans[i].dir = .toPath → exec (.trainOk l r) s = .next (s.but { c.spans l i a n with
          engines := c.engines.set j.engine (g.runs r)
          fax := c.fax.set l (some ({ j with rate := some r, round := 1 }.roundOf a n more)) })) ∧
      (g.attempts < 3 → ∀ q : Rate, q.val + 1 = r.val → exec (.trainBad l r) s = .next (s.but { c with
        engines := c.engines.set j.engine { g with testRate := some q, await := none } })) ∧
      (3 ≤ g.attempts → ∀ q : Rate, q.val + 1 = r.val → exec (.trainBad l r) s = .next (s.but { c with
        engines := c.engines.set j.engine { g.trains noise c.localMax with ceiling := q }
        fax := c.fax.set l (some { j with
          phase := .training, sent := some (.set (j.mode.getD .plain) q j.firstRes j.opts.ident)
          wait := some (.set (j.mode.getD .plain) q j.firstRes j.opts.ident), sends := 1 }) })) ∧
      (r = 0 → exec (.trainBad l r) s = .next (s.but { c with
        engines := c.engines.set j.engine { g with
          state := .claimed, rate := none, dir := none, measuring := false, await := none, farLed := false, loss := { run := false, ms := 0 } }
        fax := c.fax.set l (some (j.saysBye { cls := .abrupt, reason := .trainFailed, cause := .none })) })) ∧
      (∀ q : Rate, q ≠ r → exec (.trainOk l q) s = .next s ∧ exec (.trainBad l q) s = .next s)) ∧
    (∀ (r an : Rate) (mode : FaxMode) (wrong total : Nat), j.role = .receive → g.state = .training → g.measuring = false →
      g.testRate = some r → g.await = none → g.farLed = false → g.purpose = .fax → g.line = l → j.byeWanted = false → j.phase = .training →
      j.mode = some mode → j.index = 0 → 1000 * wrong ≤ total →
      let begins (c' : Chip) (j' : FaxJob) : Prop := exec (.testEnd j.engine wrong total ⟨none, an⟩) s = .next (s.but { c' with
        engines := c.engines.set j.engine ({ g with attempts := g.attempts + 1 }.runs r)
        fax := c.fax.set l (some { j' with
          sent := some (.trainOk r), rate := some r, phase := .page, index := 1, sect := 0, passBad := 0, retakes := 0
          marks := Vector.replicate 32 .needed }) })
      (∀ (x : SlotNo) (y : ChanNo), c.store.LowestFree x → c.PathFree (.engine l) .fromPath → c.LowestFreeChan y →
        let h := 16 * x.val + c.store.slots[x].gen.toNat
        begins { c with
          store := { c.store with slots := c.store.slots.set x { c.store.slots[x] with obj := some {
            state := .openWrite, owner := .line l, chain := [], length := 0, users := 1, created := c.clock
            attr := .page {
              page := 1, res := j.firstRes, rate := some r, sectioned := decide (mode = .sectioned), strips := 0, badStrips := 0
              partialFlag := false, unread := false, ident := j.remote.ident } } } }
          chans := c.chans.set y {
            state := .bound, owner := .fax l, slot := x, dir := .fromPath, path := .engine l, basePos := 0, cur := 0
            baseCount := 4194304, remaining := 4194304, mode := .demand, repeats := 0, repeatsDone := 0, slips := 0, endCause := .none
            draining := false }
          epaths := c.epaths.set l { c.epaths[l] with frm := [], overNow := false } } { j with
            pages := j.pages ++ [h], strips := [], passing := false, pageChan := some (h, y)
            cur := some { handle := h, slot := x, number := 1, res := j.firstRes, chan := some y } }) ∧
      ((∀ x : SlotNo, c.store.slots[x].obj ≠ none) → begins c { j with cur := none, storeFull := true, fullDetail := .noSlot }))

/-- The engine's quality record after `good` and `bad` judgments of strips (R98, R126). -/
abbrev Sys2Proof.Machine.Engine.strips (g : Engine) (good bad : Nat) : Engine :=
  { g with quality := { g.quality with
      good := min 65535 (g.quality.good + good), bad := min 65535 (g.quality.bad + bad) } }

/-- The number of channels bound to the object of slot `i`, changed by `f`. -/
abbrev Sys2Proof.Machine.Store.counts (st : Store) (i : SlotNo) (f : Nat → Nat) : Store :=
  { st with slots := st.slots.set i { st.slots[i] with obj := st.slots[i].obj.map (fun o => { o with users := f o.users }) } }

/-- The page of handle `h` in the list of a sending job passes its checks (R130): it is the CLOSED FAX_PAGE `o` of slot `i` with
attributes `a`, not empty, and FINE only if the far end takes it. -/
abbrev Sys2Proof.Machine.Chip.Sendable (c : Chip) (j : FaxJob) (h : Nat) (i : SlotNo) (o : Obj) (a : PageAttr) : Prop :=
  c.store.Names h i o ∧ o.attr = .page a ∧ o.state = .closed ∧ 0 < o.length ∧ (a.res = .standard ∨ j.remote.fine = true)

/-- Channel `i` is bound to the current page `p` on the engine path of line `l`, and the lowest-numbered channel that can be bound once it
has been unbound: none below it is FREE, and no other holds that path. -/
abbrev Sys2Proof.Machine.Chip.Hands (c : Chip) (l : LineNo) (p : FaxPage) (i : ChanNo) : Prop :=
  p.chan = some i ∧ c.chans[i].state = .held ∧ c.chans[i].path = .engine l ∧ c.chans[i].dir = .toPath ∧ c.chans[i].slot = p.slot ∧
    (∃ o, c.store.Names p.handle p.slot o) ∧ (∀ y : ChanNo, y < i → c.chans[y].state ≠ .free) ∧ c.PathFreeBut i (.engine l) .toPath

/-- The part once channel `i` has been unbound from page `p` and bound to the page of slot `x`, of `total` strips (R27, R34, R130). -/
abbrev Sys2Proof.Machine.Chip.handsOver (c : Chip) (l : LineNo) (p : FaxPage) (i : ChanNo) (x : SlotNo) (total : Nat) : Chip :=
  { c with
    port := if c.port.holder = some (.chan i) then { c.port with holder := none } else c.port
    store := (c.store.counts p.slot (· - 1)).counts x (· + 1)
    calls := c.calls.set l { c.calls[l] with engineSlips := min 65535 (c.calls[l].engineSlips + c.chans[i].slips) }
    epaths := c.epaths.set l { c.epaths[l] with toBuf := [], under := false }
    chans := c.chans.set i {
      state := .bound, owner := .fax l, slot := x, dir := .toPath, path := .engine l, basePos := 0, cur := 0
      baseCount := 512 * total, remaining := 512 * total, mode := .demand, repeats := 255, repeatsDone := 0, slips := 0
      endCause := .none, draining := false } }

/-- Page `p` becomes the current one, bound to channel `i`, and its first round or pass begins with its first `strips` strips (R130, R131,
R133, R134). -/
abbrev Sys2Proof.Machine.FaxJob.begins (j : FaxJob) (p : FaxPage) (strips : Nat) : FaxJob :=
  { j with
    cur := some p, announced := none, index := j.found, sect := 0, round := 1, retakes := 0, begun := true, repass := false
    pageDone := false, phase := .page, roundOn := true, roundWait := false, wait := none, runs := [], runLeft := 512 * strips, runAt := 0
    strip := [], stripFill := false, marks := Vector.ofFn (fun x : Fin 32 => if x.val < p.total then .needed else .unused) }

/-- ROUND_SENT holds the channel and waits for the receiver's answer. A MAP before the fourth round starts the next round with the NEEDED
strips it lists, all of the section's where it is marked "whole section", one run for each span of them; at the fourth, above 2400, a
retrain DOWN follows. At 2400 the retrain is refused, and the section is given up: the page is PARTIAL and the session ends PAGE_PARTIAL, or
with continue after partial set the next section begins, or LAST follows. TAKEN for a section begins the next one, all its strips NEEDED,
with round 1; TAKEN for the last section leads to LAST; TAKEN for the page records it SENT with PAGE_SENT, and after LAST sends BYE. In
PLAIN ROUND_SENT ends the pass and announces the next page that passes its checks, or LAST; TAKEN after MORE goes on to the announced page,
or ends the session PAGE_PARTIAL where a page told PARTIAL is not to be followed. RETAKE asks a retrain DOWN; refused at 2400, the whole
page is sent again at once; at the third the page is PARTIAL. Another page's answer is discarded. That in PLAIN a RETAKE with count n judges
n strips bad, and what a whole-section MAP makes of the strips TAKEN, is the model's reading (log 24); that the announced page becomes the
current one at the TAKEN is the model's choice between R130 and R133 with R134 (log 37); `sent` is its record of the message awaiting an
answer (log 12); the strips still needed of a PARTIAL page in PLAIN, the end after the third RETAKE, and the UNUSED marks of a section given
up are log 36; the detail of PAGE_SENT is encoded as log 13 says. -/
def Obligations.FaxSending : Prop :=
  ∀ (s : State) (l : LineNo) (j : FaxJob) (p : FaxPage), s.chip.fax[l] = some j → j.abortPending = false → j.role = .send →
    j.cur = some p →
    let c := s.chip
    let g := c.engines[j.engine]
    let noise := c.lines[g.line].noise
    let needed := ((List.finRange 32).filter (fun x => decide (j.marks[x] = .needed))).length
    (∀ i : ChanNo, j.phase = .page → j.mode = some .sectioned → g.state = .running → j.roundOn = true → j.runs = [] → j.runLeft = 0 →
      p.chan = some i → c.chans[i].state = .running → exec (.roundSent l) s = .next (s.but { c with
        chans := c.chans.set i { c.chans[i] with state := .held }
        port := if c.port.holder = some (.chan i) then { c.port with holder := none } else c.port
        fax := c.fax.set l (some { j with roundOn := false, sent := some .endOfRound, roundWait := true, sends := 1 }) })) ∧
    (j.phase = .page → j.roundWait = true →
      (∀ (page sect : Nat) (ns : Option (List Nat)) (flag : Bool), page ≠ p.number ∨ sect ≠ j.sect →
        exec (.map l page sect ns) s = .next s ∧ exec (.taken l page (some sect) flag) s = .next s) ∧
      (∀ ns : Option (List Nat),
        let lists (y : Fin 32) : Bool := match ns with | none => true | some xs => decide (32 * j.sect + y.val ∈ xs)
        let marks : Vector StripMark 32 :=
          Vector.ofFn (fun y => if j.marks[y] = .unused then .unused else if lists y then .needed else .taken)
        let left := ((List.finRange 32).filter (fun y => decide (marks[y] = .needed))).map (fun y => 32 * j.sect + y.val)
        let bad := ((List.finRange 32).filter (fun y => decide (j.marks[y] = .needed) && lists y)).length
        (∀ xs ∈ ns, ∀ y : Fin 32, 32 * j.sect + y.val ∈ xs → j.marks[y] = .needed) →
        (∀ (i : ChanNo) (a n : Nat) (more : List (Nat × Nat)), StripRuns ((a, n) :: more) left → a + n ≤ 8192 → j.mode = some .sectioned →
          j.round < 4 → p.chan = some i → c.chans[i].state = .held → c.chans[i].path = .engine l → c.chans[i].dir = .toPath →
          exec (.map l p.number j.sect ns) s = .next (s.but { c.spans l i a n with
            engines := c.engines.set j.engine (g.strips (needed - bad) bad)
            fax := c.fax.set l (some ({ j with marks := marks, round := j.round + 1 }.roundOf a n more)) })) ∧
        (∀ r : Rate, 4 ≤ j.round → g.state = .running → g.rate = some r → 0 < r.val →
          exec (.map l p.number j.sect ns) s = .next (s.but { c with
            engines := c.engines.set j.engine ((g.strips (needed - bad) bad).asked .down noise c.localMax)
            fax := c.fax.set l (some { j with
              marks := marks, roundWait := false, phase := .training, retrainWanted := false }) })) ∧
        (4 ≤ j.round → g.state = .running → g.rate = some 0 → j.mode = some .sectioned → j.pageDone = false →
          let quit : FaxPage := { p with givenUp := p.givenUp + left.length }
          let quits : FaxJob := { j with
            cur := some quit, marks := marks.map (fun m => if m = .needed then .unused else m), roundWait := false, retrainWanted := false }
          let entry : OutcomeEntry := {
            kind := .partial_, detail := .none, handle := p.handle, number := p.number, total := p.total, resent := min 65535 p.resent
            rate := j.rate, needed := quit.givenUp + (p.total - 32 * (j.sect + 1)) }
          let judged : Vector Engine 2 := c.engines.set j.engine (g.strips (needed - bad) bad)
          (j.opts.goOn = false → exec (.map l p.number j.sect ns) s = .next (s.but { c with
            engines := judged, link := c.link.post l.castSucc .pageSent entry.code
            fax := c.fax.set l (some ({ quits with
              cur := none, outcomes := j.outcomes.take (j.index - 1) ++ entry :: j.outcomes.drop (j.index - 1)
              pagesSent := j.pagesSent + 1 }.saysBye { cls := .abrupt, reason := .pagePartial, cause := .none })) })) ∧
          (∀ i : ChanNo, j.opts.goOn = true → 32 * (j.sect + 1) < p.total → p.total ≤ 8192 → p.chan = some i → c.chans[i].state = .held →
            c.chans[i].path = .engine l → c.chans[i].dir = .toPath →
            exec (.map l p.number j.sect ns) s = .next (s.but {
              c.spans l i (32 * (j.sect + 1)) (min 32 (p.total - 32 * (j.sect + 1))) with
              engines := judged, fax := c.fax.set l (some (quits.sectionOf (j.sect + 1) p.total)) })) ∧
          (j.opts.goOn = true → p.total ≤ 32 * (j.sect + 1) → j.retakes = 0 → j.found = j.pages.length →
            exec (.map l p.number j.sect ns) s = .next (s.but { c with
              engines := judged
              fax := c.fax.set l (some { quits with
                phase := .postpage, pageDone := true, announced := none, sent := some .last, wait := some .last, sends := 1 }) })))) ∧
      (∀ (flag : Bool) (i : ChanNo), 32 * (j.sect + 1) < p.total → p.total ≤ 8192 → p.chan = some i → c.chans[i].state = .held →
        c.chans[i].path = .engine l → c.chans[i].dir = .toPath →
        exec (.taken l p.number (some j.sect) flag) s = .next (s.but {
          c.spans l i (32 * (j.sect + 1)) (min 32 (p.total - 32 * (j.sect + 1))) with
          engines := c.engines.set j.engine (g.strips needed 0), fax := c.fax.set l (some (j.sectionOf (j.sect + 1) p.total)) })) ∧
      (∀ flag : Bool, p.total ≤ 32 * (j.sect + 1) → j.retakes = 0 → j.found = j.pages.length →
        exec (.taken l p.number (some j.sect) flag) s = .next (s.but { c with
          engines := c.engines.set j.engine (g.strips needed 0)
          fax := c.fax.set l (some { j with
            marks := j.marks.map (fun m => if m = .needed then .taken else m), roundWait := false, phase := .postpage, pageDone := true
            announced := none, sent := some .last, wait := some .last, sends := 1 }) }))) ∧
    (j.phase = .postpage → j.wait = some .last →
      (∀ (page : Nat) (flag : Bool), page ≠ p.number → exec (.taken l page none flag) s = .next s ∧
        ∀ bad : Nat, exec (.retake l page bad) s = .next s) ∧
      (j.mode = some .sectioned → p.givenUp = 0 → j.index = 1 → j.outcomes = [] →
        let o : OutcomeEntry := {
          kind := .sent, detail := .none, handle := p.handle, number := p.number, total := p.total, resent := min 65535 p.resent
          rate := j.rate, needed := 0 }
        exec (.taken l p.number none false) s = .next (s.but { c with
          link := c.link.post l.castSucc .pageSent o.code
          fax := c.fax.set l (some ({ j with cur := none, outcomes := [o], pagesSent := j.pagesSent + 1 }.saysBye
            { cls := .normal, reason := .none, cause := .none })) })) ∧
      (∀ (bad : Nat) (r : Rate), j.mode = some .plain → bad ≤ p.total → j.retakes < 2 → g.state = .running → g.rate = some r → 0 < r.val →
        exec (.retake l p.number bad) s = .next (s.but { c with
          engines := c.engines.set j.engine ((g.strips (p.total - bad) bad).asked .down noise c.localMax)
          fax := c.fax.set l (some { j with
            cur := some { p with lastBad := bad }, wait := none, retakes := j.retakes + 1, phase := .training, retrainWanted := false }) })) ∧
      (∀ (bad : Nat) (i : ChanNo), j.mode = some .plain → bad ≤ p.total → j.retakes < 2 → g.state = .running → g.rate = some 0 → p.chan = some i →
        c.chans[i].state = .held → c.chans[i].path = .engine l → c.chans[i].dir = .toPath → 0 < p.total → p.total ≤ 8192 →
        exec (.retake l p.number bad) s = .next (s.but { c.spans l i 0 p.total with
          engines := c.engines.set j.engine (g.strips (p.total - bad) bad)
          fax := c.fax.set l (some ({ j with
            cur := some { p with lastBad := bad }, retakes := j.retakes + 1, retrainWanted := false }.roundOf 0 p.total [])) })) ∧
      (∀ bad : Nat, j.mode = some .plain → bad ≤ p.total → 0 < bad → j.retakes = 2 → j.index = 1 → j.outcomes = [] →
        let o : OutcomeEntry := {
          kind := .partial_, detail := .none, handle := p.handle, number := p.number, total := p.total, resent := min 65535 p.resent
          rate := j.rate, needed := bad }
        exec (.retake l p.number bad) s = .next (s.but { c with
          engines := c.engines.set j.engine (g.strips (p.total - bad) bad)
          link := c.link.post l.castSucc .pageSent o.code
          fax := c.fax.set l (some ({ j with cur := none, outcomes := [o], pagesSent := j.pagesSent + 1 }.saysBye
            { cls := .abrupt, reason := .pagePartial, cause := .none })) }))) ∧
    (let next : Nat := (j.outcomes.filter (fun o => decide (o.kind ≠ .missing))).length + 2
    let page (h : Nat) (x : SlotNo) (o : Obj) (a : PageAttr) (ch : Option ChanNo) : FaxPage :=
      { handle := h, slot := x, number := next, res := a.res, total := (o.length + 511) / 512, chan := ch }
    let done : FaxJob := { j with
      roundOn := false, roundWait := false, phase := .postpage, pageDone := true, sent := some .last, wait := some .last, sends := 1 }
    (∀ i : ChanNo, j.phase = .page → j.mode = some .plain → g.state = .running → j.roundOn = true → j.runs = [] → j.runLeft = 0 →
      p.chan = some i → c.chans[i].state = .running →
      let sends (j' : FaxJob) : Prop := exec (.roundSent l) s = .next (s.but { c with
        chans := c.chans.set i { c.chans[i] with state := .held }
        port := if c.port.holder = some (.chan i) then { c.port with holder := none } else c.port
        fax := c.fax.set l (some j') })
      (j.retakes = 0 → j.found = j.pages.length → sends { done with announced := none }) ∧
      (∀ (h : Nat) (more : List Nat) (x : SlotNo) (o : Obj) (a : PageAttr), j.retakes = 0 → j.pages.drop j.found = h :: more →
        c.Sendable j h x o a → sends { done with
          found := j.found + 1, announced := some (page h x o a none), sent := some (.more next a.res), wait := some (.more next a.res) }) ∧
      (0 < j.retakes → j.announced = none → sends done) ∧
      (∀ q : FaxPage, 0 < j.retakes → j.announced = some q → sends { done with
        sent := some (.more q.number q.res), wait := some (.more q.number q.res) })) ∧
    (∀ (i : ChanNo) (flag : Bool) (h : Nat) (more : List Nat) (x : SlotNo) (o : Obj) (a : PageAttr), j.phase = .page →
      j.roundWait = true → j.mode = some .sectioned → p.total ≤ 32 * (j.sect + 1) → j.retakes = 0 → j.pages.drop j.found = h :: more →
      c.Sendable j h x o a → c.Hands l p i → exec (.taken l p.number (some j.sect) flag) s = .next (s.but {
        c.handsOver l p i x ((o.length + 511) / 512) with
        engines := c.engines.set j.engine (g.strips needed 0)
        fax := c.fax.set l (some { done with
          roundOn := j.roundOn, cur := some { p with chan := none }, marks := j.marks.map (fun m => if m = .needed then .taken else m)
          found := j.found + 1, announced := some (page h x o a (some i)), pageChan := some (h, i)
          sent := some (.more next a.res), wait := some (.more next a.res) }) })) ∧
    (∀ (number : Nat) (res : Resolution) (flag : Bool), j.phase = .postpage → j.wait = some (.more number res) →
      let short : Bool := flag || decide (0 < p.givenUp)
      let entry (needed : Nat) : OutcomeEntry := {
        kind := if short then .partial_ else .sent, detail := .none, handle := p.handle, number := p.number, total := p.total
        resent := min 65535 p.resent, rate := j.rate, needed := if short then needed else 0 }
      let told (needed : Nat) : FaxJob := { j with
        cur := none, outcomes := j.outcomes.take (j.index - 1) ++ entry needed :: j.outcomes.drop (j.index - 1), pagesSent := j.pagesSent + 1 }
      (j.mode = some .sectioned → j.pageDone = true → short = true → j.opts.goOn = false →
        exec (.taken l p.number none flag) s = .next (s.but { c with
          link := c.link.post l.castSucc .pageSent (entry p.givenUp).code
          fax := c.fax.set l (some ((told p.givenUp).saysBye { cls := .abrupt, reason := .pagePartial, cause := .none })) })) ∧
      (∀ (q : FaxPage) (i : ChanNo), j.mode = some .sectioned → j.pageDone = true → short = false ∨ j.opts.goOn = true →
        j.announced = some q → q.chan = some i → c.chans[i].state = .bound → c.chans[i].path = .engine l → c.chans[i].dir = .toPath →
        0 < q.total → exec (.taken l p.number none flag) s = .next (s.but { c with
          link := c.link.post l.castSucc .pageSent (entry p.givenUp).code
          chans := c.chans.set i (c.chans[i].runs (512 * min 32 q.total))
          epaths := c.epaths.set l { c.epaths[l] with toBuf := [], under := false }
          fax := c.fax.set l (some ((told p.givenUp).begins q (min 32 q.total))) })) ∧
      (∀ (q : FaxPage) (i : ChanNo) (x : SlotNo) (o : Obj) (a : PageAttr), j.mode = some .plain → short = false ∨ j.opts.goOn = true →
        j.announced = some q → c.Sendable j q.handle x o a → c.Hands l p i →
        let total := (o.length + 511) / 512
        let heard := if p.lastBad = 0 then p.total else p.lastBad
        total ≤ 8192 → exec (.taken l p.number none flag) s = .next (s.but { c.handsOver l p i x total with
          engines := c.engines.set j.engine (g.strips p.total 0)
          link := c.link.post l.castSucc .pageSent (entry heard).code
          chans := (c.handsOver l p i x total).chans.set i ((c.handsOver l p i x total).chans[i].runs (512 * total))
          fax := c.fax.set l (some { (told heard).begins { q with total := total, chan := some i } total with
            pageChan := some (q.handle, i) }) }))))

/-- A FAX_PAGE being received: page `p` of the job is the OPEN_WRITE object `o` of its slot, to which channel `i` is bound. -/
abbrev Sys2Proof.Machine.Chip.Receives (c : Chip) (l : LineNo) (p : FaxPage) (o : Obj) (a : PageAttr) (i : ChanNo) : Prop :=
  c.store.Names p.handle p.slot o ∧ o.state = .openWrite ∧ o.attr = .page a ∧ 1 ≤ o.users ∧ p.chan = some i ∧
    c.chans[i].state ≠ .free ∧ c.chans[i].slot = p.slot ∧ c.chans[i].path = .engine l

/-- STRIP_JUDGED reports the judgment; a good strip tells the page's total and is passed to the positioned channel, a third one is an
overrun; where the channel has ENDED, or the strip's number names one already stored good, the strip is judged and told, but neither held
nor counted as a slip (R35, R137); STRIP_STORED marks it TAKEN, and a repeat of it that was held is then discarded. END_OF_ROUND answers
TAKEN when no strip of the section is NEEDED, else MAP, "whole section" before a total is known. LAST and MORE close a page that is whole,
owner UNOWNED and UNREAD, with PAGE_RECEIVED and TAKEN, and MORE begins the next page; with the store exhausted they are answered BYE; in
PLAIN, above the quality limit, RETAKE; a page for which no slot is FREE is not begun, and what was counted of the page before starts
afresh. A repeat of MORE, known by its page number, or of LAST gets the same answer, also once a round of the new page has been answered,
and while no new pass has come after a RETAKE so does any. In PLAIN a strip of a pass after a RETAKE counts as resent, one of a first pass
does not. That a repeat of a strip only held is held or lost as any other, and is a duplicate once that strip is stored, is the model's
reading (log 40). The model's choices: a whole-section MAP (log 24), a slip for each strip lost (log 33), the detail of PAGE_RECEIVED (log
13), and `sent` (log 12). -/
def Obligations.FaxReceiving : Prop :=
  ∀ (s : State) (l : LineNo) (j : FaxJob), s.chip.fax[l] = some j → j.abortPending = false → j.role = .receive →
    let c := s.chip
    let g := c.engines[j.engine]
    (∀ p : FaxPage, j.cur = some p → j.phase = .page → g.state = .running → j.mode = some .sectioned →
      (exec (.stripJudged l .bad) s = .next (s.but { c with
        engines := c.engines.set j.engine (g.heard false)
        fax := c.fax.set l (some { j with cur := some { p with between := false, badJudged := p.badJudged + 1 } }) })) ∧
      (∀ (x : Fin 32) (total : Nat) (bs : List Byte) (i : ChanNo),
        let n := 32 * j.sect + x.val
        n < total → total ≤ 8192 → n ∉ p.stored → p.chan = some i →
        (j.strips = [] → j.passing = false → g.line = l → c.chans[i].state = .bound → c.chans[i].draining = false → c.chans[i].path = .engine l → c.chans[i].dir = .fromPath →
          exec (.stripJudged l (.good n total bs)) s = .next (s.but { c with
            engines := c.engines.set j.engine (g.heard true)
            chans := c.chans.set i { c.chans[i] with
              state := .running, basePos := 512 * n, cur := 512 * n, baseCount := 4194304 - 512 * n, remaining := 4194304 - 512 * n
              repeatsDone := 0 }
            epaths := c.epaths.set l { c.epaths[l] with frm := bs, overNow := false }
            fax := c.fax.set l (some { j with
              marks := Vector.ofFn (fun y => if total ≤ 32 * j.sect + y.val then .unused else
                if j.marks[y] = .unused then .needed else j.marks[y])
              cur := some { p with between := false, total := total, told := true }, strips := [(n, bs)], passing := true }) })) ∧
        (c.chans[i].state = .ended → exec (.stripJudged l (.good n total bs)) s = .next (s.but { c with
          engines := c.engines.set j.engine (g.heard true)
          fax := c.fax.set l (some { j with
            marks := Vector.ofFn (fun y => if total ≤ 32 * j.sect + y.val then .unused else
              if j.marks[y] = .unused then .needed else j.marks[y])
            cur := some { p with between := false, total := total, told := true } }) })) ∧
        (j.strips.length = 2 → c.chans[i].state = .running → c.chans[i].draining = false → c.chans[i].owner = .fax l → c.chans[i].dir = .fromPath →
          c.chans[i].path = .engine l → exec (.stripJudged l (.good n total bs)) s = .next (s.but { c with
            engines := c.engines.set j.engine (g.heard false)
            chans := c.chans.set i { c.chans[i] with slips := min 65535 (c.chans[i].slips + 1) }
            link := c.link.post l.castSucc .channelSlip ([b1 i.val, 1, 1, b1 l.val] ++ be2 (min 65535 (c.chans[i].slips + 1)))
            fax := c.fax.set l (some { j with cur := some { p with between := false, badJudged := p.badJudged + 1 } }) })) ∧
        (∀ y : Nat × List Byte, j.strips = [y] → j.passing = true → c.chans[i].state = .running → c.chans[i].draining = false →
          exec (.stripJudged l (.good n total bs)) s = .next (s.but { c with
            engines := c.engines.set j.engine (g.heard true)
            fax := c.fax.set l (some { j with
              marks := Vector.ofFn (fun y => if total ≤ 32 * j.sect + y.val then .unused else
                if j.marks[y] = .unused then .needed else j.marks[y])
              cur := some { p with between := false, total := total, told := true }, strips := [y, (n, bs)] }) }))) ∧
      ((∀ x : Fin 32, j.marks[x] ≠ .needed) → exec (.endOfRound l) s = .next (s.but { c with
        fax := c.fax.set l (some { j with
          sent := some (.taken p.number (some j.sect) false) }) })) ∧
      ((∃ x : Fin 32, j.marks[x] = .needed) →
        let ns := ((List.finRange 32).filter (fun x => decide (j.marks[x] = .needed))).map (fun x => 32 * j.sect + x.val)
        let m : FaxMsg := .map p.number j.sect (if p.told then some ns else none)
        exec (.endOfRound l) s = .next (s.but { c with
          fax := c.fax.set l (some { j with
            resent := j.resent + ns.length, cur := some { p with resent := p.resent + ns.length }
            sent := some m }) })) ∧
      (∀ (x : Fin 32) (total : Nat) (bs : List Byte), 32 * j.sect + x.val < total → total ≤ 8192 → 32 * j.sect + x.val ∈ p.stored →
        exec (.stripJudged l (.good (32 * j.sect + x.val) total bs)) s = .next (s.but { c with
          engines := c.engines.set j.engine (g.heard true)
          fax := c.fax.set l (some { j with
            marks := Vector.ofFn (fun y => if total ≤ 32 * j.sect + y.val then .unused else
              if j.marks[y] = .unused then .needed else j.marks[y])
            cur := some { p with between := false, total := total, told := true } }) }))) ∧
    (∀ (p : FaxPage) (n : Nat) (bs : List Byte) (rest : List (Nat × List Byte)), j.cur = some p → j.strips = (n, bs) :: rest →
      (∀ y ∈ rest, y.1 = n) → j.passing = true → c.epaths[l].frm = [] →
      exec (.stripStored l) s = .next (s.but { c with
        fax := c.fax.set l (some { j with
          strips := [], passing := false, marks := Vector.ofFn (fun y => if n = 32 * j.sect + y.val then .taken else j.marks[y])
          cur := some { p with stored := p.stored ++ [n], ever := true } }) })) ∧
    (j.phase = .page → j.cur = none → g.state = .running → j.mode = some .sectioned → exec (.endOfRound l) s = .next (s.but { c with
      fax := c.fax.set l (some { j with
        sent := some (.taken j.index (some j.sect) false) }) })) ∧
    (j.phase = .page → j.storeFull = true → j.lastDone = false → (∀ p ∈ j.cur, p.between = false) → ∀ (page : Nat) (res : Resolution), j.index < page →
      let bye := State.but s { c with
        fax := c.fax.set l (some (j.saysBye { cls := .abrupt, reason := .storeFull, cause := .storeFull })) }
      exec (.last l) s = .next bye ∧ exec (.more l page res) s = .next bye) ∧
    (j.phase = .page ∨ j.phase = .postpage →
      let repeats (m : FaxMsg) : State := s.but { c with fax := c.fax.set l (some { j with sent := some m }) }
      (∀ (page : Nat) (res : Resolution) (m : FaxMsg) (later before : List (Option Nat × FaxMsg)), page ≤ j.index →
        j.answers = later ++ (some page, m) :: before → (∀ a ∈ later, a.1 ≠ some page) →
          exec (.more l page res) s = .next (repeats m)) ∧
      (∀ (m : FaxMsg) (later before : List (Option Nat × FaxMsg)), j.lastDone = true → j.answers = later ++ (none, m) :: before →
        (∀ a ∈ later, a.1 ≠ none) → exec (.last l) s = .next (repeats m)) ∧
      (∀ (p : FaxPage) (a : Option Nat) (m : FaxMsg) (before : List (Option Nat × FaxMsg)), j.cur = some p → p.between = true →
        j.answers = (a, m) :: before →
          (∀ (page : Nat) (res : Resolution), j.index < page → exec (.more l page res) s = .next (repeats m)) ∧
          (j.lastDone = false → exec (.last l) s = .next (repeats m)))) ∧
    (∀ p : FaxPage, j.phase = .page → j.cur = some p → j.mode = some .plain → j.storeFull = false → j.lastDone = false → p.between = false → p.told = true →
      j.opts.limit < p.total - p.stored.length → j.retakes < 2 → ∀ (page : Nat) (res : Resolution), j.index < page →
      let bad := p.total - p.stored.length
      let again (a : Option Nat) := State.but s { c with
        fax := c.fax.set l (some { j with
          phase := .postpage, retakes := j.retakes + 1, passBad := bad, cur := some { p with stored := [], badJudged := 0, lastBad := bad, between := true }
          sent := some (.retake p.number bad), answers := (a, .retake p.number bad) :: j.answers, wait := none }) }
      exec (.last l) s = .next (again none) ∧ exec (.more l page res) s = .next (again (some page))) ∧
    (∀ (p : FaxPage) (o : Obj) (a : PageAttr) (i : ChanNo) (r : Rate) (mode : FaxMode), j.phase = .page → j.cur = some p → j.mode = some mode →
      j.storeFull = false → p.between = false → p.ever = true → p.told = true → p.stored.length = p.total → j.rate = some r → c.Receives l p o a i →
      let closed : Slot := { c.store.slots[p.slot] with obj := some { o with
        state := .closed, owner := .unowned, users := o.users - 1
        attr := .page { a with strips := p.total, badStrips := 0, rate := some r, partialFlag := false, unread := true } } }
      let entry : OutcomeEntry := {
        kind := .received, handle := p.handle, number := p.number, total := p.total, resent := min 65535 p.resent, rate := some r }
      let told : Link := c.link.post l.castSucc .pageReceived (be2 p.handle ++ [b1 p.number] ++ be2 p.total ++ [0, 0, 0])
      let slipped : Call := { c.calls[l] with engineSlips := min 65535 (c.calls[l].engineSlips + c.chans[i].slips) }
      (j.lastDone = false → ∃ t : State, exec (.last l) s = .next t ∧ t.pending = s.pending ∧ t.chip.link = told ∧
        t.chip.store = { c.store with slots := c.store.slots.set p.slot closed } ∧ t.chip.chans[i].state = .free ∧
        (∀ x : ChanNo, x ≠ i → t.chip.chans[x] = c.chans[x]) ∧ t.chip.calls = c.calls.set l slipped ∧ t.chip.lines = c.lines ∧
        t.chip.engines = c.engines ∧ t.chip.fax = c.fax.set l (some { j with
          cur := none, strips := [], passing := false, pagesRecv := j.pagesRecv + 1, outcomes := j.outcomes ++ [entry], lastDone := true, phase := .postpage
          passBad := if mode = .plain then 0 else j.passBad
          sent := some (.taken p.number none false), answers := (none, .taken p.number none false) :: j.answers, wait := none })) ∧
      (∀ (page : Nat) (res : Resolution) (x : SlotNo), j.index < page → j.pages.length < 255 → c.store.LowestFree x →
        (∀ y : ChanNo, y < i → c.chans[y].state ≠ .free) → (∀ y : ChanNo, y ≠ i → c.chans[y].state = .free ∨ c.chans[y].path ≠ .engine l) →
        ∃ t : State, exec (.more l page res) s = .next t ∧ t.pending = s.pending ∧ t.chip.link = told ∧
          t.chip.store = { c.store with slots := (c.store.slots.set p.slot closed).set x { c.store.slots[x] with obj := some {
            state := .openWrite, owner := .line l, chain := [], length := 0, users := 1, created := c.clock
            attr := .page {
              page := page, res := res, rate := some r, sectioned := decide (mode = .sectioned), strips := 0, badStrips := 0, partialFlag := false
              unread := false, ident := j.remote.ident } } } } ∧
          t.chip.chans = c.chans.set i {
            state := .bound, owner := .fax l, slot := x, dir := .fromPath, path := .engine l, basePos := 0, cur := 0
            baseCount := 4194304, remaining := 4194304, mode := .demand, repeats := 0, repeatsDone := 0, slips := 0, endCause := .none
            draining := false } ∧
          t.chip.calls = c.calls.set l slipped ∧ t.chip.lines = c.lines ∧ t.chip.engines = c.engines ∧
          t.chip.fax = c.fax.set l (some { j with
            outcomes := j.outcomes ++ [entry], pagesRecv := j.pagesRecv + 1, index := page
            pages := j.pages ++ [16 * x.val + c.store.slots[x].gen.toNat], sect := 0, passBad := 0, retakes := 0
            marks := Vector.replicate 32 .needed, strips := [], passing := false
            pageChan := some (16 * x.val + c.store.slots[x].gen.toNat, i)
            cur := some {
              handle := 16 * x.val + c.store.slots[x].gen.toNat, slot := x, number := page, res := res, chan := some i }
            sent := some (.taken p.number none false), answers := (some page, .taken p.number none false) :: j.answers
            wait := none })) ∧
      (∀ (page : Nat) (res : Resolution), j.index < page → j.pages.length < 255 → (∀ x : SlotNo, c.store.slots[x].obj ≠ none) →
        ∃ t : State, exec (.more l page res) s = .next t ∧ t.pending = s.pending ∧ t.chip.link = told ∧
          t.chip.store = { c.store with slots := c.store.slots.set p.slot closed } ∧ t.chip.chans[i].state = .free ∧
          (∀ x : ChanNo, x ≠ i → t.chip.chans[x] = c.chans[x]) ∧ t.chip.calls = c.calls.set l slipped ∧ t.chip.lines = c.lines ∧
          t.chip.engines = c.engines ∧ t.chip.fax = c.fax.set l (some { j with
            cur := none, outcomes := j.outcomes ++ [entry], pagesRecv := j.pagesRecv + 1, index := page, sect := 0, passBad := 0
            retakes := 0, marks := Vector.replicate 32 .needed, strips := [], passing := false, storeFull := true, fullDetail := .noSlot
            sent := some (.taken p.number none false), answers := (some page, .taken p.number none false) :: j.answers
            wait := none }))) ∧
    (∀ p : FaxPage, j.cur = some p → j.phase = .page → g.state = .running → j.mode = some .plain →
      exec (.stripJudged l .bad) s = .next (s.but { c with
        engines := c.engines.set j.engine (g.heard false)
        fax := c.fax.set l (some { j with
          resent := if 0 < j.retakes then j.resent + 1 else j.resent
          cur := some { p with
            between := false, badJudged := p.badJudged + 1, resent := if 0 < j.retakes then p.resent + 1 else p.resent } }) }))

/-- A fax call with its job: the line is OFF_HOOK, engine `e` serves it, and its Dial or Answer `g` is in execution. -/
abbrev Sys2Proof.Machine.Chip.FaxHeld (c : Chip) (l : LineNo) (e : EngineNo) (j : FaxJob) (g : Long) : Prop :=
  c.calls[l].purpose = some .fax ∧ c.calls[l].engine = some e ∧ c.engines[e].line = l ∧
    c.engines[e].state ≠ .free ∧ c.units[e].state = .none ∧ c.seqs[l].state = .none ∧ c.calls[l].record = none ∧ c.fax[l] = some j ∧
    j.engine = e ∧ j.abortPending = false ∧ c.lines[l].resetTag = none ∧ c.lines[l].hook = .offHook ∧ c.calls[l].long = some g ∧
    (g.kind = .dial ∨ g.kind = .answer) ∧ g.handle = none

/-- A connected fax call. -/
abbrev Sys2Proof.Machine.Chip.FaxUp (c : Chip) (l : LineNo) (e : EngineNo) (j : FaxJob) (g : Long) : Prop :=
  c.calls[l].state = .connected ∧ c.FaxHeld l e j g

/-- A connected fax call between pages: its job has no current page, and no channel is bound for it. -/
abbrev Sys2Proof.Machine.Chip.FaxCall (c : Chip) (l : LineNo) (e : EngineNo) (j : FaxJob) (g : Long) : Prop :=
  c.FaxUp l e j g ∧ j.cur = none ∧ ∀ i : ChanNo, c.chans[i].state = .free ∨ c.chans[i].owner.line ≠ some l

/-- A connected fax call that sends page `p`, the object `o`, in SECTIONED through channel `i`, and not all of its sections are done. -/
abbrev Sys2Proof.Machine.Chip.FaxSends (c : Chip) (l : LineNo) (e : EngineNo) (j : FaxJob) (g : Long) (p : FaxPage) (o : Obj) (i : ChanNo) : Prop :=
  c.FaxUp l e j g ∧ j.role = .send ∧ j.phase = .page ∧ j.mode = some .sectioned ∧ j.pageDone = false ∧ j.cur = some p ∧ p.chan = some i ∧
    c.store.Names p.handle p.slot o ∧ 1 ≤ o.users ∧ c.chans[i].state ≠ .free ∧ c.chans[i].owner = .fax l ∧ c.chans[i].slot = p.slot ∧
    c.chans[i].path = .engine l ∧ ∀ x : ChanNo, x ≠ i → c.chans[x].state = .free ∨ c.chans[x].owner.line ≠ some l

/-- What the end of such a session leaves (R135, R142, R145), from the link `k0` as it stands before the reply: the reply with class, reason
and the session's record, then the release with its cause, the counters handed over, the job gone with its last message shown
(log 12), the engine FREE and the line ON_HOOK. -/
abbrev Sys2Proof.Machine.FaxEnded (k0 : Link) (s t : State) (l : LineNo) (e : EngineNo) (j : FaxJob) (g : Long) (cls : Cls) (reason cause : Reason) :
    Prop :=
  let k := t.chip.calls[l]
  t.pending = s.pending ∧ k.state = .releasing ∧ k.cause = some cause ∧ k.engine = none ∧ k.long = none ∧
    k.pagesSent = min 255 j.pagesSent ∧ k.pagesRecv = min 255 j.pagesRecv ∧ k.resent = min 65535 j.resent ∧
    t.chip.fax = s.chip.fax.set l none ∧ t.chip.engines[e].state = .free ∧ t.chip.lines[l].hook = .onHook ∧
    (k0.out ++ [{
      kind := 2, line := b1 l.val, tag := g.tag, code := g.kind.code
      body := [cls.code, reason.code] ++ FaxJob.record j }]) <+: t.chip.link.out ∧
    t.chip.link.reserved = k0.reserved - 1 ∧ t.chip.faxLast = s.chip.faxLast.set l j.sent ∧
    (∀ m : LineNo, m ≠ l → t.chip.lines[m] = s.chip.lines[m] ∧ t.chip.calls[m] = s.chip.calls[m])

/-- The result record of a fax session (R185): mode, rate, the remote identifier, the number of outcomes, the index of the first listed, the
entry count, the last 16 entries of 12 bytes each, and where a page could not be begun the reason (R142, log 15). FAX_MESSAGE_TIMEOUT and
ROUND_ANSWER_TIMEOUT send again, three times in all, and then end the session LINK_FAILED; so does CAPS_WAIT_TIMEOUT;
RECEIVER_TRAIN_WAIT_EXPIRY ends it TRAIN_FAILED. BYE in answer to the job's own ends the session as it was to end; any other is answered and
ends it REMOTE_CLEARED, or NORMAL after LAST and TAKEN. A page in progress ends with the session, PARTIAL with PAGE_SENT, and its channel is
unbound. LINE_RESET ends a session between pages at once, and so the wait for BYE of a Hang Up, whose cause stands: the long request ABRUPT
LINE_RESET with its record first (R61, R144). The last message of the session stays shown (log 12). The fax record of the reply is laid out
as logs 13 and 15 say. A pending Abort sends BYE in place of a CAPS sent again (log 26). A job's own ending never has cause HUNG_UP, and
here it has not. The end of the call leaves the LINE_LOST timer as logs 19 and 5 say. -/
def Obligations.FaxWaitsAndEnds : Prop :=
  (∀ j : FaxJob,
    let total := j.outcomes.length
    let entry (o : OutcomeEntry) : List Byte :=
      [match o.kind with | .sent => 0 | .partial_ => 1 | .missing => 2 | .received => 3, o.detail.code, b1 (o.handle / 256), b1 o.handle,
        b1 o.number, b1 (o.total / 256), b1 o.total, b1 (o.resent / 256), b1 o.resent,
        match o.rate with | some r => b1 (r.val + 1) | none => 0, b1 (o.needed / 256), b1 o.needed]
    let first : List Byte := [match j.mode with | some .sectioned => 0 | some .plain => 1 | none => 2,
      match j.rate with | some r => b1 (r.val + 1) | none => 0]
    j.record = first ++ optStr j.remote.ident
      ++ [b1 total, b1 (total - 16 + 1), b1 (min 16 total)] ++ ((j.outcomes.drop (total - 16)).map entry).flatten
      ++ (if j.fullDetail = .none then [] else [j.fullDetail.code])) ∧
  ∀ (s : State) (l : LineNo) (j : FaxJob), s.chip.fax[l] = some j →
    let c := s.chip
    (j.wait = none → exec (.faxMessageTimeout l) s = .next s) ∧
    (∀ m : FaxMsg, c.calls[l].state = .connected → j.wait = some m → j.sends < 3 →
      (j.abortPending = false ∨ m = .bye → exec (.faxMessageTimeout l) s = .next (s.but { c with
        fax := c.fax.set l (some { j with sent := some m, sends := j.sends + 1 }) })) ∧
      (∀ (r : Rate) (x y : Bool) (ident : Option (List Byte)), j.abortPending = true → m = .caps r x y ident → j.role = .receive → j.cur = none →
        exec (.faxMessageTimeout l) s = .next (s.but { c with
          fax := c.fax.set l (some (j.saysBye { cls := .abrupt, reason := .aborted, cause := .aborted })) }))) ∧
    (j.role = .send → j.phase = .page → j.roundWait = true → j.sends < 3 → exec (.roundAnswerTimeout l) s = .next (s.but { c with
      fax := c.fax.set l (some { j with sent := some .endOfRound, sends := j.sends + 1 }) })) ∧
    (∀ (e : EngineNo) (g : Long), c.FaxCall l e j g →
      let endsAs (j : FaxJob) (i : Instr) (cls : Cls) (reason cause : Reason) : Prop :=
        ∃ t : State, exec i s = .next t ∧ FaxEnded c.link s t l e j g cls reason cause ∧ t.chip.chans = c.chans ∧ t.chip.store = c.store
      let ends := endsAs j
      let answers := endsAs { j with sent := some .bye }
      (∀ n : FaxEnd, j.wait = some .bye → j.ending = some n → n.cause ≠ .hungUp → ends (.bye l) n.cls n.reason n.cause) ∧
      (j.wait ≠ some .bye → (j.role = .send ∧ j.phase ≠ .postpage) ∨ (j.role = .receive ∧ j.lastDone = false) →
        answers (.bye l) .abrupt .remoteCleared .remoteCleared) ∧
      (j.wait ≠ some .bye → j.role = .receive → j.lastDone = true → answers (.bye l) .normal .none .remoteCleared) ∧
      (∀ m : FaxMsg, j.wait = some m → m ≠ .bye → 3 ≤ j.sends → ends (.faxMessageTimeout l) .abrupt .linkFailed .linkFailed) ∧
      (∀ n : FaxEnd, j.wait = some .bye → j.ending = some n → n.cause ≠ .hungUp → 3 ≤ j.sends → ends (.faxMessageTimeout l) n.cls n.reason n.cause) ∧
      (j.role = .send → j.phase = .preamble → ends (.capsWaitTimeout l) .abrupt .linkFailed .linkFailed) ∧
      (j.role = .receive → j.phase = .training → j.trainWait = true → ends (.receiverTrainWaitExpiry l) .abrupt .trainFailed .trainFailed) ∧
      (j.role = .send → j.phase = .page → j.roundWait = true → 3 ≤ j.sends → ends (.roundAnswerTimeout l) .abrupt .linkFailed .linkFailed)) ∧
    (∀ (e : EngineNo) (g : Long) (r : Request) (rest : List Request) (cause : Reason), c.FaxHeld l e j g → j.cur = none →
      (∀ i : ChanNo, c.chans[i].state = .free ∨ c.chans[i].owner.line ≠ some l) → Asked s r rest 0x23 (lineField l) [] →
      c.calls[l].state = .connected ∧ cause = .lineReset ∨ c.calls[l].state = .releasing ∧ c.calls[l].forced = false ∧ c.calls[l].cause = some cause →
      ∃ t : State, exec .lineReset s = .next t ∧
        FaxEnded { c.link with inq := rest } s t l e j g .abrupt .lineReset cause ∧ t.chip.chans = c.chans ∧ t.chip.store = c.store ∧
        t.chip.lines[l].resetTag = some r.tag) ∧
    (∀ (e : EngineNo) (g : Long) (p : FaxPage) (o : Obj) (i : ChanNo), c.FaxSends l e j g p o i →
      let left := ((List.finRange 32).filter (fun x => decide (j.marks[x] = .needed))).length + (p.total - 32 * (j.sect + 1))
      let entry : OutcomeEntry := {
        kind := .partial_, detail := .none, handle := p.handle, number := p.number, total := p.total, resent := min 65535 p.resent
        rate := j.rate, needed := p.givenUp + left }
      let stops (m : Option FaxMsg) (i' : Instr) (reason : Reason) : Prop :=
        ∃ t : State, exec i' s = .next t ∧
          FaxEnded (c.link.post l.castSucc .pageSent entry.code) s t l e { j with
            cur := none, outcomes := j.outcomes.take (j.index - 1) ++ entry :: j.outcomes.drop (j.index - 1)
            pagesSent := j.pagesSent + 1, sent := m } g .abrupt reason reason ∧
          t.chip.calls[l].engineSlips = min 65535 (c.calls[l].engineSlips + c.chans[i].slips) ∧
          t.chip.chans[i].state = .free ∧ (∀ x : ChanNo, x ≠ i → t.chip.chans[x] = c.chans[x]) ∧
          t.chip.store = { c.store with slots := c.store.slots.set p.slot { c.store.slots[p.slot] with
            obj := some { o with users := o.users - 1 } } }
      (j.roundWait = true → 3 ≤ j.sends → stops j.sent (.roundAnswerTimeout l) .linkFailed) ∧
      (j.wait ≠ some .bye → stops (some .bye) (.bye l) .remoteCleared))

/-! ## Voice mail (08_voice_mail.md) -/

/-- SET_MAILBOX replaces the fields it names, all or none, and answers with the mailbox record of 11.5, in which an absent
code is 0 and four FFh bytes (log 28) and the digits of a present one are ASCII characters (the model's choice, log 39), cut after byte 18
(the model's reading of "less its list", log 38); SET_MESSAGE_STATUS sets the status of a CLOSED VOICE_MESSAGE, with the new count of the
mailbox whose list names it; SET_GREETING makes the greeting absent, or a CLOSED VOICE_CLIP. -/
def Obligations.MailboxRequests : Prop :=
  ∀ (s : State) (r : Request) (rest : List Request),
    let c := s.chip
    let refused (i : Instr) (x : Byte) : Prop := exec i s = .next (s.but (c.repliedTo r rest [2, x]))
    (∀ (number en q1 q0 x1 x0 v : Byte) (code : List Byte), code.length ≤ 240 →
      Asked s r rest 0x50 0x0F ([number, en, b1 code.length] ++ code ++ [q1, q0, x1, x0, v]) →
      15 < number.toNat ∨ (∃ x ∈ code, x.toNat < 0x30 ∨ 0x39 < x.toNat) → refused .setMailbox 3) ∧
    (∀ (m : MailboxNo) (en q1 q0 x1 x0 v : Byte) (code : List (Fin 10)),
      let q := 256 * q1.toNat + q0.toNat
      let x := 256 * x1.toNat + x0.toNat
      let b := c.mailboxes[m]
      let ok : Prop := en.toNat ≤ 1 ∧ (code = [] ∨ code.length = 4) ∧ 16 ≤ q ∧ q ≤ 8192 ∧ 10 ≤ x ∧ x ≤ 300 ∧ 2 ≤ v.toNat ∧ v.toNat ≤ 10
      code.length ≤ 16 →
      Asked s r rest 0x50 0x0F ([BitVec.ofNat 8 m.val, en, b1 code.length] ++ code.map digitChar ++ [q1, q0, x1, x0, v]) →
      (ok → exec .setMailbox s = .next (s.but { c with
        mailboxes := c.mailboxes.set m { b with
          enabled := decide (en = 1), code := if code = [] then none else some code, quota := q, maxLen := x, silenceEnd := v.toNat }
        link := c.link.answered r rest ([0, 0, BitVec.ofNat 8 m.val, en] ++ (if code = [] then [0, 0xFF, 0xFF, 0xFF, 0xFF]
          else 1 :: code.map digitChar) ++ optHandle b.greeting ++ [q1, q0, x1, x0, v] ++ be2 b.used
          ++ [b1 b.newCount, b1 b.recordings, b1 b.list.length]) })) ∧
      (¬ ok → refused .setMailbox 3)) ∧
    (∀ h1 h0 v : Byte, Asked s r rest 0x52 0x0F [h1, h0, v] →
      let h := 256 * h1.toNat + h0.toNat
      (c.store.Stale h → refused .setMessageStatus 5) ∧
      (∀ (i : SlotNo) (o : Obj), c.store.Names h i o → o.state ≠ .closed ∨ o.attr.kindCode ≠ 1 ∨ 2 < v.toNat →
        refused .setMessageStatus 3) ∧
      (∀ (i : SlotNo) (o : Obj) (m : MailboxNo) (caller : Caller) (l : LineNo) (old now : MsgStatus), c.store.Names h i o →
        o.state = .closed → o.attr = .message caller l old → o.owner = .mailbox m → v = now.code →
        let listed : Bool := decide (h ∈ c.mailboxes[m].list)
        exec .setMessageStatus s = .next (s.but { c with
          store := { c.store with slots := c.store.slots.set i { c.store.slots[i] with
            obj := some { o with attr := .message caller l now } } }
          mailboxes := c.mailboxes.set m { c.mailboxes[m] with
            newCount := if listed = true then c.mailboxes[m].newCount - (if old = .new then 1 else 0) + (if now = .new then 1 else 0)
              else c.mailboxes[m].newCount }
          link := c.link.answered r rest [0, 0, old.code, now.code] }))) ∧
    (∀ m h1 h0 : Byte, Asked s r rest 0x53 0x0F [m, h1, h0] →
      let h := 256 * h1.toNat + h0.toNat
      (h = 65535 → 15 < m.toNat → refused .setGreeting 3) ∧
      (∀ b : MailboxNo, h = 65535 → m = BitVec.ofNat 8 b.val → exec .setGreeting s = .next (s.but { c with
        mailboxes := c.mailboxes.set b { c.mailboxes[b] with greeting := none }, link := c.link.answered r rest [0, 0] })) ∧
      (h ≠ 65535 → c.store.Stale h → refused .setGreeting 5) ∧
      (∀ (i : SlotNo) (o : Obj), h ≠ 65535 → c.store.Names h i o →
        (o.state ≠ .closed ∨ o.attr ≠ .clip ∨ 15 < m.toNat → refused .setGreeting 3) ∧
        (∀ b : MailboxNo, o.state = .closed → o.attr = .clip → m = BitVec.ofNat 8 b.val → exec .setGreeting s = .next (s.but { c with
          mailboxes := c.mailboxes.set b { c.mailboxes[b] with greeting := some h }, link := c.link.answered r rest [0, 0] }))))

/-- The ends of voice mail's tones and timers: GREETING_TONE_END goes on to the record tone, or to the closing tones without a
recording; RECORD_TONE_END makes the start checks and begins the recording; CLOSING_TONES_END releases the call with cause NONE;
ERROR_TONE_END goes on, or after the third wrong code posts REMOTE_ACCESS and releases; PROMPT_TONE_END, DIGIT_PREFIX_TIMEOUT,
ACCESS_DIGIT_TIMEOUT, REVIEW_IDLE_TIMEOUT. The end of a timer that does not run, or outside the timer's state, does nothing. That each
end is a command, taken whenever its tone sounds or its timer runs, is the model's choice (logs 1 and 6); that the digit timer starts
afresh with a wrong code, also one that is its own expiry, runs while the error tone sounds, and is stopped by the third, is log 38;
that the timers are kept in ms is log 5; the LINE_LOST timer at ON_HOOK is logs 19 and 5; the condition's number in FAULT_GONE is log 39. -/
def Obligations.VoiceTones : Prop :=
  ∀ (s : State) (l : LineNo),
    let c := s.chip
    let q := c.seqs[l]
    let k := c.calls[l]
    let seq (i : Instr) (q' : PlanSeq) : Prop := exec i s = .next (s.but { c with seqs := c.seqs.set l q' })
    let off : Timer := { run := false, ms := 0 }
    (q.state = .greeting → q.tone = .greeting → q.greetChan = none → exec (.greetingToneEnd l) s = .next (s.but { c with
      seqs := c.seqs.set l { q with
        opening := .empty, state := if q.greetingOnly then .closing else .tone, tone := if q.greetingOnly then .closing else .record
        prefixTimer := off, idleTimer := if q.greetingOnly then off else q.idleTimer }
      calls := c.calls.set l { k with window := if k.window = .greeting then .after else k.window } })) ∧
    (q.state = .tone → q.tone = .record →
      let m := q.mailbox
      let b := c.mailboxes[m]
      (b.enabled = false ∨ 32 ≤ b.list.length + b.recordings ∨ b.quota ≤ b.used ∨ c.store.low = true →
        seq (.recordToneEnd l) { q with state := .closing, tone := .closing, idleTimer := off }) ∧
      (∀ (i : SlotNo) (ch : ChanNo), b.enabled = true → b.list.length + b.recordings < 32 → b.used < b.quota → c.store.low = false →
        c.store.LowestFree i → c.PathFree (.codec l) .fromPath → c.LowestFreeChan ch → 1 ≤ b.maxLen → b.maxLen ≤ 300 →
        let h := 16 * i.val + c.store.slots[i].gen.toNat
        exec (.recordToneEnd l) s = .next (s.but { c with
          store := { c.store with slots := c.store.slots.set i { c.store.slots[i] with obj := some {
            state := .openWrite, owner := .mailbox m, chain := [], length := 0, users := 1, created := c.clock
            attr := .message q.caller l .new } } }
          chans := c.chans.set ch (codecChan (.voiceMail l) i .fromPath l (4000 * b.maxLen) 0)
          codecs := c.codecs.set l { c.codecs[l] with buf := { c.codecs[l].buf with frm := [], overNow := false } }
          mailboxes := c.mailboxes.set m { b with recordings := b.recordings + 1 }
          seqs := c.seqs.set l { q with
            state := .recording, tone := .none
            recording := some { handle := h, slot := i, chan := ch, deleted := false, cause := none, maxLen := b.maxLen
                                silenceEnd := b.silenceEnd, det := {} } } }))) ∧
    (∀ c' : Chip, c' = { c with seqs := c.seqs.set l {} } → k.state = .connected → c'.Bare l →
      (q.state = .closing → q.tone = .closing → exec (.closingTonesEnd l) s = .next (s.but (c'.tornDown l .none false {}))) ∧
      (q.state = .access → q.tone = .error → 3 ≤ q.wrong → exec (.errorToneEnd l) s = .next (s.but
        (Chip.tornDown { c' with link := c.link.post l.castSucc .remoteAccess ([b1 q.target.val, 1, b1 q.wrong] ++ Caller.code q.caller) }
          l .none false {})))) ∧
    (q.tone = .error → (q.state = .access ∧ q.wrong < 3) ∨ q.state = .review → seq (.errorToneEnd l) { q with tone := .none }) ∧
    (q.tone = .entry ∨ q.tone = .prompt ∨ q.tone = .endOfList → seq (.promptToneEnd l) { q with tone := .none }) ∧
    (q.state = .greeting → q.prefixTimer.run = true → seq (.digitPrefixTimeout l) { q with opening := .empty, prefixTimer := off }) ∧
    (q.state = .access → q.wrong < 3 → q.digitTimer.run = true → seq (.accessDigitTimeout l) { q with
      wrong := q.wrong + 1, entered := [], tone := .error, digitTimer := if q.wrong = 2 then off else { run := true, ms := 10000 } }) ∧
    (q.state = .review → q.tone = .none → q.playChan = none → q.idleTimer.run = true → seq (.reviewIdleTimeout l) { q with
      state := .closing, tone := .closing, idleTimer := off }) ∧
    (q.state ≠ .greeting ∨ q.prefixTimer.run = false → exec (.digitPrefixTimeout l) s = .next s) ∧
    (q.state ≠ .access ∨ q.digitTimer.run = false → exec (.accessDigitTimeout l) s = .next s) ∧
    (q.state ≠ .review ∨ q.tone ≠ .none ∨ q.playChan ≠ none ∨ q.idleTimer.run = false → exec (.reviewIdleTimeout l) s = .next s)

/-- DETECTOR_INTERVAL judges 50 ms of a recording: below noise floor + 6 dB it is silent and lengthens both runs, with a tone
the empty run goes on and the silence run ends, any other sound ends both; when the silence run reaches the silence end, the
recording ends with SILENCE and its channel drains. The same detector watches a Record. The interval's level is the command's
operand (log 1). -/
def Obligations.DetectorInterval : Prop :=
  ∀ (s : State) (l : LineNo) (r : Recording) (level : Int) (tone : Bool),
    let c := s.chip
    let q := c.seqs[l]
    let k := c.calls[l]
    r.cause = none → c.chans[r.chan].path = .codec l →
      let at_ := c.chans[r.chan].cur + c.codecs[l].buf.frm.length
      let silent : Prop := level < c.lines[l].noise + 6
      let start : Nat := (r.det.silence.map Prod.fst).getD r.det.from_
      let run : Nat := (r.det.silence.map Prod.snd).getD 0 + 1
      let heard (d : Detector) : Recording := { r with det := d }
      let quiet : Detector := { from_ := at_, silence := some (start, run), empty := some (r.det.empty.getD r.det.from_) }
      let toned : Detector := { from_ := at_, silence := none, empty := some (r.det.empty.getD r.det.from_) }
      let loud : Detector := { from_ := at_, silence := none, empty := none }
      (q.recording = some r →
        let goes (r' : Recording) : Prop := exec (.detectorInterval l level tone) s = .next (s.but { c with
          seqs := c.seqs.set l { q with recording := some r' } })
        (silent → r.silenceEnd = 0 ∨ run < 20 * r.silenceEnd → goes (heard quiet)) ∧
        (¬ silent → tone = true → goes (heard toned)) ∧
        (¬ silent → tone = false → goes (heard loud)) ∧
        (silent → 0 < r.silenceEnd → 20 * r.silenceEnd ≤ run → c.chans[r.chan].state = .running → c.chans[r.chan].dir = .fromPath →
          c.codecs[l].buf.frm ≠ [] → exec (.detectorInterval l level tone) s = .next (s.but { c with
            seqs := c.seqs.set l { q with recording := some { heard quiet with cause := some .silence } }
            chans := c.chans.set r.chan { c.chans[r.chan] with draining := true } }))) ∧
      (q.recording = none → k.record = some r →
        let goes (r' : Recording) : Prop := exec (.detectorInterval l level tone) s = .next (s.but { c with
          calls := c.calls.set l { k with record := some r' } })
        (silent → r.silenceEnd = 0 ∨ run < 20 * r.silenceEnd → goes (heard quiet)) ∧
        (¬ silent → tone = true → goes (heard toned)) ∧
        (¬ silent → tone = false → goes (heard loud)))

/-! ## Indicator outputs (09_indicator_outputs.md) -/

/-- The value of a tree by the sources it includes (R169): false if it includes none, else ANY or ALL of them. -/
abbrev Sys2Proof.Machine.Chip.lit (c : Chip) (sources : BitVec 29) (all : Bool) : Bool :=
  if all then decide (sources ≠ 0) && decide (∀ n : Fin 29, sources.getLsbD n.val = true → c.source n = true)
  else decide (∃ n : Fin 29, sources.getLsbD n.val = true ∧ c.source n = true)

/-- GET_INDICATORS changes no state: its reply is NORMAL and carries the four trees, the values of the 29 sources and of the
four outputs, each as it stands. SET_INDICATOR replaces one output's tree whole and answers with it and the output's new
value. The sources are those of R168; a tree's value is that of R169; an output is active while its tree is true (R169), and
only after initialisation has ended (R172). -/
def Obligations.Indicators : Prop :=
  ∀ (s : State) (r : Request) (rest : List Request),
    let c := s.chip
    (Asked s r rest 0x59 0x0F [] →
      let tree (t : Tree) : List Byte := be4 t.sources.toNat ++ [if t.all then 1 else 0]
      exec .getIndicators s = .next (s.but (c.repliedTo r rest (0 :: 0 :: tree c.trees[0] ++ tree c.trees[1] ++ tree c.trees[2]
        ++ tree c.trees[3] ++ be4 c.sources.toNat ++ [c.outputs])))) ∧
    (∀ (i : Fin 4) (x3 x2 x1 x0 m : Byte), Asked s r rest 0x58 0x0F [BitVec.ofNat 8 i.val, x3, x2, x1, x0, m] →
      let x := ofBytes [x3, x2, x1, x0]
      (x < 536870912 → m.toNat ≤ 1 → exec .setIndicator s = .next (s.but { c with
        trees := c.trees.set i { sources := BitVec.ofNat 29 x, all := decide (m = 1) }
        link := c.link.answered r rest [0, 0, BitVec.ofNat 8 i.val, x3, x2, x1, x0, m,
          flag (c.lit (BitVec.ofNat 29 x) (decide (m = 1)))] })) ∧
      (536870912 ≤ x ∨ 1 < m.toNat → exec .setIndicator s = .next (s.but (c.repliedTo r rest [2, 3])))) ∧
    (∀ o x3 x2 x1 x0 m : Byte, 3 < o.toNat → Asked s r rest 0x58 0x0F [o, x3, x2, x1, x0, m] →
      exec .setIndicator s = .next (s.but (c.repliedTo r rest [2, 3]))) ∧
    (∀ n : Fin 29, c.sources.getLsbD n.val = c.source n) ∧
    (∀ i : Fin 4, c.outputs.getLsbD i.val = c.output i) ∧ c.outputs.toNat < 16 ∧
    (∀ i : Fin 4, c.output i = (c.ready && c.lit c.trees[i].sources c.trees[i].all)) ∧
    (∀ m : Fin 16, c.source ⟨m.val, by omega⟩ = decide (0 < c.mailboxes[m].newCount)) ∧
    (∀ l : Fin 4, c.source ⟨16 + l.val, by omega⟩ = decide (c.lines[l].hook = .offHook) ∧
      c.source ⟨20 + l.val, by omega⟩ = decide (c.lines[l].latch ≠ {})) ∧
    c.source 24 = c.store.low ∧
    (c.source 25 = true ↔ ∃ (i : SlotNo) (o : Obj) (a : PageAttr), c.store.slots[i].obj = some o ∧ o.state = .closed ∧ o.attr = .page a ∧
      a.unread = true) ∧
    c.source 26 = decide (∀ e : EngineNo, c.engines[e].state ≠ .free) ∧ c.source 27 = c.clockNotSet ∧
    c.source 28 = decide (∃ i : Fin 5, c.link.sets[i] ≠ [])

/-! ## What every step keeps -/

/-- The part is legal after power-on reset: the DRAM's list is canonical, every pending event set is as R177 keeps it, every
ring count, noise floor and setting is in its range, and the store's books are right: every block is on the stack or in one
chain (R2), an object's users are the channels bound to it (R7), and a mailbox's list, used blocks and new count agree with
the objects (R147). What is gathered under Legal is the model's choice; that an unlisted byte of the DRAM reads 00h is log 4.
-/
def Obligations.LegalAtReset : Prop := State.reset.chip.Legal

/-- Every step keeps the part legal, whatever the command and whatever the state: the DRAM's canonical form, the pending event
sets, the ranges of ring counts, noise floors and settings, and the store's books: every block on the stack or in exactly one
chain (R2), users equal to the channels bound (R7), and each mailbox's list, used blocks and new count as its messages say
(R147). What is gathered under Legal is the model's choice. -/
def Obligations.LegalKept : Prop := ∀ s t : State, s.chip.Legal → step s = .next t → t.chip.Legal
end

