-- ==== Sys2Proof/Laws/Memory.lean ====
section
/-!
SUPPORT. The DRAM's canonical form: every write keeps it, and reading after a write gives what was written at the
addresses written and what stood before everywhere else.
-/
namespace Sys2Proof.Machine

theorem Mem.wfFrom_mono {lo hi : Nat} (h : lo ≤ hi) : ∀ {m : List Host.Cell}, Mem.wfFrom hi m = true → Mem.wfFrom lo m = true
  | [], _ => rfl
  | (a, b) :: rest, w => by
    simp only [Mem.wfFrom, Bool.and_eq_true, decide_eq_true_eq] at w ⊢
    exact ⟨⟨by omega, w.1.2⟩, w.2⟩

/-- A write at or above the bound keeps the canonical form from the bound on. -/
theorem Mem.write_wfFrom {lo x : Nat} (v : Byte) (hx : lo ≤ x) :
    ∀ {m : List Host.Cell}, Mem.wfFrom lo m = true → Mem.wfFrom lo (Mem.write m x v) = true
  | [], _ => by
    by_cases hv : v = Config.unlistedByte <;> simp [Mem.write, Mem.wfFrom, hv, hx]
  | (a, b) :: rest, w => by
    simp only [Mem.wfFrom, Bool.and_eq_true, decide_eq_true_eq] at w
    obtain ⟨⟨ha, hb⟩, hr⟩ := w
    unfold Mem.write
    split
    · next h =>
      split
      · simp [Mem.wfFrom, ha, hb, hr]
      · next hv =>
        simp only [Mem.wfFrom, Bool.and_eq_true, decide_eq_true_eq]
        exact ⟨⟨hx, hv⟩, ⟨by omega, hb⟩, hr⟩
    · split
      · next h h2 =>
        subst h2
        split
        · exact Mem.wfFrom_mono (by omega) hr
        · next hv => simp [Mem.wfFrom, ha, hv, hr]
      · next h h2 =>
        simp only [Mem.wfFrom, Bool.and_eq_true, decide_eq_true_eq]
        exact ⟨⟨ha, hb⟩, Mem.write_wfFrom v (by omega) hr⟩

/-- Writing one byte keeps the canonical form. -/
theorem Mem.write_wf {m : List Host.Cell} (x : Nat) (v : Byte) (h : Memory.wf m = true) :
    Memory.wf (Mem.write m x v) = true := Mem.write_wfFrom v (Nat.zero_le x) h

/-- Writing a run of bytes keeps the canonical form. -/
theorem Mem.writeBytes_wf (bs : List Byte) : ∀ {m : List Host.Cell} (a : Nat), Memory.wf m = true →
    Memory.wf (Mem.writeBytes m a bs) = true := by
  induction bs with
  | nil => intro m a h; exact h
  | cons b bs ih => intro m a h; exact ih (a + 1) (Mem.write_wf a b h)

/-- Below the bound of a canonical list every address reads as unlisted. -/
theorem Mem.read_below {lo : Nat} {m : List Host.Cell} (w : Mem.wfFrom lo m = true) {x : Nat} (hx : x < lo) :
    Mem.read m x = Config.unlistedByte := by
  cases m with
  | nil => rfl
  | cons c rest =>
    obtain ⟨a, b⟩ := c
    simp only [Mem.wfFrom, Bool.and_eq_true, decide_eq_true_eq] at w
    have h1 : x ≠ a := by omega
    have h2 : x < a := by omega
    simp [Mem.read, h1, h2]

/-- What an address reads after one byte has been written. -/
theorem Mem.read_write_from {lo : Nat} : ∀ {m : List Host.Cell}, Mem.wfFrom lo m = true → ∀ (x y : Nat) (v : Byte),
    Mem.read (Mem.write m x v) y = if y = x then v else Mem.read m y
  | [], _, x, y, v => by
    by_cases hv : v = Config.unlistedByte <;> by_cases hy : y = x <;> simp [Mem.write, Mem.read, hv, hy]
  | (a, b) :: rest, w, x, y, v => by
    simp only [Mem.wfFrom, Bool.and_eq_true, decide_eq_true_eq] at w
    obtain ⟨⟨ha, hb⟩, hr⟩ := w
    unfold Mem.write
    split
    · next h =>
      split
      · next hv =>
        by_cases hy : y = x
        · subst hy
          have : y ≠ a := by omega
          simp [Mem.read, this, h, hv]
        · simp [hy]
      · next hv =>
        by_cases hy : y = x
        · subst hy; simp [Mem.read]
        · simp only [Mem.read, hy, if_false]
          split
          · next h3 =>
            have h4 : y ≠ a := by omega
            have h5 : y < a := by omega
            simp [h4, h5]
          · rfl
    · split
      · next h h2 =>
        subst h2
        split
        · next hv =>
          by_cases hy : y = x
          · subst hy
            rw [Mem.read_below hr (by omega)]; simp [hv]
          · simp only [Mem.read, hy, if_false]
            split
            · next h3 => exact Mem.read_below hr (by omega)
            · rfl
        · by_cases hy : y = x <;> simp [Mem.read, hy]
      · next h h2 =>
        have ih := Mem.read_write_from hr x y v
        simp only [Mem.read]
        by_cases hy : y = x
        · subst hy
          have h3 : ¬ y < a := h
          simp [h2, h3, ih]
        · simp only [hy, if_false] at ih ⊢
          rw [ih]

/-- What an address reads after one byte has been written. -/
theorem Mem.read_write {m : List Host.Cell} (w : Memory.wf m = true) (x y : Nat) (v : Byte) :
    Mem.read (Mem.write m x v) y = if y = x then v else Mem.read m y := Mem.read_write_from w x y v

/-- Outside the addresses written every byte reads as before. -/
theorem Mem.read_writeBytes_outside (bs : List Byte) : ∀ {m : List Host.Cell} (a y : Nat), Memory.wf m = true →
    (y < a ∨ a + bs.length ≤ y) → Mem.read (Mem.writeBytes m a bs) y = Mem.read m y := by
  induction bs with
  | nil => intro m a y _ _; rfl
  | cons b bs ih =>
    intro m a y w h
    simp only [List.length_cons] at h
    simp only [Mem.writeBytes]
    rw [ih (a + 1) y (Mem.write_wf a b w) (by omega), Mem.read_write w, if_neg (by omega)]

/-- The bytes written read back. -/
theorem Mem.read_writeBytes_inside (bs : List Byte) : ∀ {m : List Host.Cell} (a k : Nat), Memory.wf m = true →
    (h : k < bs.length) → Mem.read (Mem.writeBytes m a bs) (a + k) = bs[k] := by
  induction bs with
  | nil => intro m a k _ h; simp at h
  | cons b bs ih =>
    intro m a k w h
    simp only [Mem.writeBytes]
    cases k with
    | zero =>
      rw [Mem.read_writeBytes_outside bs (a + 1) (a + 0) (Mem.write_wf a b w) (by omega), Mem.read_write w]
      simp
    | succ k =>
      have := ih (m := Mem.write m a b) (a + 1) k (Mem.write_wf a b w) (by simpa using h)
      rw [show a + (k + 1) = a + 1 + k by omega, this]
      simp

/-- The DRAM after power-on reset is canonical. -/
theorem Memory.wf_reset : Memory.wf State.reset.chip.store.dram = true := rfl

end Sys2Proof.Machine
end

