-- ==== Sys2Proof/Laws/Ops.lean ====
section
/-!
SUPPORT. What the shared operations do, said once: reading and writing one entry of a vector, bytes and numbers, the dispatch of
a request at the head of the inbound queue, replies, notices and the draining of the event sets, handles, and the lowest FREE
slot and channel.
-/
namespace Sys2Proof.Machine

/-! ## One entry of a vector -/

theorem upd_self {α : Type} {n : Nat} (v : Vector α n) (i : Fin n) (f : α → α) : (upd v i f)[i] = f v[i] := by
  simp [upd]

theorem upd_other {α : Type} {n : Nat} (v : Vector α n) (i j : Fin n) (f : α → α) (h : j ≠ i) : (upd v i f)[j] = v[j] := by
  have : i.val ≠ j.val := fun e => h (Fin.ext e.symm)
  simp [upd, this]

/-! ## Bytes and numbers -/

theorem be2_length (n : Nat) : (be2 n).length = 2 := rfl

theorem be4_length (n : Nat) : (be4 n).length = 4 := rfl

theorem ofBytes_two (a b : Byte) : ofBytes [a, b] = 256 * a.toNat + b.toNat := by simp [ofBytes]

theorem ofBytes_be2 (n : Nat) (h : n < 65536) : ofBytes (be2 n) = n := by
  simp [ofBytes, be2, b1]
  omega

theorem be2_ofBytes (a b : Byte) : be2 (ofBytes [a, b]) = [a, b] := by
  have := a.isLt
  have := b.isLt
  simp [ofBytes, be2, b1]
  constructor <;> apply BitVec.eq_of_toNat_eq <;> simp <;> omega

theorem be4_ofBytes (a b x y : Byte) : be4 (ofBytes [a, b, x, y]) = [a, b, x, y] := by
  have := a.isLt
  have := b.isLt
  have := x.isLt
  have := y.isLt
  simp [ofBytes, be4, be2, b1]
  refine ⟨?_, ?_, ?_, ?_⟩ <;> apply BitVec.eq_of_toNat_eq <;> simp <;> omega

/-- The line field of line `l` names line `l`. -/
theorem lineOf_val (l : LineNo) : lineOf (BitVec.ofNat 8 l.val) = some l := by revert l; decide

theorem mailboxOf_val (m : MailboxNo) : mailboxOf (BitVec.ofNat 8 m.val) = some m := by revert m; decide

/-! ## Dispatch (R176) -/

/-- A wanted request at the head of the queue of a ready part leaves the queue and is dispatched. -/
theorem Chip.dispatch_head {c : Chip} {r : Request} {rest : List Request} {want : Request → Bool} (f : Chip → Request → Chip)
    (hr : c.ready = true) (hq : c.link.inq = r :: rest) (hw : want r = true) :
    c.dispatch want f = f (c.modLink (fun k => { k with inq := rest })) r := by
  simp [Chip.dispatch, hq, hr, hw]

/-- With an empty queue nothing is dispatched. -/
theorem Chip.dispatch_nil {c : Chip} (want : Request → Bool) (f : Chip → Request → Chip) (hq : c.link.inq = []) :
    c.dispatch want f = c := by
  simp [Chip.dispatch, hq]

/-- Until the part is ready nothing is dispatched. -/
theorem Chip.dispatch_quiet {c : Chip} (want : Request → Bool) (f : Chip → Request → Chip) (hr : c.ready = false) :
    c.dispatch want f = c := by
  unfold Chip.dispatch
  split
  · rfl
  · simp [hr]

theorem Chip.deviceRequest_head {c : Chip} {r : Request} {rest : List Request} {code : Byte} (f : Chip → Request → Chip)
    (hr : c.ready = true) (hq : c.link.inq = r :: rest) (hc : r.code = code) (hl : r.line = 0x0F) :
    c.deviceRequest code f = f (c.modLink (fun k => { k with inq := rest })) r := by
  rw [Chip.deviceRequest, Chip.dispatch_head _ hr hq (by simp [hc]), if_pos hl]

theorem Chip.deviceRequest_badLine {c : Chip} {r : Request} {rest : List Request} {code : Byte} (f : Chip → Request → Chip)
    (hr : c.ready = true) (hq : c.link.inq = r :: rest) (hc : r.code = code) (hl : r.line ≠ 0x0F) :
    c.deviceRequest code f = (c.modLink (fun k => { k with inq := rest })).refuse r .badLine := by
  rw [Chip.deviceRequest, Chip.dispatch_head _ hr hq (by simp [hc]), if_neg hl]

theorem Chip.lineRequest_head {c : Chip} {r : Request} {rest : List Request} {code : Byte} {l : LineNo}
    (f : Chip → Request → LineNo → Chip) (hr : c.ready = true) (hq : c.link.inq = r :: rest) (hc : r.code = code)
    (hl : r.line = BitVec.ofNat 8 l.val) :
    c.lineRequest code f = f (c.modLink (fun k => { k with inq := rest })) r l := by
  rw [Chip.lineRequest, Chip.dispatch_head _ hr hq (by simp [hc]), hl, lineOf_val]

theorem Chip.lineRequest_badLine {c : Chip} {r : Request} {rest : List Request} {code : Byte} (f : Chip → Request → LineNo → Chip)
    (hr : c.ready = true) (hq : c.link.inq = r :: rest) (hc : r.code = code) (hl : lineOf r.line = none) :
    c.lineRequest code f = (c.modLink (fun k => { k with inq := rest })).refuse r .badLine := by
  rw [Chip.lineRequest, Chip.dispatch_head _ hr hq (by simp [hc]), hl]

theorem Chip.walked_some {α : Type} (c : Chip) (r : Request) (x : α) (f : α → Chip) : c.walked r (some x) f = f x := rfl

theorem Chip.walked_none {α : Type} (c : Chip) (r : Request) (f : α → Chip) : c.walked r none f = c.refuse r .badParam := rfl

/-! ## Replies (R175, R184) -/

theorem Link.reply_out (k : Link) (line tag code : Byte) (cls : Cls) (reason : Reason) (bs : List Byte) :
    (k.reply line tag code cls reason bs).out = k.out ++ [replyFrame line tag code cls reason bs] := rfl

theorem Link.reply_reserved (k : Link) (line tag code : Byte) (cls : Cls) (reason : Reason) (bs : List Byte) :
    (k.reply line tag code cls reason bs).reserved = k.reserved - 1 := rfl

theorem Link.reply_inq (k : Link) (line tag code : Byte) (cls : Cls) (reason : Reason) (bs : List Byte) :
    (k.reply line tag code cls reason bs).inq = k.inq := rfl

theorem Link.reply_sets (k : Link) (line tag code : Byte) (cls : Cls) (reason : Reason) (bs : List Byte) :
    (k.reply line tag code cls reason bs).sets = k.sets := rfl

/-- A reply leaves the inbound data buffer. -/
theorem Link.reply_data (k : Link) (line tag code : Byte) (cls : Cls) (reason : Reason) (bs : List Byte) :
    (k.reply line tag code cls reason bs).data = k.data := rfl

/-- The reply of any other request than Write Object posts its frame and does nothing else. -/
theorem Chip.reply_other (c : Chip) (r : Request) (cls : Cls) (reason : Reason) (bs : List Byte) (h : r.code ≠ 0x19) :
    c.reply r cls reason bs = c.modLink (·.reply r.line r.tag r.code cls reason bs) := by
  unfold Chip.reply Chip.ownsWrites
  simp only [beq_eq_false_iff_ne.mpr h, Bool.false_and, Bool.false_eq_true, if_false]

/-- The reply of a Write Object while none runs with its tag takes the code-1 frames of the tag with it (R40). -/
theorem Chip.reply_write (c : Chip) (r : Request) (cls : Cls) (reason : Reason) (bs : List Byte) (h : r.code = 0x19)
    (hw : ∀ w, c.writeReq = some w → w.tag ≠ r.tag) :
    c.reply r cls reason bs = c.modLink (fun k => (k.reply r.line r.tag r.code cls reason bs).dropWrites r.tag) := by
  unfold Chip.reply Chip.ownsWrites
  cases hq : c.writeReq with
  | none => simp [h]
  | some w => simp [h, hw w hq]

/-- The reply of a Write Object refused while one with its tag runs leaves the frames, which belong to the running one (R174). -/
theorem Chip.reply_younger (c : Chip) (r : Request) (cls : Cls) (reason : Reason) (bs : List Byte) (w : WriteReq)
    (hw : c.writeReq = some w) (ht : w.tag = r.tag) :
    c.reply r cls reason bs = c.modLink (·.reply r.line r.tag r.code cls reason bs) := by
  unfold Chip.reply Chip.ownsWrites
  simp [hw, ht]

/-! ## Notices (R177) -/

/-- With its set empty and a slot FREE a notice takes the slot. -/
theorem Link.post_slot (k : Link) (i : Fin 5) (kind : Notice) (d : List Byte) (he : k.sets[i] = []) (hf : 0 < k.freeSlots) :
    k.post i kind d = { k with out := k.out ++ [noticeFrame i kind 1 d] } := by
  have he' : k.sets[i.val] = [] := he
  simp [Link.post, he', hf]

/-- Otherwise it joins its set. -/
theorem Link.post_set (k : Link) (i : Fin 5) (kind : Notice) (d : List Byte) (h : k.sets[i] ≠ [] ∨ k.freeSlots = 0) :
    k.post i kind d = { k with sets := k.sets.set i (mergeEntry kind d k.sets[i]) } := by
  unfold Link.post
  rw [if_neg]
  rintro ⟨he, hf⟩
  rcases h with h | h
  · exact h (List.isEmpty_iff.mp he)
  · omega

/-- A notice changes nothing but the outbound queue and the sets. -/
theorem Link.post_frame (k : Link) (i : Fin 5) (kind : Notice) (d : List Byte) :
    k.post i kind d = { k with out := (k.post i kind d).out, sets := (k.post i kind d).sets } := by
  unfold Link.post
  split <;> rfl

/-- An entry of the kind, first in its set, counts on and takes the latest detail. -/
theorem mergeEntry_head (kind : Notice) (d : List Byte) (e : PendEntry) (rest : List PendEntry) (h : e.kind = kind) :
    mergeEntry kind d (e :: rest) = { e with count := min 255 (e.count + 1), detail := d } :: rest := by
  simp [mergeEntry, h]

/-- With every set empty there is nothing to drain. -/
theorem Link.drain_empty (n : Nat) (k : Link) (h : ∀ i : Fin 5, k.sets[i] = []) : Link.drain n k = k := by
  have one : k.drainOne = k := by
    have : k.nextSet = none := by simp [Link.nextSet, h]
    unfold Link.drainOne
    rw [this]
    split <;> rfl
  induction n with
  | zero => rfl
  | succ n ih => rw [Link.drain, one, ih]

/-- With no slot FREE nothing is drained. -/
theorem Link.drain_full (n : Nat) (k : Link) (h : k.freeSlots = 0) : Link.drain n k = k := by
  induction n with
  | zero => rfl
  | succ n ih => simp [Link.drain, Link.drainOne, h, ih]

/-- A FREE slot takes the oldest entry of the next set. -/
theorem Link.drainOne_entry (k : Link) (i : Fin 5) (e : PendEntry) (rest : List PendEntry) (hf : k.freeSlots ≠ 0)
    (hn : k.nextSet = some i) (he : k.sets[i] = e :: rest) :
    k.drainOne = { k with sets := k.sets.set i rest, marker := i, out := k.out ++ [noticeFrame i e.kind e.count e.detail] } := by
  have he' : k.sets[i.val] = e :: rest := he
  simp [Link.drainOne, hf, hn, he']

/-! ## Handles (R8, R9) -/

/-- A handle that passes the stale-handle check names a slot with its generation, and an object that is not DOOMED. -/
theorem Store.lookup_some {st : Store} {h : Nat} {i : SlotNo} {o : Obj} (e : st.lookup h = some (i, o)) :
    h = 16 * i.val + (st.slots[i]).gen.toNat ∧ (st.slots[i]).obj = some o ∧ o.state ≠ .doomed := by
  unfold Store.lookup at e
  split at e
  · split at e
    · next o' ho =>
      split at e
      · next hg =>
        injection e with e
        injection e with e1 e2
        subst e1 e2
        refine ⟨?_, ho, hg.1⟩
        have := hg.2
        simp only [Fin.getElem_fin] at this ⊢
        omega
      · cases e
    · cases e
  · cases e

theorem Store.lookup_of {st : Store} {i : SlotNo} {o : Obj} (ho : (st.slots[i]).obj = some o) (hd : o.state ≠ .doomed) :
    st.lookup (16 * i.val + (st.slots[i]).gen.toNat) = some (i, o) := by
  have hg := (st.slots[i]).gen.isLt
  have hi := i.isLt
  have e : (16 * i.val + (st.slots[i]).gen.toNat) / 16 = i.val := by omega
  have m : (16 * i.val + (st.slots[i]).gen.toNat) % 16 = (st.slots[i]).gen.toNat := by omega
  have e' : (16 * i.val + (st.slots[i.val]).gen.toNat) / 16 = i.val := e
  have m' : (16 * i.val + (st.slots[i.val]).gen.toNat) % 16 = (st.slots[i.val]).gen.toNat := m
  have ho' : (st.slots[i.val]).obj = some o := ho
  have hlt : 16 * i.val + (st.slots[i.val]).gen.toNat < 2048 := by
    have hg' : (st.slots[i.val]).gen.toNat < 16 := hg
    omega
  unfold Store.lookup
  simp only [Fin.getElem_fin, hlt, dif_pos]
  simp [e', m', ho', hd]

/-! ## The lowest FREE slot and channel (R8, R27) -/

/-- The slot found is FREE, at or above the bound, and the lowest such one. -/
theorem Store.freeSlotFrom_some {st : Store} {k : Nat} {i : SlotNo} (h : st.freeSlotFrom k = some i) :
    k ≤ i.val ∧ (st.slots[i]).obj = none ∧ ∀ j : SlotNo, k ≤ j.val → j < i → (st.slots[j]).obj ≠ none := by
  obtain ⟨hp, as, bs, e, hn⟩ := List.find?_eq_some_iff_append.mp h
  have hp' : k ≤ i.val ∧ (st.slots[i]).obj = none := by simpa using hp
  refine ⟨hp'.1, hp'.2, fun j hk hj hnone => ?_⟩
  have hs : List.Pairwise (· < ·) (List.finRange 128) := List.pairwise_lt_finRange 128
  have hm : j ∈ as := by
    have : j ∈ as ++ i :: bs := e ▸ List.mem_finRange j
    rcases List.mem_append.mp this with h | h
    · exact h
    · rw [e] at hs
      rcases List.mem_cons.mp h with h | h
      · exact absurd hj (h ▸ Nat.lt_irrefl _)
      · exact absurd hj (Nat.lt_asymm ((List.pairwise_cons.mp (List.pairwise_append.mp hs).2.1).1 j h))
  have := hn j hm
  have hnone' : (st.slots[j.val]).obj = none := hnone
  simp [hk, hnone'] at this

theorem Store.freeSlotFrom_none {st : Store} {k : Nat} (h : st.freeSlotFrom k = none) (j : SlotNo) (hk : k ≤ j.val) :
    (st.slots[j]).obj ≠ none := by
  have := List.find?_eq_none.mp h j (List.mem_finRange j)
  intro e
  have e' : (st.slots[j.val]).obj = none := e
  simp [hk, e'] at this

theorem Chip.freeChan_some {c : Chip} {i : ChanNo} (h : c.freeChan = some i) :
    (c.chans[i]).state = .free ∧ ∀ j : ChanNo, j < i → (c.chans[j]).state ≠ .free := by
  obtain ⟨hp, as, bs, e, hn⟩ := List.find?_eq_some_iff_append.mp h
  refine ⟨by simpa using hp, fun j hj hfree => ?_⟩
  have hs : List.Pairwise (· < ·) (List.finRange 8) := List.pairwise_lt_finRange 8
  have hm : j ∈ as := by
    have : j ∈ as ++ i :: bs := e ▸ List.mem_finRange j
    rcases List.mem_append.mp this with h | h
    · exact h
    · rw [e] at hs
      rcases List.mem_cons.mp h with h | h
      · exact absurd hj (h ▸ Nat.lt_irrefl _)
      · exact absurd hj (Nat.lt_asymm ((List.pairwise_cons.mp (List.pairwise_append.mp hs).2.1).1 j h))
  have := hn j hm
  have hfree' : (c.chans[j.val]).state = .free := hfree
  simp [hfree'] at this

end Sys2Proof.Machine
end

