-- ==== Sys2Proof/Laws/Store.lean ====
section
/-!
SUPPORT. The store's books (`legalStore`): what a change of one slot, one channel or one mailbox must satisfy so that they stay
right.
-/
namespace Sys2Proof.Machine

/-! ## Sums over a list of which one element changes -/

theorem count_flatMap_set {α : Type} (f : α → List Nat) (a : Nat) (y : α) : ∀ (l : List α) (i : Nat) (hi : i < l.length),
    ((l.set i y).flatMap f).count a + (f l[i]).count a = (l.flatMap f).count a + (f y).count a
  | x :: l, 0, _ => by simp [List.count_append]; omega
  | x :: l, i + 1, hi => by
    have := count_flatMap_set f a y l i (by simpa using hi)
    simp only [List.set_cons_succ, List.flatMap_cons, List.count_append, List.getElem_cons_succ] at this ⊢
    omega

theorem countP_set_add {α : Type} (p : α → Bool) (y : α) : ∀ (l : List α) (i : Nat) (hi : i < l.length),
    (l.set i y).countP p + (if p l[i] then 1 else 0) = l.countP p + (if p y then 1 else 0)
  | x :: l, 0, _ => by simp only [List.set_cons_zero, List.countP_cons, List.getElem_cons_zero]; omega
  | x :: l, i + 1, hi => by
    have := countP_set_add p y l i (by simpa using hi)
    simp only [List.set_cons_succ, List.countP_cons, List.getElem_cons_succ] at this ⊢
    omega

/-! ## Blocks (R2) -/

/-- Blocks are conserved when what a slot's chain gains is what the stack loses. -/
theorem conserved.set {slots : Vector Slot 128} {free free' : List Nat} (h : conserved slots free) (i : SlotNo) (y : Slot)
    (hf : ∀ a, free'.count a + y.blocks.count a = free.count a + (slots[i]).blocks.count a) : conserved (slots.set i y) free' := by
  unfold conserved at *
  rw [List.perm_iff_count] at *
  intro a
  have h1 := h a
  have h2 := hf a
  have h3 := count_flatMap_set Slot.blocks a y slots.toList i.val (by simp)
  simp only [List.count_append, Vector.toList_set, Vector.getElem_toList, Fin.getElem_fin] at *
  omega

theorem conserved.perm {slots : Vector Slot 128} {free free' : List Nat} (h : conserved slots free) (hp : free'.Perm free) :
    conserved slots free' := (hp.append_right _).trans h

/-! ## Users (R7) -/

theorem boundTo_set (chans : Vector Chan 8) (k : ChanNo) (z : Chan) (i : SlotNo) :
    boundTo (chans.set k z) i + (if (chans[k]).state ≠ .free ∧ (chans[k]).slot = i then 1 else 0) =
      boundTo chans i + (if z.state ≠ .free ∧ z.slot = i then 1 else 0) := by
  have := countP_set_add (fun ch : Chan => decide (ch.state ≠ .free) && decide (ch.slot = i)) z chans.toList k.val (by simp)
  simpa [boundTo, Vector.toList_set] using this

/-- A change of a channel that leaves it FREE or not, and its slot, leaves every count of users. -/
theorem boundTo_same (chans : Vector Chan 8) (k : ChanNo) (z : Chan) (hz : z.state = .free ↔ (chans[k]).state = .free)
    (hs : z.slot = (chans[k]).slot) (i : SlotNo) : boundTo (chans.set k z) i = boundTo chans i := by
  have := boundTo_set chans k z i
  simp only [ne_eq, hs, hz] at this
  omega

/-! ## Lists of mailboxes (R147) -/

/-- What the lists see of an object. -/
def Obj.face (o : Obj) : List Nat × ObjState × Owner × Attr := (o.chain, o.state, o.owner, o.attr)

theorem objectAt_eq (slots : Vector Slot 128) (h : Nat) (i : SlotNo) (hi : h / 16 = i.val) :
    objectAt slots h = if (slots[i]).gen.toNat = h % 16 then (slots[i]).obj.filter (fun o => decide (o.state ≠ .doomed)) else none := by
  have hlt : h < 2048 := by have := i.isLt; omega
  have e : slots[h / 16]'(by omega) = slots[i] := by simp [hi]
  unfold objectAt Store.lookup
  simp only [hlt, ↓reduceDIte, e]
  cases ho : (slots[i]).obj with
  | none => simp
  | some o => by_cases hd : o.state = .doomed <;> by_cases hg : (slots[i]).gen.toNat = h % 16 <;> simp [hd, Option.filter]

theorem objectAt_slot {slots : Vector Slot 128} {h : Nat} {o : Obj} (ho : objectAt slots h = some o) :
    ∃ i : SlotNo, h / 16 = i.val ∧ (slots[i]).obj = some o ∧ (slots[i]).gen.toNat = h % 16 ∧ o.state ≠ .doomed := by
  have hlt : h < 2048 := by
    by_cases hn : h < 2048
    · exact hn
    · simp [objectAt, Store.lookup, hn] at ho
  refine ⟨⟨h / 16, by omega⟩, rfl, ?_⟩
  rw [objectAt_eq slots h ⟨h / 16, by omega⟩ rfl] at ho
  split at ho
  · next hg =>
    rw [Option.filter_eq_some_iff] at ho
    exact ⟨ho.1, hg, by simpa using ho.2⟩
  · contradiction

theorem objectAt_set_ne (slots : Vector Slot 128) (i : SlotNo) (y : Slot) (h : Nat) (hi : h / 16 ≠ i.val) :
    objectAt (slots.set i y) h = objectAt slots h := by
  by_cases hlt : h < 2048
  · rw [objectAt_eq _ h ⟨h / 16, by omega⟩ rfl, objectAt_eq _ h ⟨h / 16, by omega⟩ rfl]
    have : (slots.set i y)[(⟨h / 16, by omega⟩ : SlotNo)] = slots[(⟨h / 16, by omega⟩ : SlotNo)] := by
      simp only [Fin.getElem_fin]
      rw [Vector.getElem_set_ne]
      exact fun e => hi e.symm
    rw [this]
  · simp [objectAt, Store.lookup, hlt]

/-- The lists stay right when the objects they name keep what the lists see of them. -/
theorem Mailbox.Filed.congr {slots slots' : Vector Slot 128} {m : MailboxNo} {b b' : Mailbox} (h : b.Filed slots m)
    (hl : b'.list = b.list) (hu : b'.used = b.used) (hn : b'.newCount = b.newCount)
    (hf : ∀ x ∈ b.list, (objectAt slots' x).map Obj.face = (objectAt slots x).map Obj.face) : b'.Filed slots' m := by
  obtain ⟨h1, h2, h3, h4⟩ := h
  have key : ∀ x ∈ b.list, ∃ o o', objectAt slots x = some o ∧ objectAt slots' x = some o' ∧ o'.face = o.face := by
    intro x hx
    obtain ⟨o, ho, _⟩ := h2 x hx
    have := hf x hx
    rw [ho] at this
    obtain ⟨o', ho', e⟩ := Option.map_eq_some_iff.mp this
    exact ⟨o, o', ho, ho', e⟩
  refine ⟨hl ▸ h1, ?_, ?_, ?_⟩
  · intro x hx
    rw [hl] at hx
    obtain ⟨o, o', ho, ho', e⟩ := key x hx
    obtain ⟨o2, ho2, hc, hm, hw⟩ := h2 x hx
    rw [ho] at ho2
    injection ho2 with ho2
    subst ho2
    simp only [Obj.face, Prod.mk.injEq] at e
    exact ⟨o', ho', e.2.1.trans hc, by simpa [Obj.isMessage, e.2.2.2] using hm, e.2.2.1.trans hw⟩
  · rw [hu, h3, hl]
    congr 1
    apply List.map_congr_left
    intro x hx
    obtain ⟨o, o', ho, ho', e⟩ := key x hx
    simp only [Obj.face, Prod.mk.injEq] at e
    simp [ho, ho', e.1]
  · rw [hn, h4, hl]
    congr 1
    apply List.map_congr_left
    intro x hx
    obtain ⟨o, o', ho, ho', e⟩ := key x hx
    simp only [Obj.face, Prod.mk.injEq] at e
    simp [ho, ho', Obj.newMessages, e.2.2.2]

/-- No list names slot `i`: what stands there is no CLOSED message. -/
theorem Mailbox.Filed.unlisted {slots : Vector Slot 128} {m : MailboxNo} {b : Mailbox} (h : b.Filed slots m) (i : SlotNo)
    (hi : ∀ o, (slots[i]).obj = some o → ¬ (o.state = .closed ∧ o.isMessage = true ∧ o.owner = .mailbox m)) : ∀ x ∈ b.list, x / 16 ≠ i.val := by
  intro x hx e
  obtain ⟨o, ho, hc, hm, hw⟩ := h.2.1 x hx
  obtain ⟨j, hj, hjo, _, _⟩ := objectAt_slot ho
  have : j = i := Fin.ext (hj.symm.trans e)
  subst this
  exact hi o hjo ⟨hc, hm, hw⟩

/-- A list names slot `i` only by the slot's handle. -/
theorem Mailbox.Filed.handle {slots : Vector Slot 128} {m : MailboxNo} {b : Mailbox} (h : b.Filed slots m) (i : SlotNo) :
    ∀ x ∈ b.list, x / 16 = i.val → x = handleOf i (slots[i]).gen := by
  intro x hx e
  obtain ⟨o, ho, _⟩ := h.2.1 x hx
  obtain ⟨j, hj, _, hg, _⟩ := objectAt_slot ho
  have : j = i := Fin.ext (hj.symm.trans e)
  subst this
  unfold handleOf
  omega

/-- The lists stay right when a slot that they do not name changes. -/
theorem Mailbox.Filed.set_unlisted {slots : Vector Slot 128} {m : MailboxNo} {b b' : Mailbox} (h : b.Filed slots m) (i : SlotNo) (y : Slot)
    (hl : b'.list = b.list) (hu : b'.used = b.used) (hn : b'.newCount = b.newCount) (hi : ∀ x ∈ b.list, x / 16 ≠ i.val) :
    b'.Filed (slots.set i y) m :=
  h.congr hl hu hn (fun x hx => by rw [objectAt_set_ne _ _ _ _ (hi x hx)])

/-- The lists stay right when a slot keeps its generation and what they see of its object. -/
theorem Mailbox.Filed.set_same {slots : Vector Slot 128} {m : MailboxNo} {b : Mailbox} (h : b.Filed slots m) (i : SlotNo) (y : Slot)
    (hg : y.gen = (slots[i]).gen) (hf : y.obj.map Obj.face = (slots[i]).obj.map Obj.face) : b.Filed (slots.set i y) m := by
  refine h.congr rfl rfl rfl (fun x hx => ?_)
  by_cases e : x / 16 = i.val
  · rw [objectAt_eq _ x i e, objectAt_eq _ x i e]
    have hs : (slots.set i y)[i] = y := by simp
    rw [hs, hg]
    split
    · cases hy : y.obj with
      | none => cases ho : (slots[i]).obj with
        | none => rfl
        | some o => rw [hy, ho] at hf; simp at hf
      | some o' => cases ho : (slots[i]).obj with
        | none => rw [hy, ho] at hf; simp at hf
        | some o =>
          rw [hy, ho] at hf
          have e : o'.face = o.face := by simpa using hf
          have es : o'.state = o.state := congrArg (fun z => z.2.1) e
          by_cases hd : o.state = .doomed <;> simp [Option.filter, es, hd, e]
    · rfl
  · rw [objectAt_set_ne _ _ _ _ e]

/-! ## The books -/

namespace legalStore

variable {slots : Vector Slot 128} {free : List Nat} {chans : Vector Chan 8} {mailboxes : Vector Mailbox 16}

/-- A slot changes, and with it the stack: the blocks balance, the users of the slot are right, no other is touched. -/
theorem setSlot (h : legalStore slots free chans mailboxes) (i : SlotNo) (y : Slot) {free' : List Nat} {chans' : Vector Chan 8}
    {mailboxes' : Vector Mailbox 16}
    (hf : ∀ a, free'.count a + y.blocks.count a = free.count a + (slots[i]).blocks.count a)
    (hb : ∀ j : SlotNo, j ≠ i → boundTo chans' j = boundTo chans j)
    (hu : (∀ o : Obj, y.obj = some o → o.users = boundTo chans' i ∧ (o.state = .doomed → 0 < o.users)) ∧
      (y.obj = none → boundTo chans' i = 0))
    (hm : ∀ m : MailboxNo, (mailboxes[m]).Filed slots m → (mailboxes'[m]).Filed (slots.set i y) m) :
    legalStore (slots.set i y) free' chans' mailboxes' := by
  refine ⟨h.1.set i y hf, fun j => ?_, fun m => hm m (h.2.2 m)⟩
  by_cases e : j = i
  · subst e
    have hs : (slots.set j y)[j] = y := by simp
    rw [hs]
    exact hu
  · have hs : (slots.set i y)[j] = slots[j] := by
      simp only [Fin.getElem_fin]
      rw [Vector.getElem_set_ne]
      exact fun x => e (Fin.ext x.symm)
    rw [hs, hb j e]
    exact h.2.1 j

/-- A channel changes, but not whether it is FREE, nor its slot. -/
theorem setChan (h : legalStore slots free chans mailboxes) (k : ChanNo) (z : Chan) (hz : z.state = .free ↔ (chans[k]).state = .free)
    (hs : z.slot = (chans[k]).slot) : legalStore slots free (chans.set k z) mailboxes := by
  refine ⟨h.1, fun i => ?_, h.2.2⟩
  rw [boundTo_same chans k z hz hs i]
  exact h.2.1 i

/-- The mailboxes change, but for lists and counts. -/
theorem setMail (h : legalStore slots free chans mailboxes) {mailboxes' : Vector Mailbox 16}
    (hm : ∀ m : MailboxNo, (mailboxes'[m]).list = (mailboxes[m]).list ∧ (mailboxes'[m]).used = (mailboxes[m]).used ∧
      (mailboxes'[m]).newCount = (mailboxes[m]).newCount) : legalStore slots free chans mailboxes' :=
  ⟨h.1, h.2.1, fun m => (h.2.2 m).congr (hm m).1 (hm m).2.1 (hm m).2.2 (fun _ _ => rfl)⟩

/-- An object is placed in a FREE slot, its chain from the stack. -/
theorem fill (h : legalStore slots free chans mailboxes) (i : SlotNo) (y : Slot) (o : Obj) {free' : List Nat} (hn : (slots[i]).obj = none)
    (hy : y.obj = some o) (hf : ∀ a, free'.count a + o.chain.count a = free.count a) (hu : o.users = 0) (hd : o.state ≠ .doomed) :
    legalStore (slots.set i y) free' chans mailboxes := by
  refine h.setSlot i y (fun a => by simpa [Slot.blocks, hn, hy, -Fin.getElem_fin] using hf a) (fun _ _ => rfl) ⟨fun o' ho' => ?_, fun e => ?_⟩
    (fun m hm => hm.set_unlisted i y rfl rfl rfl (hm.unlisted i (fun o' ho' => by rw [hn] at ho'; contradiction)))
  · rw [hy] at ho'
    injection ho' with e
    subst e
    exact ⟨hu.trans ((h.2.1 i).2 hn).symm, fun x => absurd x hd⟩
  · rw [hy] at e
    contradiction

/-- The object of a slot changes, and with it the stack and the users' channels. It is not listed, or the lists see no difference. -/
theorem change (h : legalStore slots free chans mailboxes) (i : SlotNo) (y : Slot) (o o' : Obj) {free' : List Nat} {chans' : Vector Chan 8}
    (ho : (slots[i]).obj = some o) (hy : y.obj = some o') (hg : y.gen = (slots[i]).gen)
    (hf : ∀ a, free'.count a + o'.chain.count a = free.count a + o.chain.count a)
    (hb : ∀ j : SlotNo, j ≠ i → boundTo chans' j = boundTo chans j) (hu : o'.users + boundTo chans i = boundTo chans' i + o.users)
    (hd : o'.state = .doomed → 0 < o'.users) (hl : o'.face = o.face ∨ ¬ (o.state = .closed ∧ o.isMessage = true)) :
    legalStore (slots.set i y) free' chans' mailboxes := by
  refine h.setSlot i y (fun a => by simpa [Slot.blocks, ho, hy, -Fin.getElem_fin] using hf a) hb ⟨fun x hx => ?_, fun e => ?_⟩ (fun m hm => ?_)
  · rw [hy] at hx
    injection hx with e
    subst e
    have := ((h.2.1 i).1 o ho).1
    exact ⟨by omega, hd⟩
  · rw [hy] at e
    contradiction
  · rcases hl with hl | hl
    · exact hm.set_same i y hg (by rw [ho, hy, Option.map_some, Option.map_some, hl])
    · refine hm.set_unlisted i y rfl rfl rfl (hm.unlisted i (fun x hx => ?_))
      rw [ho] at hx
      injection hx with e
      subst e
      exact fun z => hl ⟨z.1, z.2.1⟩

/-- The unused DOOMED object of a slot is freed. -/
theorem free_ (h : legalStore slots free chans mailboxes) (i : SlotNo) (y : Slot) (o : Obj) {free' : List Nat} {chans' : Vector Chan 8}
    (ho : (slots[i]).obj = some o) (hy : y.obj = none) (hf : ∀ a, free'.count a = free.count a + o.chain.count a)
    (hb : ∀ j : SlotNo, j ≠ i → boundTo chans' j = boundTo chans j) (hu : boundTo chans' i = 0) (hd : o.state = .doomed) :
    legalStore (slots.set i y) free' chans' mailboxes := by
  refine h.setSlot i y (fun a => by simpa [Slot.blocks, ho, hy, -Fin.getElem_fin] using hf a) hb ⟨fun x hx => ?_, fun _ => hu⟩ (fun m hm => ?_)
  · rw [hy] at hx
    contradiction
  · refine hm.set_unlisted i y rfl rfl rfl (hm.unlisted i (fun x hx => ?_))
    rw [ho] at hx
    injection hx with e
    subst e
    rw [hd]
    exact fun z => absurd z.1 (by decide)

end legalStore

/-! ## Deletion -/

theorem sum_map_erase (f : Nat → Nat) (x : Nat) : ∀ {l : List Nat}, x ∈ l → ((l.erase x).map f).sum + f x = (l.map f).sum
  | y :: l, hx => by
    by_cases e : y = x
    · subst e; simp; omega
    · have hx' : x ∈ l := by
        rcases List.mem_cons.mp hx with h | h
        · exact absurd h.symm e
        · exact h
      have := sum_map_erase f x hx'
      rw [List.erase_cons_tail (by simpa using e)]
      simp only [List.map_cons, List.sum_cons]
      omega

theorem objectAt_handle {slots : Vector Slot 128} {i : SlotNo} {o : Obj} (ho : (slots[i]).obj = some o) (hd : o.state ≠ .doomed) :
    objectAt slots (handleOf i (slots[i]).gen) = some o := by
  have hg := (slots[i]).gen.isLt
  rw [objectAt_eq slots _ i (by unfold handleOf; omega), if_pos (by unfold handleOf; omega), ho]
  simp [Option.filter, hd]

/-- An entry leaves the list. -/
theorem Mailbox.Filed.erase {slots : Vector Slot 128} {m : MailboxNo} {b b' : Mailbox} (h : b.Filed slots m) {x : Nat} {o : Obj}
    (hx : x ∈ b.list) (ho : objectAt slots x = some o) (hl : b'.list = b.list.erase x) (hu : b'.used = b.used - o.chain.length)
    (hn : b'.newCount = b.newCount - o.newMessages) : b'.Filed slots m := by
  obtain ⟨h1, h2, h3, h4⟩ := h
  refine ⟨hl ▸ h1.erase x, fun y hy => h2 y (List.mem_of_mem_erase (hl ▸ hy)), ?_, ?_⟩
  · have := sum_map_erase (fun h => ((objectAt slots h).map (fun o => o.chain.length)).getD 0) x hx
    rw [hu, hl, h3]
    simp only [ho, Option.map_some, Option.getD_some] at this
    omega
  · have := sum_map_erase (fun h => ((objectAt slots h).map Obj.newMessages).getD 0) x hx
    rw [hn, hl, h4]
    simp only [ho, Option.map_some, Option.getD_some] at this
    omega

/-- What a deletion's notice does to mailbox `m` (R148): the handle of a message owned by it leaves its list. -/
def Mailbox.Noticed (x : Nat) (o : Obj) (m : MailboxNo) (b b' : Mailbox) : Prop :=
  if o.isMessage = true ∧ o.owner = .mailbox m ∧ x ∈ b.list then
    b'.list = b.list.erase x ∧ b'.used = b.used - o.chain.length ∧ b'.newCount = b.newCount - o.newMessages
  else b'.list = b.list ∧ b'.used = b.used ∧ b'.newCount = b.newCount

/-- A deletion, and its notice: the lists of the mailboxes. -/
theorem Mailbox.Filed.deleted {slots : Vector Slot 128} {m : MailboxNo} {b b' : Mailbox} (h : b.Filed slots m) (i : SlotNo) (y : Slot)
    (o : Obj) (ho : (slots[i]).obj = some o) (hd : o.state ≠ .doomed) (hn : Mailbox.Noticed (handleOf i (slots[i]).gen) o m b b') :
    b'.Filed (slots.set i y) m := by
  unfold Mailbox.Noticed at hn
  split at hn
  · next hc =>
    have h' : b'.Filed slots m := h.erase hc.2.2 (objectAt_handle ho hd) hn.1 hn.2.1 hn.2.2
    refine h'.set_unlisted i y rfl rfl rfl (fun x hx e => ?_)
    have := h'.handle i x hx e
    rw [hn.1, this] at hx
    exact (List.Nodup.not_mem_erase h.1) hx
  · next hc =>
    refine h.set_unlisted i y hn.1 hn.2.1 hn.2.2 (fun x hx e => ?_)
    have hh := h.handle i x hx e
    obtain ⟨o', ho', _, hm, hw⟩ := h.2.1 x hx
    rw [hh, objectAt_handle ho hd] at ho'
    injection ho' with e'
    subst e'
    exact hc ⟨hm, hw, hh ▸ hx⟩

/-- An entry joins the list: the handle of a CLOSED message of the mailbox, whose slot the list did not name; its status becomes
NEW. -/
theorem Mailbox.Filed.append {slots : Vector Slot 128} {m : MailboxNo} {b b' : Mailbox} (h : b.Filed slots m) (i : SlotNo) (y : Slot)
    (o' : Obj) (hg : y.gen = (slots[i]).gen) (hy : y.obj = some o') (hx : handleOf i (slots[i]).gen ∉ b.list)
    (hc : o'.state = .closed) (hm : o'.isMessage = true) (hw : o'.owner = .mailbox m)
    (hl : b'.list = b.list ++ [handleOf i (slots[i]).gen]) (hu : b'.used = b.used + o'.chain.length)
    (hn : b'.newCount = b.newCount + o'.newMessages) : b'.Filed (slots.set i y) m := by
  have hun : ∀ x ∈ b.list, x / 16 ≠ i.val := fun x hx' e => hx (h.handle i x hx' e ▸ hx')
  have hs : (slots.set i y)[i] = y := by simp
  have hob : objectAt (slots.set i y) (handleOf i (slots[i]).gen) = some o' := by
    have := objectAt_handle (slots := slots.set i y) (i := i) (o := o') (by rw [hs, hy]) (by rw [hc]; decide)
    rwa [hs, hg] at this
  obtain ⟨h1, h2, h3, h4⟩ := h.set_unlisted (b' := b) i y rfl rfl rfl hun
  refine ⟨?_, ?_, ?_, ?_⟩
  · rw [hl, List.nodup_append]
    refine ⟨h1, by simp, fun x hx1 z hz e => ?_⟩
    have hz' := List.mem_singleton.mp hz
    exact hx (hz' ▸ e ▸ hx1)
  · intro x hx'
    rw [hl] at hx'
    rcases List.mem_append.mp hx' with e | e
    · exact h2 x e
    · have e' := List.mem_singleton.mp e
      exact ⟨o', e' ▸ hob, hc, hm, hw⟩
  · rw [hu, hl, h3]; simp [hob, -Fin.getElem_fin]
  · rw [hn, hl, h4]; simp [hob, -Fin.getElem_fin]

/-- The number of NEW messages follows the status of one that the list names. -/
theorem Mailbox.Filed.restatus {slots : Vector Slot 128} {m : MailboxNo} {b b' : Mailbox} (h : b.Filed slots m) (i : SlotNo) (y : Slot)
    (o o' : Obj) (hg : y.gen = (slots[i]).gen) (ho : (slots[i]).obj = some o) (hy : y.obj = some o')
    (hc : o'.state = o.state) (hm : o'.isMessage = o.isMessage) (hw : o'.owner = o.owner) (hch : o'.chain = o.chain)
    (hl : b'.list = b.list) (hu : b'.used = b.used)
    (hn : b'.newCount = if handleOf i (slots[i]).gen ∈ b.list then b.newCount - o.newMessages + o'.newMessages else b.newCount) :
    b'.Filed (slots.set i y) m := by
  by_cases hx : handleOf i (slots[i]).gen ∈ b.list
  · have hd : o.state ≠ .doomed := by
      intro e
      obtain ⟨z, hz, hcz, _⟩ := h.2.1 _ hx
      obtain ⟨j, hj, hjo, _, hne⟩ := objectAt_slot hz
      have : j = i := by
        refine Fin.ext ?_
        have := (slots[i]).gen.isLt
        unfold handleOf at hj
        omega
      subst this
      rw [ho] at hjo
      injection hjo with e2
      subst e2
      exact hne e
    have hs : (slots.set i y)[i] = y := by simp
    have hob' : objectAt (slots.set i y) (handleOf i (slots[i]).gen) = some o' := by
      have := objectAt_handle (slots := slots.set i y) (i := i) (o := o') (by rw [hs, hy]) (by rw [hc]; exact hd)
      rwa [hs, hg] at this
    have hob := objectAt_handle ho hd
    have hne : ∀ x ∈ b.list, x ≠ handleOf i (slots[i]).gen → objectAt (slots.set i y) x = objectAt slots x := fun x hx1 hx2 =>
      objectAt_set_ne _ _ _ _ (fun e => hx2 (h.handle i x hx1 e))
    obtain ⟨h1, h2, h3, h4⟩ := h
    refine ⟨hl ▸ h1, ?_, ?_, ?_⟩
    · intro x hx1
      rw [hl] at hx1
      by_cases e : x = handleOf i (slots[i]).gen
      · obtain ⟨z, hz, a1, a2, a3⟩ := h2 x hx1
        rw [e, hob] at hz
        injection hz with e2
        subst e2
        exact ⟨o', e ▸ hob', hc.trans a1, hm.trans a2, hw.trans a3⟩
      · rw [hne x hx1 e]
        exact h2 x hx1
    · rw [hu, hl, h3]
      congr 1
      apply List.map_congr_left
      intro x hx1
      by_cases e : x = handleOf i (slots[i]).gen
      · rw [e, hob, hob']; simp [hch]
      · rw [hne x hx1 e]
    · rw [hn, if_pos hx, hl, h4]
      have s1 := sum_map_erase (fun h => ((objectAt slots h).map Obj.newMessages).getD 0) _ hx
      have s2 := sum_map_erase (fun h => ((objectAt (slots.set i y) h).map Obj.newMessages).getD 0) _ hx
      have e3 : ((b.list.erase (handleOf i (slots[i]).gen)).map (fun h => ((objectAt (slots.set i y) h).map Obj.newMessages).getD 0)) =
          ((b.list.erase (handleOf i (slots[i]).gen)).map (fun h => ((objectAt slots h).map Obj.newMessages).getD 0)) := by
        apply List.map_congr_left
        intro x hx1
        rw [hne x (List.mem_of_mem_erase hx1) (fun e => (List.Nodup.not_mem_erase h1) (e ▸ hx1))]
      rw [e3] at s2
      simp only [hob, hob', Option.map_some, Option.getD_some] at s1 s2
      omega
  · rw [if_neg hx] at hn
    exact h.set_unlisted i y hl hu hn (fun x hx1 e => hx (h.handle i x hx1 e ▸ hx1))

end Sys2Proof.Machine
end

