-- ==== Sys2Proof/Laws/Legal.lean ====
section
/-!
SUPPORT. Every operation of the part keeps it legal (`Chip.Legal`): one lemma for each operation, in the order of the model's
files; `Laws/LegalCommands.lean` has one for each command.
-/
namespace Sys2Proof.Machine

/-! ## Pending event sets -/

theorem legalSet_merge (kind : Notice) (detail : List Byte) : ∀ es : List PendEntry, legalSet es → legalSet (mergeEntry kind detail es)
  | [], _ => by simp [mergeEntry, legalSet]
  | e :: rest, ⟨hn, hc⟩ => by
    have hn' : e.kind ∉ rest.map (·.kind) ∧ (rest.map (·.kind)).Nodup := by simpa using hn
    have ih := legalSet_merge kind detail rest ⟨hn'.2, fun x hx => hc x (List.mem_cons_of_mem _ hx)⟩
    have mem : ∀ (es : List PendEntry) (k : Notice), k ∈ (mergeEntry kind detail es).map (·.kind) →
        k = kind ∨ k ∈ es.map (·.kind) := by
      intro es k
      induction es with
      | nil => intro h; exact Or.inl (by simpa [mergeEntry] using h)
      | cons a as iha =>
        unfold mergeEntry
        split
        · intro h; exact Or.inr (by simpa using h)
        · intro h
          rcases (by simpa using h : k = a.kind ∨ k ∈ (mergeEntry kind detail as).map (·.kind)) with h | h
          · exact Or.inr (by simp [h])
          · rcases iha h with h | h
            · exact Or.inl h
            · exact Or.inr (List.mem_cons_of_mem _ h)
    unfold mergeEntry
    split
    · refine ⟨by simpa using hn, fun x hx => ?_⟩
      rcases List.mem_cons.mp hx with h | h
      · subst h; simp only; omega
      · exact hc x (List.mem_cons_of_mem _ h)
    · next hk =>
      refine ⟨?_, fun x hx => ?_⟩
      · simp only [List.map_cons, List.nodup_cons]
        refine ⟨fun h => ?_, ih.1⟩
        rcases mem rest e.kind h with h | h
        · exact hk h
        · exact hn'.1 h
      · rcases List.mem_cons.mp hx with h | h
        · exact h ▸ hc e List.mem_cons_self
        · exact ih.2 x h

theorem legalSet_tail {e : PendEntry} {rest : List PendEntry} (h : legalSet (e :: rest)) : legalSet rest :=
  ⟨(List.nodup_cons.mp (by simpa using h.1)).2, fun x hx => h.2 x (List.mem_cons_of_mem _ hx)⟩

/-- The sets of the link are legal. -/
def Link.Legal (k : Link) : Prop := ∀ i : Fin 5, legalSet k.sets[i]

theorem Link.Legal.set {k : Link} (h : k.Legal) (i : Fin 5) {es : List PendEntry} (hs : legalSet es) :
    ∀ j : Fin 5, legalSet (k.sets.set i es)[j] := by
  intro j
  have hj := h j
  simp only [Fin.getElem_fin, Vector.getElem_set] at hj ⊢
  split
  · exact hs
  · exact hj

theorem Link.Legal.post {k : Link} (h : k.Legal) (i : Fin 5) (kind : Notice) (d : List Byte) : (k.post i kind d).Legal := by
  unfold Link.post
  split
  · exact h
  · exact h.set i (legalSet_merge kind d _ (h i))

theorem Link.Legal.drainOne {k : Link} (h : k.Legal) : k.drainOne.Legal := by
  unfold Link.drainOne
  split
  · exact h
  · split
    · exact h
    · next i _ =>
      split
      · exact h
      · next e rest he => exact h.set i (legalSet_tail (e := e) (he ▸ h i))

theorem Link.Legal.drain (n : Nat) : ∀ {k : Link}, k.Legal → (Link.drain n k).Legal := by
  induction n with
  | zero => intro k h; exact h
  | succ n ih => intro k h; exact ih h.drainOne

theorem Link.Legal.headRead {k : Link} (h : k.Legal) : k.headRead.Legal := Link.Legal.drain 16 h

namespace Chip.Legal

/-! ## The updates -/

variable {c : Chip}

theorem lines (h : c.Legal) (l : LineNo) : (c.lines[l]).Legal := h.1.2.2.1 l
theorem sets (h : c.Legal) : c.link.Legal := h.1.2.1
theorem books (h : c.Legal) : legalStore c.store.slots c.store.free c.chans c.mailboxes := h.2

theorem modLink (h : c.Legal) {f : Link → Link} (hf : (f c.link).sets = c.link.sets) : (c.modLink f).Legal := by
  obtain ⟨⟨h1, h2, h3⟩, hb⟩ := h
  refine ⟨⟨h1, ?_, h3⟩, hb⟩
  intro i
  have := h2 i
  simp only [Chip.modLink, hf]
  exact this

theorem modLinkSets (h : c.Legal) {f : Link → Link} (hf : c.link.Legal → (f c.link).Legal) : (c.modLink f).Legal :=
  ⟨⟨h.1.1, hf h.1.2.1, h.1.2.2⟩, h.2⟩

theorem modStore (h : c.Legal) {f : Store → Store} (hd : (f c.store).dram = c.store.dram)
    (hs : (f c.store).slots = c.store.slots := by exact rfl) (hf : (f c.store).free = c.store.free := by exact rfl) : (c.modStore f).Legal :=
  ⟨by simp only [Chip.modStore, hd]; exact h.1, by simp only [Chip.modStore, hs, hf]; exact h.2⟩

/-- A channel changes, but not whether it is FREE, nor its slot. -/
theorem modChan (h : c.Legal) {i : ChanNo} {f : Chan → Chan} (hf : (f c.chans[i]).state = .free ↔ (c.chans[i]).state = .free)
    (hs : (f c.chans[i]).slot = (c.chans[i]).slot := by exact rfl) : (c.modChan i f).Legal :=
  ⟨h.1, h.2.setChan i (f c.chans[i]) hf hs⟩

theorem modCodec (h : c.Legal) (l : LineNo) (f : Codec → Codec) : (c.modCodec l f).Legal := h
theorem modEpath (h : c.Legal) (l : LineNo) (f : PathBuf → PathBuf) : (c.modEpath l f).Legal := h
theorem modCall (h : c.Legal) (l : LineNo) (f : Call → Call) : (c.modCall l f).Legal := h
theorem modEngine (h : c.Legal) (e : EngineNo) (f : Engine → Engine) : (c.modEngine e f).Legal := h
theorem modUnit (h : c.Legal) (e : EngineNo) (f : DataLink → DataLink) : (c.modUnit e f).Legal := h
theorem modFax (h : c.Legal) (l : LineNo) (f : FaxJob → FaxJob) : (c.modFax l f).Legal := h
theorem setFax (h : c.Legal) (l : LineNo) (j : Option FaxJob) : (c.setFax l j).Legal := h

theorem endFax (h : c.Legal) (l : LineNo) (j : FaxJob) : (c.endFax l j).Legal := h
theorem modSeq (h : c.Legal) (l : LineNo) (f : PlanSeq → PlanSeq) : (c.modSeq l f).Legal := h

theorem modLine (h : c.Legal) {l : LineNo} {f : Line → Line} (hf : (c.lines[l]).Legal → (f c.lines[l]).Legal) :
    (c.modLine l f).Legal := by
  refine ⟨⟨h.1.1, h.1.2.1, fun k => ?_, h.1.2.2.2⟩, h.2⟩
  have hk := h.1.2.2.1 k
  have hl := hf (h.1.2.2.1 l)
  simp only [Chip.modLine, upd, Fin.getElem_fin, Vector.getElem_set] at hk hl ⊢
  split
  · exact hl
  · exact hk

theorem mailboxParts (h : c.Legal) {m : MailboxNo} {f : Mailbox → Mailbox} (hf : (c.mailboxes[m]).Legal → (f c.mailboxes[m]).Legal) :
    legalParts c.store.dram c.link.sets c.lines (upd c.mailboxes m f) c.plans c.linkOpts c.faxOpts.limit c.lowMark c.faxReserve := by
  refine ⟨h.1.1, h.1.2.1, h.1.2.2.1, fun k => ?_, h.1.2.2.2.2⟩
  have hk := h.1.2.2.2.1 k
  have hl := hf (h.1.2.2.2.1 m)
  simp only [upd, Fin.getElem_fin, Vector.getElem_set] at hk hl ⊢
  split
  · exact hl
  · exact hk

/-- A mailbox changes, but for its list and counts. -/
theorem modMailbox (h : c.Legal) {m : MailboxNo} {f : Mailbox → Mailbox} (hf : (c.mailboxes[m]).Legal → (f c.mailboxes[m]).Legal)
    (hl : (f c.mailboxes[m]).list = (c.mailboxes[m]).list := by exact rfl)
    (hu : (f c.mailboxes[m]).used = (c.mailboxes[m]).used := by exact rfl)
    (hn : (f c.mailboxes[m]).newCount = (c.mailboxes[m]).newCount := by exact rfl) : (c.modMailbox m f).Legal := by
  refine ⟨h.mailboxParts hf, h.2.setMail (fun k => ?_)⟩
  by_cases e : k = m
  · subst e
    have hs : (upd c.mailboxes k f)[k] = f c.mailboxes[k] := by simp [upd]
    simp only [Chip.modMailbox, hs]
    exact ⟨hl, hu, hn⟩
  · have hs : (upd c.mailboxes m f)[k] = c.mailboxes[k] := by
      simp only [upd, Fin.getElem_fin]
      rw [Vector.getElem_set_ne]
      exact fun x => e (Fin.ext x.symm)
    simp only [Chip.modMailbox, hs, and_self]

/-- The object of a slot changes, but not its chain and users, and it does not become DOOMED. No list names it, or the lists see no
difference. -/
theorem modObj (h : c.Legal) {i : SlotNo} {f : Obj → Obj} (hf : ∀ o : Obj, c.obj i = some o → (f o).chain = o.chain ∧ (f o).users = o.users ∧
    ((f o).state = .doomed → o.state = .doomed) ∧ ((f o).face = o.face ∨ ¬ (o.state = .closed ∧ o.isMessage = true))) :
    (c.modObj i f).Legal := by
  refine ⟨h.1, ?_⟩
  cases ho : (c.store.slots[i]).obj with
  | none =>
    refine h.2.setSlot i _ (free' := c.store.free) (chans' := c.chans) (fun a => by simp only [Slot.blocks, ho, Option.map_none])
      (fun _ _ => rfl) ?_ (fun m hm => hm.set_same i _ rfl (by simp only [ho, Option.map_none]))
    simpa only [ho, Option.map_none] using h.2.2.1 i
  | some o =>
    obtain ⟨h1, h2, h3, h4⟩ := hf o ho
    refine h.2.change i _ o (f o) (free' := c.store.free) (chans' := c.chans) ho (by simp only [ho, Option.map_some]) rfl
      (fun a => by rw [h1]) (fun _ _ => rfl) (by omega) (fun hd => ?_) h4
    rw [h2]
    exact ((h.2.2.1 i).1 o ho).2 (h3 hd)

theorem withPort (h : c.Legal) (p : Port) : ({ c with port := p } : Chip).Legal := h
theorem withLinkPort (h : c.Legal) (p : LinkPort) : ({ c with linkPort := p } : Chip).Legal := h
theorem withReadReq (h : c.Legal) (q : Option ReadReq) : ({ c with readReq := q } : Chip).Legal := h
theorem withWriteReq (h : c.Legal) (q : Option WriteReq) : ({ c with writeReq := q } : Chip).Legal := h
theorem withReady (h : c.Legal) (b : Bool) : ({ c with ready := b } : Chip).Legal := h
theorem withTrees (h : c.Legal) (t : Vector Tree 4) : ({ c with trees := t } : Chip).Legal := h
theorem withScreen (h : c.Legal) (t : Vector (Option ScreenEntry) 16) : ({ c with screen := t } : Chip).Legal := h
theorem withSeqs (h : c.Legal) (t : Vector PlanSeq 4) : ({ c with seqs := t } : Chip).Legal := h
theorem withClock (h : c.Legal) (t : BitVec 32) (b : Bool) : ({ c with clock := t, clockNotSet := b } : Chip).Legal := h
theorem withCause (h : c.Legal) (t : ResetCause) : ({ c with resetCause := t } : Chip).Legal := h

/-! ## Notices and replies -/

theorem note (h : c.Legal) (l : LineNo) (k : Notice) (d : List Byte) : (c.note l k d).Legal := h.modLinkSets (fun hk => hk.post _ k d)
theorem noteDev (h : c.Legal) (k : Notice) (d : List Byte) : (c.noteDev k d).Legal := h.modLinkSets (fun hk => hk.post _ k d)
theorem reply (h : c.Legal) (r : Request) (x : Cls) (y : Reason) (bs : List Byte) : (c.reply r x y bs).Legal := by
  refine h.modLink ?_
  dsimp only
  split <;> rfl
theorem refuse (h : c.Legal) (r : Request) (y : Reason) : (c.refuse r y).Legal := h.reply r _ y []
theorem normal (h : c.Legal) (r : Request) (bs : List Byte) : (c.normal r bs).Legal := h.reply r _ _ bs

/-! ## Commands -/

theorem effect {s t : State} (h : s.chip.Legal) {f : Chip → Chip} (hf : ∀ c : Chip, c.Legal → (f c).Legal)
    (e : Machine.effect s f = .next t) : t.chip.Legal := by
  unfold Machine.effect at e
  injection e with e
  subst e
  exact hf _ h

theorem dispatch (h : c.Legal) (want : Request → Bool) {f : Chip → Request → Chip} (hf : ∀ (c : Chip) (r : Request), c.Legal → (f c r).Legal) :
    (c.dispatch want f).Legal := by
  unfold Chip.dispatch
  split
  · exact h
  · split
    · exact hf _ _ (h.modLink rfl)
    · exact h

theorem deviceRequest (h : c.Legal) (code : Byte) {f : Chip → Request → Chip} (hf : ∀ (c : Chip) (r : Request), c.Legal → (f c r).Legal) :
    (c.deviceRequest code f).Legal := by
  unfold Chip.deviceRequest
  refine h.dispatch _ (fun c r h => ?_)
  split
  · exact hf c r h
  · exact h.refuse r _

theorem lineRequest (h : c.Legal) (code : Byte) {f : Chip → Request → LineNo → Chip}
    (hf : ∀ (c : Chip) (r : Request) (l : LineNo), c.Legal → (f c r l).Legal) : (c.lineRequest code f).Legal := by
  unfold Chip.lineRequest
  refine h.dispatch _ (fun c r h => ?_)
  split
  · exact hf c r _ h
  · exact h.refuse r _

theorem walked {α : Type} (h : c.Legal) {r : Request} {w : Option α} {f : α → Chip} (hf : ∀ x : α, w = some x → (f x).Legal) :
    (c.walked r w f).Legal := by
  unfold Chip.walked
  split
  · exact hf _ rfl
  · exact h.refuse r _

theorem named (h : c.Legal) {r : Request} {n : Nat} {f : SlotNo → Obj → Chip}
    (hf : ∀ (i : SlotNo) (o : Obj), c.store.lookup n = some (i, o) → (f i o).Legal) : (c.named r n f).Legal := by
  unfold Chip.named
  split
  · next i o e => exact hf i o e
  · exact h.refuse r _

end Chip.Legal


namespace Chip.Legal

theorem relow (c : Chip) (hL : c.Legal) : (Chip.relow c).Legal := by
  unfold Chip.relow
  try dsimp only
  repeat' (first | assumption | with_reducible (first | apply noteDev | refine modStore ?_ rfl) | intro _ | split)

/-- `relow` leaves what the books speak of. -/
theorem relow_books (c : Chip) : c.relow.store.slots = c.store.slots ∧ c.relow.store.free = c.store.free ∧ c.relow.chans = c.chans ∧
    c.relow.mailboxes = c.mailboxes := by
  unfold Chip.relow
  repeat' split
  all_goals exact ⟨rfl, rfl, rfl, rfl⟩

theorem pushBlocks_books (c : Chip) (bs : List Nat) : (c.pushBlocks bs).store.slots = c.store.slots ∧
    (c.pushBlocks bs).store.free = bs.reverse ++ c.store.free ∧ (c.pushBlocks bs).chans = c.chans ∧
    (c.pushBlocks bs).mailboxes = c.mailboxes := by
  unfold Chip.pushBlocks
  split
  · next h =>
    have : bs = [] := by simpa using h
    subst this
    exact ⟨rfl, rfl, rfl, rfl⟩
  · obtain ⟨h1, h2, h3, h4⟩ := relow_books (c.modStore (fun st => { st with free := bs.reverse ++ st.free }))
    exact ⟨h1, h2, h3, h4⟩

/-- The parts other than the books. -/
abbrev Parts (c : Chip) : Prop :=
  legalParts c.store.dram c.link.sets c.lines c.mailboxes c.plans c.linkOpts c.faxOpts.limit c.lowMark c.faxReserve

theorem relowParts (c : Chip) (h : Parts c) : Parts c.relow := by
  unfold Chip.relow
  repeat' split
  · refine ⟨h.1, ?_, h.2.2⟩
    exact (show c.link.Legal from h.2.1).post _ _ _
  · exact h
  · exact h

theorem pushParts (c : Chip) (bs : List Nat) (h : Parts c) : Parts (c.pushBlocks bs) := by
  unfold Chip.pushBlocks
  split
  · exact h
  · exact relowParts _ h

/-- An unused object is placed in a FREE slot, its chain from the stack. -/
theorem fillSlot (c : Chip) (i : SlotNo) (o : Obj) (free : List Nat) (hL : c.Legal) (hn : c.obj i = none)
    (hf : ∀ a, free.count a + o.chain.count a = c.store.free.count a) (hu : o.users = 0) (hd : o.state ≠ .doomed) :
    ((c.modStore (fun st => { st with free := free })).placeObj i o).Legal :=
  ⟨hL.1, hL.2.fill i _ o hn rfl hf hu hd⟩

theorem freeSlot_obj {c : Chip} {k : Nat} {i : SlotNo} (h : c.store.freeSlotFrom k = some i) : c.obj i = none :=
  (Store.freeSlotFrom_some h).2.1

theorem freeSlot_ge {c : Chip} {k : Nat} {i : SlotNo} (h : c.store.freeSlotFrom k = some i) : k ≤ i.val :=
  (Store.freeSlotFrom_some h).1

theorem createObj_eq (c : Chip) (owner : Owner) (attr : Attr) {r : Chip} {y : SlotNo} (hL : c.Legal)
    (hE : c.createObj owner attr = some (r, y)) : r.Legal := by
  unfold Chip.createObj at hE
  obtain ⟨i, hi, h⟩ := Option.map_eq_some_iff.mp hE
  injection h with h1 h2
  subst h1
  exact fillSlot c i _ c.store.free hL (freeSlot_obj hi) (fun a => by simp) rfl (by simp)

theorem ringPair_eq (c : Chip) (l : LineNo) (e : EngineNo) {r} {y} (hL : c.Legal)
    (hE : Chip.ringPair c l e = .ok (r, y)) : r.Legal := by
  unfold Chip.ringPair at hE
  split at hE
  · contradiction
  · next i hi =>
    split at hE
    · contradiction
    · next j hj =>
      split at hE
      · contradiction
      · injection hE with hE
        injection hE with e1 e2
        subst e1
        have hij : i ≠ j := fun e => by have := freeSlot_ge hj; subst e; omega
        have h1 := fillSlot c i (ringObj c l e true ((c.store.free.take 8).take 4)) (c.store.free.drop 4) hL (freeSlot_obj hi)
          (fun a => by
            have e4 : (c.store.free.take 8).take 4 = c.store.free.take 4 := by rw [List.take_take]; rfl
            show List.count a (c.store.free.drop 4) + List.count a ((c.store.free.take 8).take 4) = List.count a c.store.free
            rw [e4, Nat.add_comm, ← List.count_append, List.take_append_drop])
          rfl (by simp [ringObj])
        have hj' : ((c.modStore (fun st => { st with free := c.store.free.drop 4 })).placeObj i
            (ringObj c l e true ((c.store.free.take 8).take 4))).obj j = none := by
          have := freeSlot_obj hj
          unfold Chip.obj Chip.placeObj Chip.modSlot Chip.modStore upd at *
          simp only [Fin.getElem_fin] at *
          rw [Vector.getElem_set_ne _ _ (fun x => hij (Fin.ext x))]
          exact this
        have h2 := fillSlot _ j (ringObj c l e false ((c.store.free.take 8).drop 4)) (c.store.free.drop 8) h1 hj'
          (fun a => by
            have e8 : (c.store.free.take 8).drop 4 = (c.store.free.drop 4).take 4 := by rw [List.drop_take]
            have e9 : c.store.free.drop 8 = (c.store.free.drop 4).drop 4 := by rw [List.drop_drop]
            show List.count a (c.store.free.drop 8) + List.count a ((c.store.free.take 8).drop 4) = List.count a (c.store.free.drop 4)
            rw [e8, e9, Nat.add_comm, ← List.count_append, List.take_append_drop])
          rfl (by simp [ringObj])
        exact relow _ h2

theorem putBytes (c : Chip) (i : SlotNo) (p a : Nat) (bs : List Byte) (hL : c.Legal) : (c.putBytes i p a bs).Legal := by
  have h : (c.modStore (fun st => { st with dram := Mem.writeBytes st.dram a bs })).Legal :=
    ⟨⟨Mem.writeBytes_wf bs a hL.1.1, hL.1.2⟩, hL.2⟩
  exact h.modObj (fun o _ => ⟨rfl, rfl, id, Or.inl rfl⟩)

theorem storeWrite (c : Chip) (i : SlotNo) (p : Nat) (bs : List Byte) (hL : c.Legal) :
    (Chip.storeWrite c i p bs).1.Legal := by
  unfold Chip.storeWrite
  split
  · exact hL
  · next o ho =>
    split
    · exact hL
    · next hs =>
      have hs' : o.state = .openWrite := Decidable.byContradiction hs
      split
      · exact putBytes _ _ _ _ _ hL
      · dsimp only
        split
        · exact hL
        · have h1 : ∀ n, ((c.modStore (fun st => { st with free := st.free.drop n })).modObj i
              (fun x => { x with chain := o.chain ++ c.store.free.take n })).Legal := fun n => by
            refine ⟨hL.1, hL.2.change i _ o { o with chain := o.chain ++ c.store.free.take n } (free' := c.store.free.drop n)
              (chans' := c.chans) ho (by simp only [Chip.modStore, show (c.store.slots[i]).obj = some o from ho, Option.map_some])
              rfl (fun a => ?_) (fun _ _ => rfl) (Nat.add_comm _ _) (fun hd => ?_) (Or.inr (fun x => ?_))⟩
            · show List.count a (c.store.free.drop n) + List.count a (o.chain ++ c.store.free.take n) = _
              have := congrArg (List.count a) (List.take_append_drop n c.store.free)
              simp only [List.count_append] at this ⊢
              omega
            · exact absurd (hs'.symm.trans hd) (by decide)
            · exact absurd (hs'.symm.trans x.1) (by decide)
          split
          · exact relow _ (putBytes _ _ _ _ _ (h1 _))
          · exact h1 _

theorem storeWrite_eq (c : Chip) (i : SlotNo) (p : Nat) (bs : List Byte) {r} {y} (hL : c.Legal)
    (hE : Chip.storeWrite c i p bs = (r, y)) : r.Legal := by
  have := storeWrite c i p bs hL
  rwa [hE] at this

theorem closeObj (c : Chip) (i : SlotNo) (hL : c.Legal) : (Chip.closeObj c i).1.Legal := by
  unfold Chip.closeObj
  split
  · exact hL
  · next o ho =>
    split
    · next hs =>
      refine hL.modObj (fun x hx => ?_)
      have e : x = o := Option.some.inj (hx.symm.trans ho)
      subst e
      exact ⟨rfl, rfl, fun h => absurd h (by simp [Obj.close]), Or.inr (fun z => absurd (hs.symm.trans z.1) (by decide))⟩
    · exact hL
    · exact hL

theorem closeObj_eq (c : Chip) (i : SlotNo) {r} {y} (hL : c.Legal) (hE : Chip.closeObj c i = (r, y)) : r.Legal := by
  have := closeObj c i hL
  rwa [hE] at this

theorem trimObj (c : Chip) (i : SlotNo) (n : Nat) (hL : c.Legal) : (Chip.trimObj c i n).Legal := by
  unfold Chip.trimObj
  split
  · exact hL
  · next o ho =>
    split
    · next hs =>
      refine ⟨pushParts _ _ hL.1, ?_⟩
      obtain ⟨e1, e2, e3, e4⟩ := pushBlocks_books (c.modObj i (fun x => { x with chain := x.chain.take (blocksFor n), length := n }))
        (o.chain.drop (blocksFor n))
      rw [e1, e2, e3, e4]
      refine hL.2.change i _ o { o with chain := o.chain.take (blocksFor n), length := n } ho
        (by simp only [show (c.store.slots[i]).obj = some o from ho, Option.map_some]) rfl (fun a => ?_) (fun _ _ => rfl)
        (Nat.add_comm _ _) (fun hd => absurd (hs.symm.trans hd) (by decide)) (Or.inr (fun x => absurd (hs.symm.trans x.1) (by decide)))
      have := congrArg (List.count a) (List.take_append_drop (blocksFor n) o.chain)
      show List.count a (_ ++ c.store.free) + _ = _
      simp only [List.count_append, List.count_reverse] at this ⊢
      omega
    · exact hL



theorem noticed_none {x : Nat} {o : Obj} {m : MailboxNo} {b b' : Mailbox} (h : ¬ (o.isMessage = true ∧ o.owner = .mailbox m))
    (hb : b'.list = b.list ∧ b'.used = b.used ∧ b'.newCount = b.newCount) : Mailbox.Noticed x o m b b' := by
  unfold Mailbox.Noticed
  split
  · next e => exact absurd ⟨e.1, e.2.1⟩ h
  · exact hb

/-- What the notice of a deletion does to the lists of the mailboxes, and to nothing else that the books speak of. -/
theorem deletionNotice_books (c : Chip) (h : Nat) (o : Obj) : (c.deletionNotice h o).store = c.store ∧
    (c.deletionNotice h o).chans = c.chans ∧
    ∀ k : MailboxNo, Mailbox.Noticed h o k (c.mailboxes[k]) ((c.deletionNotice h o).mailboxes[k]) := by
  unfold Chip.deletionNotice
  split
  · next caller l status m ha hw =>
    unfold Chip.messageDeleted
    dsimp only
    have hm : o.isMessage = true := by unfold Obj.isMessage; rw [ha]
    split
    · next hc =>
      refine ⟨rfl, rfl, fun k => ?_⟩
      have hc' : h ∈ (c.mailboxes[m]).list := List.contains_iff_mem.mp hc
      unfold Chip.modMailbox upd
      dsimp only
      by_cases e : k = m
      · subst e
        rw [show ∀ y, (c.mailboxes.set k y)[k] = y from fun y => by simp]
        unfold Mailbox.Noticed
        rw [if_pos ⟨hm, hw, hc'⟩]
        refine ⟨rfl, rfl, ?_⟩
        have : o.newMessages = MsgStatus.fresh status := by unfold Obj.newMessages; rw [ha]
        rw [this]
        unfold MsgStatus.fresh
        cases status <;> rfl
      · rw [show ∀ y, (c.mailboxes.set m y)[k] = c.mailboxes[k] from fun y => by
          simp only [Fin.getElem_fin]
          rw [Vector.getElem_set_ne]
          exact fun x => e (Fin.ext x.symm)]
        exact noticed_none (fun z => e (by rw [hw] at z; injection z.2 with z; exact z.symm)) ⟨rfl, rfl, rfl⟩
    · next hc =>
      refine ⟨rfl, rfl, fun k => ?_⟩
      unfold Mailbox.Noticed
      split
      · next z =>
        have e : m = k := by have := z.2.1; rw [hw] at this; injection this
        subst e
        exact absurd (List.contains_iff_mem.mpr z.2.2) (by simpa using hc)
      · exact ⟨rfl, rfl, rfl⟩
  · next ha =>
    refine ⟨rfl, rfl, fun k => noticed_none (fun z => ?_) ?_⟩
    · have := z.1
      unfold Obj.isMessage at this
      rw [ha] at this
      contradiction
    · simp only [Chip.clipDeleted, Fin.getElem_fin, Vector.getElem_map]
      split <;> exact ⟨rfl, rfl, rfl⟩
  · next hm' =>
    refine ⟨rfl, rfl, fun k => noticed_none (fun z => ?_) ⟨rfl, rfl, rfl⟩⟩
    have hm := z.1
    unfold Obj.isMessage at hm
    split at hm
    · next ca li st ha => exact hm' _ _ _ _ ha z.2
    · contradiction



theorem noticeParts (c : Chip) (h : Nat) (o : Obj) (hL : Parts c) : Parts (c.deletionNotice h o) := by
  unfold Chip.deletionNotice
  split
  · unfold Chip.messageDeleted
    dsimp only
    split
    · refine ⟨hL.1, hL.2.1, hL.2.2.1, fun k => ?_, hL.2.2.2.2⟩
      next m _ _ _ =>
      have hk := hL.2.2.2.1 k
      have hm := hL.2.2.2.1 m
      simp only [Chip.modMailbox, upd, Fin.getElem_fin, Vector.getElem_set] at hk hm ⊢
      split
      · exact hm
      · exact hk
    · exact hL
  · refine ⟨hL.1, hL.2.1, hL.2.2.1, fun m => ?_, hL.2.2.2.2⟩
    have hm := hL.2.2.2.1 m
    simp only [Chip.clipDeleted, Fin.getElem_fin, Vector.getElem_map] at hm ⊢
    split <;> exact hm
  · exact hL

theorem lookup_obj {c : Chip} {h : Nat} {i : SlotNo} {o : Obj} (e : c.store.lookup h = some (i, o)) : c.obj i = some o ∧ o.state ≠ .doomed :=
  (Store.lookup_some e).2

theorem lookup_handle {c : Chip} {h : Nat} {i : SlotNo} {o : Obj} (e : c.store.lookup h = some (i, o)) :
    h = handleOf i (c.store.slots[i]).gen := (Store.lookup_some e).1

/-- The unused object of a slot is freed. -/
theorem freeObj_books {c : Chip} {i : SlotNo} {o : Obj} (ho : c.obj i = some o) :
    (c.freeObj i).store.slots = upd c.store.slots i (fun x => { x with obj := none }) ∧
    (c.freeObj i).store.free = o.chain.reverse ++ c.store.free ∧ (c.freeObj i).chans = c.chans ∧ (c.freeObj i).mailboxes = c.mailboxes := by
  unfold Chip.freeObj
  simp only [ho]
  exact pushBlocks_books _ _

theorem freeParts (c : Chip) (i : SlotNo) (h : Parts c) : Parts (c.freeObj i) := by
  unfold Chip.freeObj
  split
  · exact h
  · exact pushParts _ _ h

theorem deleteObj (c : Chip) (i : SlotNo) (o : Obj) (ho : c.obj i = some o) (hd : o.state ≠ .doomed) (hL : c.Legal) :
    (Chip.deleteObj c i o).1.Legal := by
  have hs : ∀ (v : Vector Slot 128) (f : Slot → Slot), (upd v i f)[i] = f v[i] := fun v f => by simp [upd]
  have hob : (c.modSlot i (fun x => { x with gen := x.gen + 1 })).obj i = some o := by
    unfold Chip.obj Chip.modSlot
    dsimp only
    rw [hs]
    exact ho
  unfold Chip.deleteObj
  dsimp only
  split
  · next hu =>
    refine ⟨noticeParts _ _ _ (freeParts _ _ hL.1), ?_⟩
    obtain ⟨f1, f2, f3, f4⟩ := freeObj_books hob
    obtain ⟨n1, n2, n3⟩ := deletionNotice_books ((c.modSlot i (fun x => { x with gen := x.gen + 1 })).freeObj i) (c.handle i) o
    rw [n1, n2, f1, f2, f3]
    have hsl : upd (c.modSlot i (fun x => { x with gen := x.gen + 1 })).store.slots i (fun x => { x with obj := none }) =
        c.store.slots.set i { gen := (c.store.slots[i]).gen + 1, obj := none } := by
      simp [Chip.modSlot, upd, Vector.set_set]
    rw [hsl]
    refine hL.2.setSlot i _ (fun a => ?_) (fun _ _ => rfl) ⟨fun _ h => by contradiction, fun _ => ?_⟩ (fun m hm => ?_)
    · simp [Slot.blocks, show (c.store.slots[i]).obj = some o from ho, Chip.modSlot, -Fin.getElem_fin, Nat.add_comm]
    · exact ((hL.2.2.1 i).1 o ho).1.symm.trans hu
    · have := n3 m
      rw [f4] at this
      exact hm.deleted i _ o ho hd this
  · next hu =>
    refine ⟨noticeParts _ _ _ hL.1, ?_⟩
    obtain ⟨n1, n2, n3⟩ := deletionNotice_books ((c.modSlot i (fun x => { x with gen := x.gen + 1 })).modObj i
      (fun o => { o with state := .doomed })) (c.handle i) o
    rw [n1, n2]
    have hsl : ((c.modSlot i (fun x => { x with gen := x.gen + 1 })).modObj i (fun o => { o with state := .doomed })).store.slots =
        c.store.slots.set i { gen := (c.store.slots[i]).gen + 1, obj := some { o with state := .doomed } } := by
      have ho' : (c.store.slots[i]).obj = some o := ho
      simp only [Fin.getElem_fin] at ho'
      simp [Chip.modObj, Chip.modSlot, upd, Vector.set_set, ho']
    rw [hsl]
    refine hL.2.setSlot i _ (fun a => ?_) (fun _ _ => rfl) ⟨fun x hx => ?_, fun h => by contradiction⟩ (fun m hm => ?_)
    · simp [Slot.blocks, show (c.store.slots[i]).obj = some o from ho, Chip.modSlot, Chip.modObj, -Fin.getElem_fin]
    · injection hx with e
      subst e
      exact ⟨((hL.2.2.1 i).1 o ho).1, fun _ => Nat.pos_of_ne_zero hu⟩
    · exact hm.deleted i _ o ho hd (n3 m)

theorem deleteObj_eq (c : Chip) (i : SlotNo) (o : Obj) (ho : c.obj i = some o) (hd : o.state ≠ .doomed) {r} {y} (hL : c.Legal)
    (hE : Chip.deleteObj c i o = (r, y)) : r.Legal := by
  have := deleteObj c i o ho hd hL
  rwa [hE] at this

theorem deleteHandle (c : Chip) (h : Nat) (hL : c.Legal) : (Chip.deleteHandle c h).Legal := by
  unfold Chip.deleteHandle
  split
  · exact hL
  · next i o e => exact deleteObj c i o (lookup_obj e).1 (lookup_obj e).2 hL





theorem modBuf (c : Chip) (p : Path) (f : PathBuf → PathBuf) (hL : c.Legal) : (Chip.modBuf c p f).Legal := by
  unfold Chip.modBuf
  try dsimp only
  repeat' (first | assumption | with_reducible (first | apply modCodec | apply modEpath) | intro _ | split)

theorem clearPath (c : Chip) (p : Path) (d : ChanDir) (hL : c.Legal) : (Chip.clearPath c p d).Legal := by
  unfold Chip.clearPath
  try dsimp only
  repeat' (first | assumption | with_reducible (first | apply modCodec | apply modBuf) | intro _ | split)

/-- Emptying a path's buffers leaves what the books speak of, and the other parts. -/
theorem clearPath_books (c : Chip) (p : Path) (d : ChanDir) : (c.clearPath p d).store = c.store ∧ (c.clearPath p d).chans = c.chans ∧
    (c.clearPath p d).mailboxes = c.mailboxes := by
  unfold Chip.clearPath Chip.modBuf
  cases p <;> cases d <;> exact ⟨rfl, rfl, rfl⟩

theorem clearPath_parts (c : Chip) (p : Path) (d : ChanDir) (h : Parts c) : Parts (c.clearPath p d) := by
  unfold Chip.clearPath Chip.modBuf
  cases p <;> cases d <;> exact h

theorem freeChan_free {c : Chip} {i : ChanNo} (h : c.freeChan = some i) : (c.chans[i]).state = .free := (Chip.freeChan_some h).1

/-- A FREE channel is bound to an object. -/
theorem bound (c : Chip) (i : ChanNo) (q : BindReq) (hi : (c.chans[i]).state = .free) {o : Obj} (ho : c.obj q.slot = some o) (hL : c.Legal) :
    ((c.modChan i (fun _ => q.chan)).addUser q.slot).Legal := by
  refine ⟨hL.1, hL.2.change q.slot _ o { o with users := o.users + 1 } ho
    (by simp only [Chip.modChan, show (c.store.slots[q.slot]).obj = some o from ho, Option.map_some]) rfl (fun a => rfl) (fun j hj => ?_) ?_
    (fun _ => Nat.succ_pos _) (Or.inl rfl)⟩
  · have := boundTo_set c.chans i q.chan j
    simp only [ne_eq, hi, not_true_eq_false, false_and, if_false] at this
    rw [if_neg (fun z => hj z.2.symm)] at this
    exact this
  · have := boundTo_set c.chans i q.chan q.slot
    simp only [ne_eq, hi, not_true_eq_false, false_and, if_false] at this
    rw [if_pos ⟨by simp [BindReq.chan], rfl⟩] at this
    show o.users + 1 + _ = boundTo (c.chans.set i q.chan) q.slot + o.users
    omega

theorem bind_eq (c : Chip) (q : BindReq) {r} {y} (hL : c.Legal) (hE : Chip.bind c q = .ok (r, y)) : r.Legal := by
  unfold Chip.bind at hE
  split at hE
  · contradiction
  · split at hE
    · contradiction
    · split at hE
      · contradiction
      · contradiction
      · next i o hi ho =>
        have h1 := clearPath _ q.path q.dir (bound c i q (freeChan_free hi) ho hL)
        dsimp only at hE
        split at hE
        · injection hE with hE
          injection hE with e1 e2
          subst e1
          exact h1.modCodec _ _
        · injection hE with hE
          injection hE with e1 e2
          subst e1
          exact h1

theorem giveUp (c : Chip) (r : Requester) (hL : c.Legal) : (Chip.giveUp c r).Legal := by
  unfold Chip.giveUp
  try dsimp only
  repeat' (first | assumption | with_reducible (first | assumption) | intro _ | split)

theorem startChan (c : Chip) (i : ChanNo) (hL : c.Legal) : (Chip.startChan c i).Legal := by
  unfold Chip.startChan
  refine hL.modChan ?_ ?_ <;> split <;> simp_all

theorem holdChan (c : Chip) (i : ChanNo) (hL : c.Legal) : (Chip.holdChan c i).Legal := by
  unfold Chip.holdChan
  split
  · next h => exact giveUp _ _ (hL.modChan (by rw [h]; simp))
  · exact hL

theorem releaseChan (c : Chip) (i : ChanNo) (hL : c.Legal) : (Chip.releaseChan c i).Legal := by
  unfold Chip.releaseChan
  refine hL.modChan ?_ ?_ <;> split <;> simp_all

theorem reposition (c : Chip) (i : ChanNo) (base : Nat) (count : Nat) (hL : c.Legal) :
    (Chip.reposition c i base count).Legal := by
  unfold Chip.reposition
  dsimp only
  split
  · exact modBuf _ _ _ (hL.modChan Iff.rfl)
  · exact hL

theorem endChan (c : Chip) (i : ChanNo) (cause : EndCause) (hL : c.Legal) : (Chip.endChan c i cause).Legal := by
  unfold Chip.endChan Chan.end_
  refine giveUp _ _ (hL.modChan ?_ ?_) <;> split <;> simp_all

theorem stopChan (c : Chip) (i : ChanNo) (drain : Bool) (hL : c.Legal) : (Chip.stopChan c i drain).Legal := by
  unfold Chip.stopChan
  dsimp only
  split
  · exact hL
  · exact hL
  · exact endChan _ _ _ hL
  · exact endChan _ _ _ (clearPath _ _ _ hL)
  · split
    · exact hL.modChan Iff.rfl
    · exact endChan _ _ _ (clearPath _ _ _ hL)

theorem giveUp_books (c : Chip) (r : Requester) : (c.giveUp r).store = c.store ∧ (c.giveUp r).chans = c.chans ∧
    (c.giveUp r).mailboxes = c.mailboxes := by
  unfold Chip.giveUp
  split <;> exact ⟨rfl, rfl, rfl⟩

/-- A bound channel becomes FREE, and its object loses a user: the object is freed if it is DOOMED and this was its last. -/
theorem unbound (c : Chip) (i : ChanNo) (z : Chan) (hi : (c.chans[i]).state ≠ .free) (hz : z.state = .free) (hL : c.Legal) :
    (({ c with chans := c.chans.set i z } : Chip).dropUser (c.chans[i]).slot).Legal := by
  have hs : ∀ (v : Vector Slot 128) (j : SlotNo) (f : Slot → Slot), (upd v j f)[j] = f v[j] := fun v j f => by simp [upd]
  have hb : ∀ j, boundTo (c.chans.set i z) j + (if (c.chans[i]).slot = j then 1 else 0) = boundTo c.chans j := fun j => by
    have := boundTo_set c.chans i z j
    simpa [hi, hz, -Fin.getElem_fin] using this
  have hne : ∀ j : SlotNo, j ≠ (c.chans[i]).slot → boundTo (c.chans.set i z) j = boundTo c.chans j := fun j hj => by
    have := hb j
    rw [if_neg (fun e => hj e.symm)] at this
    exact this
  have hself := hb (c.chans[i]).slot
  rw [if_pos rfl] at hself
  cases ho : (c.store.slots[(c.chans[i]).slot]).obj with
  | none =>
    have := (hL.2.2.1 (c.chans[i]).slot).2 ho
    omega
  | some o =>
    have hu := ((hL.2.2.1 (c.chans[i]).slot).1 o ho).1
    have hob : (({ c with chans := c.chans.set i z } : Chip).modObj (c.chans[i]).slot (fun o => { o with users := o.users - 1 })).obj
        (c.chans[i]).slot = some { o with users := o.users - 1 } := by
      unfold Chip.obj Chip.modObj Chip.modSlot
      dsimp only
      rw [hs, ho, Option.map_some]
    unfold Chip.dropUser
    simp only [hob]
    split
    · next hd =>
      refine ⟨freeParts _ _ hL.1, ?_⟩
      obtain ⟨f1, f2, f3, f4⟩ := freeObj_books hob
      rw [f1, f2, f3, f4]
      have hsl : upd (({ c with chans := c.chans.set i z } : Chip).modObj (c.chans[i]).slot
          (fun o => { o with users := o.users - 1 })).store.slots (c.chans[i]).slot (fun x => { x with obj := none }) =
          c.store.slots.set (c.chans[i]).slot { gen := (c.store.slots[(c.chans[i]).slot]).gen, obj := none } := by
        simp [Chip.modObj, Chip.modSlot, upd, Vector.set_set]
      rw [hsl]
      refine hL.2.free_ (c.chans[i]).slot _ o ho rfl (fun a => ?_) hne ?_ hd.1
      · simp [Chip.modObj, Chip.modSlot, Nat.add_comm]
      · have := hd.2
        show boundTo (c.chans.set i z) (c.chans[i]).slot = 0
        omega
    · next hd =>
      refine ⟨hL.1, hL.2.change (c.chans[i]).slot _ o { o with users := o.users - 1 } ho (by dsimp only; rw [ho, Option.map_some]) rfl (fun a => rfl) hne ?_
        (fun hdm => ?_) (Or.inl rfl)⟩
      · show o.users - 1 + _ = boundTo (c.chans.set i z) (c.chans[i]).slot + o.users
        omega
      · exact Nat.pos_of_ne_zero (fun h0 => hd ⟨hdm, h0⟩)

theorem unbindChan (c : Chip) (i : ChanNo) (hL : c.Legal) : (Chip.unbindChan c i).Legal := by
  unfold Chip.unbindChan
  dsimp only
  split
  · exact hL
  · next hi =>
    obtain ⟨g1, g2, g3⟩ := giveUp_books c (.chan i)
    obtain ⟨p1, p2, p3⟩ := clearPath_books (c.giveUp (.chan i)) (c.chans[i]).path (c.chans[i]).dir
    have hc : ((c.giveUp (.chan i)).clearPath (c.chans[i]).path (c.chans[i]).dir).chans = c.chans := p2.trans g2
    have h1 := clearPath _ (c.chans[i]).path (c.chans[i]).dir (giveUp _ (.chan i) hL)
    have h2 := unbound _ i { c.chans[i] with
      state := .free, draining := false, endCause := if (c.chans[i]).state = .ended then (c.chans[i]).endCause else .unbound }
      (by rw [hc]; exact hi) rfl h1
    simp only [Chip.modChan, upd, hc] at h2 ⊢
    exact h2

theorem takeEmpties (c : Chip) (hL : c.Legal) : (Chip.takeEmpties c).Legal := by
  unfold Chip.takeEmpties
  try dsimp only
  repeat' (first | assumption | with_reducible (first | refine modLink ?_ rfl) | intro _ | split)

theorem deliver (c : Chip) (p : Path) (bs : List Byte) (hL : c.Legal) : (Chip.deliver c p bs).Legal := by
  unfold Chip.deliver
  try dsimp only
  repeat' (first | assumption | with_reducible (first | apply modBuf | refine modLink ?_ rfl) | intro _ | split)

theorem consumed (c : Chip) (p : Path) (n : Nat) (hL : c.Legal) : (Chip.consumed c p n).Legal := by
  unfold Chip.consumed
  try dsimp only
  repeat' (first
    | assumption
    | with_reducible (first
      | apply takeEmpties | apply modBuf | refine modLink ?_ rfl)
    | intro _
    | split)

theorem afterXfer (c : Chip) (i : ChanNo) (hL : c.Legal) : (Chip.afterXfer c i).1.Legal := by
  unfold Chip.afterXfer
  dsimp only
  repeat' split
  all_goals first
    | exact hL
    | exact endChan _ _ _ (clearPath _ _ _ hL)
    | exact endChan _ _ _ hL
    | exact hL.modChan Iff.rfl

theorem afterXfer_eq (c : Chip) (i : ChanNo) {r} {y} (hL : c.Legal) (hE : Chip.afterXfer c i = (r, y)) : r.Legal := by
  have := afterXfer c i hL
  rwa [hE] at this

theorem advanced (c : Chip) (i : ChanNo) (n : Nat) (hL : c.Legal) : (c.modChan i (·.advance n)).Legal := hL.modChan Iff.rfl

theorem transfer (c : Chip) (i : ChanNo) (hL : c.Legal) : (Chip.transfer c i).1.Legal := by
  unfold Chip.transfer
  dsimp only
  split
  · exact afterXfer _ _ (advanced _ _ _ (deliver _ _ _ hL))
  · split
    · next e => exact endChan _ _ _ (clearPath _ _ _ (storeWrite_eq _ _ _ _ hL e))
    · next e => exact afterXfer _ _ (advanced _ _ _ (consumed _ _ _ (storeWrite_eq _ _ _ _ hL e)))

theorem transfer_eq (c : Chip) (i : ChanNo) {r} {y} (hL : c.Legal) (hE : Chip.transfer c i = (r, y)) : r.Legal := by
  have := transfer c i hL
  rwa [hE] at this

theorem drainNow (n : Nat) : ∀ (c : Chip) (i : ChanNo), c.Legal → (Chip.drainNow n c i).Legal := by
  induction n with
  | zero => intro c i h; exact h
  | succ n ih =>
    intro c i h
    unfold Chip.drainNow
    split
    · exact ih _ _ (transfer c i h)
    · exact h

theorem stopDrained (c : Chip) (i : ChanNo) (hL : c.Legal) : (Chip.stopDrained c i).Legal := by
  unfold Chip.stopDrained
  try dsimp only
  repeat' (first | assumption | with_reducible (first | apply drainNow | apply stopChan) | intro _ | split)

theorem slip (c : Chip) (i : ChanNo) (hL : c.Legal) : (Chip.slip c i).Legal := by
  unfold Chip.slip
  dsimp only
  split
  · exact hL.modChan Iff.rfl
  · exact note (hL.modChan Iff.rfl) _ _ _

theorem ringWrite (c : Chip) (e : EngineNo) (hL : c.Legal) : (Chip.ringWrite c e).Legal := by
  unfold Chip.ringWrite
  try dsimp only
  repeat' (first
    | assumption
    | with_reducible (first
      | apply storeWrite | (apply storeWrite_eq; rotate_left; assumption) | apply modUnit)
    | intro _
    | split)

theorem ringRead (c : Chip) (e : EngineNo) (hL : c.Legal) : (Chip.ringRead c e).Legal := by
  unfold Chip.ringRead
  try dsimp only
  repeat' (first | assumption | with_reducible (first | apply modUnit) | intro _ | split)

theorem ringXfer (c : Chip) (e : EngineNo) (hL : c.Legal) : (Chip.ringXfer c e).Legal := by
  unfold Chip.ringXfer
  try dsimp only
  repeat' (first | assumption | with_reducible (first | apply ringWrite | apply ringRead) | intro _ | split)

theorem grant (c : Chip) (hL : c.Legal) : (Chip.grant c).Legal := by
  unfold Chip.grant
  try dsimp only
  repeat' (first | assumption | with_reducible (first | assumption) | intro _ | split)

theorem keepPort (c : Chip) (i : ChanNo) (before : Chan) (hL : c.Legal) : (Chip.keepPort c i before).Legal := by
  unfold Chip.keepPort
  try dsimp only
  repeat' (first | assumption | with_reducible (first | apply giveUp) | intro _ | split)

theorem arise (c : Chip) (l : LineNo) (k : FaultKind) (coolOff : Option Nat) (hL : c.Legal) :
    (Chip.arise c l k coolOff).Legal := by
  unfold Chip.arise
  try dsimp only
  repeat' (first
    | assumption
    | with_reducible (first
      | apply note | (refine modLine ?_ id) | (refine modLine ?_ ?_))
    | intro _
    | split)

theorem goes (c : Chip) (l : LineNo) (k : FaultKind) (hL : c.Legal) : (Chip.goes c l k).Legal := by
  unfold Chip.goes
  try dsimp only
  repeat' (first
    | assumption
    | with_reducible (first
      | apply note | (refine modLine ?_ id) | (refine modLine ?_ ?_))
    | intro _
    | split)

theorem hangUp (c : Chip) (l : LineNo) (hL : c.Legal) : (c.hangUp l).Legal := by
  unfold Chip.hangUp
  split
  · refine goes _ _ _ (modLine hL (fun hn => ?_))
    unfold Line.Legal Line.onHook at *
    dsimp only
    omega
  · exact hL

theorem replyLine (c : Chip) (l : LineNo) (tag : Byte) (code : Byte) (cls : Cls) (reason : Reason) (result : List Byte)
    (hL : c.Legal) : (Chip.replyLine c l tag code cls reason result).Legal := by
  unfold Chip.replyLine
  try dsimp only
  repeat' (first | assumption | with_reducible (first | refine modLink ?_ rfl) | intro _ | split)

theorem writeFault (c : Chip) (l : LineNo) (reason : Reason) (cond : FaultSet) (phase : Phase)
    (at_ : Option (Nat × Nat)) (hL : c.Legal) : (Chip.writeFault c l reason cond phase at_).Legal := by
  unfold Chip.writeFault
  try dsimp only
  repeat' (first | assumption | with_reducible (first | (refine modLine ?_ id) | (refine modLine ?_ ?_)) | intro _ | split)

theorem clearFault (c : Chip) (l : LineNo) (hL : c.Legal) : (Chip.clearFault c l).Legal := by
  unfold Chip.clearFault
  try dsimp only
  repeat' (first | assumption | with_reducible (first | (refine modLine ?_ id) | (refine modLine ?_ ?_)) | intro _ | split)

theorem enterIdle (c : Chip) (l : LineNo) (hL : c.Legal) : (Chip.enterIdle c l).Legal := by
  unfold Chip.enterIdle
  try dsimp only
  repeat' (first
    | assumption
    | with_reducible (first
      | apply modCall | apply replyLine | apply clearFault | (refine modLine ?_ id) | (refine modLine ?_ ?_))
    | intro _
    | split)

theorem enterCooling (c : Chip) (l : LineNo) (hL : c.Legal) : (c.enterCooling l).Legal := by
  unfold Chip.enterCooling
  refine modLine (modCall hL _ _) (fun hn => ?_)
  unfold Line.Legal at *
  dsimp only
  omega

theorem claim_eq (c : Chip) (l : LineNo) (p : Purpose) {r : Chip} {y : EngineNo} (hL : c.Legal)
    (hE : c.claim l p = some (r, y)) : r.Legal := by
  unfold Chip.claim at hE
  split at hE
  · contradiction
  · obtain ⟨i, _, h⟩ := Option.map_eq_some_iff.mp hE
    injection h with h1 h2
    subst h1
    exact hL

theorem releaseEngine (c : Chip) (e : EngineNo) (keep : Bool) (hL : c.Legal) : (Chip.releaseEngine c e keep).Legal := by
  unfold Chip.releaseEngine
  try dsimp only
  repeat' (first
    | assumption
    | with_reducible (first
      | apply modEngine | apply modUnit | apply giveUp | (refine modLine ?_ id) | (refine modLine ?_ ?_))
    | intro _
    | split)

theorem startTraining (c : Chip) (e : EngineNo) (ceiling : Option Rate) (hL : c.Legal) :
    (Chip.startTraining c e ceiling).Legal := by
  unfold Chip.startTraining
  try dsimp only
  repeat' (first | assumption | with_reducible (first | apply modEngine) | intro _ | split)

theorem retrainPass (c : Chip) (e : EngineNo) (r : Rate) (hL : c.Legal) : (Chip.retrainPass c e r).Legal := by
  unfold Chip.retrainPass
  try dsimp only
  repeat' (first | assumption | with_reducible (first | apply modEngine | apply note) | intro _ | split)

theorem testPass (c : Chip) (e : EngineNo) (hL : c.Legal) : (Chip.testPass c e).1.Legal := by
  unfold Chip.testPass
  try dsimp only
  repeat' (first | assumption | with_reducible (first | apply modEngine | apply retrainPass) | intro _ | split)

theorem testPass_eq (c : Chip) (e : EngineNo) {r} {y} (hL : c.Legal) (hE : Chip.testPass c e = (r, y)) : r.Legal := by
  have := testPass c e hL
  rwa [hE] at this

theorem testFail (c : Chip) (e : EngineNo) (hL : c.Legal) : (Chip.testFail c e).1.Legal := by
  unfold Chip.testFail
  try dsimp only
  repeat' (first | assumption | with_reducible (first | apply modEngine) | intro _ | split)

theorem testFail_eq (c : Chip) (e : EngineNo) {r} {y} (hL : c.Legal) (hE : Chip.testFail c e = (r, y)) : r.Legal := by
  have := testFail c e hL
  rwa [hE] at this

theorem testResult (c : Chip) (e : EngineNo) (pass : Bool) (hL : c.Legal) : (Chip.testResult c e pass).1.Legal := by
  unfold Chip.testResult
  try dsimp only
  repeat' (first
    | assumption
    | with_reducible (first
      | apply testPass | (apply testPass_eq; rotate_left; assumption) | apply testFail
      | (apply testFail_eq; rotate_left; assumption))
    | intro _
    | split)

theorem testResult_eq (c : Chip) (e : EngineNo) (pass : Bool) {r} {y} (hL : c.Legal)
    (hE : Chip.testResult c e pass = (r, y)) : r.Legal := by
  have := testResult c e pass hL
  rwa [hE] at this

theorem firstTest (c : Chip) (e : EngineNo) (r : Rate) (hL : c.Legal) : (Chip.firstTest c e r).Legal := by
  unfold Chip.firstTest
  try dsimp only
  repeat' (first | assumption | with_reducible (first | apply modEngine) | intro _ | split)

theorem chooseRate (c : Chip) (e : EngineNo) (announced : Rate) (hL : c.Legal) : (Chip.chooseRate c e announced).1.Legal := by
  unfold Chip.chooseRate
  try dsimp only
  repeat' (first | assumption | with_reducible (first | apply modEngine | apply firstTest) | intro _ | split)

theorem chooseRate_eq (c : Chip) (e : EngineNo) (announced : Rate) {r} {y} (hL : c.Legal)
    (hE : Chip.chooseRate c e announced = (r, y)) : r.Legal := by
  have := chooseRate c e announced hL
  rwa [hE] at this

theorem measured (c : Chip) (e : EngineNo) (n : Nat) (announced : Rate) (hL : c.Legal) :
    (Chip.measured c e n announced).1.Legal := by
  unfold Chip.measured
  try dsimp only
  repeat' (first
    | assumption
    | with_reducible (first
      | apply chooseRate | (apply chooseRate_eq; rotate_left; assumption) | apply modEngine)
    | intro _
    | split)

theorem measured_eq (c : Chip) (e : EngineNo) (n : Nat) (announced : Rate) {r} {y} (hL : c.Legal)
    (hE : Chip.measured c e n announced = (r, y)) : r.Legal := by
  have := measured c e n announced hL
  rwa [hE] at this

theorem beginRetrain (c : Chip) (e : EngineNo) (d : RetrainDir) (farLed : Bool) (hL : c.Legal) :
    (Chip.beginRetrain c e d farLed).Legal := by
  unfold Chip.beginRetrain
  try dsimp only
  repeat' (first | assumption | with_reducible (first | apply modEngine) | intro _ | split)

theorem askRetrain (c : Chip) (e : EngineNo) (d : RetrainDir) (farLed : Bool) (hL : c.Legal) :
    (Chip.askRetrain c e d farLed).1.Legal := by
  unfold Chip.askRetrain
  try dsimp only
  repeat' (first | assumption | with_reducible (first | apply beginRetrain) | intro _ | split)

theorem askRetrain_eq (c : Chip) (e : EngineNo) (d : RetrainDir) (farLed : Bool) {r} {y} (hL : c.Legal)
    (hE : Chip.askRetrain c e d farLed = (r, y)) : r.Legal := by
  have := askRetrain c e d farLed hL
  rwa [hE] at this

theorem judge (c : Chip) (e : EngineNo) (good : Bool) (hL : c.Legal) : (Chip.judge c e good).Legal := by
  unfold Chip.judge
  try dsimp only
  repeat' (first | assumption | with_reducible (first | apply modEngine) | intro _ | split)

theorem pump (c : Chip) (e : EngineNo) (hL : c.Legal) : (Chip.pump c e).Legal := by
  unfold Chip.pump
  try dsimp only
  repeat' (first | assumption | with_reducible (first | apply modUnit) | intro _ | split)

theorem beginSession (c : Chip) (e : EngineNo) (l : LineNo) (side : Side) (i : SlotNo) (j : SlotNo) (hL : c.Legal) :
    (Chip.beginSession c e l side i j).Legal := by
  unfold Chip.beginSession
  try dsimp only
  repeat' (first | assumption | with_reducible (first | apply modUnit) | intro _ | split)

theorem credit (c : Chip) (e : EngineNo) (old : Nat) (hL : c.Legal) : (Chip.credit c e old).Legal := by
  unfold Chip.credit
  try dsimp only
  repeat' (first | assumption | with_reducible (first | apply modUnit | apply note) | intro _ | split)

theorem modTx (c : Chip) (e : EngineNo) (f : DataLink → DataLink) (hL : c.Legal) : (Chip.modTx c e f).Legal := by
  unfold Chip.modTx
  try dsimp only
  repeat' (first | assumption | with_reducible (first | apply credit | apply modUnit) | intro _ | split)

theorem takeAck (c : Chip) (e : EngineNo) (n : SeqNo) (hL : c.Legal) : (Chip.takeAck c e n).Legal := by
  unfold Chip.takeAck
  try dsimp only
  repeat' (first | assumption | with_reducible (first | apply modTx) | intro _ | split)

theorem dataRetrain (c : Chip) (e : EngineNo) (d : RetrainDir) (hL : c.Legal) : (Chip.dataRetrain c e d).Legal := by
  unfold Chip.dataRetrain
  try dsimp only
  repeat' (first
    | assumption
    | with_reducible (first
      | apply askRetrain | (apply askRetrain_eq; rotate_left; assumption) | apply modUnit)
    | intro _
    | split)

theorem fallback (c : Chip) (e : EngineNo) (hL : c.Legal) : (Chip.fallback c e).Legal := by
  unfold Chip.fallback
  try dsimp only
  repeat' (first | assumption | with_reducible (first | apply dataRetrain) | intro _ | split)

theorem judgeFrame (c : Chip) (e : EngineNo) (good : Bool) (hL : c.Legal) : (Chip.judgeFrame c e good).Legal := by
  unfold Chip.judgeFrame
  try dsimp only
  repeat' (first | assumption | with_reducible (first | apply fallback | apply modUnit | apply judge) | intro _ | split)

theorem plainReceive (c : Chip) (e : EngineNo) (bs : List Byte) (hL : c.Legal) : (Chip.plainReceive c e bs).Legal := by
  unfold Chip.plainReceive
  try dsimp only
  repeat' (first | assumption | with_reducible (first | apply modUnit | apply note) | intro _ | split)

theorem dataGone (c : Chip) (hL : c.Legal) : (Chip.dataGone c).Legal := by
  unfold Chip.dataGone
  try dsimp only
  repeat' (first | assumption | with_reducible (first | refine modLink ?_ rfl) | intro _ | split)

theorem dropFrame (c : Chip) (line : Byte) (detail : List Byte) (hL : c.Legal) : (Chip.dropFrame c line detail).Legal := by
  unfold Chip.dropFrame
  try dsimp only
  repeat' (first | assumption | with_reducible (first | apply note | apply dataGone | apply noteDev) | intro _ | split)

theorem takeFrame (c : Chip) (d : DataIn) (hL : c.Legal) : (c.takeFrame d).Legal := by
  unfold Chip.takeFrame
  split
  · exact dataGone c hL
  · split
    · exact dropFrame _ _ _ hL
    · next e _ =>
      dsimp only
      split
      · exact modTx c e (fun u => { u with tx := { u.tx with reserved := u.tx.reserved + d.bytes.length } }) hL
      · exact dropFrame _ _ _ hL

theorem linkXfer (c : Chip) (hL : c.Legal) : (c.linkXfer).Legal := by
  unfold Chip.linkXfer
  split
  · exact hL
  · split
    · exact hL
    · next e written _ d _ =>
      have hw := fun i p bs => storeWrite c i p bs hL
      dsimp only
      split
      · exact hw _ _ _
      · refine pump _ _ (modUnit ?_ _ _)
        exact dataGone _ (hw _ _ _)
  · dsimp only
    split
    · exact hL
    · split
      · exact hL
      · exact hL

theorem cancelLinkWork (c : Chip) (e : EngineNo) (hL : c.Legal) : (c.cancelLinkWork e).Legal := by
  unfold Chip.cancelLinkWork
  split
  · split
    · exact giveUp _ _ (dataGone c hL)
    · exact hL
  · split
    · exact giveUp _ _ hL
    · exact hL
  · exact hL

theorem stopDrain (c : Chip) (e : EngineNo) (hL : c.Legal) : (c.stopDrain e).Legal := by
  unfold Chip.stopDrain
  split
  · split
    · exact giveUp _ _ hL
    · exact hL
  · exact hL

theorem handData (c : Chip) (u : DataLink) (hL : c.Legal) : (Chip.handData c u).Legal := by
  unfold Chip.handData
  try dsimp only
  repeat' (first | assumption | with_reducible (first | apply modCall) | intro _ | split)

theorem finishData (c : Chip) (e : EngineNo) (hL : c.Legal) : (Chip.finishData c e).Legal := by
  unfold Chip.finishData
  try dsimp only
  repeat' (first
    | assumption
    | with_reducible (first
      | apply cancelLinkWork | apply giveUp | apply note | apply modUnit | apply handData | apply deleteHandle)
    | intro _
    | split)

theorem retire (c : Chip) (l : LineNo) (i : ChanNo) (hL : c.Legal) : (Chip.retire c l i).Legal := by
  unfold Chip.retire
  try dsimp only
  repeat' (first | assumption | with_reducible (first | apply modCall | apply unbindChan) | intro _ | split)

theorem stopRetire (c : Chip) (l : LineNo) (i : ChanNo) (hL : c.Legal) : (Chip.stopRetire c l i).Legal := by
  unfold Chip.stopRetire
  try dsimp only
  repeat' (first | assumption | with_reducible (first | apply retire | apply stopChan) | intro _ | split)

theorem stopRetire_opt (c : Chip) (l : LineNo) (ax : Option ChanNo) (hL : c.Legal) : (Chip.stopRetire? c l ax).Legal := by
  unfold Chip.stopRetire?
  try dsimp only
  repeat' (first | assumption | with_reducible (first | apply stopRetire) | intro _ | split)

theorem bindCodec_eq (c : Chip) (owner : ChanOwner) (l : LineNo) (i : SlotNo) (d : ChanDir) (count : Nat)
    (repeats : Nat) (speed : Nat) {r} {y} (hL : c.Legal)
    (hE : Chip.bindCodec c owner l i d count repeats speed = .ok (r, y)) : r.Legal := by
  unfold Chip.bindCodec at hE
  try dsimp only at hE
  repeat' (split at hE)
  all_goals first | contradiction | skip
  all_goals (try injection hE with hE)
  all_goals (try first | (injection hE with e1 e2; subst e1) | subst hE)
  all_goals repeat' (first
    | assumption
    | with_reducible (first
      | (apply bind_eq; rotate_left; assumption) | apply startChan | apply modCodec)
    | intro _
    | split)

theorem beginGreeting (c : Chip) (l : LineNo) (hL : c.Legal) : (Chip.beginGreeting c l).Legal := by
  unfold Chip.beginGreeting
  try dsimp only
  repeat' (first
    | assumption
    | with_reducible (first
      | apply modSeq | (apply bindCodec_eq; rotate_left; assumption) | (refine modMailbox ?_ id)
      | (refine modMailbox ?_ ?_))
    | intro _
    | split)

theorem startPlan (c : Chip) (l : LineNo) (hL : c.Legal) : (Chip.startPlan c l).Legal := by
  unfold Chip.startPlan
  try dsimp only
  repeat' (first | assumption | with_reducible (first | apply modSeq | apply modCall | apply beginGreeting) | intro _ | split)

theorem enterClosing (c : Chip) (l : LineNo) (hL : c.Legal) : (Chip.enterClosing c l).Legal := by
  unfold Chip.enterClosing
  try dsimp only
  repeat' (first | assumption | with_reducible (first | apply modSeq) | intro _ | split)

theorem enterTone (c : Chip) (l : LineNo) (hL : c.Legal) : (Chip.enterTone c l).Legal := by
  unfold Chip.enterTone
  try dsimp only
  repeat' (first | assumption | with_reducible (first | apply modSeq) | intro _ | split)

theorem cutGreeting (c : Chip) (l : LineNo) (hL : c.Legal) : (Chip.cutGreeting c l).Legal := by
  unfold Chip.cutGreeting
  try dsimp only
  repeat' (first | assumption | with_reducible (first | apply modSeq | apply stopRetire_opt) | intro _ | split)

theorem tellGreetingEnd (c : Chip) (l : LineNo) (hL : c.Legal) : (Chip.tellGreetingEnd c l).Legal := by
  unfold Chip.tellGreetingEnd
  try dsimp only
  repeat' (first | assumption | with_reducible (first | apply modCall) | intro _ | split)

theorem greetingEnd (c : Chip) (l : LineNo) (hL : c.Legal) : (Chip.greetingEnd c l).Legal := by
  unfold Chip.greetingEnd
  try dsimp only
  repeat' (first
    | assumption
    | with_reducible (first
      | apply tellGreetingEnd | apply cutGreeting | apply enterClosing | apply enterTone)
    | intro _
    | split)

theorem closeRule (c : Chip) (r : Recording) (hL : c.Legal) : (c.closeRule r).1.Legal := by
  unfold Chip.closeRule
  split
  · exact hL
  · dsimp only
    split
    · exact deleteHandle c _ hL
    · split
      · exact closeObj_eq _ _ (trimObj c _ _ hL) ‹_›
      · exact closeObj_eq _ _ (trimObj c _ _ hL) ‹_›

theorem closeRule_eq (c : Chip) (r : Recording) {d : Chip} {y : Nat × Kept} (hL : c.Legal)
    (hE : c.closeRule r = (d, y)) : d.Legal := by
  have := closeRule c r hL
  rwa [hE] at this

theorem fileMessage (c : Chip) (m : MailboxNo) (h : Nat) (hL : c.Legal) : (Chip.fileMessage c m h).Legal := by
  unfold Chip.fileMessage
  split
  · exact hL
  · next i o e =>
    split
    · next hc =>
      obtain ⟨hm, hs, hw, hx⟩ := hc
      have ho : (c.store.slots[i]).obj = some o := (lookup_obj e).1
      have hh : h = handleOf i (c.store.slots[i]).gen := lookup_handle e
      obtain ⟨ca, li, st, ha⟩ : ∃ ca li st, o.attr = .message ca li st := by
        unfold Obj.isMessage at hm
        split at hm
        · next ha => exact ⟨_, _, _, ha⟩
        · contradiction
      refine ⟨mailboxParts (c := c) (m := m) (f := fun b => { b with
        list := b.list ++ [h], used := b.used + o.chain.length, newCount := b.newCount + 1 }) hL id, ?_⟩
      have key := hL.2.setSlot i { c.store.slots[i] with obj := some (o.withStatus .new) } (free' := c.store.free) (chans' := c.chans)
        (mailboxes' := upd c.mailboxes m (fun b => { b with
          list := b.list ++ [h], used := b.used + o.chain.length, newCount := b.newCount + 1 }))
        (fun a => by simp only [Slot.blocks, ho]; rfl) (fun _ _ => rfl)
        ⟨fun x hx => by
          injection hx with hx
          subst hx
          exact (hL.2.2.1 i).1 o ho, fun z => by contradiction⟩
        (fun k hk => by
          by_cases ek : k = m
          · subst ek
            have hs' : (upd c.mailboxes k (fun b => { b with
              list := b.list ++ [h], used := b.used + o.chain.length, newCount := b.newCount + 1 }))[k] = _ := Vector.getElem_set_self _
            rw [hs']
            exact hk.append i _ (o.withStatus .new) rfl rfl (hh ▸ hx) hs (by simp [Obj.withStatus, Obj.isMessage, ha]) hw (by rw [hh]) rfl
              (by simp [Obj.withStatus, Obj.newMessages, ha, MsgStatus.fresh])
          · have hs' : (upd c.mailboxes m (fun b => { b with
              list := b.list ++ [h], used := b.used + o.chain.length, newCount := b.newCount + 1 }))[k] = c.mailboxes[k] :=
              Vector.getElem_set_ne _ _ (fun x => ek (Fin.ext x.symm))
            rw [hs']
            refine hk.set_unlisted i _ rfl rfl rfl (hk.unlisted i (fun x hx z => ?_))
            rw [ho] at hx
            injection hx with hx
            subst hx
            have := hw.symm.trans z.2.2
            injection this with this
            exact ek this.symm)
      simp only [Chip.modMailbox, Chip.modObj, Chip.modSlot, upd, ho, Option.map_some] at key ⊢
      exact key
    · exact hL

theorem closePlanRecording (c : Chip) (l : LineNo) (r : Recording) (hL : c.Legal) : (Chip.closePlanRecording c l r).Legal := by
  unfold Chip.closePlanRecording
  try dsimp only
  repeat' (first
    | assumption
    | with_reducible (first
      | apply closeRule | (apply closeRule_eq; rotate_left; assumption) | apply note | apply fileMessage | apply modSeq | (refine modMailbox ?_ id) | (refine modMailbox ?_ ?_))
    | intro _
    | split)

theorem settlePlanRecording (c : Chip) (l : LineNo) (hL : c.Legal) : (Chip.settlePlanRecording c l).Legal := by
  unfold Chip.settlePlanRecording
  try dsimp only
  repeat' (first
    | assumption
    | with_reducible (first
      | apply retire | apply closePlanRecording)
    | intro _
    | split)

theorem stopPlanRecording (c : Chip) (l : LineNo) (cause : RecEnd) (hL : c.Legal) :
    (Chip.stopPlanRecording c l cause).Legal := by
  unfold Chip.stopPlanRecording
  try dsimp only
  repeat' (first
    | assumption
    | with_reducible (first
      | apply settlePlanRecording | apply stopDrained | apply modSeq)
    | intro _
    | split)

theorem planRecordingDone (c : Chip) (l : LineNo) (cause : RecEnd) (hL : c.Legal) :
    (Chip.planRecordingDone c l cause).Legal := by
  unfold Chip.planRecordingDone
  try dsimp only
  repeat' (first
    | assumption
    | with_reducible (first
      | apply enterClosing | apply settlePlanRecording | apply modSeq)
    | intro _
    | split)

theorem endPlanRecording (c : Chip) (l : LineNo) (cause : RecEnd) (hL : c.Legal) :
    (Chip.endPlanRecording c l cause).Legal := by
  unfold Chip.endPlanRecording
  try dsimp only
  repeat' (first
    | assumption
    | with_reducible (first
      | apply stopChan | apply modSeq | apply enterClosing | apply settlePlanRecording)
    | intro _
    | split)

theorem quotaCheck (c : Chip) (l : LineNo) (hL : c.Legal) : (Chip.quotaCheck c l).Legal := by
  unfold Chip.quotaCheck
  try dsimp only
  repeat' (first | assumption | with_reducible (first | apply endPlanRecording) | intro _ | split)

theorem startRecording (c : Chip) (l : LineNo) (hL : c.Legal) : (Chip.startRecording c l).Legal := by
  unfold Chip.startRecording
  try dsimp only
  repeat' (first
    | assumption
    | with_reducible (first
      | apply enterClosing | (apply createObj_eq; rotate_left; assumption) | (apply bindCodec_eq; rotate_left; assumption)
      | apply modSeq | (refine modMailbox ?_ id) | (refine modMailbox ?_ ?_))
    | intro _
    | split)

theorem setStatus (c : Chip) (i : SlotNo) (status : MsgStatus) (hL : c.Legal) : (Chip.setStatus c i status).Legal := by
  unfold Chip.setStatus
  split
  · next o ho' =>
    have ho : (c.store.slots[i]).obj = some o := ho'
    split
    · next ca li old m ha hw =>
      refine ⟨mailboxParts (c := c) (m := m) (f := fun b => { b with
        newCount := if b.list.contains (c.handle i) then b.newCount - old.fresh + status.fresh else b.newCount }) hL id, ?_⟩
      have key := hL.2.setSlot i { c.store.slots[i] with obj := some (o.withStatus status) } (free' := c.store.free) (chans' := c.chans)
        (mailboxes' := upd c.mailboxes m (fun b => { b with
          newCount := if b.list.contains (c.handle i) then b.newCount - old.fresh + status.fresh else b.newCount }))
        (fun a => by simp only [Slot.blocks, ho]; rfl) (fun _ _ => rfl)
        ⟨fun x hx => by
          injection hx with hx
          subst hx
          exact (hL.2.2.1 i).1 o ho, fun z => by contradiction⟩
        (fun k hk => by
          by_cases ek : k = m
          · subst ek
            have hs' : (upd c.mailboxes k (fun b => { b with
              newCount := if b.list.contains (c.handle i) then b.newCount - old.fresh + status.fresh else b.newCount }))[k] = _ :=
              Vector.getElem_set_self _
            rw [hs']
            refine hk.restatus i _ o (o.withStatus status) rfl ho rfl rfl (by simp [Obj.withStatus, Obj.isMessage, ha]) rfl rfl rfl rfl ?_
            simp only [List.contains_iff_mem, Chip.handle]
            simp [Obj.withStatus, Obj.newMessages, ha]
          · have hs' : (upd c.mailboxes m (fun b => { b with
              newCount := if b.list.contains (c.handle i) then b.newCount - old.fresh + status.fresh else b.newCount }))[k] = c.mailboxes[k] :=
              Vector.getElem_set_ne _ _ (fun x => ek (Fin.ext x.symm))
            rw [hs']
            refine hk.set_unlisted i _ rfl rfl rfl (hk.unlisted i (fun x hx z => ?_))
            rw [ho] at hx
            injection hx with hx
            subst hx
            have := hw.symm.trans z.2.2
            injection this with this
            exact ek this.symm)
      simp only [Chip.modMailbox, Chip.modObj, Chip.modSlot, upd, ho, Option.map_some] at key ⊢
      exact key
    · exact hL
  · exact hL

theorem cutPlay (c : Chip) (l : LineNo) (hL : c.Legal) : (Chip.cutPlay c l).Legal := by
  unfold Chip.cutPlay
  try dsimp only
  repeat' (first | assumption | with_reducible (first | apply modSeq | apply stopRetire_opt) | intro _ | split)

theorem reviewTone (c : Chip) (l : LineNo) (t : PlanTone) (hL : c.Legal) : (Chip.reviewTone c l t).Legal := by
  unfold Chip.reviewTone
  try dsimp only
  repeat' (first | assumption | with_reducible (first | apply modSeq) | intro _ | split)

theorem playEntry (c : Chip) (l : LineNo) (hL : c.Legal) : (Chip.playEntry c l).Legal := by
  unfold Chip.playEntry
  try dsimp only
  repeat' (first
    | assumption
    | with_reducible (first
      | apply reviewTone | (apply bindCodec_eq; rotate_left; assumption) | apply modSeq)
    | intro _
    | split)

theorem enterReview (c : Chip) (l : LineNo) (hL : c.Legal) : (Chip.enterReview c l).Legal := by
  unfold Chip.enterReview
  try dsimp only
  repeat' (first | assumption | with_reducible (first | apply playEntry | apply modSeq) | intro _ | split)

theorem reviewPlayed (c : Chip) (l : LineNo) (i : ChanNo) (hL : c.Legal) : (Chip.reviewPlayed c l i).Legal := by
  unfold Chip.reviewPlayed
  try dsimp only
  repeat' (first | assumption | with_reducible (first | apply setStatus | apply modSeq | apply retire) | intro _ | split)

theorem enterAccess (c : Chip) (l : LineNo) (m : MailboxNo) (hL : c.Legal) : (Chip.enterAccess c l m).Legal := by
  unfold Chip.enterAccess
  try dsimp only
  repeat' (first | assumption | with_reducible (first | apply modSeq) | intro _ | split)

theorem noteAccess (c : Chip) (l : LineNo) (good : Bool) (hL : c.Legal) : (Chip.noteAccess c l good).Legal := by
  unfold Chip.noteAccess
  try dsimp only
  repeat' (first | assumption | with_reducible (first | apply note) | intro _ | split)

theorem wrongCode (c : Chip) (l : LineNo) (hL : c.Legal) : (Chip.wrongCode c l).Legal := by
  unfold Chip.wrongCode
  try dsimp only
  repeat' (first | assumption | with_reducible (first | apply modSeq) | intro _ | split)

theorem stopSequence (c : Chip) (l : LineNo) (cause : RecEnd) (hL : c.Legal) : (Chip.stopSequence c l cause).Legal := by
  unfold Chip.stopSequence
  try dsimp only
  repeat' (first
    | assumption
    | with_reducible (first
      | apply cutPlay | apply stopPlanRecording | apply cutGreeting)
    | intro _
    | split)

theorem endSequence (c : Chip) (l : LineNo) (hL : c.Legal) : (Chip.endSequence c l).Legal := by
  unfold Chip.endSequence
  try dsimp only
  repeat' (first | assumption | with_reducible (first | apply modSeq) | intro _ | split)

theorem detachPlan (c : Chip) (l : LineNo) (cause : RecEnd) (hL : c.Legal) : (Chip.detachPlan c l cause).Legal := by
  unfold Chip.detachPlan
  try dsimp only
  repeat' (first | assumption | with_reducible (first | apply endSequence | apply stopSequence) | intro _ | split)

theorem faxSend (c : Chip) (l : LineNo) (m : FaxMsg) (hL : c.Legal) : (Chip.faxSend c l m).Legal := by
  unfold Chip.faxSend
  try dsimp only
  repeat' (first | assumption | with_reducible (first | apply modFax) | intro _ | split)

theorem faxAsk (c : Chip) (l : LineNo) (m : FaxMsg) (hL : c.Legal) : (Chip.faxAsk c l m).Legal := by
  unfold Chip.faxAsk
  try dsimp only
  repeat' (first | assumption | with_reducible (first | apply modFax) | intro _ | split)

theorem faxAnswer (c : Chip) (l : LineNo) (page : Option Nat) (m : FaxMsg) (hL : c.Legal) : (Chip.faxAnswer c l page m).Legal := by
  unfold Chip.faxAnswer
  try dsimp only
  repeat' (first | assumption | with_reducible (first | apply modFax) | intro _ | split)

theorem sendBye (c : Chip) (l : LineNo) (ending : Option FaxEnd) (hL : c.Legal) : (Chip.sendBye c l ending).Legal := by
  unfold Chip.sendBye
  try dsimp only
  repeat' (first | assumption | with_reducible (first | apply faxAsk | apply modFax) | intro _ | split)

theorem pageSent (c : Chip) (l : LineNo) (partialFlag : Bool) (hL : c.Legal) : (Chip.pageSent c l partialFlag).Legal := by
  unfold Chip.pageSent
  try dsimp only
  repeat' (first | assumption | with_reducible (first | apply note | apply modFax) | intro _ | split)

theorem settleSent (c : Chip) (l : LineNo) (hL : c.Legal) : (Chip.settleSent c l).Legal := by
  unfold Chip.settleSent
  try dsimp only
  repeat' (first | assumption | with_reducible (first | apply pageSent) | intro _ | split)

theorem bindPage_eq (c : Chip) (l : LineNo) (i : SlotNo) (n : Nat) {r} {y} (hL : c.Legal)
    (hE : Chip.bindPage c l i n = .ok (r, y)) : r.Legal := by
  unfold Chip.bindPage at hE
  try dsimp only at hE
  repeat' (split at hE)
  all_goals first | contradiction | skip
  all_goals (try injection hE with hE)
  all_goals (try first | (injection hE with e1 e2; subst e1) | subst hE)
  all_goals repeat' (first | assumption | with_reducible (first | (apply bind_eq; rotate_left; assumption)) | intro _ | split)

theorem unbindCur (c : Chip) (l : LineNo) (hL : c.Legal) : (Chip.unbindCur c l).Legal := by
  unfold Chip.unbindCur
  try dsimp only
  repeat' (first | assumption | with_reducible (first | apply modFax | apply retire) | intro _ | split)

theorem pageMissing (c : Chip) (l : LineNo) (h : Nat) (detail : Reason) (hL : c.Legal) :
    (Chip.pageMissing c l h detail).Legal := by
  unfold Chip.pageMissing
  try dsimp only
  repeat' (first | assumption | with_reducible (first | apply modFax) | intro _ | split)

theorem turnOver (hs : List Nat) : ∀ (c : Chip) (l : LineNo) (b : Bool), c.Legal → (Chip.turnOver hs c l b).Legal := by
  induction hs with
  | nil => intro c l b h; exact h
  | cons x rest ih =>
    intro c l b h
    unfold Chip.turnOver
    split
    · exact h
    · next j _ =>
      have h1 : (c.modFax l (fun j => { j with found := j.found + 1 })).Legal := h
      dsimp only
      split
      · exact ih _ _ _ (pageMissing _ _ _ _ h1)
      · split
        · split
          · exact ih _ _ _ (pageMissing _ _ _ _ (unbindCur _ _ h1))
          · exact modFax (bindPage_eq _ _ _ _ (unbindCur _ _ h1) ‹_›) _ _
        · exact h1

theorem pageTurn (c : Chip) (l : LineNo) (bindNow : Bool) (hL : c.Legal) : (Chip.pageTurn c l bindNow).Legal := by
  unfold Chip.pageTurn
  try dsimp only
  repeat' (first | assumption | with_reducible (first | apply turnOver | apply modFax) | intro _ | split)

theorem position (c : Chip) (i : ChanNo) (base : Nat) (count : Nat) (hL : c.Legal) :
    (Chip.position c i base count).Legal := by
  unfold Chip.position
  try dsimp only
  repeat' (first
    | assumption
    | with_reducible (first
      | apply startChan | apply releaseChan | apply reposition | apply holdChan)
    | intro _
    | split)

theorem nextRun (c : Chip) (l : LineNo) (hL : c.Legal) : (Chip.nextRun c l).Legal := by
  unfold Chip.nextRun
  try dsimp only
  repeat' (first | assumption | with_reducible (first | apply modFax | apply position) | intro _ | split)

theorem startRound (c : Chip) (l : LineNo) (hL : c.Legal) : (Chip.startRound c l).Legal := by
  unfold Chip.startRound
  try dsimp only
  repeat' (first | assumption | with_reducible (first | apply nextRun | apply modFax) | intro _ | split)

theorem startSection (c : Chip) (l : LineNo) (s : Nat) (hL : c.Legal) : (Chip.startSection c l s).Legal := by
  unfold Chip.startSection
  try dsimp only
  repeat' (first | assumption | with_reducible (first | apply startRound | apply modFax) | intro _ | split)

theorem takeAnnounced (c : Chip) (l : LineNo) (hL : c.Legal) : (Chip.takeAnnounced c l).Legal := by
  unfold Chip.takeAnnounced
  try dsimp only
  repeat' (first | assumption | with_reducible (first | apply modFax) | intro _ | split)

theorem runByte (c : Chip) (l : LineNo) (b : Byte) (hL : c.Legal) : (Chip.runByte c l b).Legal := by
  unfold Chip.runByte
  try dsimp only
  repeat' (first
    | assumption
    | with_reducible (first
      | apply modFax | apply nextRun)
    | intro _
    | split)

theorem postPage (c : Chip) (l : LineNo) (hL : c.Legal) : (Chip.postPage c l).Legal := by
  unfold Chip.postPage
  try dsimp only
  repeat' (first
    | assumption
    | with_reducible (first
      | apply modFax | apply sendBye | apply settleSent | apply pageTurn | apply faxAsk)
    | intro _
    | split)

theorem nextSection (c : Chip) (l : LineNo) (hL : c.Legal) : (Chip.nextSection c l).Legal := by
  unfold Chip.nextSection
  try dsimp only
  repeat' (first
    | assumption
    | with_reducible (first
      | apply sendBye | apply settleSent | apply startSection | apply postPage)
    | intro _
    | split)

theorem judgeStrips (c : Chip) (e : EngineNo) (good : Nat) (bad : Nat) (hL : c.Legal) :
    (Chip.judgeStrips c e good bad).Legal := by
  unfold Chip.judgeStrips
  try dsimp only
  repeat' (first | assumption | with_reducible (first | apply modEngine) | intro _ | split)

theorem giveUpSection (c : Chip) (l : LineNo) (needed : Nat) (hL : c.Legal) : (Chip.giveUpSection c l needed).Legal := by
  unfold Chip.giveUpSection
  try dsimp only
  repeat' (first
    | assumption
    | with_reducible (first
      | apply modFax | apply nextSection | apply sendBye | apply pageSent)
    | intro _
    | split)

theorem faxRetrain (c : Chip) (l : LineNo) (e : EngineNo) (atLowest : Chip → Chip) (hL : c.Legal)
    (hf : ∀ x : Chip, x.Legal → (atLowest x).Legal) : (c.faxRetrain l e atLowest).Legal := by
  have h1 := askRetrain c e .down false hL
  unfold Chip.faxRetrain
  dsimp only
  split
  · exact h1
  · exact hf _ h1
  · exact h1

theorem roundsSpent (c : Chip) (l : LineNo) (e : EngineNo) (needed : Nat) (hL : c.Legal) :
    (Chip.roundsSpent c l e needed).Legal := by
  unfold Chip.roundsSpent
  try dsimp only
  repeat' (first | assumption | with_reducible (first | apply faxRetrain | apply giveUpSection) | intro _ | split)

theorem nextPage (c : Chip) (l : LineNo) (hL : c.Legal) : (c.nextPage l).Legal := by
  have h1 : (c.modFax l (fun j => { j with announced := none })).Legal := hL
  unfold Chip.nextPage
  split
  · exact hL
  · split
    · exact hL
    · split
      · split
        · exact sendBye _ _ _ (pageMissing _ _ _ _ h1)
        · split
          · exact sendBye _ _ _ (pageMissing _ _ _ _ h1)
          · exact startRound _ _ (takeAnnounced _ _ (modFax (bindPage_eq _ _ _ _ hL ‹_›) _ _))
      · exact startRound _ _ (takeAnnounced _ _ hL)

theorem sendSet (c : Chip) (l : LineNo) (r : Rate) (hL : c.Legal) : (Chip.sendSet c l r).Legal := by
  unfold Chip.sendSet
  try dsimp only
  repeat' (first | assumption | with_reducible (first | apply startTraining | apply faxAsk | apply modFax) | intro _ | split)

theorem sendTrained (c : Chip) (l : LineNo) (j : FaxJob) (hL : c.Legal) : (Chip.sendTrained c l j).Legal := by
  unfold Chip.sendTrained
  try dsimp only
  repeat' (first
    | assumption
    | with_reducible (first
      | apply modFax | apply sendBye | apply settleSent | apply faxRetrain | apply startRound | apply giveUpSection)
    | intro _
    | split)

theorem sendTrainFailed (c : Chip) (l : LineNo) (j : FaxJob) (last : Option Rate) (hL : c.Legal) :
    (Chip.sendTrainFailed c l j last).Legal := by
  unfold Chip.sendTrainFailed
  try dsimp only
  repeat' (first | assumption | with_reducible (first | apply sendBye | apply settleSent | apply sendSet) | intro _ | split)

theorem pageRefused (c : Chip) (l : LineNo) (number : Nat) (detail : Reason) (hL : c.Legal) :
    (Chip.pageRefused c l number detail).Legal := by
  unfold Chip.pageRefused
  try dsimp only
  repeat' (first | assumption | with_reducible (first | apply modFax) | intro _ | split)

theorem beginPage (c : Chip) (l : LineNo) (number : Nat) (res : Resolution) (hL : c.Legal) :
    (Chip.beginPage c l number res).Legal := by
  unfold Chip.beginPage
  try dsimp only
  repeat' (first
    | assumption
    | with_reducible (first
      | (apply createObj_eq; rotate_left; assumption) | apply pageRefused | (apply bind_eq; rotate_left; assumption)
      | apply modFax)
    | intro _
    | split)

theorem retirePage (c : Chip) (l : LineNo) (p : FaxPage) (hL : c.Legal) : (Chip.retirePage c l p).Legal := by
  unfold Chip.retirePage
  try dsimp only
  repeat' (first | assumption | with_reducible (first | apply retire) | intro _ | split)

theorem finishPage (c : Chip) (i : SlotNo) (p : FaxPage) (rate : Option Rate) (partialFlag : Bool) (hL : c.Legal) :
    (c.modObj i (fun o => o.finishPage p rate partialFlag)).Legal := by
  refine hL.modObj (fun o _ => ?_)
  unfold Obj.finishPage
  split
  · next ha => exact ⟨rfl, rfl, id, Or.inr (fun z => by have := z.2; unfold Obj.isMessage at this; rw [ha] at this; contradiction)⟩
  · exact ⟨rfl, rfl, id, Or.inl rfl⟩

theorem closePage (c : Chip) (l : LineNo) (rate : Option Rate) (p : FaxPage) (partialFlag : Bool) (hL : c.Legal) : (Chip.closePage c l rate p partialFlag).Legal := by
  unfold Chip.closePage
  try dsimp only
  repeat' (first
    | assumption
    | with_reducible (first
      | apply modFax | apply deleteHandle | apply closeObj | (apply closeObj_eq; rotate_left; assumption) | apply finishPage | apply note)
    | intro _
    | split)

theorem endPage (c : Chip) (l : LineNo) (partialFlag : Bool) (hL : c.Legal) : (Chip.endPage c l partialFlag).Legal := by
  unfold Chip.endPage
  try dsimp only
  repeat' (first
    | assumption
    | with_reducible (first
      | apply retirePage | apply closePage)
    | intro _
    | split)

theorem faxStoreFull (c : Chip) (l : LineNo) (hL : c.Legal) : (Chip.faxStoreFull c l).Legal := by
  unfold Chip.faxStoreFull
  try dsimp only
  repeat' (first | assumption | with_reducible (first | apply modFax | apply endPage) | intro _ | split)

theorem passStrip (c : Chip) (l : LineNo) (hL : c.Legal) : (Chip.passStrip c l).Legal := by
  unfold Chip.passStrip
  try dsimp only
  repeat' (first
    | assumption
    | with_reducible (first
      | apply modFax | apply modEpath | apply position)
    | intro _
    | split)

theorem badStrip (c : Chip) (l : LineNo) (e : EngineNo) (hL : c.Legal) : (Chip.badStrip c l e).Legal := by
  unfold Chip.badStrip
  try dsimp only
  repeat' (first | assumption | with_reducible (first | apply modFax | apply judge) | intro _ | split)

theorem goodStrip (c : Chip) (l : LineNo) (e : EngineNo) (n : Nat) (total : Nat) (bs : List Byte) (hL : c.Legal) :
    (Chip.goodStrip c l e n total bs).Legal := by
  unfold Chip.goodStrip
  try dsimp only
  repeat' (first
    | assumption
    | with_reducible (first
      | apply modFax | apply judge | apply badStrip | apply slip | apply passStrip)
    | intro _
    | split)

theorem stripDone (c : Chip) (l : LineNo) (n : Nat) (hL : c.Legal) : (Chip.stripDone c l n).Legal := by
  unfold Chip.stripDone
  try dsimp only
  repeat' (first | assumption | with_reducible (first | apply passStrip | apply modFax) | intro _ | split)

theorem answerRound (c : Chip) (l : LineNo) (j : FaxJob) (hL : c.Legal) : (Chip.answerRound c l j).Legal := by
  unfold Chip.answerRound
  try dsimp only
  repeat' (first | assumption | with_reducible (first | apply faxSend | apply modFax) | intro _ | split)

theorem answerRetake (c : Chip) (l : LineNo) (p : FaxPage) (next : Option Nat) (hL : c.Legal) : (Chip.answerRetake c l p next).Legal := by
  unfold Chip.answerRetake
  try dsimp only
  repeat' (first | assumption | with_reducible (first | apply faxAnswer | apply modFax) | intro _ | split)

theorem attachFax (c : Chip) (l : LineNo) (role : FaxRole) (e : EngineNo) (pages : List Nat) (hL : c.Legal) :
    (Chip.attachFax c l role e pages).Legal := by
  unfold Chip.attachFax
  try dsimp only
  repeat' (first | assumption | with_reducible (first | apply setFax | apply faxAsk) | intro _ | split)

theorem settlePage (c : Chip) (l : LineNo) (hL : c.Legal) : (Chip.settlePage c l).Legal := by
  unfold Chip.settlePage
  try dsimp only
  repeat' (first | assumption | with_reducible (first | apply settleSent | apply endPage) | intro _ | split)

theorem handFax (c : Chip) (l : LineNo) (j : FaxJob) (hL : c.Legal) : (Chip.handFax c l j).Legal := by
  unfold Chip.handFax
  try dsimp only
  repeat' (first | assumption | with_reducible (first | apply modCall) | intro _ | split)

theorem detachFax (c : Chip) (l : LineNo) (hL : c.Legal) : (Chip.detachFax c l).1.Legal := by
  unfold Chip.detachFax
  try dsimp only
  repeat' (first | assumption | with_reducible (first | apply settlePage | apply endFax | apply handFax) | intro _ | split)

theorem detachFax_eq (c : Chip) (l : LineNo) {r} {y} (hL : c.Legal) (hE : Chip.detachFax c l = (r, y)) : r.Legal := by
  have := detachFax c l hL
  rwa [hE] at this

theorem endLong (c : Chip) (l : LineNo) (cls : Cls) (reason : Reason) (result : List Byte) (phase : Phase)
    (at_ : Option (Nat × Nat)) (hL : c.Legal) : (Chip.endLong c l cls reason result phase at_).Legal := by
  unfold Chip.endLong
  try dsimp only
  repeat' (first
    | assumption
    | with_reducible (first
      | apply replyLine | apply modCall | apply clearFault | apply writeFault)
    | intro _
    | split)

theorem endNormal (c : Chip) (l : LineNo) (result : List Byte) (hL : c.Legal) : (Chip.endNormal c l result).Legal := by
  unfold Chip.endNormal
  try dsimp only
  repeat' (first | assumption | with_reducible (first | apply endLong) | intro _ | split)

theorem closeRecord (c : Chip) (r : Recording) (hL : c.Legal) : (Chip.closeRecord c r).1.Legal := by
  unfold Chip.closeRecord
  try dsimp only
  repeat' (first
    | assumption
    | with_reducible (first
      | apply closeRule | (apply closeRule_eq; rotate_left; assumption))
    | intro _
    | split)

theorem settleRecord (c : Chip) (l : LineNo) (hL : c.Legal) : (Chip.settleRecord c l).1.Legal := by
  unfold Chip.settleRecord
  try dsimp only
  repeat' (first
    | assumption
    | with_reducible (first
      | apply closeRecord | apply modCall | apply retire)
    | intro _
    | split)

theorem settleRecord_eq (c : Chip) (l : LineNo) {r} {y} (hL : c.Legal) (hE : Chip.settleRecord c l = (r, y)) : r.Legal := by
  have := settleRecord c l hL
  rwa [hE] at this

theorem stopRecord (c : Chip) (l : LineNo) (cause : RecEnd) (hL : c.Legal) : (Chip.stopRecord c l cause).1.Legal := by
  unfold Chip.stopRecord
  try dsimp only
  repeat' (first
    | assumption
    | with_reducible (first
      | apply settleRecord | (apply settleRecord_eq; rotate_left; assumption) | apply stopDrained | apply modCall)
    | intro _
    | split)

theorem stopRecord_eq (c : Chip) (l : LineNo) (cause : RecEnd) {r} {y} (hL : c.Legal)
    (hE : Chip.stopRecord c l cause = (r, y)) : r.Legal := by
  have := stopRecord c l cause hL
  rwa [hE] at this

theorem finishRecord (c : Chip) (l : LineNo) (cause : Option RecEnd) (hL : c.Legal) : (Chip.finishRecord c l cause).Legal := by
  unfold Chip.finishRecord
  try dsimp only
  repeat' (first
    | assumption
    | with_reducible (first
      | apply settleRecord | apply endLong | apply endNormal)
    | intro _
    | split)

theorem recordDone (c : Chip) (l : LineNo) (cause : RecEnd) (hL : c.Legal) : (Chip.recordDone c l cause).Legal := by
  unfold Chip.recordDone
  try dsimp only
  repeat' (first
    | assumption
    | with_reducible (first
      | apply modCall | apply finishRecord)
    | intro _
    | split)

theorem endRecord (c : Chip) (l : LineNo) (cause : RecEnd) (hL : c.Legal) : (Chip.endRecord c l cause).Legal := by
  unfold Chip.endRecord
  try dsimp only
  repeat' (first | assumption | with_reducible (first | apply stopChan | apply modCall | apply recordDone) | intro _ | split)

theorem detachRecord (c : Chip) (l : LineNo) (cause : RecEnd) (hL : c.Legal) : (Chip.detachRecord c l cause).1.Legal := by
  unfold Chip.detachRecord
  try dsimp only
  repeat' (first
    | assumption
    | with_reducible (first
      | apply finishRecord | apply stopDrained | apply stopRecord)
    | intro _
    | split)

theorem detachJob (c : Chip) (l : LineNo) (hL : c.Legal) : (c.detachJob l).1.Legal := by
  unfold Chip.detachJob
  extract_lets before cause c1 c2 hadFax f r
  have h1 : c1.Legal := by
    show Chip.Legal (match (c.calls[l]).engine with | some e => c.finishData e | none => c)
    split
    · exact finishData _ _ hL
    · exact hL
  have h2 : c2.Legal := detachPlan c1 l cause h1
  have h3 : f.1.Legal := detachFax c2 l h2
  have h4 : r.1.Legal := detachRecord f.1 l cause h3
  show (r.1.modCall l (fun k => { k with job := .none, window := .closed })).Legal
  exact modCall h4 _ _

theorem detachJob_eq (c : Chip) (l : LineNo) {r : Chip} {y : List Byte} (hL : c.Legal) (hE : c.detachJob l = (r, y)) :
    r.Legal := by
  have := detachJob c l hL
  rwa [hE] at this

theorem foldl {α : Type} (f : Chip → α → Chip) (hf : ∀ (c : Chip) (a : α), c.Legal → (f c a).Legal) :
    ∀ (as : List α) (c : Chip), c.Legal → (as.foldl f c).Legal := by
  intro as
  induction as with
  | nil => intro c h; exact h
  | cons a as ih => intro c h; exact ih _ (hf c a h)

theorem unbindLine (c : Chip) (l : LineNo) (hL : c.Legal) : (c.unbindLine l).Legal := by
  unfold Chip.unbindLine
  refine foldl _ (fun c i h => ?_) _ _ hL
  split
  · exact stopRetire _ _ _ h
  · exact h

theorem dropEngine (c : Chip) (l : LineNo) (hL : c.Legal) : (Chip.dropEngine c l).Legal := by
  unfold Chip.dropEngine
  try dsimp only
  repeat' (first | assumption | with_reducible (first | apply releaseEngine | apply modCall) | intro _ | split)

theorem endMarked (c : Chip) (l : LineNo) (result : List Byte) (page : Option (Nat × Nat)) (hL : c.Legal) : (Chip.endMarked c l result page).Legal := by
  unfold Chip.endMarked
  try dsimp only
  repeat' (first
    | assumption
    | with_reducible (first
      | apply endLong)
    | intro _
    | split)

theorem resetOnHook (c : Chip) (l : LineNo) (hL : c.Legal) : (c.resetOnHook l).Legal := by
  unfold Chip.resetOnHook
  refine modLine (modLinkSets hL (fun hk => ?_)) id
  exact Link.Legal.set hk (lineSet l) (es := []) (by simp [legalSet])

theorem teardown (c : Chip) (l : LineNo) (hL : c.Legal) : (c.teardown l).Legal := by
  unfold Chip.teardown
  extract_lets d c1 c2 ended c3
  have h0 : d.1.Legal := detachJob c l hL
  clear_value d
  have h1 : c1.Legal := hangUp _ l (endMarked _ l d.2 _ (dropEngine _ l (unbindLine d.1 l h0)))
  clear_value c1
  have h2 : c2.Legal := by
    show Chip.Legal (if _ then _ else _)
    split
    · exact resetOnHook _ _ h1
    · exact h1
  clear_value c2 ended
  have h3 : c3.Legal := by
    show Chip.Legal (if _ then _ else _)
    split
    · exact enterCooling _ _ h2
    · exact h2
  exact note h3 l _ _

theorem beginDetach (c : Chip) (l : LineNo) (hL : c.Legal) : (Chip.beginDetach c l).1.Legal := by
  unfold Chip.beginDetach
  try dsimp only
  repeat' (first
    | assumption
    | with_reducible (first
      | apply pump | apply modUnit | apply stopDrain | apply modFax | apply sendBye)
    | intro _
    | split)

theorem beginDetach_eq (c : Chip) (l : LineNo) {r} {y} (hL : c.Legal) (hE : Chip.beginDetach c l = (r, y)) : r.Legal := by
  have := beginDetach c l hL
  rwa [hE] at this

theorem startRelease (c : Chip) (l : LineNo) (cause : Reason) (forced : Bool) (cond : FaultSet) (hL : c.Legal) :
    (c.startRelease l cause forced cond).Legal := by
  unfold Chip.startRelease
  extract_lets c1
  have h1 : c1.Legal := hL
  split
  · split
    · exact beginDetach_eq _ _ h1 ‹_›
    · exact teardown _ _ (beginDetach_eq _ _ h1 ‹_›)
  · exact teardown _ _ h1

theorem release (c : Chip) (l : LineNo) (cause : Reason) (hL : c.Legal) : (Chip.release c l cause).Legal := by
  unfold Chip.release
  try dsimp only
  repeat' (first | assumption | with_reducible (first | apply startRelease) | intro _ | split)

theorem detachEnds (c : Chip) (l : LineNo) (hL : c.Legal) : (c.detachEnds l).Legal := by
  unfold Chip.detachEnds
  split
  · exact teardown _ _ hL
  · exact hL

theorem forcedRelease (c : Chip) (l : LineNo) (time : Nat) (cond : FaultSet) (hL : c.Legal) (ht : time ≤ 60) :
    (c.forcedRelease l time cond).Legal := by
  unfold Chip.forcedRelease
  extract_lets k c1 forced
  have h1 : c1.Legal := modLine hL (fun hn => by
    unfold Line.Legal at *
    dsimp only
    split <;> omega)
  have hf : ∀ x : Chip, x.Legal → (forced x).Legal := fun x hx => hx.modCall _ _
  split
  · exact enterCooling _ _ (hf _ h1)
  · exact enterCooling _ _ (hf _ h1)
  · exact modLine h1 (fun hn => by unfold Line.Legal at *; dsimp only; omega)
  · split
    · exact teardown _ _ (hf _ h1)
    · exact enterCooling _ _ (hf _ h1)
  · exact startRelease _ _ _ _ _ h1

theorem endForReset (c : Chip) (l : LineNo) (hL : c.Legal) : (Chip.endForReset c l).Legal := by
  unfold Chip.endForReset
  try dsimp only
  repeat' (first
    | assumption
    | with_reducible (first
      | apply endLong | apply detachRecord)
    | intro _
    | split)

theorem lineReset (c : Chip) (l : LineNo) (tag : Byte) (hL : c.Legal) : (c.lineReset l tag).Legal := by
  unfold Chip.lineReset
  extract_lets c1
  have h1 : c1.Legal := endForReset _ _ (modLine hL id)
  clear_value c1
  split
  · split
    · exact teardown _ _ h1
    · exact resetOnHook _ _ h1
  · exact resetOnHook _ _ (modCall (modLine h1 (fun hn => by unfold Line.Legal at *; dsimp only; omega)) _ _)
  · exact resetOnHook _ _ (modCall h1 _ _)
  · exact resetOnHook _ _ (modCall h1 _ _)
  · exact startRelease _ _ _ _ _ h1

theorem noteConnected (c : Chip) (l : LineNo) (rate : Option Rate) (hL : c.Legal) : (Chip.noteConnected c l rate).Legal := by
  unfold Chip.noteConnected
  try dsimp only
  repeat' (first | assumption | with_reducible (first | apply note) | intro _ | split)

theorem startFax (c : Chip) (l : LineNo) (role : FaxRole) (hL : c.Legal) : (Chip.startFax c l role).Legal := by
  unfold Chip.startFax
  try dsimp only
  repeat' (first
    | assumption
    | with_reducible (first
      | apply noteConnected | apply attachFax | apply modCall)
    | intro _
    | split)

theorem startData (c : Chip) (l : LineNo) (hL : c.Legal) : (Chip.startData c l).Legal := by
  unfold Chip.startData
  try dsimp only
  repeat' (first | assumption | with_reducible (first | apply startTraining | apply modCall) | intro _ | split)

theorem connect (c : Chip) (l : LineNo) (hL : c.Legal) : (Chip.connect c l).Legal := by
  unfold Chip.connect
  try dsimp only
  repeat' (first | assumption | with_reducible (first | apply modCall) | intro _ | split)

theorem connectVoice (c : Chip) (l : LineNo) (hL : c.Legal) : (Chip.connectVoice c l).Legal := by
  unfold Chip.connectVoice
  try dsimp only
  repeat' (first
    | assumption
    | with_reducible (first
      | apply noteConnected | apply endNormal | apply modCall)
    | intro _
    | split)

theorem answered (c : Chip) (l : LineNo) (hL : c.Legal) : (Chip.answered c l).Legal := by
  unfold Chip.answered
  try dsimp only
  repeat' (first
    | assumption
    | with_reducible (first
      | apply connect | apply startData | apply startFax | apply connectVoice)
    | intro _
    | split)

theorem answerLoop (c : Chip) (l : LineNo) (hL : c.Legal) : (Chip.answerLoop c l).Legal := by
  unfold Chip.answerLoop
  try dsimp only
  repeat' (first
    | assumption
    | with_reducible (first
      | apply connect | apply startData | apply startFax | apply noteConnected | apply startPlan | apply modCall
      | apply connectVoice | apply endNormal)
    | intro _
    | split)

theorem dataUp (c : Chip) (l : LineNo) (e : EngineNo) (hL : c.Legal) : (Chip.dataUp c l e).Legal := by
  unfold Chip.dataUp
  try dsimp only
  repeat' (first
    | assumption
    | with_reducible (first
      | apply noteConnected | apply endNormal | apply modCall)
    | intro _
    | split)

theorem takeData_eq (c : Chip) (l : LineNo) (side : Side) {r} {y} (hL : c.Legal)
    (hE : Chip.takeData c l side = .ok (r, y)) : r.Legal := by
  unfold Chip.takeData at hE
  try dsimp only at hE
  repeat' (split at hE)
  all_goals first | contradiction | skip
  all_goals (try injection hE with hE)
  all_goals (try first | (injection hE with e1 e2; subst e1) | subst hE)
  all_goals repeat' (first
    | assumption
    | with_reducible (first
      | (apply claim_eq; rotate_left; assumption) | (apply ringPair_eq; rotate_left; assumption) | apply beginSession)
    | intro _
    | split)

theorem takeFax_eq (c : Chip) (l : LineNo) {r} {y} (hL : c.Legal) (hE : Chip.takeFax c l = .ok (r, y)) : r.Legal := by
  unfold Chip.takeFax at hE
  try dsimp only at hE
  repeat' (split at hE)
  all_goals first | contradiction | skip
  all_goals (try injection hE with hE)
  all_goals (try first | (injection hE with e1 e2; subst e1) | subst hE)
  all_goals repeat' (first
    | assumption
    | with_reducible (first
      | (apply claim_eq; rotate_left; assumption))
    | intro _
    | split)

theorem seizeAnswer (c : Chip) (l : LineNo) (f : Call → Call) (hL : c.Legal) : (Chip.seizeAnswer c l f).Legal := by
  unfold Chip.seizeAnswer
  try dsimp only
  repeat' (first
    | assumption
    | with_reducible (first
      | apply modCall | (refine modLine ?_ id) | (refine modLine ?_ ?_))
    | intro _
    | split)

theorem planVoice_eq (c : Chip) (l : LineNo) (kind : PlanKind) (m : MailboxNo) (first : Option Reason) {r} (hL : c.Legal)
    (hE : Chip.planVoice c l kind m first = .ok r) : r.Legal := by
  unfold Chip.planVoice at hE
  try dsimp only at hE
  repeat' (split at hE)
  all_goals first | contradiction | skip
  all_goals (try injection hE with hE)
  all_goals (try first | (injection hE with e1 e2; subst e1) | subst hE)
  all_goals repeat' (first | assumption | with_reducible (first | apply seizeAnswer) | intro _ | split)

theorem planStart_eq (c : Chip) (l : LineNo) (kind : PlanKind) (m : MailboxNo) {r} (hL : c.Legal)
    (hE : Chip.planStart c l kind m = .ok r) : r.Legal := by
  unfold Chip.planStart at hE
  try dsimp only at hE
  repeat' (split at hE)
  all_goals first | contradiction | skip
  all_goals (try injection hE with hE)
  all_goals (try first | (injection hE with e1 e2; subst e1) | subst hE)
  all_goals repeat' (first
    | assumption
    | with_reducible (first
      | (apply takeFax_eq; rotate_left; assumption) | apply seizeAnswer | (apply planVoice_eq; rotate_left; assumption)
      | (apply takeData_eq; rotate_left; assumption))
    | intro _
    | split)

theorem consultPlan (c : Chip) (l : LineNo) (hL : c.Legal) : (Chip.consultPlan c l).Legal := by
  unfold Chip.consultPlan
  try dsimp only
  repeat' (first
    | assumption
    | with_reducible (first
      | apply modCall | (apply planStart_eq; rotate_left; assumption) | apply note)
    | intro _
    | split)

theorem lastChar (c : Chip) (l : LineNo) (hL : c.Legal) : (Chip.lastChar c l).Legal := by
  unfold Chip.lastChar
  try dsimp only
  repeat' (first | assumption | with_reducible (first | apply endNormal | apply modCall) | intro _ | split)

theorem sendChars (bs : List Byte) : ∀ (c : Chip) (l : LineNo), c.Legal → (Chip.sendChars bs c l).Legal := by
  induction bs with
  | nil => intro c l h; exact lastChar _ _ (modCall h _ _)
  | cons b rest ih =>
    intro c l h
    unfold Chip.sendChars
    extract_lets c1
    have h1 : c1.Legal := h
    split
    · exact ih _ _ (modCall h1 _ _)
    · split
      · exact ih _ _ (modCall h1 _ _)
      · split
        · exact modCall h1 _ _
        · split
          · exact modCall h1 _ _
          · split
            · exact modLine (modCall h1 _ _) id
            · exact modCall h1 _ _

theorem nextChar (c : Chip) (l : LineNo) (hL : c.Legal) : (Chip.nextChar c l).Legal := by
  unfold Chip.nextChar
  try dsimp only
  repeat' (first | assumption | with_reducible (first | apply sendChars) | intro _ | split)

theorem startDialling (c : Chip) (l : LineNo) (hL : c.Legal) : (Chip.startDialling c l).Legal := by
  unfold Chip.startDialling
  try dsimp only
  repeat' (first | assumption | with_reducible (first | apply sendChars | apply modCall) | intro _ | split)

theorem dataTold (c : Chip) (e : EngineNo) (t : Told) (hL : c.Legal) : (Chip.dataTold c e t).Legal := by
  unfold Chip.dataTold
  try dsimp only
  repeat' (first
    | assumption
    | with_reducible (first
      | apply modCall | apply pump | apply modUnit | apply release)
    | intro _
    | split)

theorem receiveTold (c : Chip) (l : LineNo) (j : FaxJob) (t : Told) (hL : c.Legal) : (Chip.receiveTold c l j t).Legal := by
  unfold Chip.receiveTold
  try dsimp only
  repeat' (first
    | assumption
    | with_reducible (first
      | apply sendBye | apply endPage | apply modFax | apply beginPage | apply passStrip)
    | intro _
    | split)

theorem copyRate (c : Chip) (l : LineNo) (t : Told) (hL : c.Legal) : (Chip.copyRate c l t).Legal := by
  unfold Chip.copyRate
  split <;> exact hL

theorem faxTold (c : Chip) (l : LineNo) (t : Told) (hL : c.Legal) : (Chip.faxTold c l t).Legal := by
  unfold Chip.faxTold
  try dsimp only
  repeat' (first
    | assumption
    | with_reducible (first
      | apply sendBye | apply receiveTold | apply sendTrainFailed | apply sendTrained | apply copyRate)
    | intro _
    | split)

theorem tell (r : Chip × Told) (e : EngineNo) (hr : r.1.Legal) : (Chip.tell r e).Legal := by
  unfold Chip.tell
  try dsimp only
  repeat' (first | assumption | with_reducible (first | apply faxTold | apply dataTold) | intro _ | split)

theorem closeFax (c : Chip) (l : LineNo) (n : FaxEnd) (hL : c.Legal) : (Chip.closeFax c l n).Legal := by
  unfold Chip.closeFax
  try dsimp only
  repeat' (first
    | assumption
    | with_reducible (first
      | apply settlePage | apply modFax | apply release | apply endLong)
    | intro _
    | split)

theorem faxEnds (c : Chip) (l : LineNo) (n : FaxEnd) (hL : c.Legal) : (Chip.faxEnds c l n).Legal := by
  unfold Chip.faxEnds
  try dsimp only
  repeat' (first | assumption | with_reducible (first | apply detachEnds | apply closeFax) | intro _ | split)

theorem judgeWrite (c : Chip) (f : Option Frame) (hL : c.Legal) : (Chip.judgeWrite c f).Legal := by
  unfold Chip.judgeWrite
  try dsimp only
  repeat' (first | assumption | with_reducible (first | apply takeEmpties | refine modLink ?_ rfl) | intro _ | split)

theorem start_books : legalStore (Vector.replicate 128 {}) (List.range 8192) (Vector.replicate 8 {}) defaultMailboxes := by
  have hobj : ∀ i : SlotNo, ((Vector.replicate 128 ({} : Slot))[i]).obj = none := fun i => by simp
  have hb : ∀ i : SlotNo, boundTo (Vector.replicate 8 {}) i = 0 := fun i => by
    simp [boundTo, Vector.toList_replicate]
  refine ⟨?_, fun i => ⟨fun o ho => by rw [hobj i] at ho; contradiction, fun _ => hb i⟩, fun m => ?_⟩
  · unfold conserved
    have e : (Vector.replicate 128 ({} : Slot)).toList.flatMap Slot.blocks = [] := by
      rw [Vector.toList_replicate, List.flatMap_eq_nil_iff]
      intro x hx
      rw [List.eq_of_mem_replicate hx]
      rfl
    rw [e, List.append_nil]
  · have : (defaultMailboxes[m]).list = [] ∧ (defaultMailboxes[m]).used = 0 ∧ (defaultMailboxes[m]).newCount = 0 := by
      simp only [Fin.getElem_fin]
      unfold defaultMailboxes
      rw [Vector.getElem_set]
      split <;> simp
    refine ⟨by rw [this.1]; exact List.nodup_nil, fun h hh => ?_, ?_, ?_⟩
    · rw [this.1] at hh; contradiction
    · rw [this.1, this.2.1]; rfl
    · rw [this.1, this.2.2]; rfl

theorem start : ({} : Chip).Legal := by
  have hb : ({} : Store).slots = Vector.replicate 128 {} ∧ ({} : Store).free = List.range 8192 := ⟨by dsimp only, by dsimp only⟩
  refine ⟨⟨rfl, ?_, ?_, ?_, ?_, ?_, by decide, by decide, by decide⟩, by rw [hb.1, hb.2]; exact start_books⟩
  · intro i
    simp [legalSet]
  · intro l
    simp [Line.Legal]
  · intro m
    simp only [Fin.getElem_fin]
    show Mailbox.Legal defaultMailboxes[m.val]
    unfold defaultMailboxes
    rw [Vector.getElem_set]
    split <;> simp [Mailbox.Legal]
  · intro l n h
    simp at h
  · simp [LinkOptions.Legal]

theorem criticalArises (c : Chip) (l : LineNo) (hL : c.Legal) : (c.criticalArises l).Legal := by
  have ht : (c.lines[l]).settings.coolOff ≤ 60 := by
    have := hL.lines l
    unfold Line.Legal at this
    omega
  unfold Chip.criticalArises
  dsimp only
  split
  · exact forcedRelease _ _ _ _ (arise _ _ _ _ hL) ht
  · exact arise _ _ _ _ hL

theorem beginLine (c : Chip) (l : LineNo) (x : LineSense) (hL : c.Legal) : (Chip.beginLine c l x).Legal := by
  unfold Chip.beginLine
  try dsimp only
  repeat' (first
    | assumption
    | with_reducible (first
      | apply arise | apply criticalArises | (refine modLine ?_ id) | (refine modLine ?_ ?_))
    | intro _
    | split)

theorem closeSession (c : Chip) (l : LineNo) (e : EngineNo) (hL : c.Legal) : (Chip.closeSession c l e).Legal := by
  unfold Chip.closeSession
  try dsimp only
  repeat' (first
    | assumption
    | with_reducible (first
      | apply finishData)
    | intro _
    | split)

theorem closeRecordings (c : Chip) (l : LineNo) (hL : c.Legal) : (c.closeRecordings l).Legal := by
  unfold Chip.closeRecordings
  extract_lets c1
  have h1 : c1.Legal := by
    show Chip.Legal (match (c.seqs[l]).recording with | some r => _ | none => _)
    split
    · exact closePlanRecording _ _ _ (stopDrained _ _ hL)
    · exact hL
  clear_value c1
  split
  · exact closeRecord _ _ (stopDrained _ _ h1)
  · exact h1

theorem closeFaxPage (c : Chip) (l : LineNo) (hL : c.Legal) : (Chip.closeFaxPage c l).Legal := by
  unfold Chip.closeFaxPage
  try dsimp only
  repeat' (first
    | assumption
    | with_reducible (first
      | apply closePage)
    | intro _
    | split)

theorem closeOut (c : Chip) (l : LineNo) (hL : c.Legal) : (c.closeOut l).Legal :=
  closeFaxPage _ _ (closeRecordings _ _ (closeSession _ _ _ (closeSession _ _ _ hL)))

theorem resetLine (c : Chip) (l : LineNo) (hL : c.Legal) : (c.resetLine l).Legal := by
  unfold Chip.resetLine
  refine modLine (hangUp _ _ hL) (fun hn => ?_)
  unfold Line.Legal Line.afterReset at *
  dsimp only
  omega

theorem endCalls (c : Chip) (hL : c.Legal) : c.endCalls.Legal := by
  have h : ((c.releaseEngine 0 true).releaseEngine 1 true).Legal := releaseEngine _ _ _ (releaseEngine _ _ _ hL)
  unfold Chip.endCalls
  generalize (c.releaseEngine 0 true).releaseEngine 1 true = x at h ⊢
  exact h

theorem resetChannels (c : Chip) (hL : c.Legal) : c.resetChannels.Legal := by
  have h : ((List.finRange 8).foldl Chip.unbindChan c).Legal := foldl Chip.unbindChan (fun c i h => unbindChan c i h)
      (List.finRange 8) c hL
  unfold Chip.resetChannels
  generalize (List.finRange 8).foldl Chip.unbindChan c = x at h ⊢
  exact h

theorem resetLink (c : Chip) (hL : c.Legal) : c.resetLink.Legal :=
  modLinkSets hL (fun _ i => by simp [legalSet])

theorem announced (c : Chip) (hL : c.Legal) :
    (({ c with resetCause := .soft } : Chip).noteDev .ready ({ c with resetCause := .soft } : Chip).readyDetail).Legal :=
  noteDev (c := { c with resetCause := .soft }) hL _ _

theorem deviceReset (c : Chip) (hL : c.Legal) : c.deviceReset.Legal := by
  unfold Chip.deviceReset
  extract_lets c1 c2 c3 c4
  have h1 : c1.Legal := closeOut _ _ (closeOut _ _ (closeOut _ _ (closeOut _ _ hL)))
  clear_value c1
  have h2 : c2.Legal := endCalls _ (resetChannels _ h1)
  clear_value c2
  have h3 : c3.Legal := resetLine _ _ (resetLine _ _ (resetLine _ _ (resetLine _ _ h2)))
  clear_value c3
  exact announced c3.resetLink (resetLink _ h3)

theorem replyRead (c : Chip) (tag : Byte) (cls : Cls) (reason : Reason) (sent : Nat) (unread : Bool) (hL : c.Legal) :
    (Chip.replyRead c tag cls reason sent unread).Legal := by
  unfold Chip.replyRead
  try dsimp only
  repeat' (first | assumption | with_reducible (first | refine modLink ?_ rfl) | intro _ | split)

theorem markRead (c : Chip) (i : SlotNo) (hL : c.Legal) : (c.modObj i Obj.markRead).Legal := by
  refine hL.modObj (fun o _ => ?_)
  refine ⟨rfl, rfl, id, ?_⟩
  cases ha : o.attr with
  | page a => exact Or.inr (fun z => by have := z.2; unfold Obj.isMessage at this; rw [ha] at this; contradiction)
  | _ => exact Or.inl (by simp [Obj.face, Obj.markRead, ha])

theorem readDone (c : Chip) (q : ReadReq) (hL : c.Legal) : (Chip.readDone c q).Legal := by
  unfold Chip.readDone
  try dsimp only
  repeat' (first | assumption | with_reducible (first | apply markRead | apply replyRead | apply unbindChan) | intro _ | split)

theorem readAbort (c : Chip) (q : ReadReq) (hL : c.Legal) : (Chip.readAbort c q).Legal := by
  unfold Chip.readAbort
  try dsimp only
  repeat' (first
    | assumption
    | with_reducible (first
      | apply replyRead | apply unbindChan | apply stopChan)
    | intro _
    | split)

theorem bindLink_eq (c : Chip) (i : SlotNo) (d : ChanDir) (base : Nat) (count : Nat) (m : Mode) {r} {y} (hL : c.Legal)
    (hE : Chip.bindLink c i d base count m = some (r, y)) : r.Legal := by
  unfold Chip.bindLink at hE
  try dsimp only at hE
  repeat' (split at hE)
  all_goals first | contradiction | skip
  all_goals (try injection hE with hE)
  all_goals (try first | (injection hE with e1 e2; subst e1) | subst hE)
  all_goals repeat' (first
    | assumption
    | with_reducible (first
      | (apply bind_eq; rotate_left; assumption) | apply startChan)
    | intro _
    | split)

theorem replyWrite (c : Chip) (tag : Byte) (cls : Cls) (reason : Reason) (written : Nat) (surplus : Nat)
    (x : CloseOutcome) (hL : c.Legal) : (Chip.replyWrite c tag cls reason written surplus x).Legal := by
  unfold Chip.replyWrite
  try dsimp only
  repeat' (first | assumption | with_reducible (first | refine modLink ?_ rfl) | intro _ | split)

theorem writeDone (c : Chip) (q : WriteReq) (surplus : Nat) (hL : c.Legal) : (Chip.writeDone c q surplus).Legal := by
  unfold Chip.writeDone
  try dsimp only
  repeat' (first
    | assumption
    | with_reducible (first
      | apply closeObj | (apply closeObj_eq; rotate_left; assumption) | apply replyWrite | apply unbindChan)
    | intro _
    | split)

theorem writeAbort (c : Chip) (q : WriteReq) (reason : Reason) (hL : c.Legal) : (Chip.writeAbort c q reason).Legal := by
  unfold Chip.writeAbort
  try dsimp only
  repeat' (first
    | assumption
    | with_reducible (first
      | apply replyWrite | apply unbindChan | apply stopChan)
    | intro _
    | split)

theorem abortRead (c : Chip) (hL : c.Legal) : (Chip.abortRead c).1.Legal := by
  unfold Chip.abortRead
  try dsimp only
  repeat' (first | assumption | with_reducible (first | apply readAbort) | intro _ | split)

theorem abortRead_eq (c : Chip) {r} {y} (hL : c.Legal) (hE : Chip.abortRead c = (r, y)) : r.Legal := by
  have := abortRead c hL
  rwa [hE] at this

theorem abortWrite (c : Chip) (hL : c.Legal) : (Chip.abortWrite c).1.Legal := by
  unfold Chip.abortWrite
  try dsimp only
  repeat' (first | assumption | with_reducible (first | apply writeAbort) | intro _ | split)

theorem abortWrite_eq (c : Chip) {r} {y} (hL : c.Legal) (hE : Chip.abortWrite c = (r, y)) : r.Legal := by
  have := abortWrite c hL
  rwa [hE] at this

theorem takeFor_eq (c : Chip) (l : LineNo) (p : Purpose) (side : Side) {r} {y} (hL : c.Legal)
    (hE : Chip.takeFor c l p side = .ok (r, y)) : r.Legal := by
  unfold Chip.takeFor at hE
  try dsimp only at hE
  repeat' (split at hE)
  all_goals first | contradiction | skip
  all_goals (try injection hE with hE)
  all_goals (try first | (injection hE with e1 e2; subst e1) | subst hE)
  all_goals repeat' (first
    | assumption
    | with_reducible (first
      | (apply takeData_eq; rotate_left; assumption) | (apply claim_eq; rotate_left; assumption))
    | intro _
    | split)

theorem seizeDial (c : Chip) (l : LineNo) (tag : Byte) (p : Purpose) (ds : List Byte) (pages : List Nat)
    (e : Option EngineNo) (hL : c.Legal) : (Chip.seizeDial c l tag p ds pages e).Legal := by
  unfold Chip.seizeDial
  try dsimp only
  repeat' (first
    | assumption
    | with_reducible (first
      | apply modCall | (refine modLine ?_ id) | (refine modLine ?_ ?_))
    | intro _
    | split)

theorem answerFor (c : Chip) (r : Request) (l : LineNo) (p : Purpose) (hL : c.Legal) : (Chip.answerFor c r l p).Legal := by
  unfold Chip.answerFor
  try dsimp only
  repeat' (first
    | assumption
    | with_reducible (first
      | (apply takeFor_eq; rotate_left; assumption) | apply refuse | apply seizeAnswer)
    | intro _
    | split)

theorem answerPlan (c : Chip) (r : Request) (l : LineNo) (hL : c.Legal) : (Chip.answerPlan c r l).Legal := by
  unfold Chip.answerPlan
  try dsimp only
  repeat' (first
    | assumption
    | with_reducible (first
      | (apply planStart_eq; rotate_left; assumption) | apply refuse | apply modCall)
    | intro _
    | split)

theorem abortPlay (c : Chip) (l : LineNo) (i : ChanNo) (hL : c.Legal) : (Chip.abortPlay c l i).Legal := by
  unfold Chip.abortPlay
  try dsimp only
  repeat' (first | assumption | with_reducible (first | apply endLong | apply modCall | apply stopRetire) | intro _ | split)

theorem abortRecord (c : Chip) (l : LineNo) (hL : c.Legal) : (Chip.abortRecord c l).Legal := by
  unfold Chip.abortRecord
  try dsimp only
  repeat' (first
    | assumption
    | with_reducible (first
      | apply stopRecord | (apply stopRecord_eq; rotate_left; assumption) | apply endLong | apply modCall)
    | intro _
    | split)

theorem abortDigits (c : Chip) (l : LineNo) (hL : c.Legal) : (Chip.abortDigits c l).Legal := by
  unfold Chip.abortDigits
  try dsimp only
  repeat' (first | assumption | with_reducible (first | apply endLong | apply modCall) | intro _ | split)

theorem abortLong (c : Chip) (l : LineNo) (g : Long) (hL : c.Legal) : (Chip.abortLong c l g).1.Legal := by
  unfold Chip.abortLong
  try dsimp only
  repeat' (first
    | assumption
    | with_reducible (first
      | apply abortPlay | apply abortRecord | apply abortDigits | apply modFax | apply release)
    | intro _
    | split)

theorem abortLong_eq (c : Chip) (l : LineNo) (g : Long) {r} {y} (hL : c.Legal) (hE : Chip.abortLong c l g = (r, y)) :
    r.Legal := by
  have := abortLong c l g hL
  rwa [hE] at this

theorem takeOver (c : Chip) (l : LineNo) (hL : c.Legal) : (Chip.takeOver c l).Legal := by
  unfold Chip.takeOver
  try dsimp only
  repeat' (first
    | assumption
    | with_reducible (first
      | apply modCall | apply endSequence | apply stopSequence)
    | intro _
    | split)

theorem startRecord (c : Chip) (r : Request) (l : LineNo) (maxLen : Nat) (silenceEnd : Nat) (hL : c.Legal) :
    (Chip.startRecord c r l maxLen silenceEnd).Legal := by
  unfold Chip.startRecord
  try dsimp only
  repeat' (first
    | assumption
    | with_reducible (first
      | (apply createObj_eq; rotate_left; assumption) | apply refuse | (apply bindCodec_eq; rotate_left; assumption)
      | apply modCall)
    | intro _
    | split)

theorem planOf_auto {auto : Option Nat} {k x : Byte} {p : AnswerPlan} (h : walkPlan.planOf auto k x = some p) :
    p.auto = auto := by
  unfold walkPlan.planOf at h
  repeat' (split at h)
  all_goals first | contradiction | (injection h with h; subst h; rfl)

theorem mapM_length {f : Byte → Option (Fin 10)} : ∀ (bs : List Byte)
    {ds : List (Fin 10)}, bs.mapM f = some ds → ds.length = bs.length := by
  intro bs
  induction bs with
  | nil => intro ds h; simp at h; simp [h]
  | cons b bs ih =>
    intro ds h
    rw [List.mapM_cons] at h
    cases hb : f b with
    | none => simp [hb] at h
    | some d =>
      cases hm : bs.mapM f with
      | none => simp [hb, hm] at h
      | some es =>
        simp [hb, hm] at h
        subst h
        simp [ih hm]

theorem codeOf_length {bs : List Byte} {code : Option (List (Fin 10))} (h : codeOf bs = some code) {ds : List (Fin 10)}
    (hd : ds ∈ code) : ds.length = 4 := by
  unfold codeOf at h
  split at h
  · injection h with h; subst h; contradiction
  · split at h
    · next h4 =>
      obtain ⟨x, hx, he⟩ := Option.map_eq_some_iff.mp h
      subst he
      simp only [Option.mem_def, Option.some.injEq] at hd
      subst hd
      rw [mapM_length _ hx, h4]
    · contradiction

theorem setGreeting (c : Chip) (r : Request) (m : Byte) (g : Option Nat) (hL : c.Legal) :
    (Chip.setGreeting c r m g).Legal := by
  unfold Chip.setGreeting
  try dsimp only
  repeat' (first
    | assumption
    | with_reducible (first
      | apply normal | apply refuse | (refine modMailbox ?_ id) | (refine modMailbox ?_ ?_))
    | intro _
    | split)

theorem tellLink (c : Chip) (d : ChanDir) (e : XferEnd) (surplus : Nat) (hL : c.Legal) :
    (Chip.tellLink c d e surplus).Legal := by
  unfold Chip.tellLink
  try dsimp only
  repeat' (first
    | assumption
    | with_reducible (first
      | apply readDone | apply writeAbort | apply writeDone)
    | intro _
    | split)

theorem tellRecording (c : Chip) (l : LineNo) (e : XferEnd) (grew : Bool) (hL : c.Legal) :
    (Chip.tellRecording c l e grew).Legal := by
  unfold Chip.tellRecording
  try dsimp only
  repeat' (first | assumption | with_reducible (first | apply quotaCheck | apply planRecordingDone) | intro _ | split)

theorem tellRecord (c : Chip) (l : LineNo) (e : XferEnd) (hL : c.Legal) : (Chip.tellRecord c l e).Legal := by
  unfold Chip.tellRecord
  try dsimp only
  repeat' (first | assumption | with_reducible (first | apply recordDone) | intro _ | split)

theorem tellOwner (c : Chip) (ch : Chan) (e : XferEnd) (surplus : Nat) (grew : Bool) (hL : c.Legal) :
    (Chip.tellOwner c ch e surplus grew).Legal := by
  unfold Chip.tellOwner
  try dsimp only
  repeat' (first
    | assumption
    | with_reducible (first
      | apply tellLink | apply tellRecording | apply tellRecord | apply faxStoreFull)
    | intro _
    | split)

theorem chanXfer (c : Chip) (i : ChanNo) (hL : c.Legal) : (Chip.chanXfer c i).Legal := by
  unfold Chip.chanXfer
  try dsimp only
  repeat' (first
    | assumption
    | with_reducible (first
      | apply transfer | (apply transfer_eq; rotate_left; assumption) | apply tellOwner | apply keepPort | apply giveUp)
    | intro _
    | split)

theorem portXfer (c : Chip) (hL : c.Legal) : (Chip.portXfer c).Legal := by
  unfold Chip.portXfer
  try dsimp only
  repeat' (first
    | assumption
    | with_reducible (first
      | apply chanXfer | apply pump | apply giveUp | apply ringXfer | apply linkXfer)
    | intro _
    | split)

theorem needByte (c : Chip) (i : ChanNo) (hL : c.Legal) : (Chip.needByte c i).Legal := by
  unfold Chip.needByte
  try dsimp only
  repeat' (first | assumption | with_reducible (first | apply slip | apply modBuf) | intro _ | split)

theorem codecConsume (c : Chip) (l : LineNo) (i : ChanNo) (hL : c.Legal) : (Chip.codecConsume c l i).Legal := by
  unfold Chip.codecConsume
  try dsimp only
  repeat' (first | assumption | with_reducible (first | apply modCodec | apply needByte) | intro _ | split)

theorem engineConsume (c : Chip) (l : LineNo) (i : ChanNo) (hL : c.Legal) : (Chip.engineConsume c l i).Legal := by
  unfold Chip.engineConsume
  try dsimp only
  repeat' (first | assumption | with_reducible (first | apply needByte | apply runByte | apply modEpath | apply modFax) | intro _ | split)

theorem produce (c : Chip) (i : ChanNo) (b : Byte) (hL : c.Legal) : (Chip.produce c i b).Legal := by
  unfold Chip.produce
  try dsimp only
  repeat' (first | assumption | with_reducible (first | apply modBuf | apply slip) | intro _ | split)

theorem playDone (c : Chip) (l : LineNo) (i : ChanNo) (hL : c.Legal) : (Chip.playDone c l i).Legal := by
  unfold Chip.playDone
  try dsimp only
  repeat' (first | assumption | with_reducible (first | apply endNormal | apply modCall | apply retire) | intro _ | split)

theorem tellDrained (c : Chip) (i : ChanNo) (hL : c.Legal) : (Chip.tellDrained c i).Legal := by
  unfold Chip.tellDrained
  try dsimp only
  repeat' (first
    | assumption
    | with_reducible (first
      | apply playDone | apply greetingEnd | apply reviewPlayed)
    | intro _
    | split)

theorem switchGreeting (c : Chip) (l : LineNo) (n : Nat) (hL : c.Legal) : (Chip.switchGreeting c l n).Legal := by
  unfold Chip.switchGreeting
  try dsimp only
  repeat' (first
    | assumption
    | with_reducible (first
      | apply modSeq | apply beginGreeting | apply cutGreeting)
    | intro _
    | split)

theorem retrieve (c : Chip) (l : LineNo) (n : Nat) (hL : c.Legal) : (Chip.retrieve c l n).Legal := by
  unfold Chip.retrieve
  try dsimp only
  repeat' (first
    | assumption
    | with_reducible (first
      | apply modSeq | apply enterAccess | apply tellGreetingEnd | apply cutGreeting)
    | intro _
    | split)

theorem openingDigit (c : Chip) (l : LineNo) (d : Dtmf) (hL : c.Legal) : (Chip.openingDigit c l d).Legal := by
  unfold Chip.openingDigit
  try dsimp only
  repeat' (first
    | assumption
    | with_reducible (first
      | apply modSeq | apply greetingEnd | apply switchGreeting | apply retrieve)
    | intro _
    | split)

theorem greetingDigit (c : Chip) (l : LineNo) (d : Dtmf) (hL : c.Legal) : (Chip.greetingDigit c l d).Legal :=
  modSeq (openingDigit c l d hL) l PlanSeq.prefixStart

theorem compareCode (c : Chip) (l : LineNo) (ds : List (Fin 10)) (hL : c.Legal) : (Chip.compareCode c l ds).Legal := by
  unfold Chip.compareCode
  try dsimp only
  repeat' (first
    | assumption
    | with_reducible (first
      | apply enterReview | apply noteAccess | apply wrongCode)
    | intro _
    | split)

theorem accessDigit (c : Chip) (l : LineNo) (d : Dtmf) (hL : c.Legal) : (Chip.accessDigit c l d).Legal := by
  unfold Chip.accessDigit
  try dsimp only
  repeat' (first | assumption | with_reducible (first | apply compareCode | apply modSeq) | intro _ | split)

theorem reviewSpeed (c : Chip) (l : LineNo) (v : Nat) (hL : c.Legal) : (Chip.reviewSpeed c l v).Legal := by
  unfold Chip.reviewSpeed
  try dsimp only
  repeat' (first | assumption | with_reducible (first | apply modSeq | apply modCodec) | intro _ | split)

theorem reviewDelete (c : Chip) (l : LineNo) (hL : c.Legal) : (Chip.reviewDelete c l).Legal := by
  unfold Chip.reviewDelete
  try dsimp only
  repeat' (first
    | assumption
    | with_reducible (first
      | apply reviewTone | apply playEntry | apply deleteHandle | apply cutPlay)
    | intro _
    | split)

theorem reviewKeep (c : Chip) (l : LineNo) (hL : c.Legal) : (Chip.reviewKeep c l).Legal := by
  unfold Chip.reviewKeep
  try dsimp only
  repeat' (first | assumption | with_reducible (first | apply setStatus) | intro _ | split)

theorem reviewNext (c : Chip) (l : LineNo) (hL : c.Legal) : (Chip.reviewNext c l).Legal := by
  unfold Chip.reviewNext
  try dsimp only
  repeat' (first | assumption | with_reducible (first | apply playEntry | apply modSeq | apply cutPlay) | intro _ | split)

theorem reviewAct (c : Chip) (l : LineNo) (d : Dtmf) (hL : c.Legal) : (Chip.reviewAct c l d).Legal := by
  unfold Chip.reviewAct
  try dsimp only
  repeat' (first
    | assumption
    | with_reducible (first
      | apply playEntry | apply cutPlay | apply reviewDelete | apply reviewKeep | apply reviewNext | apply reviewSpeed
      | apply enterClosing)
    | intro _
    | split)

theorem reviewDigit (c : Chip) (l : LineNo) (d : Dtmf) (hL : c.Legal) : (Chip.reviewDigit c l d).Legal :=
  reviewAct _ l d (modSeq hL l PlanSeq.idleStart)

theorem voiceDigit (c : Chip) (l : LineNo) (d : Dtmf) (hL : c.Legal) : (Chip.voiceDigit c l d).Legal := by
  unfold Chip.voiceDigit
  try dsimp only
  repeat' (first
    | assumption
    | with_reducible (first
      | apply greetingDigit | apply endPlanRecording | apply accessDigit | apply reviewDigit)
    | intro _
    | split)

theorem voiceHangUp (c : Chip) (l : LineNo) (hL : c.Legal) : (Chip.voiceHangUp c l).Legal := by
  unfold Chip.voiceHangUp
  try dsimp only
  repeat' (first
    | assumption
    | with_reducible (first
      | apply release | apply endSequence | apply stopSequence)
    | intro _
    | split)

theorem suspendPlan (c : Chip) (l : LineNo) (hL : c.Legal) : (Chip.suspendPlan c l).Legal := by
  unfold Chip.suspendPlan
  try dsimp only
  repeat' (first | assumption | with_reducible (first | apply modSeq | apply stopSequence) | intro _ | split)

theorem continuePlan (c : Chip) (l : LineNo) (hL : c.Legal) : (Chip.continuePlan c l).Legal := by
  unfold Chip.continuePlan
  try dsimp only
  repeat' (first | assumption | with_reducible (first | apply enterTone) | intro _ | split)

theorem supervised {s t : State} (h : s.chip.Legal) {f : Chip → Chip} (hf : ∀ c : Chip, c.Legal → (f c).Legal)
    (e : Machine.supervised s f = .next t) : t.chip.Legal := by
  unfold Machine.supervised at e
  refine effect h (fun c h => ?_) e
  split
  · exact hf c h
  · exact h

theorem loopTold (c : Chip) (l : LineNo) (hL : c.Legal) : (Chip.loopTold c l).Legal := by
  unfold Chip.loopTold
  try dsimp only
  repeat' (first | assumption | with_reducible (first | apply modCall | apply answerLoop) | intro _ | split)

theorem interruptionTold (c : Chip) (l : LineNo) (hL : c.Legal) : (Chip.interruptionTold c l).Legal := by
  unfold Chip.interruptionTold
  try dsimp only
  repeat' (first | assumption | with_reducible (first | apply release | apply voiceHangUp) | intro _ | split)

theorem voltagePresent (c : Chip) (l : LineNo) (hL : c.Legal) : (Chip.voltagePresent c l).Legal := by
  unfold Chip.voltagePresent
  try dsimp only
  repeat' (first
    | assumption
    | with_reducible (first
      | apply goes | (refine modLine ?_ id) | (refine modLine ?_ ?_))
    | intro _
    | split)

theorem ringTaken (c : Chip) (l : LineNo) (hL : c.Legal) : (c.ringTaken l).Legal := by
  unfold Chip.ringTaken
  exact modLine hL id

theorem ringTold (c : Chip) (l : LineNo) (hL : c.Legal) : (Chip.ringTold c l).Legal := by
  unfold Chip.ringTold
  try dsimp only
  repeat' (first
    | assumption
    | with_reducible (first | apply consultPlan | apply modCall | apply ringTaken)
    | intro _
    | split)

theorem countedRing (c : Chip) (l : LineNo) (hL : c.Legal) : (c.countedRing l).Legal := by
  unfold Chip.countedRing
  exact note (ringTold _ _ (modLine hL (fun hn => by unfold Line.Legal at *; dsimp only; omega))) _ _ _

theorem abandonRing (c : Chip) (l : LineNo) (hL : c.Legal) : (c.abandonRing l).Legal := by
  unfold Chip.abandonRing
  have h1 := modLine (note hL l .ringStopped (c.ringDetail l)) (l := l) (f := fun n => { n with
    burst := .quiet, abandon := .off, window := false, ringCount := 0, ringTaken := false, caller := .absent })
    (fun hn => by unfold Line.Legal at *; dsimp only; omega)
  dsimp only
  split
  · exact enterIdle _ _ h1
  · exact h1

theorem temperature (c : Chip) (l : LineNo) (t : Int) (hL : c.Legal) : (Chip.temperature c l t).Legal := by
  unfold Chip.temperature
  try dsimp only
  repeat' (first | assumption | with_reducible (first | apply arise | apply criticalArises | apply goes) | intro _ | split)

theorem countCycle (c : Chip) (l : LineNo) (y : Cycle) (hL : c.Legal) : (Chip.countCycle c l y).Legal := by
  unfold Chip.countCycle
  try dsimp only
  repeat' (first | assumption | with_reducible (first | apply modCall | apply release) | intro _ | split)

theorem hostDigit (c : Chip) (l : LineNo) (d : Dtmf) (hL : c.Legal) : (Chip.hostDigit c l d).Legal := by
  unfold Chip.hostDigit
  try dsimp only
  repeat' (first | assumption | with_reducible (first | apply modCall | apply note) | intro _ | split)

theorem missMachine (c : Chip) (l : LineNo) (hL : c.Legal) : (Chip.missMachine c l).Legal := by
  unfold Chip.missMachine
  try dsimp only
  repeat' (first | assumption | with_reducible (first | apply continuePlan | apply modCall) | intro _ | split)

theorem turnFax (c : Chip) (l : LineNo) (hL : c.Legal) : (Chip.turnFax c l).Legal := by
  unfold Chip.turnFax
  try dsimp only
  repeat' (first
    | assumption
    | with_reducible (first
      | apply suspendPlan | (apply takeFax_eq; rotate_left; assumption) | apply startFax | apply modCall
      | apply endSequence | apply missMachine)
    | intro _
    | split)

theorem turnData (c : Chip) (l : LineNo) (hL : c.Legal) : (Chip.turnData c l).Legal := by
  unfold Chip.turnData
  try dsimp only
  repeat' (first
    | assumption
    | with_reducible (first
      | apply suspendPlan | (apply takeData_eq; rotate_left; assumption) | apply startData | apply modCall
      | apply endSequence | apply missMachine)
    | intro _
    | split)

theorem hearTraining (c : Chip) (e : EngineNo) (hL : c.Legal) : (Chip.hearTraining c e).Legal := by
  unfold Chip.hearTraining
  try dsimp only
  repeat' (first | assumption | with_reducible (first | apply modFax) | intro _ | split)

theorem settleTest (c : Chip) (e : EngineNo) (pass : Bool) (hL : c.Legal) : (Chip.settleTest c e pass).Legal := by
  unfold Chip.settleTest
  try dsimp only
  repeat' (first
    | assumption
    | with_reducible (first
      | apply tell | apply testResult | (apply testResult_eq; rotate_left; assumption))
    | intro _
    | split)

theorem judgeData (c : Chip) (e : EngineNo) (good : Bool) (far : Option Bool) (hL : c.Legal) :
    (Chip.judgeData c e good far).Legal := by
  unfold Chip.judgeData
  try dsimp only
  repeat' (first | assumption | with_reducible (first | apply settleTest | apply modEngine) | intro _ | split)

theorem judgeFax (c : Chip) (e : EngineNo) (good : Bool) (hL : c.Legal) : (Chip.judgeFax c e good).Legal := by
  unfold Chip.judgeFax
  try dsimp only
  repeat' (first | assumption | with_reducible (first | apply settleTest | apply faxSend | apply modEngine) | intro _ | split)

theorem endTest (c : Chip) (e : EngineNo) (wrong : Nat) (total : Nat) (far : Option Bool) (announced : Rate) (hL : c.Legal) :
    (Chip.endTest c e wrong total far announced).Legal := by
  unfold Chip.endTest
  try dsimp only
  repeat' (first
    | assumption
    | with_reducible (first
      | apply modEngine | apply judgeFax | apply judgeData | apply settleTest)
    | intro _
    | split)

theorem farRetrainData (c : Chip) (e : EngineNo) (d : RetrainDir) (hL : c.Legal) : (Chip.farRetrainData c e d).Legal := by
  unfold Chip.farRetrainData
  try dsimp only
  repeat' (first | assumption | with_reducible (first | apply modUnit | apply beginRetrain) | intro _ | split)

theorem farRetrainFax (c : Chip) (e : EngineNo) (hL : c.Legal) : (Chip.farRetrainFax c e).Legal := by
  unfold Chip.farRetrainFax
  try dsimp only
  repeat' (first
    | assumption
    | with_reducible (first
      | apply askRetrain | (apply askRetrain_eq; rotate_left; assumption) | apply modFax)
    | intro _
    | split)

theorem loseCarrier (c : Chip) (e : EngineNo) (hL : c.Legal) : (Chip.loseCarrier c e).Legal := by
  unfold Chip.loseCarrier
  try dsimp only
  repeat' (first | assumption | with_reducible (first | apply modEngine | apply release | apply sendBye) | intro _ | split)

theorem goodFrame {u : EngineNo} {s t : State} (h : s.chip.Legal) {f : Chip → Chip} (hf : ∀ c : Chip, c.Legal → (f c).Legal)
    (e : Machine.goodFrame u s f = .next t) : t.chip.Legal := by
  unfold Machine.goodFrame at e
  refine effect h (fun c h => ?_) e
  split
  · exact pump _ _ (hf _ (judgeFrame _ _ _ h))
  · exact h

theorem linkUp (c : Chip) (e : EngineNo) (w : Nat) (hL : c.Legal) : (Chip.linkUp c e w).Legal := by
  unfold Chip.linkUp
  try dsimp only
  repeat' (first | assumption | with_reducible (first | apply dataUp | apply modUnit) | intro _ | split)

theorem sayClosed (c : Chip) (e : EngineNo) (hL : c.Legal) : (Chip.sayClosed c e).Legal := by
  unfold Chip.sayClosed
  try dsimp only
  repeat' (first | assumption | with_reducible (first | apply modUnit) | intro _ | split)

theorem openingFails (c : Chip) (e : EngineNo) (hL : c.Legal) : (Chip.openingFails c e).Legal := by
  unfold Chip.openingFails
  try dsimp only
  repeat' (first | assumption | with_reducible (first | apply dataUp | apply modUnit | apply release) | intro _ | split)

theorem serve (c : Chip) (k : Fin 3) (hL : c.Legal) : (Chip.serve c k).Legal := by
  unfold Chip.serve
  try dsimp only
  repeat' (first | assumption | with_reducible (first | assumption) | intro _ | split)

theorem abortFax (c : Chip) (l : LineNo) (j : FaxJob) (hL : c.Legal) : (Chip.abortFax c l j).Legal := by
  unfold Chip.abortFax
  try dsimp only
  repeat' (first | assumption | with_reducible (first | apply sendBye | apply settleSent | apply endPage) | intro _ | split)

theorem takeCaps (c : Chip) (l : LineNo) (x : Remote) (hL : c.Legal) : (Chip.takeCaps c l x).Legal := by
  unfold Chip.takeCaps
  try dsimp only
  repeat' (first
    | assumption
    | with_reducible (first
      | apply pageTurn | apply modFax | apply sendSet | apply takeAnnounced | apply sendBye)
    | intro _
    | split)

theorem takeSet (c : Chip) (l : LineNo) (j : FaxJob) (mode : FaxMode) (r : Rate) (res : Resolution)
    (ident : Option (List Byte)) (hL : c.Legal) : (Chip.takeSet c l j mode r res ident).Legal := by
  unfold Chip.takeSet
  try dsimp only
  repeat' (first | assumption | with_reducible (first | apply startTraining | apply modFax) | intro _ | split)

theorem takeVerdict (c : Chip) (j : FaxJob) (r : Rate) (pass : Bool) (hL : c.Legal) :
    (Chip.takeVerdict c j r pass).Legal := by
  unfold Chip.takeVerdict
  try dsimp only
  repeat' (first | assumption | with_reducible (first | apply settleTest) | intro _ | split)

theorem takeMap (c : Chip) (l : LineNo) (j : FaxJob) (needed : Option (List Nat)) (hL : c.Legal) :
    (Chip.takeMap c l j needed).Legal := by
  unfold Chip.takeMap
  try dsimp only
  repeat' (first
    | assumption
    | with_reducible (first
      | apply modFax | apply judgeStrips | apply abortFax | apply startRound | apply roundsSpent)
    | intro _
    | split)

theorem sectionTaken (c : Chip) (l : LineNo) (j : FaxJob) (hL : c.Legal) : (Chip.sectionTaken c l j).Legal := by
  unfold Chip.sectionTaken
  try dsimp only
  repeat' (first
    | assumption
    | with_reducible (first
      | apply nextSection | apply modFax | apply judgeStrips)
    | intro _
    | split)

theorem afterTaken (c : Chip) (l : LineNo) (j : FaxJob) (partialFlag : Bool) (hL : c.Legal) :
    (Chip.afterTaken c l j partialFlag).Legal := by
  unfold Chip.afterTaken
  try dsimp only
  repeat' (first | assumption | with_reducible (first | apply sendBye | apply nextPage) | intro _ | split)

theorem pageTaken (c : Chip) (l : LineNo) (j : FaxJob) (partialFlag : Bool) (hL : c.Legal) :
    (Chip.pageTaken c l j partialFlag).Legal := by
  unfold Chip.pageTaken
  try dsimp only
  repeat' (first
    | assumption
    | with_reducible (first
      | apply unbindCur | apply judgeStrips | apply afterTaken | apply modFax | apply pageSent)
    | intro _
    | split)

theorem takeRetake (c : Chip) (l : LineNo) (j : FaxJob) (bad : Nat) (hL : c.Legal) : (Chip.takeRetake c l j bad).Legal := by
  unfold Chip.takeRetake
  try dsimp only
  repeat' (first
    | assumption
    | with_reducible (first
      | apply modFax | apply judgeStrips | apply abortFax | apply faxRetrain | apply startRound | apply sendBye
      | apply pageSent)
    | intro _
    | split)

theorem answerAgain (c : Chip) (l : LineNo) (j : FaxJob) (given : Option FaxMsg) (hL : c.Legal) : (Chip.answerAgain c l j given).Legal := by
  unfold Chip.answerAgain
  try dsimp only
  repeat' (first | assumption | with_reducible (first | apply faxSend | apply abortFax) | intro _ | split)

theorem pageEnds (c : Chip) (l : LineNo) (j : FaxJob) (page : Option Nat) (next : Chip → Chip) (hL : c.Legal)
    (hf : ∀ x : Chip, x.Legal → (next x).Legal) : (c.pageEnds l j page next).Legal := by
  unfold Chip.pageEnds
  split
  · exact abortFax _ _ _ hL
  · split
    · exact sendBye _ _ _ hL
    · split
      · exact hf _ (faxAnswer _ _ _ _ hL)
      · split
        · exact answerRetake _ _ _ _ hL
        · exact hf _ (faxAnswer _ _ _ _ (endPage _ _ _ hL))

theorem pageFollows (c : Chip) (l : LineNo) (pages : Nat) (page : Nat) (res : Resolution) (hL : c.Legal) :
    (Chip.pageFollows c l pages page res).Legal := by
  unfold Chip.pageFollows
  try dsimp only
  repeat' (first | assumption | with_reducible (first | apply sendBye | apply modFax | apply beginPage) | intro _ | split)

theorem farBye (c : Chip) (l : LineNo) (j : FaxJob) (hL : c.Legal) : (Chip.farBye c l j).Legal := by
  unfold Chip.farBye
  try dsimp only
  repeat' (first | assumption | with_reducible (first | apply faxSend | apply pageSent | apply faxEnds) | intro _ | split)

theorem sendAgain (c : Chip) (l : LineNo) (m : FaxMsg) (hL : c.Legal) : (Chip.sendAgain c l m).Legal := by
  unfold Chip.sendAgain
  try dsimp only
  repeat' (first | assumption | with_reducible (first | apply modFax) | intro _ | split)

theorem roundDone (c : Chip) (l : LineNo) (j : FaxJob) (hL : c.Legal) : (Chip.roundDone c l j).Legal := by
  unfold Chip.roundDone
  try dsimp only
  repeat' (first | assumption | with_reducible (first | apply holdChan | apply modFax | apply postPage) | intro _ | split)

theorem accessErrorEnds (c : Chip) (l : LineNo) (hL : c.Legal) : (Chip.accessErrorEnds c l).Legal := by
  unfold Chip.accessErrorEnds
  try dsimp only
  repeat' (first
    | assumption
    | with_reducible (first
      | apply release | apply endSequence | apply noteAccess | apply modSeq)
    | intro _
    | split)

theorem planInterval (c : Chip) (l : LineNo) (r : Recording) (level : Int) (tone : Bool) (hL : c.Legal) :
    (Chip.planInterval c l r level tone).Legal := by
  unfold Chip.planInterval
  try dsimp only
  repeat' (first | assumption | with_reducible (first | apply modSeq | apply endPlanRecording) | intro _ | split)

theorem recordInterval (c : Chip) (l : LineNo) (r : Recording) (level : Int) (tone : Bool) (hL : c.Legal) :
    (Chip.recordInterval c l r level tone).Legal := by
  unfold Chip.recordInterval
  try dsimp only
  repeat' (first | assumption | with_reducible (first | apply modCall | apply endRecord) | intro _ | split)

end Chip.Legal

end Sys2Proof.Machine
end

