-- ==== Sys2Proof/Laws/LegalCommands.lean ====
section
/-!
SUPPORT. Every command keeps the part legal (`Chip.Legal`): one lemma for each command's meaning.
-/
namespace Sys2Proof.Machine

namespace Chip.Legal

theorem of_execReadExchange (clocked : Nat) {s t : State} (h : s.chip.Legal)
    (e : Machine.execReadExchange clocked s = .next t) :
    t.chip.Legal := by
  unfold Machine.execReadExchange at e
  refine effect h (fun c h => ?_) e
  split
  · exact modLink h rfl
  · refine modLinkSets h (fun hk => ?_)
    dsimp only
    split
    · exact Link.Legal.headRead (k := { c.link with ldo := _ }) hk
    · exact hk

theorem of_execWriteExchange (bytes : List Byte) {s t : State} (h : s.chip.Legal)
    (e : Machine.execWriteExchange bytes s = .next t) : t.chip.Legal := by
  unfold Machine.execWriteExchange at e
  refine effect h (fun c h => ?_) e
  try dsimp only
  repeat' (first | assumption | with_reducible (first | apply judgeWrite | refine modLink ?_ rfl) | intro _ | split)

theorem of_execPowerOnReset {s t : State} (h : s.chip.Legal) (e : Machine.execPowerOnReset s = .next t) : t.chip.Legal := by
  unfold Machine.execPowerOnReset at e
  exact effect h (fun c _ => start) e

theorem of_execInitialisationEnd (s0 s1 s2 s3 : LineSense) {s t : State} (h : s.chip.Legal)
    (e : Machine.execInitialisationEnd s0 s1 s2 s3 s = .next t) : t.chip.Legal := by
  unfold Machine.execInitialisationEnd at e
  refine effect h (fun c h => ?_) e
  split
  · exact h
  · exact beginLine _ _ _ (beginLine _ _ _ (beginLine _ _ _ (beginLine _ _ _
      (show Chip.Legal _ from noteDev h .ready c.readyDetail))))

theorem of_execClockTick {s t : State} (h : s.chip.Legal) (e : Machine.execClockTick s = .next t) : t.chip.Legal := by
  unfold Machine.execClockTick at e
  refine effect h (fun c h => ?_) e
  split
  · refine ⟨⟨h.1.1, h.1.2.1, fun l => ?_, h.1.2.2.2⟩, h.2⟩
    have hl := h.1.2.2.1 l
    simp only [Fin.getElem_fin, Vector.getElem_ofFn] at hl ⊢
    unfold Line.Legal Line.second at *
    dsimp only
    split <;> omega
  · exact h

theorem of_execUnknownRequest {s t : State} (h : s.chip.Legal) (e : Machine.execUnknownRequest s = .next t) :
    t.chip.Legal := by
  unfold Machine.execUnknownRequest at e
  refine effect h (fun c h => ?_) e
  try dsimp only
  repeat' (first | assumption | with_reducible (first | apply dispatch | apply refuse) | intro _ | split)

theorem of_execGetStatus {s t : State} (h : s.chip.Legal) (e : Machine.execGetStatus s = .next t) : t.chip.Legal := by
  unfold Machine.execGetStatus at e
  refine effect h (fun c h => ?_) e
  try dsimp only
  repeat' (first | assumption | with_reducible (first | apply deviceRequest | apply walked | apply normal) | intro _ | split)

theorem of_execConfigureDevice {s t : State} (h : s.chip.Legal) (e : Machine.execConfigureDevice s = .next t) :
    t.chip.Legal := by
  unfold Machine.execConfigureDevice at e
  refine effect h (fun c h => deviceRequest h _ (fun c r h => walked h (fun x _ => ?_))) e
  dsimp only
  split
  · split
    · next hr =>
      refine normal (relow _ ?_) _ _
      obtain ⟨⟨h1, h2, h3, h4, h5, h6, h7, _, _⟩, hb⟩ := h
      exact ⟨⟨h1, h2, h3, h4, h5, h6, h7, hr.1, hr.2.1⟩, hb⟩
    · exact refuse h _ _
  · exact refuse h _ _

theorem of_execSetClock {s t : State} (h : s.chip.Legal) (e : Machine.execSetClock s = .next t) : t.chip.Legal := by
  unfold Machine.execSetClock at e
  refine effect h (fun c h => ?_) e
  try dsimp only
  repeat' (first | assumption | with_reducible (first | apply deviceRequest | apply walked | apply normal) | intro _ | split)

theorem of_execDeviceReset {s t : State} (h : s.chip.Legal) (e : Machine.execDeviceReset s = .next t) : t.chip.Legal := by
  unfold Machine.execDeviceReset at e
  exact effect h (fun c h => deviceRequest h _ (fun c r h => walked h (fun x _ => deviceReset c h))) e

theorem of_execCreateObject {s t : State} (h : s.chip.Legal) (e : Machine.execCreateObject s = .next t) : t.chip.Legal := by
  unfold Machine.execCreateObject at e
  refine effect h (fun c h => ?_) e
  try dsimp only
  repeat' (first
    | assumption
    | with_reducible (first
      | apply deviceRequest | apply walked | (apply createObj_eq; rotate_left; assumption) | apply normal | apply refuse)
    | intro _
    | split)

theorem of_execDeleteObject {s t : State} (h : s.chip.Legal) (e : Machine.execDeleteObject s = .next t) : t.chip.Legal := by
  unfold Machine.execDeleteObject at e
  refine effect h (fun c h => deviceRequest h _ (fun c r h => walked h (fun x _ => named h (fun i o ho => ?_)))) e
  have hd : (c.deleteObj i o).1.Legal := deleteObj c i o (lookup_obj ho).1 (lookup_obj ho).2 h
  split
  · exact refuse h _ _
  · split
    · next heq => rw [heq] at hd; exact normal hd _ _
    · next heq => rw [heq] at hd; exact normal hd _ _

theorem of_execGetObjectInfo {s t : State} (h : s.chip.Legal) (e : Machine.execGetObjectInfo s = .next t) : t.chip.Legal := by
  unfold Machine.execGetObjectInfo at e
  refine effect h (fun c h => ?_) e
  try dsimp only
  repeat' (first
    | assumption
    | with_reducible (first
      | apply deviceRequest | apply walked | apply named | apply normal)
    | intro _
    | split)

theorem of_execListObjects {s t : State} (h : s.chip.Legal) (e : Machine.execListObjects s = .next t) : t.chip.Legal := by
  unfold Machine.execListObjects at e
  refine effect h (fun c h => ?_) e
  try dsimp only
  repeat' (first
    | assumption
    | with_reducible (first
      | apply deviceRequest | apply walked | apply refuse | apply normal)
    | intro _
    | split)

theorem of_execReadObject {s t : State} (h : s.chip.Legal) (e : Machine.execReadObject s = .next t) : t.chip.Legal := by
  unfold Machine.execReadObject at e
  refine effect h (fun c h => deviceRequest h _ (fun c r h => walked h (fun x _ => named h (fun i o _ => ?_)))) e
  dsimp only
  repeat' (first | assumption | with_reducible (first | apply refuse | apply normal | apply refuse) | split)
  all_goals
    rename_i c' ch heq
    have h' : c'.Legal := bindLink_eq _ _ _ _ _ _ h heq
    exact h'

theorem of_execWriteObject {s t : State} (h : s.chip.Legal) (e : Machine.execWriteObject s = .next t) : t.chip.Legal := by
  unfold Machine.execWriteObject at e
  refine effect h (fun c h => deviceRequest h _ (fun c r h => walked h (fun x _ => named h (fun i o _ => ?_)))) e
  repeat' (first | assumption | with_reducible (first | apply refuse | apply normal | apply takeEmpties) | split)
  all_goals
    rename_i c' ch heq
    have h' : c'.Legal := bindLink_eq _ _ _ _ _ _ h heq
    exact h'

theorem of_execAbortDevice {s t : State} (h : s.chip.Legal) (e : Machine.execAbortDevice s = .next t) : t.chip.Legal := by
  unfold Machine.execAbortDevice at e
  refine effect h (fun c h => ?_) e
  try dsimp only
  repeat' (first
    | assumption
    | with_reducible (first
      | apply dispatch | apply walked | apply abortRead | (apply abortRead_eq; rotate_left; assumption) | apply abortWrite
      | (apply abortWrite_eq; rotate_left; assumption) | apply normal)
    | intro _
    | split)

theorem of_execGetLineStatus {s t : State} (h : s.chip.Legal) (e : Machine.execGetLineStatus s = .next t) : t.chip.Legal := by
  unfold Machine.execGetLineStatus at e
  refine effect h (fun c h => ?_) e
  try dsimp only
  repeat' (first | assumption | with_reducible (first | apply lineRequest | apply walked | apply normal) | intro _ | split)

theorem of_execSetLineSettings {s t : State} (h : s.chip.Legal) (e : Machine.execSetLineSettings s = .next t) :
    t.chip.Legal := by
  unfold Machine.execSetLineSettings at e
  refine effect h (fun c h => lineRequest h _ (fun c r l h => walked h (fun x hw => ?_))) e
  split
  · next g =>
    refine normal (modLine h (fun hn => ?_)) _ _
    unfold walkLineSettings at hw
    split at hw
    · split at hw
      · next hx =>
        injection hw with hw
        injection hw with hw
        subst hw
        simp only [within, Bool.and_eq_true, decide_eq_true_eq] at hx
        unfold Line.Legal at *
        dsimp only
        omega
      · injection hw with hw
        contradiction
    · contradiction
  · exact refuse h _ _

theorem of_execClearFaults {s t : State} (h : s.chip.Legal) (e : Machine.execClearFaults s = .next t) : t.chip.Legal := by
  unfold Machine.execClearFaults at e
  refine effect h (fun c h => ?_) e
  try dsimp only
  repeat' (first
    | assumption
    | with_reducible (first
      | apply lineRequest | apply walked | apply normal | apply refuse | (refine modLine ?_ id) | (refine modLine ?_ ?_))
    | intro _
    | split)

theorem of_execLineReset {s t : State} (h : s.chip.Legal) (e : Machine.execLineReset s = .next t) : t.chip.Legal := by
  unfold Machine.execLineReset at e
  refine effect h (fun c h => ?_) e
  try dsimp only
  repeat' (first
    | assumption
    | with_reducible (first
      | apply lineRequest | apply walked | apply refuse | apply lineReset)
    | intro _
    | split)

theorem of_execDial {s t : State} (h : s.chip.Legal) (e : Machine.execDial s = .next t) : t.chip.Legal := by
  unfold Machine.execDial at e
  refine effect h (fun c h => ?_) e
  try dsimp only
  repeat' (first
    | assumption
    | with_reducible (first
      | apply lineRequest | apply walked | apply refuse | (apply takeFor_eq; rotate_left; assumption) | apply seizeDial)
    | intro _
    | split)

theorem of_execAnswer {s t : State} (h : s.chip.Legal) (e : Machine.execAnswer s = .next t) : t.chip.Legal := by
  unfold Machine.execAnswer at e
  refine effect h (fun c h => ?_) e
  try dsimp only
  repeat' (first
    | assumption
    | with_reducible (first
      | apply lineRequest | apply walked | apply refuse | apply answerPlan | apply answerFor)
    | intro _
    | split)

theorem of_execHangUp {s t : State} (h : s.chip.Legal) (e : Machine.execHangUp s = .next t) : t.chip.Legal := by
  unfold Machine.execHangUp at e
  refine effect h (fun c h => ?_) e
  try dsimp only
  repeat' (first
    | assumption
    | with_reducible (first
      | apply lineRequest | apply walked | apply normal | apply modCall | apply release)
    | intro _
    | split)

theorem of_execAbort {s t : State} (h : s.chip.Legal) (e : Machine.execAbort s = .next t) : t.chip.Legal := by
  unfold Machine.execAbort at e
  refine effect h (fun c h => ?_) e
  try dsimp only
  repeat' (first
    | assumption
    | with_reducible (first
      | apply dispatch | apply refuse | apply walked | apply normal | apply abortLong
      | (apply abortLong_eq; rotate_left; assumption))
    | intro _
    | split)

theorem of_execTakeOver {s t : State} (h : s.chip.Legal) (e : Machine.execTakeOver s = .next t) : t.chip.Legal := by
  unfold Machine.execTakeOver at e
  refine effect h (fun c h => ?_) e
  try dsimp only
  repeat' (first
    | assumption
    | with_reducible (first
      | apply lineRequest | apply walked | apply normal | apply takeOver | apply refuse)
    | intro _
    | split)

theorem of_execPlay {s t : State} (h : s.chip.Legal) (e : Machine.execPlay s = .next t) : t.chip.Legal := by
  unfold Machine.execPlay at e
  refine effect h (fun c h => ?_) e
  try dsimp only
  repeat' (first
    | assumption
    | with_reducible (first
      | apply lineRequest | apply walked | apply refuse | apply named | (apply bindCodec_eq; rotate_left; assumption)
      | apply modCall)
    | intro _
    | split)

theorem of_execRecord {s t : State} (h : s.chip.Legal) (e : Machine.execRecord s = .next t) : t.chip.Legal := by
  unfold Machine.execRecord at e
  refine effect h (fun c h => ?_) e
  try dsimp only
  repeat' (first
    | assumption
    | with_reducible (first
      | apply lineRequest | apply walked | apply refuse | apply startRecord)
    | intro _
    | split)

theorem of_execSendDigits {s t : State} (h : s.chip.Legal) (e : Machine.execSendDigits s = .next t) : t.chip.Legal := by
  unfold Machine.execSendDigits at e
  refine effect h (fun c h => ?_) e
  try dsimp only
  repeat' (first
    | assumption
    | with_reducible (first
      | apply lineRequest | apply walked | apply refuse | apply sendChars | apply modCall)
    | intro _
    | split)

theorem of_execSetAnswerPlan {s t : State} (h : s.chip.Legal) (e : Machine.execSetAnswerPlan s = .next t) : t.chip.Legal := by
  unfold Machine.execSetAnswerPlan at e
  refine effect h (fun c h => lineRequest h _ (fun c r l h => walked h (fun x hw => ?_))) e
  split
  · next p =>
    refine normal ?_ _ _
    have hp : ∀ n ∈ p.auto, 1 ≤ n ∧ n ≤ 9 := by
      unfold walkPlan at hw
      split at hw
      · split at hw
        · injection hw with hw
          rw [planOf_auto hw]
          intro n hn
          contradiction
        · contradiction
      · split at hw
        · injection hw with hw
          split at hw
          · next hx =>
            rw [planOf_auto hw]
            intro n hn
            simp only [within, Bool.and_eq_true, decide_eq_true_eq] at hx
            simp only [Option.mem_def, Option.some.injEq] at hn
            omega
          · contradiction
        · contradiction
      · contradiction
    refine ⟨⟨h.1.1, h.1.2.1, h.1.2.2.1, h.1.2.2.2.1, fun k => ?_, h.1.2.2.2.2.2⟩, h.2⟩
    have hk := h.1.2.2.2.2.1 k
    simp only [Fin.getElem_fin, Vector.getElem_set] at hk ⊢
    split
    · exact hp
    · exact hk
  · exact refuse h _ _

theorem of_execGetAnswerPlan {s t : State} (h : s.chip.Legal) (e : Machine.execGetAnswerPlan s = .next t) : t.chip.Legal := by
  unfold Machine.execGetAnswerPlan at e
  refine effect h (fun c h => ?_) e
  try dsimp only
  repeat' (first | assumption | with_reducible (first | apply lineRequest | apply walked | apply normal) | intro _ | split)

theorem of_execSetScreenEntry {s t : State} (h : s.chip.Legal) (e : Machine.execSetScreenEntry s = .next t) :
    t.chip.Legal := by
  unfold Machine.execSetScreenEntry at e
  refine effect h (fun c h => ?_) e
  try dsimp only
  repeat' (first
    | assumption
    | with_reducible (first
      | apply deviceRequest | apply walked | apply normal | apply refuse)
    | intro _
    | split)

theorem of_execGetScreenEntry {s t : State} (h : s.chip.Legal) (e : Machine.execGetScreenEntry s = .next t) :
    t.chip.Legal := by
  unfold Machine.execGetScreenEntry at e
  refine effect h (fun c h => ?_) e
  try dsimp only
  repeat' (first
    | assumption
    | with_reducible (first
      | apply deviceRequest | apply walked | apply normal | apply refuse)
    | intro _
    | split)

theorem of_execSetLinkOptions {s t : State} (h : s.chip.Legal) (e : Machine.execSetLinkOptions s = .next t) :
    t.chip.Legal := by
  unfold Machine.execSetLinkOptions at e
  refine effect h (fun c h => deviceRequest h _ (fun c r h => walked h (fun x hw => ?_))) e
  split
  · next o =>
    refine normal ?_ _ _
    have ho : o.Legal := by
      unfold walkLinkOptions at hw
      split at hw
      · split at hw
        · split at hw
          · next hx =>
            injection hw with hw
            injection hw with hw
            subst hw
            simp only [within, Bool.and_eq_true, decide_eq_true_eq] at hx
            unfold LinkOptions.Legal
            dsimp only
            omega
          · simp at hw
        · simp at hw
      · contradiction
    obtain ⟨⟨h1, h2, h3, h4, h5, _, h7⟩, hb⟩ := h
    exact ⟨⟨h1, h2, h3, h4, h5, ho, h7⟩, hb⟩
  · exact refuse h _ _

theorem of_execGetLinkOptions {s t : State} (h : s.chip.Legal) (e : Machine.execGetLinkOptions s = .next t) :
    t.chip.Legal := by
  unfold Machine.execGetLinkOptions at e
  refine effect h (fun c h => ?_) e
  try dsimp only
  repeat' (first | assumption | with_reducible (first | apply deviceRequest | apply walked | apply normal) | intro _ | split)

theorem of_execSetFaxOptions {s t : State} (h : s.chip.Legal) (e : Machine.execSetFaxOptions s = .next t) : t.chip.Legal := by
  unfold Machine.execSetFaxOptions at e
  refine effect h (fun c h => deviceRequest h _ (fun c r h => walked h (fun x hw => ?_))) e
  split
  · next o =>
    refine normal ?_ _ _
    have ho : o.limit ≤ 32 := by
      unfold walkFaxOptions at hw
      split at hw
      · obtain ⟨b, _, hb⟩ := Option.map_eq_some_iff.mp hw
        repeat' (split at hb)
        all_goals first | contradiction | skip
        next hx =>
          injection hb with hb
          subst hb
          exact hx
      · contradiction
    obtain ⟨⟨h1, h2, h3, h4, h5, h6, _, h8⟩, hb⟩ := h
    exact ⟨⟨h1, h2, h3, h4, h5, h6, ho, h8⟩, hb⟩
  · exact refuse h _ _

theorem of_execGetFaxOptions {s t : State} (h : s.chip.Legal) (e : Machine.execGetFaxOptions s = .next t) : t.chip.Legal := by
  unfold Machine.execGetFaxOptions at e
  refine effect h (fun c h => ?_) e
  try dsimp only
  repeat' (first | assumption | with_reducible (first | apply deviceRequest | apply walked | apply normal) | intro _ | split)

theorem of_execSetMailbox {s t : State} (h : s.chip.Legal) (e : Machine.execSetMailbox s = .next t) : t.chip.Legal := by
  unfold Machine.execSetMailbox at e
  refine effect h (fun c h => deviceRequest h _ (fun c r h => walked h (fun x hw => ?_))) e
  split
  · next x =>
    refine normal (modMailbox h (fun _ => ?_)) _ _
    unfold walkMailbox at hw
    repeat' (split at hw)
    all_goals first | contradiction | (simp at hw; done) | skip
    next hc hx =>
      injection hw with hw
      injection hw with hw
      subst hw
      simp only [within, Bool.and_eq_true, decide_eq_true_eq] at hx
      unfold Mailbox.Legal Mailbox.settings
      dsimp only
      refine ⟨fun ds hd => ?_, by omega⟩
      exact codeOf_length hc hd
  · exact refuse h _ _

theorem of_execGetMailbox {s t : State} (h : s.chip.Legal) (e : Machine.execGetMailbox s = .next t) : t.chip.Legal := by
  unfold Machine.execGetMailbox at e
  refine effect h (fun c h => ?_) e
  try dsimp only
  repeat' (first
    | assumption
    | with_reducible (first
      | apply deviceRequest | apply walked | apply normal | apply refuse)
    | intro _
    | split)

theorem of_execSetMessageStatus {s t : State} (h : s.chip.Legal) (e : Machine.execSetMessageStatus s = .next t) :
    t.chip.Legal := by
  unfold Machine.execSetMessageStatus at e
  refine effect h (fun c h => ?_) e
  try dsimp only
  repeat' (first
    | assumption
    | with_reducible (first
      | apply deviceRequest | apply walked | apply named | apply normal | apply setStatus | apply refuse)
    | intro _
    | split)

theorem of_execSetGreeting {s t : State} (h : s.chip.Legal) (e : Machine.execSetGreeting s = .next t) : t.chip.Legal := by
  unfold Machine.execSetGreeting at e
  refine effect h (fun c h => ?_) e
  try dsimp only
  repeat' (first
    | assumption
    | with_reducible (first
      | apply deviceRequest | apply walked | apply setGreeting | apply named | apply refuse)
    | intro _
    | split)

theorem of_execSetIndicator {s t : State} (h : s.chip.Legal) (e : Machine.execSetIndicator s = .next t) : t.chip.Legal := by
  unfold Machine.execSetIndicator at e
  refine effect h (fun c h => ?_) e
  try dsimp only
  repeat' (first
    | assumption
    | with_reducible (first
      | apply deviceRequest | apply walked | apply normal | apply refuse)
    | intro _
    | split)

theorem of_execGetIndicators {s t : State} (h : s.chip.Legal) (e : Machine.execGetIndicators s = .next t) : t.chip.Legal := by
  unfold Machine.execGetIndicators at e
  refine effect h (fun c h => ?_) e
  try dsimp only
  repeat' (first | assumption | with_reducible (first | apply deviceRequest | apply walked | apply normal) | intro _ | split)

theorem of_execArbiterGrant {s t : State} (h : s.chip.Legal) (e : Machine.execArbiterGrant s = .next t) : t.chip.Legal := by
  unfold Machine.execArbiterGrant at e
  refine effect h (fun c h => ?_) e
  try dsimp only
  repeat' (first | assumption | with_reducible (first | apply grant) | intro _ | split)

theorem of_execTransferDone {s t : State} (h : s.chip.Legal) (e : Machine.execTransferDone s = .next t) : t.chip.Legal := by
  unfold Machine.execTransferDone at e
  refine effect h (fun c h => ?_) e
  try dsimp only
  repeat' (first | assumption | with_reducible (first | apply portXfer) | intro _ | split)

theorem of_execPathConsume (p : LinePath) {s t : State} (h : s.chip.Legal) (e : Machine.execPathConsume p s = .next t) :
    t.chip.Legal := by
  unfold Machine.execPathConsume at e
  refine effect h (fun c h => ?_) e
  try dsimp only
  repeat' (first | assumption | with_reducible (first | apply codecConsume | apply engineConsume) | intro _ | split)

theorem of_execPathProduce (p : LinePath) (b : Byte) {s t : State} (h : s.chip.Legal)
    (e : Machine.execPathProduce p b s = .next t) : t.chip.Legal := by
  unfold Machine.execPathProduce at e
  refine effect h (fun c h => ?_) e
  try dsimp only
  repeat' (first | assumption | with_reducible (first | apply produce) | intro _ | split)

theorem of_execPathDrained (p : LinePath) {s t : State} (h : s.chip.Legal) (e : Machine.execPathDrained p s = .next t) :
    t.chip.Legal := by
  unfold Machine.execPathDrained at e
  refine effect h (fun c h => ?_) e
  try dsimp only
  repeat' (first | assumption | with_reducible (first | apply tellDrained | apply endChan) | intro _ | split)

theorem of_execLoopPresent (l : LineNo) (polarity : Polarity) {s t : State} (h : s.chip.Legal)
    (e : Machine.execLoopPresent l polarity s = .next t) : t.chip.Legal := by
  unfold Machine.execLoopPresent at e
  refine supervised h (fun c h => ?_) e
  try dsimp only
  repeat' (first
    | assumption
    | with_reducible (first
      | apply loopTold | (refine modLine ?_ id) | (refine modLine ?_ ?_))
    | intro _
    | split)

theorem of_execPolarityReversal (l : LineNo) {s t : State} (h : s.chip.Legal)
    (e : Machine.execPolarityReversal l s = .next t) : t.chip.Legal := by
  unfold Machine.execPolarityReversal at e
  refine supervised h (fun c h => ?_) e
  try dsimp only
  repeat' (first
    | assumption
    | with_reducible (first
      | apply answered | (refine modLine ?_ id) | (refine modLine ?_ ?_))
    | intro _
    | split)

theorem of_execLoopInterruption (l : LineNo) {s t : State} (h : s.chip.Legal)
    (e : Machine.execLoopInterruption l s = .next t) : t.chip.Legal := by
  unfold Machine.execLoopInterruption at e
  refine supervised h (fun c h => ?_) e
  try dsimp only
  repeat' (first
    | assumption
    | with_reducible (first
      | apply interruptionTold | (refine modLine ?_ id) | (refine modLine ?_ ?_))
    | intro _
    | split)

theorem of_execLineVoltageChange (l : LineNo) (present : Bool) {s t : State} (h : s.chip.Legal)
    (e : Machine.execLineVoltageChange l present s = .next t) : t.chip.Legal := by
  unfold Machine.execLineVoltageChange at e
  refine supervised h (fun c h => ?_) e
  try dsimp only
  repeat' (first
    | assumption
    | with_reducible (first
      | apply voltagePresent | (refine modLine ?_ id) | (refine modLine ?_ ?_))
    | intro _
    | split)

theorem of_execLineLostTimerExpiry (l : LineNo) {s t : State} (h : s.chip.Legal)
    (e : Machine.execLineLostTimerExpiry l s = .next t) : t.chip.Legal := by
  unfold Machine.execLineLostTimerExpiry at e
  refine supervised h (fun c h => ?_) e
  try dsimp only
  repeat' (first
    | assumption
    | with_reducible (first
      | apply arise | (refine modLine ?_ id) | (refine modLine ?_ ?_))
    | intro _
    | split)

theorem of_execRingingVoltageBegin (l : LineNo) {s t : State} (h : s.chip.Legal)
    (e : Machine.execRingingVoltageBegin l s = .next t) : t.chip.Legal := by
  unfold Machine.execRingingVoltageBegin at e
  refine supervised h (fun c h => ?_) e
  try dsimp only
  repeat' (first
    | assumption
    | with_reducible (first
      | apply voltagePresent | (refine modLine ?_ id) | (refine modLine ?_ ?_))
    | intro _
    | split)

theorem of_execRingingVoltageEnd (l : LineNo) (ms : Nat) {s t : State} (h : s.chip.Legal)
    (e : Machine.execRingingVoltageEnd l ms s = .next t) : t.chip.Legal := by
  unfold Machine.execRingingVoltageEnd at e
  refine supervised h (fun c h => ?_) e
  try dsimp only
  repeat' (first
    | assumption
    | with_reducible (first
      | apply countedRing | (refine modLine ?_ id) | (refine modLine ?_ ?_))
    | intro _
    | split)

theorem of_execAbandonTimerExpiry (l : LineNo) {s t : State} (h : s.chip.Legal)
    (e : Machine.execAbandonTimerExpiry l s = .next t) : t.chip.Legal := by
  unfold Machine.execAbandonTimerExpiry at e
  refine supervised h (fun c h => ?_) e
  try dsimp only
  repeat' (first | assumption | with_reducible (first | apply abandonRing) | intro _ | split)

theorem of_execCallerNumberBurst (l : LineNo) (content : BurstContent) (good : Bool) {s t : State} (h : s.chip.Legal)
    (e : Machine.execCallerNumberBurst l content good s = .next t) : t.chip.Legal := by
  unfold Machine.execCallerNumberBurst at e
  refine supervised h (fun c h => ?_) e
  try dsimp only
  repeat' (first | assumption | with_reducible (first | (refine modLine ?_ id) | (refine modLine ?_ ?_)) | intro _ | split)

theorem of_execQuietWindowEnd (l : LineNo) (tenths : Int) {s t : State} (h : s.chip.Legal)
    (e : Machine.execQuietWindowEnd l tenths s = .next t) : t.chip.Legal := by
  unfold Machine.execQuietWindowEnd at e
  refine supervised h (fun c h => ?_) e
  split
  · refine modLine h (fun hn => ?_)
    unfold Line.Legal Line.quietWindow floorAfter at *
    dsimp only
    split <;> omega
  · exact h

theorem of_execDriverTemperatureChange (l : LineNo) (celsius : Int) {s t : State} (h : s.chip.Legal)
    (e : Machine.execDriverTemperatureChange l celsius s = .next t) : t.chip.Legal := by
  unfold Machine.execDriverTemperatureChange at e
  refine supervised h (fun c h => ?_) e
  try dsimp only
  repeat' (first | assumption | with_reducible (first | apply temperature) | intro _ | split)

theorem of_execOvercurrentSensed (l : LineNo) {s t : State} (h : s.chip.Legal)
    (e : Machine.execOvercurrentSensed l s = .next t) : t.chip.Legal := by
  unfold Machine.execOvercurrentSensed at e
  refine supervised h (fun c h => ?_) e
  dsimp only
  split
  · exact forcedRelease _ _ _ _ (arise _ _ _ _ h) (by decide)
  · exact h

theorem of_execLoopCurrentFalls (l : LineNo) {s t : State} (h : s.chip.Legal)
    (e : Machine.execLoopCurrentFalls l s = .next t) : t.chip.Legal := by
  unfold Machine.execLoopCurrentFalls at e
  refine supervised h (fun c h => ?_) e
  try dsimp only
  repeat' (first | assumption | with_reducible (first | apply goes) | intro _ | split)

theorem of_execCoolOffExpiry (l : LineNo) {s t : State} (h : s.chip.Legal) (e : Machine.execCoolOffExpiry l s = .next t) :
    t.chip.Legal := by
  unfold Machine.execCoolOffExpiry at e
  refine supervised h (fun c h => ?_) e
  dsimp only
  split
  · split
    · exact modLine h (fun hn => by unfold Line.Legal at *; dsimp only; omega)
    · exact enterIdle _ _ (modLine h (fun hn => by unfold Line.Legal at *; dsimp only; omega))
  · exact h

theorem of_execPulseTimingExpiry (l : LineNo) {s t : State} (h : s.chip.Legal)
    (e : Machine.execPulseTimingExpiry l s = .next t) : t.chip.Legal := by
  unfold Machine.execPulseTimingExpiry at e
  refine supervised h (fun c h => ?_) e
  try dsimp only
  repeat' (first
    | assumption
    | with_reducible (first
      | apply nextChar | (refine modLine ?_ id) | (refine modLine ?_ ?_))
    | intro _
    | split)

theorem of_execSeizeTimeout (l : LineNo) {s t : State} (h : s.chip.Legal) (e : Machine.execSeizeTimeout l s = .next t) :
    t.chip.Legal := by
  unfold Machine.execSeizeTimeout at e
  refine supervised h (fun c h => ?_) e
  try dsimp only
  repeat' (first | assumption | with_reducible (first | apply release) | intro _ | split)

theorem of_execDialToneHeard (l : LineNo) (level : Int) {s t : State} (h : s.chip.Legal)
    (e : Machine.execDialToneHeard l level s = .next t) : t.chip.Legal := by
  unfold Machine.execDialToneHeard at e
  refine supervised h (fun c h => ?_) e
  try dsimp only
  repeat' (first | assumption | with_reducible (first | apply startDialling | apply nextChar) | intro _ | split)

theorem of_execDialToneTimeout (l : LineNo) {s t : State} (h : s.chip.Legal)
    (e : Machine.execDialToneTimeout l s = .next t) : t.chip.Legal := by
  unfold Machine.execDialToneTimeout at e
  refine supervised h (fun c h => ?_) e
  try dsimp only
  repeat' (first | assumption | with_reducible (first | apply release) | intro _ | split)

theorem of_execBlindPauseEnd (l : LineNo) {s t : State} (h : s.chip.Legal)
    (e : Machine.execBlindPauseEnd l s = .next t) : t.chip.Legal := by
  unfold Machine.execBlindPauseEnd at e
  refine supervised h (fun c h => ?_) e
  try dsimp only
  repeat' (first | assumption | with_reducible (first | apply startDialling) | intro _ | split)

theorem of_execDtmfDigitDone (l : LineNo) {s t : State} (h : s.chip.Legal)
    (e : Machine.execDtmfDigitDone l s = .next t) : t.chip.Legal := by
  unfold Machine.execDtmfDigitDone at e
  refine supervised h (fun c h => ?_) e
  try dsimp only
  repeat' (first | assumption | with_reducible (first | apply nextChar | apply modCall) | intro _ | split)

theorem of_execCommaPauseEnd (l : LineNo) {s t : State} (h : s.chip.Legal)
    (e : Machine.execCommaPauseEnd l s = .next t) : t.chip.Legal := by
  unfold Machine.execCommaPauseEnd at e
  refine supervised h (fun c h => ?_) e
  try dsimp only
  repeat' (first | assumption | with_reducible (first | apply nextChar) | intro _ | split)

theorem of_execProgressCycle (l : LineNo) (level : Int) (on : OnPart) (off : OffPart) {s t : State}
    (h : s.chip.Legal) (e : Machine.execProgressCycle l level on off s = .next t) : t.chip.Legal := by
  unfold Machine.execProgressCycle at e
  refine supervised h (fun c h => ?_) e
  try dsimp only
  repeat' (first | assumption | with_reducible (first | apply countCycle) | intro _ | split)

theorem of_execContinuousTone (l : LineNo) (level : Int) {s t : State} (h : s.chip.Legal)
    (e : Machine.execContinuousTone l level s = .next t) : t.chip.Legal := by
  unfold Machine.execContinuousTone at e
  refine supervised h (fun c h => ?_) e
  try dsimp only
  repeat' (first | assumption | with_reducible (first | apply release) | intro _ | split)

theorem of_execProgressSilenceTimeout (l : LineNo) {s t : State} (h : s.chip.Legal)
    (e : Machine.execProgressSilenceTimeout l s = .next t) : t.chip.Legal := by
  unfold Machine.execProgressSilenceTimeout at e
  refine supervised h (fun c h => ?_) e
  try dsimp only
  repeat' (first | assumption | with_reducible (first | apply release) | intro _ | split)

theorem of_execAnswerTone (l : LineNo) {s t : State} (h : s.chip.Legal) (e : Machine.execAnswerTone l s = .next t) :
    t.chip.Legal := by
  unfold Machine.execAnswerTone at e
  refine supervised h (fun c h => ?_) e
  try dsimp only
  repeat' (first | assumption | with_reducible (first | apply answered) | intro _ | split)

theorem of_execSpeechAnswer (l : LineNo) (level : Int) {s t : State} (h : s.chip.Legal)
    (e : Machine.execSpeechAnswer l level s = .next t) : t.chip.Legal := by
  unfold Machine.execSpeechAnswer at e
  refine supervised h (fun c h => ?_) e
  try dsimp only
  repeat' (first | assumption | with_reducible (first | apply answered) | intro _ | split)

theorem of_execDtmfDigitHeard (l : LineNo) (d : Dtmf) {s t : State} (h : s.chip.Legal)
    (e : Machine.execDtmfDigitHeard l d s = .next t) : t.chip.Legal := by
  unfold Machine.execDtmfDigitHeard at e
  refine supervised h (fun c h => ?_) e
  try dsimp only
  repeat' (first | assumption | with_reducible (first | apply hostDigit | apply voiceDigit) | intro _ | split)

theorem of_execRemoteClearTone (l : LineNo) (tone : ClearTone) {s t : State} (h : s.chip.Legal)
    (e : Machine.execRemoteClearTone l tone s = .next t) : t.chip.Legal := by
  unfold Machine.execRemoteClearTone at e
  refine supervised h (fun c h => ?_) e
  try dsimp only
  repeat' (first | assumption | with_reducible (first | apply release | apply voiceHangUp) | intro _ | split)

theorem of_execDiscriminationWindowClose (l : LineNo) {s t : State} (h : s.chip.Legal)
    (e : Machine.execDiscriminationWindowClose l s = .next t) : t.chip.Legal := by
  unfold Machine.execDiscriminationWindowClose at e
  refine supervised h (fun c h => ?_) e
  try dsimp only
  repeat' (first | assumption | with_reducible (first | apply modCall) | intro _ | split)

theorem of_execFaxCallingTone (l : LineNo) {s t : State} (h : s.chip.Legal)
    (e : Machine.execFaxCallingTone l s = .next t) : t.chip.Legal := by
  unfold Machine.execFaxCallingTone at e
  refine supervised h (fun c h => ?_) e
  try dsimp only
  repeat' (first | assumption | with_reducible (first | apply turnFax) | intro _ | split)

theorem of_execModemCallingTone (l : LineNo) {s t : State} (h : s.chip.Legal)
    (e : Machine.execModemCallingTone l s = .next t) : t.chip.Legal := by
  unfold Machine.execModemCallingTone at e
  refine supervised h (fun c h => ?_) e
  try dsimp only
  repeat' (first | assumption | with_reducible (first | apply turnData) | intro _ | split)

theorem of_execReleaseGuardExpiry (l : LineNo) {s t : State} (h : s.chip.Legal)
    (e : Machine.execReleaseGuardExpiry l s = .next t) : t.chip.Legal := by
  unfold Machine.execReleaseGuardExpiry at e
  refine supervised h (fun c h => ?_) e
  try dsimp only
  repeat' (first | assumption | with_reducible (first | apply enterIdle) | intro _ | split)

theorem of_execMeasurementEnd (e : EngineNo) (tenths : Int) (announced : Rate) {s t : State} (h : s.chip.Legal)
    (e : Machine.execMeasurementEnd e tenths announced s = .next t) : t.chip.Legal := by
  unfold Machine.execMeasurementEnd at e
  refine effect h (fun c h => ?_) e
  try dsimp only
  repeat' (first
    | assumption
    | with_reducible (first
      | apply tell | apply measured | (apply measured_eq; rotate_left; assumption) | apply hearTraining)
    | intro _
    | split)

theorem of_execMeasurementTimeout (e : EngineNo) {s t : State} (h : s.chip.Legal)
    (e : Machine.execMeasurementTimeout e s = .next t) : t.chip.Legal := by
  unfold Machine.execMeasurementTimeout at e
  refine effect h (fun c h => ?_) e
  try dsimp only
  repeat' (first
    | assumption
    | with_reducible (first
      | apply tell | apply measured | (apply measured_eq; rotate_left; assumption))
    | intro _
    | split)

theorem of_execTestEnd (e : EngineNo) (wrong : Nat) (total : Nat) (far : FarTest) {s t : State}
    (h : s.chip.Legal) (e : Machine.execTestEnd e wrong total far s = .next t) : t.chip.Legal := by
  unfold Machine.execTestEnd at e
  refine effect h (fun c h => ?_) e
  try dsimp only
  repeat' (first | assumption | with_reducible (first | apply endTest) | intro _ | split)

theorem of_execVerdictTimeout (e : EngineNo) {s t : State} (h : s.chip.Legal)
    (e : Machine.execVerdictTimeout e s = .next t) : t.chip.Legal := by
  unfold Machine.execVerdictTimeout at e
  refine effect h (fun c h => ?_) e
  try dsimp only
  repeat' (first | assumption | with_reducible (first | apply settleTest) | intro _ | split)

theorem of_execFarEndRetrainSignal (e : EngineNo) (dir : RetrainDir) {s t : State} (h : s.chip.Legal)
    (e : Machine.execFarEndRetrainSignal e dir s = .next t) : t.chip.Legal := by
  unfold Machine.execFarEndRetrainSignal at e
  refine effect h (fun c h => ?_) e
  try dsimp only
  repeat' (first | assumption | with_reducible (first | apply farRetrainFax | apply farRetrainData) | intro _ | split)

theorem of_execCarrierChange (e : EngineNo) (present : Bool) {s t : State} (h : s.chip.Legal)
    (e : Machine.execCarrierChange e present s = .next t) : t.chip.Legal := by
  unfold Machine.execCarrierChange at e
  refine effect h (fun c h => ?_) e
  try dsimp only
  repeat' (first | assumption | with_reducible (first | apply modEngine) | intro _ | split)

theorem of_execCarrierLost (e : EngineNo) {s t : State} (h : s.chip.Legal) (e : Machine.execCarrierLost e s = .next t) :
    t.chip.Legal := by
  unfold Machine.execCarrierLost at e
  refine effect h (fun c h => ?_) e
  try dsimp only
  repeat' (first | assumption | with_reducible (first | apply loseCarrier) | intro _ | split)

theorem of_execLineFrameSent (e : EngineNo) {s t : State} (h : s.chip.Legal)
    (e : Machine.execLineFrameSent e s = .next t) : t.chip.Legal := by
  unfold Machine.execLineFrameSent at e
  refine effect h (fun c h => ?_) e
  try dsimp only
  repeat' (first | assumption | with_reducible (first | apply pump | apply modUnit) | intro _ | split)

theorem of_execBadFrame (e : EngineNo) {s t : State} (h : s.chip.Legal) (e : Machine.execBadFrame e s = .next t) :
    t.chip.Legal := by
  unfold Machine.execBadFrame at e
  refine effect h (fun c h => ?_) e
  try dsimp only
  repeat' (first | assumption | with_reducible (first | apply judgeFrame) | intro _ | split)

theorem of_execOpenFrame (e : EngineNo) (window : Nat) {s t : State} (h : s.chip.Legal)
    (e : Machine.execOpenFrame e window s = .next t) : t.chip.Legal := by
  unfold Machine.execOpenFrame at e
  refine goodFrame h (fun c h => ?_) e
  try dsimp only
  repeat' (first | assumption | with_reducible (first | apply modUnit | apply linkUp) | intro _ | split)

theorem of_execOpened (e : EngineNo) (window : Nat) {s t : State} (h : s.chip.Legal)
    (e : Machine.execOpened e window s = .next t) : t.chip.Legal := by
  unfold Machine.execOpened at e
  refine goodFrame h (fun c h => ?_) e
  try dsimp only
  repeat' (first | assumption | with_reducible (first | apply linkUp) | intro _ | split)

theorem of_execDataFrame (e : EngineNo) (send : SeqNo) (recv : SeqNo) (payload : List Byte) {s t : State}
    (h : s.chip.Legal) (e : Machine.execDataFrame e send recv payload s = .next t) : t.chip.Legal := by
  unfold Machine.execDataFrame at e
  refine goodFrame h (fun c h => ?_) e
  try dsimp only
  repeat' (first | assumption | with_reducible (first | apply modUnit | apply takeAck) | intro _ | split)

theorem of_execAccept (e : EngineNo) (n : SeqNo) {s t : State} (h : s.chip.Legal)
    (e : Machine.execAccept e n s = .next t) : t.chip.Legal := by
  unfold Machine.execAccept at e
  refine goodFrame h (fun c h => ?_) e
  try dsimp only
  repeat' (first | assumption | with_reducible (first | apply modUnit | apply takeAck) | intro _ | split)

theorem of_execPause (e : EngineNo) (n : SeqNo) {s t : State} (h : s.chip.Legal)
    (e : Machine.execPause e n s = .next t) : t.chip.Legal := by
  unfold Machine.execPause at e
  refine goodFrame h (fun c h => ?_) e
  try dsimp only
  repeat' (first | assumption | with_reducible (first | apply modUnit | apply takeAck) | intro _ | split)

theorem of_execResend (e : EngineNo) (n : SeqNo) {s t : State} (h : s.chip.Legal)
    (e : Machine.execResend e n s = .next t) : t.chip.Legal := by
  unfold Machine.execResend at e
  refine goodFrame h (fun c h => ?_) e
  try dsimp only
  repeat' (first | assumption | with_reducible (first | apply modUnit | apply takeAck) | intro _ | split)

theorem of_execClose (e : EngineNo) {s t : State} (h : s.chip.Legal) (e : Machine.execClose e s = .next t) :
    t.chip.Legal := by
  unfold Machine.execClose at e
  refine goodFrame h (fun c h => ?_) e
  try dsimp only
  repeat' (first | assumption | with_reducible (first | apply detachEnds | apply sayClosed | apply release) | intro _ | split)

theorem of_execClosed (e : EngineNo) {s t : State} (h : s.chip.Legal) (e : Machine.execClosed e s = .next t) :
    t.chip.Legal := by
  unfold Machine.execClosed at e
  refine goodFrame h (fun c h => ?_) e
  try dsimp only
  repeat' (first | assumption | with_reducible (first | apply detachEnds) | intro _ | split)

theorem of_execOpenWaitExpiry (e : EngineNo) {s t : State} (h : s.chip.Legal)
    (e : Machine.execOpenWaitExpiry e s = .next t) : t.chip.Legal := by
  unfold Machine.execOpenWaitExpiry at e
  refine effect h (fun c h => ?_) e
  try dsimp only
  repeat' (first | assumption | with_reducible (first | apply pump | apply modUnit | apply openingFails) | intro _ | split)

theorem of_execListenTimeout (e : EngineNo) {s t : State} (h : s.chip.Legal)
    (e : Machine.execListenTimeout e s = .next t) : t.chip.Legal := by
  unfold Machine.execListenTimeout at e
  refine effect h (fun c h => ?_) e
  try dsimp only
  repeat' (first | assumption | with_reducible (first | apply openingFails) | intro _ | split)

theorem of_execT1Expiry (e : EngineNo) {s t : State} (h : s.chip.Legal) (e : Machine.execT1Expiry e s = .next t) :
    t.chip.Legal := by
  unfold Machine.execT1Expiry at e
  refine effect h (fun c h => ?_) e
  try dsimp only
  repeat' (first | assumption | with_reducible (first | apply pump | apply modUnit | apply release) | intro _ | split)

theorem of_execRepeatTimerExpiry (e : EngineNo) {s t : State} (h : s.chip.Legal)
    (e : Machine.execRepeatTimerExpiry e s = .next t) : t.chip.Legal := by
  unfold Machine.execRepeatTimerExpiry at e
  refine effect h (fun c h => ?_) e
  try dsimp only
  repeat' (first | assumption | with_reducible (first | apply pump | apply modUnit) | intro _ | split)

theorem of_execCloseWaitExpiry (e : EngineNo) {s t : State} (h : s.chip.Legal)
    (e : Machine.execCloseWaitExpiry e s = .next t) : t.chip.Legal := by
  unfold Machine.execCloseWaitExpiry at e
  refine effect h (fun c h => ?_) e
  try dsimp only
  repeat' (first | assumption | with_reducible (first | apply detachEnds) | intro _ | split)

theorem of_execLinkPortTake {s t : State} (h : s.chip.Legal) (e : Machine.execLinkPortTake s = .next t) : t.chip.Legal := by
  unfold Machine.execLinkPortTake at e
  refine effect h (fun c h => ?_) e
  try dsimp only
  repeat' (first | assumption | with_reducible (first | apply takeFrame | apply serve) | intro _ | split)

theorem of_execReceiveRingDrain (e : EngineNo) {s t : State} (h : s.chip.Legal)
    (e : Machine.execReceiveRingDrain e s = .next t) : t.chip.Legal := by
  unfold Machine.execReceiveRingDrain at e
  refine effect h (fun c h => ?_) e
  try dsimp only
  repeat' (first | assumption | with_reducible (first | assumption) | intro _ | split)

theorem of_execPlainBytesSent (e : EngineNo) {s t : State} (h : s.chip.Legal)
    (e : Machine.execPlainBytesSent e s = .next t) : t.chip.Legal := by
  unfold Machine.execPlainBytesSent at e
  refine effect h (fun c h => ?_) e
  try dsimp only
  repeat' (first | assumption | with_reducible (first | apply pump | apply modTx) | intro _ | split)

theorem of_execPlainBytesReceived (e : EngineNo) (bytes : List Byte) {s t : State} (h : s.chip.Legal)
    (e : Machine.execPlainBytesReceived e bytes s = .next t) : t.chip.Legal := by
  unfold Machine.execPlainBytesReceived at e
  refine effect h (fun c h => ?_) e
  try dsimp only
  repeat' (first | assumption | with_reducible (first | apply plainReceive) | intro _ | split)

theorem of_execCaps (l : LineNo) (maxBps : Nat) (sectioned : Bool) (fine : Bool) (ident : Option (List Byte))
    {s t : State} (h : s.chip.Legal) (e : Machine.execCaps l maxBps sectioned fine ident s = .next t) : t.chip.Legal := by
  unfold Machine.execCaps at e
  refine effect h (fun c h => ?_) e
  try dsimp only
  repeat' (first | assumption | with_reducible (first | apply abortFax | apply takeCaps | apply faxSend) | intro _ | split)

theorem of_execSet (l : LineNo) (mode : FaxMode) (bps : Nat) (res : Resolution) (page : Nat)
    (ident : Option (List Byte)) {s t : State} (h : s.chip.Legal)
    (e : Machine.execSet l mode bps res page ident s = .next t) : t.chip.Legal := by
  unfold Machine.execSet at e
  refine effect h (fun c h => ?_) e
  try dsimp only
  repeat' (first | assumption | with_reducible (first | apply abortFax | apply takeSet | apply sendBye) | intro _ | split)

theorem of_execTrainOk (l : LineNo) (rate : Rate) {s t : State} (h : s.chip.Legal)
    (e : Machine.execTrainOk l rate s = .next t) : t.chip.Legal := by
  unfold Machine.execTrainOk at e
  refine effect h (fun c h => ?_) e
  try dsimp only
  repeat' (first | assumption | with_reducible (first | apply takeVerdict) | intro _ | split)

theorem of_execTrainBad (l : LineNo) (rate : Rate) {s t : State} (h : s.chip.Legal)
    (e : Machine.execTrainBad l rate s = .next t) : t.chip.Legal := by
  unfold Machine.execTrainBad at e
  refine effect h (fun c h => ?_) e
  try dsimp only
  repeat' (first | assumption | with_reducible (first | apply takeVerdict) | intro _ | split)

theorem of_execMap (l : LineNo) (page : Nat) (sect : Nat) (needed : Option (List Nat)) {s t : State} (h : s.chip.Legal)
    (e : Machine.execMap l page sect needed s = .next t) : t.chip.Legal := by
  unfold Machine.execMap at e
  refine effect h (fun c h => ?_) e
  try dsimp only
  repeat' (first | assumption | with_reducible (first | apply takeMap) | intro _ | split)

theorem of_execTaken (l : LineNo) (page : Nat) (sect : Option Nat) (partialFlag : Bool) {s t : State} (h : s.chip.Legal)
    (e : Machine.execTaken l page sect partialFlag s = .next t) : t.chip.Legal := by
  unfold Machine.execTaken at e
  refine effect h (fun c h => ?_) e
  try dsimp only
  repeat' (first | assumption | with_reducible (first | apply sectionTaken | apply pageTaken) | intro _ | split)

theorem of_execRetake (l : LineNo) (page : Nat) (bad : Nat) {s t : State} (h : s.chip.Legal)
    (e : Machine.execRetake l page bad s = .next t) : t.chip.Legal := by
  unfold Machine.execRetake at e
  refine effect h (fun c h => ?_) e
  try dsimp only
  repeat' (first | assumption | with_reducible (first | apply takeRetake) | intro _ | split)

theorem of_execMore (l : LineNo) (page : Nat) (res : Resolution) {s t : State} (h : s.chip.Legal)
    (e : Machine.execMore l page res s = .next t) : t.chip.Legal := by
  unfold Machine.execMore at e
  refine effect h (fun c h => ?_) e
  try dsimp only
  repeat' (first
    | assumption
    | with_reducible (first
      | apply answerAgain | apply pageEnds | apply pageFollows)
    | intro _
    | split)

theorem of_execLast (l : LineNo) {s t : State} (h : s.chip.Legal) (e : Machine.execLast l s = .next t) : t.chip.Legal := by
  unfold Machine.execLast at e
  refine effect h (fun c h => ?_) e
  try dsimp only
  repeat' (first | assumption | with_reducible (first | apply answerAgain | apply pageEnds | apply modFax) | intro _ | split)

theorem of_execBye (l : LineNo) {s t : State} (h : s.chip.Legal) (e : Machine.execBye l s = .next t) : t.chip.Legal := by
  unfold Machine.execBye at e
  refine effect h (fun c h => ?_) e
  try dsimp only
  repeat' (first | assumption | with_reducible (first | apply faxEnds | apply farBye) | intro _ | split)

theorem of_execFaxMessageTimeout (l : LineNo) {s t : State} (h : s.chip.Legal)
    (e : Machine.execFaxMessageTimeout l s = .next t) : t.chip.Legal := by
  unfold Machine.execFaxMessageTimeout at e
  refine effect h (fun c h => ?_) e
  try dsimp only
  repeat' (first | assumption | with_reducible (first | apply detachEnds | apply sendAgain | apply abortFax | apply faxEnds) | intro _ | split)

theorem of_execCapsWaitTimeout (l : LineNo) {s t : State} (h : s.chip.Legal)
    (e : Machine.execCapsWaitTimeout l s = .next t) : t.chip.Legal := by
  unfold Machine.execCapsWaitTimeout at e
  refine effect h (fun c h => ?_) e
  try dsimp only
  repeat' (first | assumption | with_reducible (first | apply closeFax) | intro _ | split)

theorem of_execReceiverTrainWaitExpiry (l : LineNo) {s t : State} (h : s.chip.Legal)
    (e : Machine.execReceiverTrainWaitExpiry l s = .next t) : t.chip.Legal := by
  unfold Machine.execReceiverTrainWaitExpiry at e
  refine effect h (fun c h => ?_) e
  try dsimp only
  repeat' (first | assumption | with_reducible (first | apply closeFax) | intro _ | split)

theorem of_execRoundSent (l : LineNo) {s t : State} (h : s.chip.Legal) (e : Machine.execRoundSent l s = .next t) :
    t.chip.Legal := by
  unfold Machine.execRoundSent at e
  refine effect h (fun c h => ?_) e
  try dsimp only
  repeat' (first | assumption | with_reducible (first | apply roundDone) | intro _ | split)

theorem of_execRoundAnswerTimeout (l : LineNo) {s t : State} (h : s.chip.Legal)
    (e : Machine.execRoundAnswerTimeout l s = .next t) : t.chip.Legal := by
  unfold Machine.execRoundAnswerTimeout at e
  refine effect h (fun c h => ?_) e
  try dsimp only
  repeat' (first | assumption | with_reducible (first | apply sendAgain | apply closeFax) | intro _ | split)

theorem of_execStripJudged (l : LineNo) (j : StripJudgment) {s t : State} (h : s.chip.Legal)
    (e : Machine.execStripJudged l j s = .next t) : t.chip.Legal := by
  unfold Machine.execStripJudged at e
  refine effect h (fun c h => ?_) e
  try dsimp only
  repeat' (first | assumption | with_reducible (first | apply modFax | apply badStrip | apply goodStrip) | intro _ | split)

theorem of_execStripStored (l : LineNo) {s t : State} (h : s.chip.Legal) (e : Machine.execStripStored l s = .next t) :
    t.chip.Legal := by
  unfold Machine.execStripStored at e
  refine effect h (fun c h => ?_) e
  try dsimp only
  repeat' (first | assumption | with_reducible (first | apply stripDone) | intro _ | split)

theorem of_execEndOfRound (l : LineNo) {s t : State} (h : s.chip.Legal) (e : Machine.execEndOfRound l s = .next t) :
    t.chip.Legal := by
  unfold Machine.execEndOfRound at e
  refine effect h (fun c h => ?_) e
  try dsimp only
  repeat' (first | assumption | with_reducible (first | apply abortFax | apply answerRound) | intro _ | split)

theorem of_execGreetingToneEnd (l : LineNo) {s t : State} (h : s.chip.Legal)
    (e : Machine.execGreetingToneEnd l s = .next t) : t.chip.Legal := by
  unfold Machine.execGreetingToneEnd at e
  refine effect h (fun c h => ?_) e
  try dsimp only
  repeat' (first | assumption | with_reducible (first | apply greetingEnd) | intro _ | split)

theorem of_execRecordToneEnd (l : LineNo) {s t : State} (h : s.chip.Legal)
    (e : Machine.execRecordToneEnd l s = .next t) : t.chip.Legal := by
  unfold Machine.execRecordToneEnd at e
  refine effect h (fun c h => ?_) e
  try dsimp only
  repeat' (first | assumption | with_reducible (first | apply startRecording) | intro _ | split)

theorem of_execClosingTonesEnd (l : LineNo) {s t : State} (h : s.chip.Legal)
    (e : Machine.execClosingTonesEnd l s = .next t) : t.chip.Legal := by
  unfold Machine.execClosingTonesEnd at e
  refine effect h (fun c h => ?_) e
  try dsimp only
  repeat' (first | assumption | with_reducible (first | apply release | apply endSequence) | intro _ | split)

theorem of_execErrorToneEnd (l : LineNo) {s t : State} (h : s.chip.Legal) (e : Machine.execErrorToneEnd l s = .next t) :
    t.chip.Legal := by
  unfold Machine.execErrorToneEnd at e
  refine effect h (fun c h => ?_) e
  try dsimp only
  repeat' (first | assumption | with_reducible (first | apply accessErrorEnds | apply modSeq) | intro _ | split)

theorem of_execPromptToneEnd (l : LineNo) {s t : State} (h : s.chip.Legal)
    (e : Machine.execPromptToneEnd l s = .next t) : t.chip.Legal := by
  unfold Machine.execPromptToneEnd at e
  refine effect h (fun c h => ?_) e
  try dsimp only
  repeat' (first | assumption | with_reducible (first | apply modSeq) | intro _ | split)

theorem of_execDigitPrefixTimeout (l : LineNo) {s t : State} (h : s.chip.Legal)
    (e : Machine.execDigitPrefixTimeout l s = .next t) : t.chip.Legal := by
  unfold Machine.execDigitPrefixTimeout at e
  refine effect h (fun c h => ?_) e
  try dsimp only
  repeat' (first | assumption | with_reducible (first | apply modSeq) | intro _ | split)

theorem of_execDetectorInterval (l : LineNo) (level : Int) (tone : Bool) {s t : State} (h : s.chip.Legal)
    (e : Machine.execDetectorInterval l level tone s = .next t) : t.chip.Legal := by
  unfold Machine.execDetectorInterval at e
  refine effect h (fun c h => ?_) e
  try dsimp only
  repeat' (first | assumption | with_reducible (first | apply planInterval | apply recordInterval) | intro _ | split)

theorem of_execAccessDigitTimeout (l : LineNo) {s t : State} (h : s.chip.Legal)
    (e : Machine.execAccessDigitTimeout l s = .next t) : t.chip.Legal := by
  unfold Machine.execAccessDigitTimeout at e
  refine effect h (fun c h => ?_) e
  try dsimp only
  repeat' (first | assumption | with_reducible (first | apply wrongCode) | intro _ | split)

theorem of_execReviewIdleTimeout (l : LineNo) {s t : State} (h : s.chip.Legal)
    (e : Machine.execReviewIdleTimeout l s = .next t) : t.chip.Legal := by
  unfold Machine.execReviewIdleTimeout at e
  refine effect h (fun c h => ?_) e
  try dsimp only
  repeat' (first | assumption | with_reducible (first | apply enterClosing) | intro _ | split)

end Chip.Legal

end Sys2Proof.Machine
end

