-- ==== Sys2Proof/Laws/State.lean ====
section
/-!
SUPPORT. What each field of the part reads after each update: one lemma per field per update, so that no proof unfolds a
record update.
-/
namespace Sys2Proof.Machine

/-! ## Vector entries -/

/-- An entry after a change of entry `i`: the form simp brings indices to. -/
theorem upd_get {α : Type} {n : Nat} (v : Vector α n) (i : Fin n) (f : α → α) (j : Nat) (h : j < n) :
    (upd v i f)[j] = if i.val = j then f v[j] else v[j] := by
  unfold upd
  rw [Vector.getElem_set]
  by_cases h : i.val = j
  · subst h; simp
  · simp [h]

@[simp] theorem upd_get_self {α : Type} {n : Nat} (v : Vector α n) (i : Fin n) (f : α → α) :
    (upd v i f)[i.val] = f v[i.val] := by rw [upd_get, if_pos rfl]

theorem upd_get_ne {α : Type} {n : Nat} (v : Vector α n) {i j : Fin n} (f : α → α) (h : i ≠ j) :
    (upd v i f)[j.val] = v[j.val] := by
  rw [upd_get, if_neg (fun e => h (Fin.ext e))]

namespace Chip

/-! ## `modLink` -/

@[simp] theorem modLink_ready (c : Chip) (f : Link → Link) : (c.modLink f).ready = c.ready := rfl
@[simp] theorem modLink_resetCause (c : Chip) (f : Link → Link) : (c.modLink f).resetCause = c.resetCause := rfl
@[simp] theorem modLink_clock (c : Chip) (f : Link → Link) : (c.modLink f).clock = c.clock := rfl
@[simp] theorem modLink_clockNotSet (c : Chip) (f : Link → Link) : (c.modLink f).clockNotSet = c.clockNotSet := rfl
@[simp] theorem modLink_lowMark (c : Chip) (f : Link → Link) : (c.modLink f).lowMark = c.lowMark := rfl
@[simp] theorem modLink_faxReserve (c : Chip) (f : Link → Link) : (c.modLink f).faxReserve = c.faxReserve := rfl
@[simp] theorem modLink_priority (c : Chip) (f : Link → Link) : (c.modLink f).priority = c.priority := rfl
@[simp] theorem modLink_localMax (c : Chip) (f : Link → Link) : (c.modLink f).localMax = c.localMax := rfl
@[simp] theorem modLink_link (c : Chip) (f : Link → Link) : (c.modLink f).link = f c.link := rfl
@[simp] theorem modLink_store (c : Chip) (f : Link → Link) : (c.modLink f).store = c.store := rfl
@[simp] theorem modLink_chans (c : Chip) (f : Link → Link) : (c.modLink f).chans = c.chans := rfl
@[simp] theorem modLink_port (c : Chip) (f : Link → Link) : (c.modLink f).port = c.port := rfl
@[simp] theorem modLink_codecs (c : Chip) (f : Link → Link) : (c.modLink f).codecs = c.codecs := rfl
@[simp] theorem modLink_epaths (c : Chip) (f : Link → Link) : (c.modLink f).epaths = c.epaths := rfl
@[simp] theorem modLink_readReq (c : Chip) (f : Link → Link) : (c.modLink f).readReq = c.readReq := rfl
@[simp] theorem modLink_writeReq (c : Chip) (f : Link → Link) : (c.modLink f).writeReq = c.writeReq := rfl
@[simp] theorem modLink_lines (c : Chip) (f : Link → Link) : (c.modLink f).lines = c.lines := rfl
@[simp] theorem modLink_calls (c : Chip) (f : Link → Link) : (c.modLink f).calls = c.calls := rfl
@[simp] theorem modLink_plans (c : Chip) (f : Link → Link) : (c.modLink f).plans = c.plans := rfl
@[simp] theorem modLink_screen (c : Chip) (f : Link → Link) : (c.modLink f).screen = c.screen := rfl
@[simp] theorem modLink_engines (c : Chip) (f : Link → Link) : (c.modLink f).engines = c.engines := rfl
@[simp] theorem modLink_units (c : Chip) (f : Link → Link) : (c.modLink f).units = c.units := rfl
@[simp] theorem modLink_linkOpts (c : Chip) (f : Link → Link) : (c.modLink f).linkOpts = c.linkOpts := rfl
@[simp] theorem modLink_linkPort (c : Chip) (f : Link → Link) : (c.modLink f).linkPort = c.linkPort := rfl
@[simp] theorem modLink_fax (c : Chip) (f : Link → Link) : (c.modLink f).fax = c.fax := rfl
@[simp] theorem modLink_faxOpts (c : Chip) (f : Link → Link) : (c.modLink f).faxOpts = c.faxOpts := rfl
@[simp] theorem modLink_faxLast (c : Chip) (f : Link → Link) : (c.modLink f).faxLast = c.faxLast := rfl
@[simp] theorem modLink_mailboxes (c : Chip) (f : Link → Link) : (c.modLink f).mailboxes = c.mailboxes := rfl
@[simp] theorem modLink_seqs (c : Chip) (f : Link → Link) : (c.modLink f).seqs = c.seqs := rfl
@[simp] theorem modLink_trees (c : Chip) (f : Link → Link) : (c.modLink f).trees = c.trees := rfl

/-! ## `modStore` -/

@[simp] theorem modStore_ready (c : Chip) (f : Store → Store) : (c.modStore f).ready = c.ready := rfl
@[simp] theorem modStore_resetCause (c : Chip) (f : Store → Store) : (c.modStore f).resetCause = c.resetCause := rfl
@[simp] theorem modStore_clock (c : Chip) (f : Store → Store) : (c.modStore f).clock = c.clock := rfl
@[simp] theorem modStore_clockNotSet (c : Chip) (f : Store → Store) : (c.modStore f).clockNotSet = c.clockNotSet := rfl
@[simp] theorem modStore_lowMark (c : Chip) (f : Store → Store) : (c.modStore f).lowMark = c.lowMark := rfl
@[simp] theorem modStore_faxReserve (c : Chip) (f : Store → Store) : (c.modStore f).faxReserve = c.faxReserve := rfl
@[simp] theorem modStore_priority (c : Chip) (f : Store → Store) : (c.modStore f).priority = c.priority := rfl
@[simp] theorem modStore_localMax (c : Chip) (f : Store → Store) : (c.modStore f).localMax = c.localMax := rfl
@[simp] theorem modStore_link (c : Chip) (f : Store → Store) : (c.modStore f).link = c.link := rfl
@[simp] theorem modStore_store (c : Chip) (f : Store → Store) : (c.modStore f).store = f c.store := rfl
@[simp] theorem modStore_chans (c : Chip) (f : Store → Store) : (c.modStore f).chans = c.chans := rfl
@[simp] theorem modStore_port (c : Chip) (f : Store → Store) : (c.modStore f).port = c.port := rfl
@[simp] theorem modStore_codecs (c : Chip) (f : Store → Store) : (c.modStore f).codecs = c.codecs := rfl
@[simp] theorem modStore_epaths (c : Chip) (f : Store → Store) : (c.modStore f).epaths = c.epaths := rfl
@[simp] theorem modStore_readReq (c : Chip) (f : Store → Store) : (c.modStore f).readReq = c.readReq := rfl
@[simp] theorem modStore_writeReq (c : Chip) (f : Store → Store) : (c.modStore f).writeReq = c.writeReq := rfl
@[simp] theorem modStore_lines (c : Chip) (f : Store → Store) : (c.modStore f).lines = c.lines := rfl
@[simp] theorem modStore_calls (c : Chip) (f : Store → Store) : (c.modStore f).calls = c.calls := rfl
@[simp] theorem modStore_plans (c : Chip) (f : Store → Store) : (c.modStore f).plans = c.plans := rfl
@[simp] theorem modStore_screen (c : Chip) (f : Store → Store) : (c.modStore f).screen = c.screen := rfl
@[simp] theorem modStore_engines (c : Chip) (f : Store → Store) : (c.modStore f).engines = c.engines := rfl
@[simp] theorem modStore_units (c : Chip) (f : Store → Store) : (c.modStore f).units = c.units := rfl
@[simp] theorem modStore_linkOpts (c : Chip) (f : Store → Store) : (c.modStore f).linkOpts = c.linkOpts := rfl
@[simp] theorem modStore_linkPort (c : Chip) (f : Store → Store) : (c.modStore f).linkPort = c.linkPort := rfl
@[simp] theorem modStore_fax (c : Chip) (f : Store → Store) : (c.modStore f).fax = c.fax := rfl
@[simp] theorem modStore_faxOpts (c : Chip) (f : Store → Store) : (c.modStore f).faxOpts = c.faxOpts := rfl
@[simp] theorem modStore_faxLast (c : Chip) (f : Store → Store) : (c.modStore f).faxLast = c.faxLast := rfl
@[simp] theorem modStore_mailboxes (c : Chip) (f : Store → Store) : (c.modStore f).mailboxes = c.mailboxes := rfl
@[simp] theorem modStore_seqs (c : Chip) (f : Store → Store) : (c.modStore f).seqs = c.seqs := rfl
@[simp] theorem modStore_trees (c : Chip) (f : Store → Store) : (c.modStore f).trees = c.trees := rfl

/-! ## `modSlot` -/

@[simp] theorem modSlot_ready (c : Chip) (i : SlotNo) (f : Slot → Slot) : (c.modSlot i f).ready = c.ready := rfl
@[simp] theorem modSlot_resetCause (c : Chip) (i : SlotNo) (f : Slot → Slot) : (c.modSlot i f).resetCause = c.resetCause := rfl
@[simp] theorem modSlot_clock (c : Chip) (i : SlotNo) (f : Slot → Slot) : (c.modSlot i f).clock = c.clock := rfl
@[simp] theorem modSlot_clockNotSet (c : Chip) (i : SlotNo) (f : Slot → Slot) : (c.modSlot i f).clockNotSet = c.clockNotSet := rfl
@[simp] theorem modSlot_lowMark (c : Chip) (i : SlotNo) (f : Slot → Slot) : (c.modSlot i f).lowMark = c.lowMark := rfl
@[simp] theorem modSlot_faxReserve (c : Chip) (i : SlotNo) (f : Slot → Slot) : (c.modSlot i f).faxReserve = c.faxReserve := rfl
@[simp] theorem modSlot_priority (c : Chip) (i : SlotNo) (f : Slot → Slot) : (c.modSlot i f).priority = c.priority := rfl
@[simp] theorem modSlot_localMax (c : Chip) (i : SlotNo) (f : Slot → Slot) : (c.modSlot i f).localMax = c.localMax := rfl
@[simp] theorem modSlot_link (c : Chip) (i : SlotNo) (f : Slot → Slot) : (c.modSlot i f).link = c.link := rfl
@[simp] theorem modSlot_store (c : Chip) (i : SlotNo) (f : Slot → Slot) : (c.modSlot i f).store = { c.store with slots := upd c.store.slots i f } := rfl
@[simp] theorem modSlot_chans (c : Chip) (i : SlotNo) (f : Slot → Slot) : (c.modSlot i f).chans = c.chans := rfl
@[simp] theorem modSlot_port (c : Chip) (i : SlotNo) (f : Slot → Slot) : (c.modSlot i f).port = c.port := rfl
@[simp] theorem modSlot_codecs (c : Chip) (i : SlotNo) (f : Slot → Slot) : (c.modSlot i f).codecs = c.codecs := rfl
@[simp] theorem modSlot_epaths (c : Chip) (i : SlotNo) (f : Slot → Slot) : (c.modSlot i f).epaths = c.epaths := rfl
@[simp] theorem modSlot_readReq (c : Chip) (i : SlotNo) (f : Slot → Slot) : (c.modSlot i f).readReq = c.readReq := rfl
@[simp] theorem modSlot_writeReq (c : Chip) (i : SlotNo) (f : Slot → Slot) : (c.modSlot i f).writeReq = c.writeReq := rfl
@[simp] theorem modSlot_lines (c : Chip) (i : SlotNo) (f : Slot → Slot) : (c.modSlot i f).lines = c.lines := rfl
@[simp] theorem modSlot_calls (c : Chip) (i : SlotNo) (f : Slot → Slot) : (c.modSlot i f).calls = c.calls := rfl
@[simp] theorem modSlot_plans (c : Chip) (i : SlotNo) (f : Slot → Slot) : (c.modSlot i f).plans = c.plans := rfl
@[simp] theorem modSlot_screen (c : Chip) (i : SlotNo) (f : Slot → Slot) : (c.modSlot i f).screen = c.screen := rfl
@[simp] theorem modSlot_engines (c : Chip) (i : SlotNo) (f : Slot → Slot) : (c.modSlot i f).engines = c.engines := rfl
@[simp] theorem modSlot_units (c : Chip) (i : SlotNo) (f : Slot → Slot) : (c.modSlot i f).units = c.units := rfl
@[simp] theorem modSlot_linkOpts (c : Chip) (i : SlotNo) (f : Slot → Slot) : (c.modSlot i f).linkOpts = c.linkOpts := rfl
@[simp] theorem modSlot_linkPort (c : Chip) (i : SlotNo) (f : Slot → Slot) : (c.modSlot i f).linkPort = c.linkPort := rfl
@[simp] theorem modSlot_fax (c : Chip) (i : SlotNo) (f : Slot → Slot) : (c.modSlot i f).fax = c.fax := rfl
@[simp] theorem modSlot_faxOpts (c : Chip) (i : SlotNo) (f : Slot → Slot) : (c.modSlot i f).faxOpts = c.faxOpts := rfl
@[simp] theorem modSlot_faxLast (c : Chip) (i : SlotNo) (f : Slot → Slot) : (c.modSlot i f).faxLast = c.faxLast := rfl
@[simp] theorem modSlot_mailboxes (c : Chip) (i : SlotNo) (f : Slot → Slot) : (c.modSlot i f).mailboxes = c.mailboxes := rfl
@[simp] theorem modSlot_seqs (c : Chip) (i : SlotNo) (f : Slot → Slot) : (c.modSlot i f).seqs = c.seqs := rfl
@[simp] theorem modSlot_trees (c : Chip) (i : SlotNo) (f : Slot → Slot) : (c.modSlot i f).trees = c.trees := rfl

/-! ## `modChan` -/

@[simp] theorem modChan_ready (c : Chip) (i : ChanNo) (f : Chan → Chan) : (c.modChan i f).ready = c.ready := rfl
@[simp] theorem modChan_resetCause (c : Chip) (i : ChanNo) (f : Chan → Chan) : (c.modChan i f).resetCause = c.resetCause := rfl
@[simp] theorem modChan_clock (c : Chip) (i : ChanNo) (f : Chan → Chan) : (c.modChan i f).clock = c.clock := rfl
@[simp] theorem modChan_clockNotSet (c : Chip) (i : ChanNo) (f : Chan → Chan) : (c.modChan i f).clockNotSet = c.clockNotSet := rfl
@[simp] theorem modChan_lowMark (c : Chip) (i : ChanNo) (f : Chan → Chan) : (c.modChan i f).lowMark = c.lowMark := rfl
@[simp] theorem modChan_faxReserve (c : Chip) (i : ChanNo) (f : Chan → Chan) : (c.modChan i f).faxReserve = c.faxReserve := rfl
@[simp] theorem modChan_priority (c : Chip) (i : ChanNo) (f : Chan → Chan) : (c.modChan i f).priority = c.priority := rfl
@[simp] theorem modChan_localMax (c : Chip) (i : ChanNo) (f : Chan → Chan) : (c.modChan i f).localMax = c.localMax := rfl
@[simp] theorem modChan_link (c : Chip) (i : ChanNo) (f : Chan → Chan) : (c.modChan i f).link = c.link := rfl
@[simp] theorem modChan_store (c : Chip) (i : ChanNo) (f : Chan → Chan) : (c.modChan i f).store = c.store := rfl
@[simp] theorem modChan_chans (c : Chip) (i : ChanNo) (f : Chan → Chan) : (c.modChan i f).chans = upd c.chans i f := rfl
@[simp] theorem modChan_port (c : Chip) (i : ChanNo) (f : Chan → Chan) : (c.modChan i f).port = c.port := rfl
@[simp] theorem modChan_codecs (c : Chip) (i : ChanNo) (f : Chan → Chan) : (c.modChan i f).codecs = c.codecs := rfl
@[simp] theorem modChan_epaths (c : Chip) (i : ChanNo) (f : Chan → Chan) : (c.modChan i f).epaths = c.epaths := rfl
@[simp] theorem modChan_readReq (c : Chip) (i : ChanNo) (f : Chan → Chan) : (c.modChan i f).readReq = c.readReq := rfl
@[simp] theorem modChan_writeReq (c : Chip) (i : ChanNo) (f : Chan → Chan) : (c.modChan i f).writeReq = c.writeReq := rfl
@[simp] theorem modChan_lines (c : Chip) (i : ChanNo) (f : Chan → Chan) : (c.modChan i f).lines = c.lines := rfl
@[simp] theorem modChan_calls (c : Chip) (i : ChanNo) (f : Chan → Chan) : (c.modChan i f).calls = c.calls := rfl
@[simp] theorem modChan_plans (c : Chip) (i : ChanNo) (f : Chan → Chan) : (c.modChan i f).plans = c.plans := rfl
@[simp] theorem modChan_screen (c : Chip) (i : ChanNo) (f : Chan → Chan) : (c.modChan i f).screen = c.screen := rfl
@[simp] theorem modChan_engines (c : Chip) (i : ChanNo) (f : Chan → Chan) : (c.modChan i f).engines = c.engines := rfl
@[simp] theorem modChan_units (c : Chip) (i : ChanNo) (f : Chan → Chan) : (c.modChan i f).units = c.units := rfl
@[simp] theorem modChan_linkOpts (c : Chip) (i : ChanNo) (f : Chan → Chan) : (c.modChan i f).linkOpts = c.linkOpts := rfl
@[simp] theorem modChan_linkPort (c : Chip) (i : ChanNo) (f : Chan → Chan) : (c.modChan i f).linkPort = c.linkPort := rfl
@[simp] theorem modChan_fax (c : Chip) (i : ChanNo) (f : Chan → Chan) : (c.modChan i f).fax = c.fax := rfl
@[simp] theorem modChan_faxOpts (c : Chip) (i : ChanNo) (f : Chan → Chan) : (c.modChan i f).faxOpts = c.faxOpts := rfl
@[simp] theorem modChan_faxLast (c : Chip) (i : ChanNo) (f : Chan → Chan) : (c.modChan i f).faxLast = c.faxLast := rfl
@[simp] theorem modChan_mailboxes (c : Chip) (i : ChanNo) (f : Chan → Chan) : (c.modChan i f).mailboxes = c.mailboxes := rfl
@[simp] theorem modChan_seqs (c : Chip) (i : ChanNo) (f : Chan → Chan) : (c.modChan i f).seqs = c.seqs := rfl
@[simp] theorem modChan_trees (c : Chip) (i : ChanNo) (f : Chan → Chan) : (c.modChan i f).trees = c.trees := rfl

/-! ## `modCodec` -/

@[simp] theorem modCodec_ready (c : Chip) (l : LineNo) (f : Codec → Codec) : (c.modCodec l f).ready = c.ready := rfl
@[simp] theorem modCodec_resetCause (c : Chip) (l : LineNo) (f : Codec → Codec) : (c.modCodec l f).resetCause = c.resetCause := rfl
@[simp] theorem modCodec_clock (c : Chip) (l : LineNo) (f : Codec → Codec) : (c.modCodec l f).clock = c.clock := rfl
@[simp] theorem modCodec_clockNotSet (c : Chip) (l : LineNo) (f : Codec → Codec) : (c.modCodec l f).clockNotSet = c.clockNotSet := rfl
@[simp] theorem modCodec_lowMark (c : Chip) (l : LineNo) (f : Codec → Codec) : (c.modCodec l f).lowMark = c.lowMark := rfl
@[simp] theorem modCodec_faxReserve (c : Chip) (l : LineNo) (f : Codec → Codec) : (c.modCodec l f).faxReserve = c.faxReserve := rfl
@[simp] theorem modCodec_priority (c : Chip) (l : LineNo) (f : Codec → Codec) : (c.modCodec l f).priority = c.priority := rfl
@[simp] theorem modCodec_localMax (c : Chip) (l : LineNo) (f : Codec → Codec) : (c.modCodec l f).localMax = c.localMax := rfl
@[simp] theorem modCodec_link (c : Chip) (l : LineNo) (f : Codec → Codec) : (c.modCodec l f).link = c.link := rfl
@[simp] theorem modCodec_store (c : Chip) (l : LineNo) (f : Codec → Codec) : (c.modCodec l f).store = c.store := rfl
@[simp] theorem modCodec_chans (c : Chip) (l : LineNo) (f : Codec → Codec) : (c.modCodec l f).chans = c.chans := rfl
@[simp] theorem modCodec_port (c : Chip) (l : LineNo) (f : Codec → Codec) : (c.modCodec l f).port = c.port := rfl
@[simp] theorem modCodec_codecs (c : Chip) (l : LineNo) (f : Codec → Codec) : (c.modCodec l f).codecs = upd c.codecs l f := rfl
@[simp] theorem modCodec_epaths (c : Chip) (l : LineNo) (f : Codec → Codec) : (c.modCodec l f).epaths = c.epaths := rfl
@[simp] theorem modCodec_readReq (c : Chip) (l : LineNo) (f : Codec → Codec) : (c.modCodec l f).readReq = c.readReq := rfl
@[simp] theorem modCodec_writeReq (c : Chip) (l : LineNo) (f : Codec → Codec) : (c.modCodec l f).writeReq = c.writeReq := rfl
@[simp] theorem modCodec_lines (c : Chip) (l : LineNo) (f : Codec → Codec) : (c.modCodec l f).lines = c.lines := rfl
@[simp] theorem modCodec_calls (c : Chip) (l : LineNo) (f : Codec → Codec) : (c.modCodec l f).calls = c.calls := rfl
@[simp] theorem modCodec_plans (c : Chip) (l : LineNo) (f : Codec → Codec) : (c.modCodec l f).plans = c.plans := rfl
@[simp] theorem modCodec_screen (c : Chip) (l : LineNo) (f : Codec → Codec) : (c.modCodec l f).screen = c.screen := rfl
@[simp] theorem modCodec_engines (c : Chip) (l : LineNo) (f : Codec → Codec) : (c.modCodec l f).engines = c.engines := rfl
@[simp] theorem modCodec_units (c : Chip) (l : LineNo) (f : Codec → Codec) : (c.modCodec l f).units = c.units := rfl
@[simp] theorem modCodec_linkOpts (c : Chip) (l : LineNo) (f : Codec → Codec) : (c.modCodec l f).linkOpts = c.linkOpts := rfl
@[simp] theorem modCodec_linkPort (c : Chip) (l : LineNo) (f : Codec → Codec) : (c.modCodec l f).linkPort = c.linkPort := rfl
@[simp] theorem modCodec_fax (c : Chip) (l : LineNo) (f : Codec → Codec) : (c.modCodec l f).fax = c.fax := rfl
@[simp] theorem modCodec_faxOpts (c : Chip) (l : LineNo) (f : Codec → Codec) : (c.modCodec l f).faxOpts = c.faxOpts := rfl
@[simp] theorem modCodec_faxLast (c : Chip) (l : LineNo) (f : Codec → Codec) : (c.modCodec l f).faxLast = c.faxLast := rfl
@[simp] theorem modCodec_mailboxes (c : Chip) (l : LineNo) (f : Codec → Codec) : (c.modCodec l f).mailboxes = c.mailboxes := rfl
@[simp] theorem modCodec_seqs (c : Chip) (l : LineNo) (f : Codec → Codec) : (c.modCodec l f).seqs = c.seqs := rfl
@[simp] theorem modCodec_trees (c : Chip) (l : LineNo) (f : Codec → Codec) : (c.modCodec l f).trees = c.trees := rfl

/-! ## `modEpath` -/

@[simp] theorem modEpath_ready (c : Chip) (l : LineNo) (f : PathBuf → PathBuf) : (c.modEpath l f).ready = c.ready := rfl
@[simp] theorem modEpath_resetCause (c : Chip) (l : LineNo) (f : PathBuf → PathBuf) : (c.modEpath l f).resetCause = c.resetCause := rfl
@[simp] theorem modEpath_clock (c : Chip) (l : LineNo) (f : PathBuf → PathBuf) : (c.modEpath l f).clock = c.clock := rfl
@[simp] theorem modEpath_clockNotSet (c : Chip) (l : LineNo) (f : PathBuf → PathBuf) : (c.modEpath l f).clockNotSet = c.clockNotSet := rfl
@[simp] theorem modEpath_lowMark (c : Chip) (l : LineNo) (f : PathBuf → PathBuf) : (c.modEpath l f).lowMark = c.lowMark := rfl
@[simp] theorem modEpath_faxReserve (c : Chip) (l : LineNo) (f : PathBuf → PathBuf) : (c.modEpath l f).faxReserve = c.faxReserve := rfl
@[simp] theorem modEpath_priority (c : Chip) (l : LineNo) (f : PathBuf → PathBuf) : (c.modEpath l f).priority = c.priority := rfl
@[simp] theorem modEpath_localMax (c : Chip) (l : LineNo) (f : PathBuf → PathBuf) : (c.modEpath l f).localMax = c.localMax := rfl
@[simp] theorem modEpath_link (c : Chip) (l : LineNo) (f : PathBuf → PathBuf) : (c.modEpath l f).link = c.link := rfl
@[simp] theorem modEpath_store (c : Chip) (l : LineNo) (f : PathBuf → PathBuf) : (c.modEpath l f).store = c.store := rfl
@[simp] theorem modEpath_chans (c : Chip) (l : LineNo) (f : PathBuf → PathBuf) : (c.modEpath l f).chans = c.chans := rfl
@[simp] theorem modEpath_port (c : Chip) (l : LineNo) (f : PathBuf → PathBuf) : (c.modEpath l f).port = c.port := rfl
@[simp] theorem modEpath_codecs (c : Chip) (l : LineNo) (f : PathBuf → PathBuf) : (c.modEpath l f).codecs = c.codecs := rfl
@[simp] theorem modEpath_epaths (c : Chip) (l : LineNo) (f : PathBuf → PathBuf) : (c.modEpath l f).epaths = upd c.epaths l f := rfl
@[simp] theorem modEpath_readReq (c : Chip) (l : LineNo) (f : PathBuf → PathBuf) : (c.modEpath l f).readReq = c.readReq := rfl
@[simp] theorem modEpath_writeReq (c : Chip) (l : LineNo) (f : PathBuf → PathBuf) : (c.modEpath l f).writeReq = c.writeReq := rfl
@[simp] theorem modEpath_lines (c : Chip) (l : LineNo) (f : PathBuf → PathBuf) : (c.modEpath l f).lines = c.lines := rfl
@[simp] theorem modEpath_calls (c : Chip) (l : LineNo) (f : PathBuf → PathBuf) : (c.modEpath l f).calls = c.calls := rfl
@[simp] theorem modEpath_plans (c : Chip) (l : LineNo) (f : PathBuf → PathBuf) : (c.modEpath l f).plans = c.plans := rfl
@[simp] theorem modEpath_screen (c : Chip) (l : LineNo) (f : PathBuf → PathBuf) : (c.modEpath l f).screen = c.screen := rfl
@[simp] theorem modEpath_engines (c : Chip) (l : LineNo) (f : PathBuf → PathBuf) : (c.modEpath l f).engines = c.engines := rfl
@[simp] theorem modEpath_units (c : Chip) (l : LineNo) (f : PathBuf → PathBuf) : (c.modEpath l f).units = c.units := rfl
@[simp] theorem modEpath_linkOpts (c : Chip) (l : LineNo) (f : PathBuf → PathBuf) : (c.modEpath l f).linkOpts = c.linkOpts := rfl
@[simp] theorem modEpath_linkPort (c : Chip) (l : LineNo) (f : PathBuf → PathBuf) : (c.modEpath l f).linkPort = c.linkPort := rfl
@[simp] theorem modEpath_fax (c : Chip) (l : LineNo) (f : PathBuf → PathBuf) : (c.modEpath l f).fax = c.fax := rfl
@[simp] theorem modEpath_faxOpts (c : Chip) (l : LineNo) (f : PathBuf → PathBuf) : (c.modEpath l f).faxOpts = c.faxOpts := rfl
@[simp] theorem modEpath_faxLast (c : Chip) (l : LineNo) (f : PathBuf → PathBuf) : (c.modEpath l f).faxLast = c.faxLast := rfl
@[simp] theorem modEpath_mailboxes (c : Chip) (l : LineNo) (f : PathBuf → PathBuf) : (c.modEpath l f).mailboxes = c.mailboxes := rfl
@[simp] theorem modEpath_seqs (c : Chip) (l : LineNo) (f : PathBuf → PathBuf) : (c.modEpath l f).seqs = c.seqs := rfl
@[simp] theorem modEpath_trees (c : Chip) (l : LineNo) (f : PathBuf → PathBuf) : (c.modEpath l f).trees = c.trees := rfl

/-! ## `modLine` -/

@[simp] theorem modLine_ready (c : Chip) (l : LineNo) (f : Line → Line) : (c.modLine l f).ready = c.ready := rfl
@[simp] theorem modLine_resetCause (c : Chip) (l : LineNo) (f : Line → Line) : (c.modLine l f).resetCause = c.resetCause := rfl
@[simp] theorem modLine_clock (c : Chip) (l : LineNo) (f : Line → Line) : (c.modLine l f).clock = c.clock := rfl
@[simp] theorem modLine_clockNotSet (c : Chip) (l : LineNo) (f : Line → Line) : (c.modLine l f).clockNotSet = c.clockNotSet := rfl
@[simp] theorem modLine_lowMark (c : Chip) (l : LineNo) (f : Line → Line) : (c.modLine l f).lowMark = c.lowMark := rfl
@[simp] theorem modLine_faxReserve (c : Chip) (l : LineNo) (f : Line → Line) : (c.modLine l f).faxReserve = c.faxReserve := rfl
@[simp] theorem modLine_priority (c : Chip) (l : LineNo) (f : Line → Line) : (c.modLine l f).priority = c.priority := rfl
@[simp] theorem modLine_localMax (c : Chip) (l : LineNo) (f : Line → Line) : (c.modLine l f).localMax = c.localMax := rfl
@[simp] theorem modLine_link (c : Chip) (l : LineNo) (f : Line → Line) : (c.modLine l f).link = c.link := rfl
@[simp] theorem modLine_store (c : Chip) (l : LineNo) (f : Line → Line) : (c.modLine l f).store = c.store := rfl
@[simp] theorem modLine_chans (c : Chip) (l : LineNo) (f : Line → Line) : (c.modLine l f).chans = c.chans := rfl
@[simp] theorem modLine_port (c : Chip) (l : LineNo) (f : Line → Line) : (c.modLine l f).port = c.port := rfl
@[simp] theorem modLine_codecs (c : Chip) (l : LineNo) (f : Line → Line) : (c.modLine l f).codecs = c.codecs := rfl
@[simp] theorem modLine_epaths (c : Chip) (l : LineNo) (f : Line → Line) : (c.modLine l f).epaths = c.epaths := rfl
@[simp] theorem modLine_readReq (c : Chip) (l : LineNo) (f : Line → Line) : (c.modLine l f).readReq = c.readReq := rfl
@[simp] theorem modLine_writeReq (c : Chip) (l : LineNo) (f : Line → Line) : (c.modLine l f).writeReq = c.writeReq := rfl
@[simp] theorem modLine_lines (c : Chip) (l : LineNo) (f : Line → Line) : (c.modLine l f).lines = upd c.lines l f := rfl
@[simp] theorem modLine_calls (c : Chip) (l : LineNo) (f : Line → Line) : (c.modLine l f).calls = c.calls := rfl
@[simp] theorem modLine_plans (c : Chip) (l : LineNo) (f : Line → Line) : (c.modLine l f).plans = c.plans := rfl
@[simp] theorem modLine_screen (c : Chip) (l : LineNo) (f : Line → Line) : (c.modLine l f).screen = c.screen := rfl
@[simp] theorem modLine_engines (c : Chip) (l : LineNo) (f : Line → Line) : (c.modLine l f).engines = c.engines := rfl
@[simp] theorem modLine_units (c : Chip) (l : LineNo) (f : Line → Line) : (c.modLine l f).units = c.units := rfl
@[simp] theorem modLine_linkOpts (c : Chip) (l : LineNo) (f : Line → Line) : (c.modLine l f).linkOpts = c.linkOpts := rfl
@[simp] theorem modLine_linkPort (c : Chip) (l : LineNo) (f : Line → Line) : (c.modLine l f).linkPort = c.linkPort := rfl
@[simp] theorem modLine_fax (c : Chip) (l : LineNo) (f : Line → Line) : (c.modLine l f).fax = c.fax := rfl
@[simp] theorem modLine_faxOpts (c : Chip) (l : LineNo) (f : Line → Line) : (c.modLine l f).faxOpts = c.faxOpts := rfl
@[simp] theorem modLine_faxLast (c : Chip) (l : LineNo) (f : Line → Line) : (c.modLine l f).faxLast = c.faxLast := rfl
@[simp] theorem modLine_mailboxes (c : Chip) (l : LineNo) (f : Line → Line) : (c.modLine l f).mailboxes = c.mailboxes := rfl
@[simp] theorem modLine_seqs (c : Chip) (l : LineNo) (f : Line → Line) : (c.modLine l f).seqs = c.seqs := rfl
@[simp] theorem modLine_trees (c : Chip) (l : LineNo) (f : Line → Line) : (c.modLine l f).trees = c.trees := rfl

/-! ## `modCall` -/

@[simp] theorem modCall_ready (c : Chip) (l : LineNo) (f : Call → Call) : (c.modCall l f).ready = c.ready := rfl
@[simp] theorem modCall_resetCause (c : Chip) (l : LineNo) (f : Call → Call) : (c.modCall l f).resetCause = c.resetCause := rfl
@[simp] theorem modCall_clock (c : Chip) (l : LineNo) (f : Call → Call) : (c.modCall l f).clock = c.clock := rfl
@[simp] theorem modCall_clockNotSet (c : Chip) (l : LineNo) (f : Call → Call) : (c.modCall l f).clockNotSet = c.clockNotSet := rfl
@[simp] theorem modCall_lowMark (c : Chip) (l : LineNo) (f : Call → Call) : (c.modCall l f).lowMark = c.lowMark := rfl
@[simp] theorem modCall_faxReserve (c : Chip) (l : LineNo) (f : Call → Call) : (c.modCall l f).faxReserve = c.faxReserve := rfl
@[simp] theorem modCall_priority (c : Chip) (l : LineNo) (f : Call → Call) : (c.modCall l f).priority = c.priority := rfl
@[simp] theorem modCall_localMax (c : Chip) (l : LineNo) (f : Call → Call) : (c.modCall l f).localMax = c.localMax := rfl
@[simp] theorem modCall_link (c : Chip) (l : LineNo) (f : Call → Call) : (c.modCall l f).link = c.link := rfl
@[simp] theorem modCall_store (c : Chip) (l : LineNo) (f : Call → Call) : (c.modCall l f).store = c.store := rfl
@[simp] theorem modCall_chans (c : Chip) (l : LineNo) (f : Call → Call) : (c.modCall l f).chans = c.chans := rfl
@[simp] theorem modCall_port (c : Chip) (l : LineNo) (f : Call → Call) : (c.modCall l f).port = c.port := rfl
@[simp] theorem modCall_codecs (c : Chip) (l : LineNo) (f : Call → Call) : (c.modCall l f).codecs = c.codecs := rfl
@[simp] theorem modCall_epaths (c : Chip) (l : LineNo) (f : Call → Call) : (c.modCall l f).epaths = c.epaths := rfl
@[simp] theorem modCall_readReq (c : Chip) (l : LineNo) (f : Call → Call) : (c.modCall l f).readReq = c.readReq := rfl
@[simp] theorem modCall_writeReq (c : Chip) (l : LineNo) (f : Call → Call) : (c.modCall l f).writeReq = c.writeReq := rfl
@[simp] theorem modCall_lines (c : Chip) (l : LineNo) (f : Call → Call) : (c.modCall l f).lines = c.lines := rfl
@[simp] theorem modCall_calls (c : Chip) (l : LineNo) (f : Call → Call) : (c.modCall l f).calls = upd c.calls l f := rfl
@[simp] theorem modCall_plans (c : Chip) (l : LineNo) (f : Call → Call) : (c.modCall l f).plans = c.plans := rfl
@[simp] theorem modCall_screen (c : Chip) (l : LineNo) (f : Call → Call) : (c.modCall l f).screen = c.screen := rfl
@[simp] theorem modCall_engines (c : Chip) (l : LineNo) (f : Call → Call) : (c.modCall l f).engines = c.engines := rfl
@[simp] theorem modCall_units (c : Chip) (l : LineNo) (f : Call → Call) : (c.modCall l f).units = c.units := rfl
@[simp] theorem modCall_linkOpts (c : Chip) (l : LineNo) (f : Call → Call) : (c.modCall l f).linkOpts = c.linkOpts := rfl
@[simp] theorem modCall_linkPort (c : Chip) (l : LineNo) (f : Call → Call) : (c.modCall l f).linkPort = c.linkPort := rfl
@[simp] theorem modCall_fax (c : Chip) (l : LineNo) (f : Call → Call) : (c.modCall l f).fax = c.fax := rfl
@[simp] theorem modCall_faxOpts (c : Chip) (l : LineNo) (f : Call → Call) : (c.modCall l f).faxOpts = c.faxOpts := rfl
@[simp] theorem modCall_faxLast (c : Chip) (l : LineNo) (f : Call → Call) : (c.modCall l f).faxLast = c.faxLast := rfl
@[simp] theorem modCall_mailboxes (c : Chip) (l : LineNo) (f : Call → Call) : (c.modCall l f).mailboxes = c.mailboxes := rfl
@[simp] theorem modCall_seqs (c : Chip) (l : LineNo) (f : Call → Call) : (c.modCall l f).seqs = c.seqs := rfl
@[simp] theorem modCall_trees (c : Chip) (l : LineNo) (f : Call → Call) : (c.modCall l f).trees = c.trees := rfl

/-! ## `modEngine` -/

@[simp] theorem modEngine_ready (c : Chip) (e : EngineNo) (f : Engine → Engine) : (c.modEngine e f).ready = c.ready := rfl
@[simp] theorem modEngine_resetCause (c : Chip) (e : EngineNo) (f : Engine → Engine) : (c.modEngine e f).resetCause = c.resetCause := rfl
@[simp] theorem modEngine_clock (c : Chip) (e : EngineNo) (f : Engine → Engine) : (c.modEngine e f).clock = c.clock := rfl
@[simp] theorem modEngine_clockNotSet (c : Chip) (e : EngineNo) (f : Engine → Engine) : (c.modEngine e f).clockNotSet = c.clockNotSet := rfl
@[simp] theorem modEngine_lowMark (c : Chip) (e : EngineNo) (f : Engine → Engine) : (c.modEngine e f).lowMark = c.lowMark := rfl
@[simp] theorem modEngine_faxReserve (c : Chip) (e : EngineNo) (f : Engine → Engine) : (c.modEngine e f).faxReserve = c.faxReserve := rfl
@[simp] theorem modEngine_priority (c : Chip) (e : EngineNo) (f : Engine → Engine) : (c.modEngine e f).priority = c.priority := rfl
@[simp] theorem modEngine_localMax (c : Chip) (e : EngineNo) (f : Engine → Engine) : (c.modEngine e f).localMax = c.localMax := rfl
@[simp] theorem modEngine_link (c : Chip) (e : EngineNo) (f : Engine → Engine) : (c.modEngine e f).link = c.link := rfl
@[simp] theorem modEngine_store (c : Chip) (e : EngineNo) (f : Engine → Engine) : (c.modEngine e f).store = c.store := rfl
@[simp] theorem modEngine_chans (c : Chip) (e : EngineNo) (f : Engine → Engine) : (c.modEngine e f).chans = c.chans := rfl
@[simp] theorem modEngine_port (c : Chip) (e : EngineNo) (f : Engine → Engine) : (c.modEngine e f).port = c.port := rfl
@[simp] theorem modEngine_codecs (c : Chip) (e : EngineNo) (f : Engine → Engine) : (c.modEngine e f).codecs = c.codecs := rfl
@[simp] theorem modEngine_epaths (c : Chip) (e : EngineNo) (f : Engine → Engine) : (c.modEngine e f).epaths = c.epaths := rfl
@[simp] theorem modEngine_readReq (c : Chip) (e : EngineNo) (f : Engine → Engine) : (c.modEngine e f).readReq = c.readReq := rfl
@[simp] theorem modEngine_writeReq (c : Chip) (e : EngineNo) (f : Engine → Engine) : (c.modEngine e f).writeReq = c.writeReq := rfl
@[simp] theorem modEngine_lines (c : Chip) (e : EngineNo) (f : Engine → Engine) : (c.modEngine e f).lines = c.lines := rfl
@[simp] theorem modEngine_calls (c : Chip) (e : EngineNo) (f : Engine → Engine) : (c.modEngine e f).calls = c.calls := rfl
@[simp] theorem modEngine_plans (c : Chip) (e : EngineNo) (f : Engine → Engine) : (c.modEngine e f).plans = c.plans := rfl
@[simp] theorem modEngine_screen (c : Chip) (e : EngineNo) (f : Engine → Engine) : (c.modEngine e f).screen = c.screen := rfl
@[simp] theorem modEngine_engines (c : Chip) (e : EngineNo) (f : Engine → Engine) : (c.modEngine e f).engines = upd c.engines e f := rfl
@[simp] theorem modEngine_units (c : Chip) (e : EngineNo) (f : Engine → Engine) : (c.modEngine e f).units = c.units := rfl
@[simp] theorem modEngine_linkOpts (c : Chip) (e : EngineNo) (f : Engine → Engine) : (c.modEngine e f).linkOpts = c.linkOpts := rfl
@[simp] theorem modEngine_linkPort (c : Chip) (e : EngineNo) (f : Engine → Engine) : (c.modEngine e f).linkPort = c.linkPort := rfl
@[simp] theorem modEngine_fax (c : Chip) (e : EngineNo) (f : Engine → Engine) : (c.modEngine e f).fax = c.fax := rfl
@[simp] theorem modEngine_faxOpts (c : Chip) (e : EngineNo) (f : Engine → Engine) : (c.modEngine e f).faxOpts = c.faxOpts := rfl
@[simp] theorem modEngine_faxLast (c : Chip) (e : EngineNo) (f : Engine → Engine) : (c.modEngine e f).faxLast = c.faxLast := rfl
@[simp] theorem modEngine_mailboxes (c : Chip) (e : EngineNo) (f : Engine → Engine) : (c.modEngine e f).mailboxes = c.mailboxes := rfl
@[simp] theorem modEngine_seqs (c : Chip) (e : EngineNo) (f : Engine → Engine) : (c.modEngine e f).seqs = c.seqs := rfl
@[simp] theorem modEngine_trees (c : Chip) (e : EngineNo) (f : Engine → Engine) : (c.modEngine e f).trees = c.trees := rfl

/-! ## `modUnit` -/

@[simp] theorem modUnit_ready (c : Chip) (e : EngineNo) (f : DataLink → DataLink) : (c.modUnit e f).ready = c.ready := rfl
@[simp] theorem modUnit_resetCause (c : Chip) (e : EngineNo) (f : DataLink → DataLink) : (c.modUnit e f).resetCause = c.resetCause := rfl
@[simp] theorem modUnit_clock (c : Chip) (e : EngineNo) (f : DataLink → DataLink) : (c.modUnit e f).clock = c.clock := rfl
@[simp] theorem modUnit_clockNotSet (c : Chip) (e : EngineNo) (f : DataLink → DataLink) : (c.modUnit e f).clockNotSet = c.clockNotSet := rfl
@[simp] theorem modUnit_lowMark (c : Chip) (e : EngineNo) (f : DataLink → DataLink) : (c.modUnit e f).lowMark = c.lowMark := rfl
@[simp] theorem modUnit_faxReserve (c : Chip) (e : EngineNo) (f : DataLink → DataLink) : (c.modUnit e f).faxReserve = c.faxReserve := rfl
@[simp] theorem modUnit_priority (c : Chip) (e : EngineNo) (f : DataLink → DataLink) : (c.modUnit e f).priority = c.priority := rfl
@[simp] theorem modUnit_localMax (c : Chip) (e : EngineNo) (f : DataLink → DataLink) : (c.modUnit e f).localMax = c.localMax := rfl
@[simp] theorem modUnit_link (c : Chip) (e : EngineNo) (f : DataLink → DataLink) : (c.modUnit e f).link = c.link := rfl
@[simp] theorem modUnit_store (c : Chip) (e : EngineNo) (f : DataLink → DataLink) : (c.modUnit e f).store = c.store := rfl
@[simp] theorem modUnit_chans (c : Chip) (e : EngineNo) (f : DataLink → DataLink) : (c.modUnit e f).chans = c.chans := rfl
@[simp] theorem modUnit_port (c : Chip) (e : EngineNo) (f : DataLink → DataLink) : (c.modUnit e f).port = c.port := rfl
@[simp] theorem modUnit_codecs (c : Chip) (e : EngineNo) (f : DataLink → DataLink) : (c.modUnit e f).codecs = c.codecs := rfl
@[simp] theorem modUnit_epaths (c : Chip) (e : EngineNo) (f : DataLink → DataLink) : (c.modUnit e f).epaths = c.epaths := rfl
@[simp] theorem modUnit_readReq (c : Chip) (e : EngineNo) (f : DataLink → DataLink) : (c.modUnit e f).readReq = c.readReq := rfl
@[simp] theorem modUnit_writeReq (c : Chip) (e : EngineNo) (f : DataLink → DataLink) : (c.modUnit e f).writeReq = c.writeReq := rfl
@[simp] theorem modUnit_lines (c : Chip) (e : EngineNo) (f : DataLink → DataLink) : (c.modUnit e f).lines = c.lines := rfl
@[simp] theorem modUnit_calls (c : Chip) (e : EngineNo) (f : DataLink → DataLink) : (c.modUnit e f).calls = c.calls := rfl
@[simp] theorem modUnit_plans (c : Chip) (e : EngineNo) (f : DataLink → DataLink) : (c.modUnit e f).plans = c.plans := rfl
@[simp] theorem modUnit_screen (c : Chip) (e : EngineNo) (f : DataLink → DataLink) : (c.modUnit e f).screen = c.screen := rfl
@[simp] theorem modUnit_engines (c : Chip) (e : EngineNo) (f : DataLink → DataLink) : (c.modUnit e f).engines = c.engines := rfl
@[simp] theorem modUnit_units (c : Chip) (e : EngineNo) (f : DataLink → DataLink) : (c.modUnit e f).units = upd c.units e f := rfl
@[simp] theorem modUnit_linkOpts (c : Chip) (e : EngineNo) (f : DataLink → DataLink) : (c.modUnit e f).linkOpts = c.linkOpts := rfl
@[simp] theorem modUnit_linkPort (c : Chip) (e : EngineNo) (f : DataLink → DataLink) : (c.modUnit e f).linkPort = c.linkPort := rfl
@[simp] theorem modUnit_fax (c : Chip) (e : EngineNo) (f : DataLink → DataLink) : (c.modUnit e f).fax = c.fax := rfl
@[simp] theorem modUnit_faxOpts (c : Chip) (e : EngineNo) (f : DataLink → DataLink) : (c.modUnit e f).faxOpts = c.faxOpts := rfl
@[simp] theorem modUnit_faxLast (c : Chip) (e : EngineNo) (f : DataLink → DataLink) : (c.modUnit e f).faxLast = c.faxLast := rfl
@[simp] theorem modUnit_mailboxes (c : Chip) (e : EngineNo) (f : DataLink → DataLink) : (c.modUnit e f).mailboxes = c.mailboxes := rfl
@[simp] theorem modUnit_seqs (c : Chip) (e : EngineNo) (f : DataLink → DataLink) : (c.modUnit e f).seqs = c.seqs := rfl
@[simp] theorem modUnit_trees (c : Chip) (e : EngineNo) (f : DataLink → DataLink) : (c.modUnit e f).trees = c.trees := rfl

/-! ## `modFax` -/

@[simp] theorem modFax_ready (c : Chip) (l : LineNo) (f : FaxJob → FaxJob) : (c.modFax l f).ready = c.ready := rfl
@[simp] theorem modFax_resetCause (c : Chip) (l : LineNo) (f : FaxJob → FaxJob) : (c.modFax l f).resetCause = c.resetCause := rfl
@[simp] theorem modFax_clock (c : Chip) (l : LineNo) (f : FaxJob → FaxJob) : (c.modFax l f).clock = c.clock := rfl
@[simp] theorem modFax_clockNotSet (c : Chip) (l : LineNo) (f : FaxJob → FaxJob) : (c.modFax l f).clockNotSet = c.clockNotSet := rfl
@[simp] theorem modFax_lowMark (c : Chip) (l : LineNo) (f : FaxJob → FaxJob) : (c.modFax l f).lowMark = c.lowMark := rfl
@[simp] theorem modFax_faxReserve (c : Chip) (l : LineNo) (f : FaxJob → FaxJob) : (c.modFax l f).faxReserve = c.faxReserve := rfl
@[simp] theorem modFax_priority (c : Chip) (l : LineNo) (f : FaxJob → FaxJob) : (c.modFax l f).priority = c.priority := rfl
@[simp] theorem modFax_localMax (c : Chip) (l : LineNo) (f : FaxJob → FaxJob) : (c.modFax l f).localMax = c.localMax := rfl
@[simp] theorem modFax_link (c : Chip) (l : LineNo) (f : FaxJob → FaxJob) : (c.modFax l f).link = c.link := rfl
@[simp] theorem modFax_store (c : Chip) (l : LineNo) (f : FaxJob → FaxJob) : (c.modFax l f).store = c.store := rfl
@[simp] theorem modFax_chans (c : Chip) (l : LineNo) (f : FaxJob → FaxJob) : (c.modFax l f).chans = c.chans := rfl
@[simp] theorem modFax_port (c : Chip) (l : LineNo) (f : FaxJob → FaxJob) : (c.modFax l f).port = c.port := rfl
@[simp] theorem modFax_codecs (c : Chip) (l : LineNo) (f : FaxJob → FaxJob) : (c.modFax l f).codecs = c.codecs := rfl
@[simp] theorem modFax_epaths (c : Chip) (l : LineNo) (f : FaxJob → FaxJob) : (c.modFax l f).epaths = c.epaths := rfl
@[simp] theorem modFax_readReq (c : Chip) (l : LineNo) (f : FaxJob → FaxJob) : (c.modFax l f).readReq = c.readReq := rfl
@[simp] theorem modFax_writeReq (c : Chip) (l : LineNo) (f : FaxJob → FaxJob) : (c.modFax l f).writeReq = c.writeReq := rfl
@[simp] theorem modFax_lines (c : Chip) (l : LineNo) (f : FaxJob → FaxJob) : (c.modFax l f).lines = c.lines := rfl
@[simp] theorem modFax_calls (c : Chip) (l : LineNo) (f : FaxJob → FaxJob) : (c.modFax l f).calls = c.calls := rfl
@[simp] theorem modFax_plans (c : Chip) (l : LineNo) (f : FaxJob → FaxJob) : (c.modFax l f).plans = c.plans := rfl
@[simp] theorem modFax_screen (c : Chip) (l : LineNo) (f : FaxJob → FaxJob) : (c.modFax l f).screen = c.screen := rfl
@[simp] theorem modFax_engines (c : Chip) (l : LineNo) (f : FaxJob → FaxJob) : (c.modFax l f).engines = c.engines := rfl
@[simp] theorem modFax_units (c : Chip) (l : LineNo) (f : FaxJob → FaxJob) : (c.modFax l f).units = c.units := rfl
@[simp] theorem modFax_linkOpts (c : Chip) (l : LineNo) (f : FaxJob → FaxJob) : (c.modFax l f).linkOpts = c.linkOpts := rfl
@[simp] theorem modFax_linkPort (c : Chip) (l : LineNo) (f : FaxJob → FaxJob) : (c.modFax l f).linkPort = c.linkPort := rfl
@[simp] theorem modFax_fax (c : Chip) (l : LineNo) (f : FaxJob → FaxJob) : (c.modFax l f).fax = upd c.fax l (Option.map f) := rfl
@[simp] theorem modFax_faxOpts (c : Chip) (l : LineNo) (f : FaxJob → FaxJob) : (c.modFax l f).faxOpts = c.faxOpts := rfl
@[simp] theorem modFax_faxLast (c : Chip) (l : LineNo) (f : FaxJob → FaxJob) : (c.modFax l f).faxLast = c.faxLast := rfl
@[simp] theorem modFax_mailboxes (c : Chip) (l : LineNo) (f : FaxJob → FaxJob) : (c.modFax l f).mailboxes = c.mailboxes := rfl
@[simp] theorem modFax_seqs (c : Chip) (l : LineNo) (f : FaxJob → FaxJob) : (c.modFax l f).seqs = c.seqs := rfl
@[simp] theorem modFax_trees (c : Chip) (l : LineNo) (f : FaxJob → FaxJob) : (c.modFax l f).trees = c.trees := rfl

/-! ## `setFax` -/

@[simp] theorem setFax_ready (c : Chip) (l : LineNo) (j : Option FaxJob) : (c.setFax l j).ready = c.ready := rfl
@[simp] theorem setFax_resetCause (c : Chip) (l : LineNo) (j : Option FaxJob) : (c.setFax l j).resetCause = c.resetCause := rfl
@[simp] theorem setFax_clock (c : Chip) (l : LineNo) (j : Option FaxJob) : (c.setFax l j).clock = c.clock := rfl
@[simp] theorem setFax_clockNotSet (c : Chip) (l : LineNo) (j : Option FaxJob) : (c.setFax l j).clockNotSet = c.clockNotSet := rfl
@[simp] theorem setFax_lowMark (c : Chip) (l : LineNo) (j : Option FaxJob) : (c.setFax l j).lowMark = c.lowMark := rfl
@[simp] theorem setFax_faxReserve (c : Chip) (l : LineNo) (j : Option FaxJob) : (c.setFax l j).faxReserve = c.faxReserve := rfl
@[simp] theorem setFax_priority (c : Chip) (l : LineNo) (j : Option FaxJob) : (c.setFax l j).priority = c.priority := rfl
@[simp] theorem setFax_localMax (c : Chip) (l : LineNo) (j : Option FaxJob) : (c.setFax l j).localMax = c.localMax := rfl
@[simp] theorem setFax_link (c : Chip) (l : LineNo) (j : Option FaxJob) : (c.setFax l j).link = c.link := rfl
@[simp] theorem setFax_store (c : Chip) (l : LineNo) (j : Option FaxJob) : (c.setFax l j).store = c.store := rfl
@[simp] theorem setFax_chans (c : Chip) (l : LineNo) (j : Option FaxJob) : (c.setFax l j).chans = c.chans := rfl
@[simp] theorem setFax_port (c : Chip) (l : LineNo) (j : Option FaxJob) : (c.setFax l j).port = c.port := rfl
@[simp] theorem setFax_codecs (c : Chip) (l : LineNo) (j : Option FaxJob) : (c.setFax l j).codecs = c.codecs := rfl
@[simp] theorem setFax_epaths (c : Chip) (l : LineNo) (j : Option FaxJob) : (c.setFax l j).epaths = c.epaths := rfl
@[simp] theorem setFax_readReq (c : Chip) (l : LineNo) (j : Option FaxJob) : (c.setFax l j).readReq = c.readReq := rfl
@[simp] theorem setFax_writeReq (c : Chip) (l : LineNo) (j : Option FaxJob) : (c.setFax l j).writeReq = c.writeReq := rfl
@[simp] theorem setFax_lines (c : Chip) (l : LineNo) (j : Option FaxJob) : (c.setFax l j).lines = c.lines := rfl
@[simp] theorem setFax_calls (c : Chip) (l : LineNo) (j : Option FaxJob) : (c.setFax l j).calls = c.calls := rfl
@[simp] theorem setFax_plans (c : Chip) (l : LineNo) (j : Option FaxJob) : (c.setFax l j).plans = c.plans := rfl
@[simp] theorem setFax_screen (c : Chip) (l : LineNo) (j : Option FaxJob) : (c.setFax l j).screen = c.screen := rfl
@[simp] theorem setFax_engines (c : Chip) (l : LineNo) (j : Option FaxJob) : (c.setFax l j).engines = c.engines := rfl
@[simp] theorem setFax_units (c : Chip) (l : LineNo) (j : Option FaxJob) : (c.setFax l j).units = c.units := rfl
@[simp] theorem setFax_linkOpts (c : Chip) (l : LineNo) (j : Option FaxJob) : (c.setFax l j).linkOpts = c.linkOpts := rfl
@[simp] theorem setFax_linkPort (c : Chip) (l : LineNo) (j : Option FaxJob) : (c.setFax l j).linkPort = c.linkPort := rfl
@[simp] theorem setFax_fax (c : Chip) (l : LineNo) (j : Option FaxJob) : (c.setFax l j).fax = c.fax.set l j := rfl
@[simp] theorem setFax_faxOpts (c : Chip) (l : LineNo) (j : Option FaxJob) : (c.setFax l j).faxOpts = c.faxOpts := rfl
@[simp] theorem setFax_faxLast (c : Chip) (l : LineNo) (j : Option FaxJob) : (c.setFax l j).faxLast = c.faxLast := rfl
@[simp] theorem setFax_mailboxes (c : Chip) (l : LineNo) (j : Option FaxJob) : (c.setFax l j).mailboxes = c.mailboxes := rfl
@[simp] theorem setFax_seqs (c : Chip) (l : LineNo) (j : Option FaxJob) : (c.setFax l j).seqs = c.seqs := rfl
@[simp] theorem setFax_trees (c : Chip) (l : LineNo) (j : Option FaxJob) : (c.setFax l j).trees = c.trees := rfl

/-! ## `modMailbox` -/

@[simp] theorem modMailbox_ready (c : Chip) (m : MailboxNo) (f : Mailbox → Mailbox) : (c.modMailbox m f).ready = c.ready := rfl
@[simp] theorem modMailbox_resetCause (c : Chip) (m : MailboxNo) (f : Mailbox → Mailbox) : (c.modMailbox m f).resetCause = c.resetCause := rfl
@[simp] theorem modMailbox_clock (c : Chip) (m : MailboxNo) (f : Mailbox → Mailbox) : (c.modMailbox m f).clock = c.clock := rfl
@[simp] theorem modMailbox_clockNotSet (c : Chip) (m : MailboxNo) (f : Mailbox → Mailbox) : (c.modMailbox m f).clockNotSet = c.clockNotSet := rfl
@[simp] theorem modMailbox_lowMark (c : Chip) (m : MailboxNo) (f : Mailbox → Mailbox) : (c.modMailbox m f).lowMark = c.lowMark := rfl
@[simp] theorem modMailbox_faxReserve (c : Chip) (m : MailboxNo) (f : Mailbox → Mailbox) : (c.modMailbox m f).faxReserve = c.faxReserve := rfl
@[simp] theorem modMailbox_priority (c : Chip) (m : MailboxNo) (f : Mailbox → Mailbox) : (c.modMailbox m f).priority = c.priority := rfl
@[simp] theorem modMailbox_localMax (c : Chip) (m : MailboxNo) (f : Mailbox → Mailbox) : (c.modMailbox m f).localMax = c.localMax := rfl
@[simp] theorem modMailbox_link (c : Chip) (m : MailboxNo) (f : Mailbox → Mailbox) : (c.modMailbox m f).link = c.link := rfl
@[simp] theorem modMailbox_store (c : Chip) (m : MailboxNo) (f : Mailbox → Mailbox) : (c.modMailbox m f).store = c.store := rfl
@[simp] theorem modMailbox_chans (c : Chip) (m : MailboxNo) (f : Mailbox → Mailbox) : (c.modMailbox m f).chans = c.chans := rfl
@[simp] theorem modMailbox_port (c : Chip) (m : MailboxNo) (f : Mailbox → Mailbox) : (c.modMailbox m f).port = c.port := rfl
@[simp] theorem modMailbox_codecs (c : Chip) (m : MailboxNo) (f : Mailbox → Mailbox) : (c.modMailbox m f).codecs = c.codecs := rfl
@[simp] theorem modMailbox_epaths (c : Chip) (m : MailboxNo) (f : Mailbox → Mailbox) : (c.modMailbox m f).epaths = c.epaths := rfl
@[simp] theorem modMailbox_readReq (c : Chip) (m : MailboxNo) (f : Mailbox → Mailbox) : (c.modMailbox m f).readReq = c.readReq := rfl
@[simp] theorem modMailbox_writeReq (c : Chip) (m : MailboxNo) (f : Mailbox → Mailbox) : (c.modMailbox m f).writeReq = c.writeReq := rfl
@[simp] theorem modMailbox_lines (c : Chip) (m : MailboxNo) (f : Mailbox → Mailbox) : (c.modMailbox m f).lines = c.lines := rfl
@[simp] theorem modMailbox_calls (c : Chip) (m : MailboxNo) (f : Mailbox → Mailbox) : (c.modMailbox m f).calls = c.calls := rfl
@[simp] theorem modMailbox_plans (c : Chip) (m : MailboxNo) (f : Mailbox → Mailbox) : (c.modMailbox m f).plans = c.plans := rfl
@[simp] theorem modMailbox_screen (c : Chip) (m : MailboxNo) (f : Mailbox → Mailbox) : (c.modMailbox m f).screen = c.screen := rfl
@[simp] theorem modMailbox_engines (c : Chip) (m : MailboxNo) (f : Mailbox → Mailbox) : (c.modMailbox m f).engines = c.engines := rfl
@[simp] theorem modMailbox_units (c : Chip) (m : MailboxNo) (f : Mailbox → Mailbox) : (c.modMailbox m f).units = c.units := rfl
@[simp] theorem modMailbox_linkOpts (c : Chip) (m : MailboxNo) (f : Mailbox → Mailbox) : (c.modMailbox m f).linkOpts = c.linkOpts := rfl
@[simp] theorem modMailbox_linkPort (c : Chip) (m : MailboxNo) (f : Mailbox → Mailbox) : (c.modMailbox m f).linkPort = c.linkPort := rfl
@[simp] theorem modMailbox_fax (c : Chip) (m : MailboxNo) (f : Mailbox → Mailbox) : (c.modMailbox m f).fax = c.fax := rfl
@[simp] theorem modMailbox_faxOpts (c : Chip) (m : MailboxNo) (f : Mailbox → Mailbox) : (c.modMailbox m f).faxOpts = c.faxOpts := rfl
@[simp] theorem modMailbox_faxLast (c : Chip) (m : MailboxNo) (f : Mailbox → Mailbox) : (c.modMailbox m f).faxLast = c.faxLast := rfl
@[simp] theorem modMailbox_mailboxes (c : Chip) (m : MailboxNo) (f : Mailbox → Mailbox) : (c.modMailbox m f).mailboxes = upd c.mailboxes m f := rfl
@[simp] theorem modMailbox_seqs (c : Chip) (m : MailboxNo) (f : Mailbox → Mailbox) : (c.modMailbox m f).seqs = c.seqs := rfl
@[simp] theorem modMailbox_trees (c : Chip) (m : MailboxNo) (f : Mailbox → Mailbox) : (c.modMailbox m f).trees = c.trees := rfl

/-! ## `modSeq` -/

@[simp] theorem modSeq_ready (c : Chip) (l : LineNo) (f : PlanSeq → PlanSeq) : (c.modSeq l f).ready = c.ready := rfl
@[simp] theorem modSeq_resetCause (c : Chip) (l : LineNo) (f : PlanSeq → PlanSeq) : (c.modSeq l f).resetCause = c.resetCause := rfl
@[simp] theorem modSeq_clock (c : Chip) (l : LineNo) (f : PlanSeq → PlanSeq) : (c.modSeq l f).clock = c.clock := rfl
@[simp] theorem modSeq_clockNotSet (c : Chip) (l : LineNo) (f : PlanSeq → PlanSeq) : (c.modSeq l f).clockNotSet = c.clockNotSet := rfl
@[simp] theorem modSeq_lowMark (c : Chip) (l : LineNo) (f : PlanSeq → PlanSeq) : (c.modSeq l f).lowMark = c.lowMark := rfl
@[simp] theorem modSeq_faxReserve (c : Chip) (l : LineNo) (f : PlanSeq → PlanSeq) : (c.modSeq l f).faxReserve = c.faxReserve := rfl
@[simp] theorem modSeq_priority (c : Chip) (l : LineNo) (f : PlanSeq → PlanSeq) : (c.modSeq l f).priority = c.priority := rfl
@[simp] theorem modSeq_localMax (c : Chip) (l : LineNo) (f : PlanSeq → PlanSeq) : (c.modSeq l f).localMax = c.localMax := rfl
@[simp] theorem modSeq_link (c : Chip) (l : LineNo) (f : PlanSeq → PlanSeq) : (c.modSeq l f).link = c.link := rfl
@[simp] theorem modSeq_store (c : Chip) (l : LineNo) (f : PlanSeq → PlanSeq) : (c.modSeq l f).store = c.store := rfl
@[simp] theorem modSeq_chans (c : Chip) (l : LineNo) (f : PlanSeq → PlanSeq) : (c.modSeq l f).chans = c.chans := rfl
@[simp] theorem modSeq_port (c : Chip) (l : LineNo) (f : PlanSeq → PlanSeq) : (c.modSeq l f).port = c.port := rfl
@[simp] theorem modSeq_codecs (c : Chip) (l : LineNo) (f : PlanSeq → PlanSeq) : (c.modSeq l f).codecs = c.codecs := rfl
@[simp] theorem modSeq_epaths (c : Chip) (l : LineNo) (f : PlanSeq → PlanSeq) : (c.modSeq l f).epaths = c.epaths := rfl
@[simp] theorem modSeq_readReq (c : Chip) (l : LineNo) (f : PlanSeq → PlanSeq) : (c.modSeq l f).readReq = c.readReq := rfl
@[simp] theorem modSeq_writeReq (c : Chip) (l : LineNo) (f : PlanSeq → PlanSeq) : (c.modSeq l f).writeReq = c.writeReq := rfl
@[simp] theorem modSeq_lines (c : Chip) (l : LineNo) (f : PlanSeq → PlanSeq) : (c.modSeq l f).lines = c.lines := rfl
@[simp] theorem modSeq_calls (c : Chip) (l : LineNo) (f : PlanSeq → PlanSeq) : (c.modSeq l f).calls = c.calls := rfl
@[simp] theorem modSeq_plans (c : Chip) (l : LineNo) (f : PlanSeq → PlanSeq) : (c.modSeq l f).plans = c.plans := rfl
@[simp] theorem modSeq_screen (c : Chip) (l : LineNo) (f : PlanSeq → PlanSeq) : (c.modSeq l f).screen = c.screen := rfl
@[simp] theorem modSeq_engines (c : Chip) (l : LineNo) (f : PlanSeq → PlanSeq) : (c.modSeq l f).engines = c.engines := rfl
@[simp] theorem modSeq_units (c : Chip) (l : LineNo) (f : PlanSeq → PlanSeq) : (c.modSeq l f).units = c.units := rfl
@[simp] theorem modSeq_linkOpts (c : Chip) (l : LineNo) (f : PlanSeq → PlanSeq) : (c.modSeq l f).linkOpts = c.linkOpts := rfl
@[simp] theorem modSeq_linkPort (c : Chip) (l : LineNo) (f : PlanSeq → PlanSeq) : (c.modSeq l f).linkPort = c.linkPort := rfl
@[simp] theorem modSeq_fax (c : Chip) (l : LineNo) (f : PlanSeq → PlanSeq) : (c.modSeq l f).fax = c.fax := rfl
@[simp] theorem modSeq_faxOpts (c : Chip) (l : LineNo) (f : PlanSeq → PlanSeq) : (c.modSeq l f).faxOpts = c.faxOpts := rfl
@[simp] theorem modSeq_faxLast (c : Chip) (l : LineNo) (f : PlanSeq → PlanSeq) : (c.modSeq l f).faxLast = c.faxLast := rfl
@[simp] theorem modSeq_mailboxes (c : Chip) (l : LineNo) (f : PlanSeq → PlanSeq) : (c.modSeq l f).mailboxes = c.mailboxes := rfl
@[simp] theorem modSeq_seqs (c : Chip) (l : LineNo) (f : PlanSeq → PlanSeq) : (c.modSeq l f).seqs = upd c.seqs l f := rfl
@[simp] theorem modSeq_trees (c : Chip) (l : LineNo) (f : PlanSeq → PlanSeq) : (c.modSeq l f).trees = c.trees := rfl

/-! ## `note` -/

@[simp] theorem note_ready (c : Chip) (l : LineNo) (k : Notice) (d : List Byte) : (c.note l k d).ready = c.ready := rfl
@[simp] theorem note_resetCause (c : Chip) (l : LineNo) (k : Notice) (d : List Byte) : (c.note l k d).resetCause = c.resetCause := rfl
@[simp] theorem note_clock (c : Chip) (l : LineNo) (k : Notice) (d : List Byte) : (c.note l k d).clock = c.clock := rfl
@[simp] theorem note_clockNotSet (c : Chip) (l : LineNo) (k : Notice) (d : List Byte) : (c.note l k d).clockNotSet = c.clockNotSet := rfl
@[simp] theorem note_lowMark (c : Chip) (l : LineNo) (k : Notice) (d : List Byte) : (c.note l k d).lowMark = c.lowMark := rfl
@[simp] theorem note_faxReserve (c : Chip) (l : LineNo) (k : Notice) (d : List Byte) : (c.note l k d).faxReserve = c.faxReserve := rfl
@[simp] theorem note_priority (c : Chip) (l : LineNo) (k : Notice) (d : List Byte) : (c.note l k d).priority = c.priority := rfl
@[simp] theorem note_localMax (c : Chip) (l : LineNo) (k : Notice) (d : List Byte) : (c.note l k d).localMax = c.localMax := rfl
@[simp] theorem note_link (c : Chip) (l : LineNo) (k : Notice) (d : List Byte) : (c.note l k d).link = c.link.post (lineSet l) k d := rfl
@[simp] theorem note_store (c : Chip) (l : LineNo) (k : Notice) (d : List Byte) : (c.note l k d).store = c.store := rfl
@[simp] theorem note_chans (c : Chip) (l : LineNo) (k : Notice) (d : List Byte) : (c.note l k d).chans = c.chans := rfl
@[simp] theorem note_port (c : Chip) (l : LineNo) (k : Notice) (d : List Byte) : (c.note l k d).port = c.port := rfl
@[simp] theorem note_codecs (c : Chip) (l : LineNo) (k : Notice) (d : List Byte) : (c.note l k d).codecs = c.codecs := rfl
@[simp] theorem note_epaths (c : Chip) (l : LineNo) (k : Notice) (d : List Byte) : (c.note l k d).epaths = c.epaths := rfl
@[simp] theorem note_readReq (c : Chip) (l : LineNo) (k : Notice) (d : List Byte) : (c.note l k d).readReq = c.readReq := rfl
@[simp] theorem note_writeReq (c : Chip) (l : LineNo) (k : Notice) (d : List Byte) : (c.note l k d).writeReq = c.writeReq := rfl
@[simp] theorem note_lines (c : Chip) (l : LineNo) (k : Notice) (d : List Byte) : (c.note l k d).lines = c.lines := rfl
@[simp] theorem note_calls (c : Chip) (l : LineNo) (k : Notice) (d : List Byte) : (c.note l k d).calls = c.calls := rfl
@[simp] theorem note_plans (c : Chip) (l : LineNo) (k : Notice) (d : List Byte) : (c.note l k d).plans = c.plans := rfl
@[simp] theorem note_screen (c : Chip) (l : LineNo) (k : Notice) (d : List Byte) : (c.note l k d).screen = c.screen := rfl
@[simp] theorem note_engines (c : Chip) (l : LineNo) (k : Notice) (d : List Byte) : (c.note l k d).engines = c.engines := rfl
@[simp] theorem note_units (c : Chip) (l : LineNo) (k : Notice) (d : List Byte) : (c.note l k d).units = c.units := rfl
@[simp] theorem note_linkOpts (c : Chip) (l : LineNo) (k : Notice) (d : List Byte) : (c.note l k d).linkOpts = c.linkOpts := rfl
@[simp] theorem note_linkPort (c : Chip) (l : LineNo) (k : Notice) (d : List Byte) : (c.note l k d).linkPort = c.linkPort := rfl
@[simp] theorem note_fax (c : Chip) (l : LineNo) (k : Notice) (d : List Byte) : (c.note l k d).fax = c.fax := rfl
@[simp] theorem note_faxOpts (c : Chip) (l : LineNo) (k : Notice) (d : List Byte) : (c.note l k d).faxOpts = c.faxOpts := rfl
@[simp] theorem note_faxLast (c : Chip) (l : LineNo) (k : Notice) (d : List Byte) : (c.note l k d).faxLast = c.faxLast := rfl
@[simp] theorem note_mailboxes (c : Chip) (l : LineNo) (k : Notice) (d : List Byte) : (c.note l k d).mailboxes = c.mailboxes := rfl
@[simp] theorem note_seqs (c : Chip) (l : LineNo) (k : Notice) (d : List Byte) : (c.note l k d).seqs = c.seqs := rfl
@[simp] theorem note_trees (c : Chip) (l : LineNo) (k : Notice) (d : List Byte) : (c.note l k d).trees = c.trees := rfl

/-! ## `noteDev` -/

@[simp] theorem noteDev_ready (c : Chip) (k : Notice) (d : List Byte) : (c.noteDev k d).ready = c.ready := rfl
@[simp] theorem noteDev_resetCause (c : Chip) (k : Notice) (d : List Byte) : (c.noteDev k d).resetCause = c.resetCause := rfl
@[simp] theorem noteDev_clock (c : Chip) (k : Notice) (d : List Byte) : (c.noteDev k d).clock = c.clock := rfl
@[simp] theorem noteDev_clockNotSet (c : Chip) (k : Notice) (d : List Byte) : (c.noteDev k d).clockNotSet = c.clockNotSet := rfl
@[simp] theorem noteDev_lowMark (c : Chip) (k : Notice) (d : List Byte) : (c.noteDev k d).lowMark = c.lowMark := rfl
@[simp] theorem noteDev_faxReserve (c : Chip) (k : Notice) (d : List Byte) : (c.noteDev k d).faxReserve = c.faxReserve := rfl
@[simp] theorem noteDev_priority (c : Chip) (k : Notice) (d : List Byte) : (c.noteDev k d).priority = c.priority := rfl
@[simp] theorem noteDev_localMax (c : Chip) (k : Notice) (d : List Byte) : (c.noteDev k d).localMax = c.localMax := rfl
@[simp] theorem noteDev_link (c : Chip) (k : Notice) (d : List Byte) : (c.noteDev k d).link = c.link.post devSet k d := rfl
@[simp] theorem noteDev_store (c : Chip) (k : Notice) (d : List Byte) : (c.noteDev k d).store = c.store := rfl
@[simp] theorem noteDev_chans (c : Chip) (k : Notice) (d : List Byte) : (c.noteDev k d).chans = c.chans := rfl
@[simp] theorem noteDev_port (c : Chip) (k : Notice) (d : List Byte) : (c.noteDev k d).port = c.port := rfl
@[simp] theorem noteDev_codecs (c : Chip) (k : Notice) (d : List Byte) : (c.noteDev k d).codecs = c.codecs := rfl
@[simp] theorem noteDev_epaths (c : Chip) (k : Notice) (d : List Byte) : (c.noteDev k d).epaths = c.epaths := rfl
@[simp] theorem noteDev_readReq (c : Chip) (k : Notice) (d : List Byte) : (c.noteDev k d).readReq = c.readReq := rfl
@[simp] theorem noteDev_writeReq (c : Chip) (k : Notice) (d : List Byte) : (c.noteDev k d).writeReq = c.writeReq := rfl
@[simp] theorem noteDev_lines (c : Chip) (k : Notice) (d : List Byte) : (c.noteDev k d).lines = c.lines := rfl
@[simp] theorem noteDev_calls (c : Chip) (k : Notice) (d : List Byte) : (c.noteDev k d).calls = c.calls := rfl
@[simp] theorem noteDev_plans (c : Chip) (k : Notice) (d : List Byte) : (c.noteDev k d).plans = c.plans := rfl
@[simp] theorem noteDev_screen (c : Chip) (k : Notice) (d : List Byte) : (c.noteDev k d).screen = c.screen := rfl
@[simp] theorem noteDev_engines (c : Chip) (k : Notice) (d : List Byte) : (c.noteDev k d).engines = c.engines := rfl
@[simp] theorem noteDev_units (c : Chip) (k : Notice) (d : List Byte) : (c.noteDev k d).units = c.units := rfl
@[simp] theorem noteDev_linkOpts (c : Chip) (k : Notice) (d : List Byte) : (c.noteDev k d).linkOpts = c.linkOpts := rfl
@[simp] theorem noteDev_linkPort (c : Chip) (k : Notice) (d : List Byte) : (c.noteDev k d).linkPort = c.linkPort := rfl
@[simp] theorem noteDev_fax (c : Chip) (k : Notice) (d : List Byte) : (c.noteDev k d).fax = c.fax := rfl
@[simp] theorem noteDev_faxOpts (c : Chip) (k : Notice) (d : List Byte) : (c.noteDev k d).faxOpts = c.faxOpts := rfl
@[simp] theorem noteDev_faxLast (c : Chip) (k : Notice) (d : List Byte) : (c.noteDev k d).faxLast = c.faxLast := rfl
@[simp] theorem noteDev_mailboxes (c : Chip) (k : Notice) (d : List Byte) : (c.noteDev k d).mailboxes = c.mailboxes := rfl
@[simp] theorem noteDev_seqs (c : Chip) (k : Notice) (d : List Byte) : (c.noteDev k d).seqs = c.seqs := rfl
@[simp] theorem noteDev_trees (c : Chip) (k : Notice) (d : List Byte) : (c.noteDev k d).trees = c.trees := rfl

/-! ## `reply` -/

@[simp] theorem reply_ready (c : Chip) (r : Request) (x : Cls) (y : Reason) (d : List Byte) : (c.reply r x y d).ready = c.ready := rfl
@[simp] theorem reply_resetCause (c : Chip) (r : Request) (x : Cls) (y : Reason) (d : List Byte) : (c.reply r x y d).resetCause = c.resetCause := rfl
@[simp] theorem reply_clock (c : Chip) (r : Request) (x : Cls) (y : Reason) (d : List Byte) : (c.reply r x y d).clock = c.clock := rfl
@[simp] theorem reply_clockNotSet (c : Chip) (r : Request) (x : Cls) (y : Reason) (d : List Byte) : (c.reply r x y d).clockNotSet = c.clockNotSet := rfl
@[simp] theorem reply_lowMark (c : Chip) (r : Request) (x : Cls) (y : Reason) (d : List Byte) : (c.reply r x y d).lowMark = c.lowMark := rfl
@[simp] theorem reply_faxReserve (c : Chip) (r : Request) (x : Cls) (y : Reason) (d : List Byte) : (c.reply r x y d).faxReserve = c.faxReserve := rfl
@[simp] theorem reply_priority (c : Chip) (r : Request) (x : Cls) (y : Reason) (d : List Byte) : (c.reply r x y d).priority = c.priority := rfl
@[simp] theorem reply_localMax (c : Chip) (r : Request) (x : Cls) (y : Reason) (d : List Byte) : (c.reply r x y d).localMax = c.localMax := rfl
@[simp] theorem reply_link (c : Chip) (r : Request) (x : Cls) (y : Reason) (d : List Byte) : (c.reply r x y d).link =
    if c.ownsWrites r then (c.link.reply r.line r.tag r.code x y d).dropWrites r.tag else c.link.reply r.line r.tag r.code x y d := rfl
@[simp] theorem reply_store (c : Chip) (r : Request) (x : Cls) (y : Reason) (d : List Byte) : (c.reply r x y d).store = c.store := rfl
@[simp] theorem reply_chans (c : Chip) (r : Request) (x : Cls) (y : Reason) (d : List Byte) : (c.reply r x y d).chans = c.chans := rfl
@[simp] theorem reply_port (c : Chip) (r : Request) (x : Cls) (y : Reason) (d : List Byte) : (c.reply r x y d).port = c.port := rfl
@[simp] theorem reply_codecs (c : Chip) (r : Request) (x : Cls) (y : Reason) (d : List Byte) : (c.reply r x y d).codecs = c.codecs := rfl
@[simp] theorem reply_epaths (c : Chip) (r : Request) (x : Cls) (y : Reason) (d : List Byte) : (c.reply r x y d).epaths = c.epaths := rfl
@[simp] theorem reply_readReq (c : Chip) (r : Request) (x : Cls) (y : Reason) (d : List Byte) : (c.reply r x y d).readReq = c.readReq := rfl
@[simp] theorem reply_writeReq (c : Chip) (r : Request) (x : Cls) (y : Reason) (d : List Byte) : (c.reply r x y d).writeReq = c.writeReq := rfl
@[simp] theorem reply_lines (c : Chip) (r : Request) (x : Cls) (y : Reason) (d : List Byte) : (c.reply r x y d).lines = c.lines := rfl
@[simp] theorem reply_calls (c : Chip) (r : Request) (x : Cls) (y : Reason) (d : List Byte) : (c.reply r x y d).calls = c.calls := rfl
@[simp] theorem reply_plans (c : Chip) (r : Request) (x : Cls) (y : Reason) (d : List Byte) : (c.reply r x y d).plans = c.plans := rfl
@[simp] theorem reply_screen (c : Chip) (r : Request) (x : Cls) (y : Reason) (d : List Byte) : (c.reply r x y d).screen = c.screen := rfl
@[simp] theorem reply_engines (c : Chip) (r : Request) (x : Cls) (y : Reason) (d : List Byte) : (c.reply r x y d).engines = c.engines := rfl
@[simp] theorem reply_units (c : Chip) (r : Request) (x : Cls) (y : Reason) (d : List Byte) : (c.reply r x y d).units = c.units := rfl
@[simp] theorem reply_linkOpts (c : Chip) (r : Request) (x : Cls) (y : Reason) (d : List Byte) : (c.reply r x y d).linkOpts = c.linkOpts := rfl
@[simp] theorem reply_linkPort (c : Chip) (r : Request) (x : Cls) (y : Reason) (d : List Byte) : (c.reply r x y d).linkPort = c.linkPort := rfl
@[simp] theorem reply_fax (c : Chip) (r : Request) (x : Cls) (y : Reason) (d : List Byte) : (c.reply r x y d).fax = c.fax := rfl
@[simp] theorem reply_faxOpts (c : Chip) (r : Request) (x : Cls) (y : Reason) (d : List Byte) : (c.reply r x y d).faxOpts = c.faxOpts := rfl
@[simp] theorem reply_faxLast (c : Chip) (r : Request) (x : Cls) (y : Reason) (d : List Byte) : (c.reply r x y d).faxLast = c.faxLast := rfl
@[simp] theorem reply_mailboxes (c : Chip) (r : Request) (x : Cls) (y : Reason) (d : List Byte) : (c.reply r x y d).mailboxes = c.mailboxes := rfl
@[simp] theorem reply_seqs (c : Chip) (r : Request) (x : Cls) (y : Reason) (d : List Byte) : (c.reply r x y d).seqs = c.seqs := rfl
@[simp] theorem reply_trees (c : Chip) (r : Request) (x : Cls) (y : Reason) (d : List Byte) : (c.reply r x y d).trees = c.trees := rfl

/-! ## `replyLine` -/

@[simp] theorem replyLine_ready (c : Chip) (l : LineNo) (t k : Byte) (x : Cls) (y : Reason) (d : List Byte) : (c.replyLine l t k x y d).ready = c.ready := rfl
@[simp] theorem replyLine_resetCause (c : Chip) (l : LineNo) (t k : Byte) (x : Cls) (y : Reason) (d : List Byte) : (c.replyLine l t k x y d).resetCause = c.resetCause := rfl
@[simp] theorem replyLine_clock (c : Chip) (l : LineNo) (t k : Byte) (x : Cls) (y : Reason) (d : List Byte) : (c.replyLine l t k x y d).clock = c.clock := rfl
@[simp] theorem replyLine_clockNotSet (c : Chip) (l : LineNo) (t k : Byte) (x : Cls) (y : Reason) (d : List Byte) : (c.replyLine l t k x y d).clockNotSet = c.clockNotSet := rfl
@[simp] theorem replyLine_lowMark (c : Chip) (l : LineNo) (t k : Byte) (x : Cls) (y : Reason) (d : List Byte) : (c.replyLine l t k x y d).lowMark = c.lowMark := rfl
@[simp] theorem replyLine_faxReserve (c : Chip) (l : LineNo) (t k : Byte) (x : Cls) (y : Reason) (d : List Byte) : (c.replyLine l t k x y d).faxReserve = c.faxReserve := rfl
@[simp] theorem replyLine_priority (c : Chip) (l : LineNo) (t k : Byte) (x : Cls) (y : Reason) (d : List Byte) : (c.replyLine l t k x y d).priority = c.priority := rfl
@[simp] theorem replyLine_localMax (c : Chip) (l : LineNo) (t k : Byte) (x : Cls) (y : Reason) (d : List Byte) : (c.replyLine l t k x y d).localMax = c.localMax := rfl
@[simp] theorem replyLine_link (c : Chip) (l : LineNo) (t k : Byte) (x : Cls) (y : Reason) (d : List Byte) : (c.replyLine l t k x y d).link = c.link.reply (b1 l.val) t k x y d := rfl
@[simp] theorem replyLine_store (c : Chip) (l : LineNo) (t k : Byte) (x : Cls) (y : Reason) (d : List Byte) : (c.replyLine l t k x y d).store = c.store := rfl
@[simp] theorem replyLine_chans (c : Chip) (l : LineNo) (t k : Byte) (x : Cls) (y : Reason) (d : List Byte) : (c.replyLine l t k x y d).chans = c.chans := rfl
@[simp] theorem replyLine_port (c : Chip) (l : LineNo) (t k : Byte) (x : Cls) (y : Reason) (d : List Byte) : (c.replyLine l t k x y d).port = c.port := rfl
@[simp] theorem replyLine_codecs (c : Chip) (l : LineNo) (t k : Byte) (x : Cls) (y : Reason) (d : List Byte) : (c.replyLine l t k x y d).codecs = c.codecs := rfl
@[simp] theorem replyLine_epaths (c : Chip) (l : LineNo) (t k : Byte) (x : Cls) (y : Reason) (d : List Byte) : (c.replyLine l t k x y d).epaths = c.epaths := rfl
@[simp] theorem replyLine_readReq (c : Chip) (l : LineNo) (t k : Byte) (x : Cls) (y : Reason) (d : List Byte) : (c.replyLine l t k x y d).readReq = c.readReq := rfl
@[simp] theorem replyLine_writeReq (c : Chip) (l : LineNo) (t k : Byte) (x : Cls) (y : Reason) (d : List Byte) : (c.replyLine l t k x y d).writeReq = c.writeReq := rfl
@[simp] theorem replyLine_lines (c : Chip) (l : LineNo) (t k : Byte) (x : Cls) (y : Reason) (d : List Byte) : (c.replyLine l t k x y d).lines = c.lines := rfl
@[simp] theorem replyLine_calls (c : Chip) (l : LineNo) (t k : Byte) (x : Cls) (y : Reason) (d : List Byte) : (c.replyLine l t k x y d).calls = c.calls := rfl
@[simp] theorem replyLine_plans (c : Chip) (l : LineNo) (t k : Byte) (x : Cls) (y : Reason) (d : List Byte) : (c.replyLine l t k x y d).plans = c.plans := rfl
@[simp] theorem replyLine_screen (c : Chip) (l : LineNo) (t k : Byte) (x : Cls) (y : Reason) (d : List Byte) : (c.replyLine l t k x y d).screen = c.screen := rfl
@[simp] theorem replyLine_engines (c : Chip) (l : LineNo) (t k : Byte) (x : Cls) (y : Reason) (d : List Byte) : (c.replyLine l t k x y d).engines = c.engines := rfl
@[simp] theorem replyLine_units (c : Chip) (l : LineNo) (t k : Byte) (x : Cls) (y : Reason) (d : List Byte) : (c.replyLine l t k x y d).units = c.units := rfl
@[simp] theorem replyLine_linkOpts (c : Chip) (l : LineNo) (t k : Byte) (x : Cls) (y : Reason) (d : List Byte) : (c.replyLine l t k x y d).linkOpts = c.linkOpts := rfl
@[simp] theorem replyLine_linkPort (c : Chip) (l : LineNo) (t k : Byte) (x : Cls) (y : Reason) (d : List Byte) : (c.replyLine l t k x y d).linkPort = c.linkPort := rfl
@[simp] theorem replyLine_fax (c : Chip) (l : LineNo) (t k : Byte) (x : Cls) (y : Reason) (d : List Byte) : (c.replyLine l t k x y d).fax = c.fax := rfl
@[simp] theorem replyLine_faxOpts (c : Chip) (l : LineNo) (t k : Byte) (x : Cls) (y : Reason) (d : List Byte) : (c.replyLine l t k x y d).faxOpts = c.faxOpts := rfl
@[simp] theorem replyLine_faxLast (c : Chip) (l : LineNo) (t k : Byte) (x : Cls) (y : Reason) (d : List Byte) : (c.replyLine l t k x y d).faxLast = c.faxLast := rfl
@[simp] theorem replyLine_mailboxes (c : Chip) (l : LineNo) (t k : Byte) (x : Cls) (y : Reason) (d : List Byte) : (c.replyLine l t k x y d).mailboxes = c.mailboxes := rfl
@[simp] theorem replyLine_seqs (c : Chip) (l : LineNo) (t k : Byte) (x : Cls) (y : Reason) (d : List Byte) : (c.replyLine l t k x y d).seqs = c.seqs := rfl
@[simp] theorem replyLine_trees (c : Chip) (l : LineNo) (t k : Byte) (x : Cls) (y : Reason) (d : List Byte) : (c.replyLine l t k x y d).trees = c.trees := rfl

end Chip

/-! ## The timers of a plan sequence: a second changes them alone (R154, R162, R163) -/

@[simp] theorem PlanSeq.second_state (q : PlanSeq) : q.second.state = q.state := rfl
@[simp] theorem PlanSeq.second_greetingOnly (q : PlanSeq) : q.second.greetingOnly = q.greetingOnly := rfl
@[simp] theorem PlanSeq.second_mailbox (q : PlanSeq) : q.second.mailbox = q.mailbox := rfl
@[simp] theorem PlanSeq.second_caller (q : PlanSeq) : q.second.caller = q.caller := rfl
@[simp] theorem PlanSeq.second_opening (q : PlanSeq) : q.second.opening = q.opening := rfl
@[simp] theorem PlanSeq.second_greetChan (q : PlanSeq) : q.second.greetChan = q.greetChan := rfl
@[simp] theorem PlanSeq.second_playChan (q : PlanSeq) : q.second.playChan = q.playChan := rfl
@[simp] theorem PlanSeq.second_recording (q : PlanSeq) : q.second.recording = q.recording := rfl
@[simp] theorem PlanSeq.second_target (q : PlanSeq) : q.second.target = q.target := rfl
@[simp] theorem PlanSeq.second_entered (q : PlanSeq) : q.second.entered = q.entered := rfl
@[simp] theorem PlanSeq.second_wrong (q : PlanSeq) : q.second.wrong = q.wrong := rfl
@[simp] theorem PlanSeq.second_cursor (q : PlanSeq) : q.second.cursor = q.cursor := rfl
@[simp] theorem PlanSeq.second_speed (q : PlanSeq) : q.second.speed = q.speed := rfl
@[simp] theorem PlanSeq.second_tone (q : PlanSeq) : q.second.tone = q.tone := rfl
@[simp] theorem PlanSeq.second_prefixTimer (q : PlanSeq) : q.second.prefixTimer = q.prefixTimer.second := rfl
@[simp] theorem PlanSeq.second_digitTimer (q : PlanSeq) : q.second.digitTimer = q.digitTimer.second := rfl
@[simp] theorem PlanSeq.second_idles (q : PlanSeq) : q.second.idles = q.idles := rfl

/-- Where a channel plays or a tone sounds, a second leaves the idle timer as it stands (R163). -/
theorem PlanSeq.second_idleTimer_of_not_idles {q : PlanSeq} (h : q.idles = false) : q.second.idleTimer = q.idleTimer := by
  simp [PlanSeq.second, h]

/-- Where a review waits for a digit, a second passes for its idle timer (R163). -/
theorem PlanSeq.second_idleTimer_of_idles {q : PlanSeq} (h : q.idles = true) : q.second.idleTimer = q.idleTimer.second := by
  simp [PlanSeq.second, h]

/-- A second neither starts nor stops a timer. -/
@[simp] theorem Timer.second_run (t : Timer) : t.second.run = t.run := by
  unfold Timer.second; split <;> rfl

end Sys2Proof.Machine
end

