-- ==== Sys2Proof/WellFormed.lean ====
section
/-!
DEFINITION. The commands whose operands the spec's own ranges admit.
-/
namespace Sys2Proof

/-- A caller-number burst that carries a number carries at least one digit (R50). -/
def BurstContent.wf : BurstContent → Bool
  | .number ds => !ds.isEmpty
  | _ => true

/-- A payload of a block-link frame is 1 to 256 bytes (R105). -/
def payloadWf (bs : List Byte) : Bool := !bs.isEmpty && decide (bs.length ≤ 256)

/-- A good strip has a number 0 to 8191 below its total, and 512 bytes (R126). -/
def StripJudgment.wf : StripJudgment → Bool
  | .bad => true
  | .good number total bytes => decide (number < total) && decide (total ≤ 8192) && decide (bytes.length = 512)

/-- A station identifier, if present, is 1 to 20 characters (R123). -/
def identWf : Option (List Byte) → Bool
  | none => true
  | some bs => !bs.isEmpty && decide (bs.length ≤ 20)

/-- The operands lie in the ranges the spec gives them. Every other command is well formed. -/
def Instr.wf : Instr → Bool
  | .callerNumberBurst _ content _ => content.wf
  | .testEnd _ wrong total _ => decide (wrong ≤ total) && decide (0 < total)
  | .dataFrame _ _ _ payload => payloadWf payload
  | .caps _ _ _ _ ident => identWf ident
  | .set _ _ _ _ page ident => decide (page = 1) && identWf ident
  | .map _ page sect needed =>
    decide (1 ≤ page) && decide (sect ≤ 255) &&
      (match needed with
        | none => true
        | some ns => !ns.isEmpty && ns.all (fun n => decide (32 * sect ≤ n) && decide (n < 32 * sect + 32)))
  | .taken _ page _ _ => decide (1 ≤ page)
  | .more _ page _ => decide (1 ≤ page)
  | .retake _ page bad => decide (1 ≤ page) && decide (bad ≤ 8192)
  | .stripJudged _ j => j.wf
  | _ => true

end Sys2Proof
end

