-- ==== Sys2Proof/Tests/Slice0.lean ====
section
/-!
SUPPORT. Tests: ill-formed commands that the check refuses, single steps, and for every statement with premises a concrete
state and operands that meet them.
-/
namespace Sys2Proof.Tests
open Sys2Proof Sys2Proof.Machine
set_option maxRecDepth 100000

/-! ## Ill-formed commands -/

theorem test_wf_number_without_digits : (Instr.callerNumberBurst 1 (.number []) true).wf = false := by decide
theorem test_wf_more_wrong_bits_than_sent : (Instr.testEnd 0 9 8 ⟨none, 3⟩).wf = false := by decide
theorem test_wf_test_without_bits : (Instr.testEnd 0 0 0 ⟨none, 3⟩).wf = false := by decide
theorem test_wf_empty_payload : (Instr.dataFrame 0 1 1 []).wf = false := by decide
theorem test_wf_long_payload : (Instr.dataFrame 0 1 1 (List.replicate 257 0)).wf = false := by decide
theorem test_wf_caps_empty_ident : (Instr.caps 1 14400 true true (some [])).wf = false := by decide
theorem test_wf_set_first_page : (Instr.set 1 .plain 0 .fine 2 none).wf = false := by decide
theorem test_wf_set_long_ident : (Instr.set 1 .plain 0 .fine 1 (some (List.replicate 21 0x31))).wf = false := by decide
theorem test_wf_map_page : (Instr.map 1 0 0 none).wf = false := by decide
theorem test_wf_map_section : (Instr.map 1 1 256 none).wf = false := by decide
theorem test_wf_map_empty : (Instr.map 1 1 0 (some [])).wf = false := by decide
theorem test_wf_map_other_section : (Instr.map 1 1 1 (some [31])).wf = false := by decide
theorem test_wf_taken_page : (Instr.taken 1 0 none false).wf = false := by decide
theorem test_wf_more_page : (Instr.more 1 0 .fine).wf = false := by decide
theorem test_wf_retake_page : (Instr.retake 1 0 1).wf = false := by decide
theorem test_wf_retake_bad : (Instr.retake 1 1 8193).wf = false := by decide
theorem test_wf_strip_number : (Instr.stripJudged 1 (.good 4 4 (List.replicate 512 0))).wf = false := by decide
theorem test_wf_strip_total : (Instr.stripJudged 1 (.good 4 8193 (List.replicate 512 0))).wf = false := by decide
theorem test_wf_strip_bytes : (Instr.stripJudged 1 (.good 4 5 (List.replicate 511 0))).wf = false := by decide
theorem test_wf_good_commands : (Instr.map 1 1 1 (some [32, 63])).wf = true ∧ (Instr.testEnd 0 8 8 ⟨none, 3⟩).wf = true ∧
    (Instr.stripJudged 1 (.good 4 5 (List.replicate 512 0))).wf = true ∧ Instr.clockTick.wf = true := by decide

/-! ## Helpers -/

/-- A vector from a function of the index. -/
def vec {α : Type} {n : Nat} (f : Nat → α) : Vector α n := ⟨((List.range n).map f).toArray, by simp⟩

/-- A part at work on which the states below are built: a few objects in the store, a few bytes and a notice waiting on the
link, four lines and calls that differ from the reset values in what the premises speak of. -/
def nz : Chip := { State.reset.chip with
  ready := true, lowMark := 12, priority := .fixed, localMax := 4
  link := {
    data := [{ code := 0, line := 2, tag := 9, bytes := [1, 2, 3] }], reserved := 3
    out := [{ kind := 3, line := 1, tag := 0, code := 2, body := [1] }]
    sets := #v[[], [], [{ kind := .ring, count := 2, detail := [5] }], [], []], marker := 1 }
  store := {
    free := (List.range 20).map (· + 100), low := false, dram := [(51200, 5), (51300, 6)]
    slots := vec (fun i => {
      gen := BitVec.ofNat 4 (i + 3)
      obj := if i = 1 ∨ i = 4 then some { state := .closed, owner := .mailbox 3, chain := [i * 10, i * 10 + 1], length := 700,
                                          users := 0, created := 77, attr := .message (.digits [1, 2]) 2 .new }
        else if i = 2 then some { state := .closed, owner := .line 2, chain := [60], length := 500, users := 0, created := 78,
                                  attr := .clip }
        else if i = 6 then some { state := .closed, owner := .line 2, chain := [70, 71, 72], length := 1400, users := 0,
                                  created := 79, attr := .page { page := 1, res := .standard, rate := none, strips := 3 } }
        else none }) }
  port := { lastGranted := some (.chan 2) }
  lines := vec (fun i => {
    loopCurrent := true, polarity := .reversed, loopSeen := true, voltage := true, burst := .gap
    abandon := { run := true, ms := 5000 }, window := true, ringCount := 2, noise := -40 - i, cond := { hot := true }
    settings := { action := .hostOnly, coolOff := 60, method := .pulse, dialWait := .blind, limit := 7 } })
  calls := Vector.replicate 4 { direction := some .incoming, purpose := some .voice, limit := 6, todo := [0x35], ringbacks := 2 }
  chans := Vector.replicate 8 { slot := 1, path := .codec 3, owner := .callControl 2 }
  codecs := Vector.replicate 4 { buf := { frm := [3] } }
  engines := Vector.replicate 2 { line := 1, purpose := .fax, rate := some 3, testRate := some 4 }
  seqs := Vector.replicate 4 { mailbox := 4 }
  mailboxes := vec (fun i => {
    enabled := i != 2, code := some [1, 2, 3, 4], greeting := if i = 7 then some 37 else none, quota := 100 + i, maxLen := 50
    silenceEnd := 4, list := if i = 3 then [20, 71] else [], used := if i = 3 then 4 else 0
    newCount := if i = 3 then 2 else 0 })
}

/-- A request of this line field, code and body. -/
def reqOf (line code : Nat) (body : List Byte) : Request := { line := b1 line, tag := 0x5A, code := b1 code, body := body }

/-- A request that waits behind it. -/
def other : Request := { line := 1, tag := 3, code := 0x20, body := [] }

/-- A state over `c` with these requests in the inbound queue. -/
def mk (c : Chip) (rs : List Request) : State := { pending := [.clockTick], chip := { c with link := { c.link with inq := rs } } }

/-! `c` with its line, call, engine, data link unit, plan sequence, fax job or channel changed by `f`. -/

def wl (c : Chip) (l : LineNo) (f : Line → Line) : Chip := { c with lines := c.lines.set l (f c.lines[l]) }
def wk (c : Chip) (l : LineNo) (f : Call → Call) : Chip := { c with calls := c.calls.set l (f c.calls[l]) }
def we (c : Chip) (l : EngineNo) (f : Engine → Engine) : Chip := { c with engines := c.engines.set l (f c.engines[l]) }
def wu (c : Chip) (l : EngineNo) (f : DataLink → DataLink) : Chip := { c with units := c.units.set l (f c.units[l]) }
def wq (c : Chip) (l : LineNo) (f : PlanSeq → PlanSeq) : Chip := { c with seqs := c.seqs.set l (f c.seqs[l]) }
def wf (c : Chip) (l : LineNo) (j : FaxJob) : Chip := { c with fax := c.fax.set l (some j) }
def wc (c : Chip) (l : ChanNo) (f : Chan → Chan) : Chip := { c with chans := c.chans.set l (f c.chans[l]) }

/-- A premise that evaluates to true holds. -/
theorem ok {p : Prop} [Decidable p] (h : decide p = true) : p := of_decide_eq_true h

/-- One use of the statement `P`: a claim that `P` gives at operands written out, its premises there being proved. -/
structure Yields (P : Prop) where
  claim : Prop
  take : P → claim

/-- There are `n` uses of the statement `P`. The witnesses are in the proofs: each hands `P` a concrete state and operands, and
for every premise a proof by evaluation, so that the premises of a clause are met together. -/
abbrev Meets (P : Prop) (n : Nat) : Prop := ∃ ys : List (Yields P), ys.length = n

/-! ## Single steps -/

/-- The frames that an outcome leaves in the outbound queue. -/
def sent : Host.Outcome State Fault Refusal → List Frame
  | .next t => t.chip.link.out
  | _ => []

/-- The generator, start value and bit order of 11.1, on the digits 1 to 9. -/
theorem test_crc : crc [0x31, 0x32, 0x33, 0x34, 0x35, 0x36, 0x37, 0x38, 0x39] = 0x29B1 := by decide

theorem test_idle : step State.reset = .next State.reset := rfl

theorem test_no_word : State.reset.withFetchWord 16 0x1234 = State.reset := rfl

theorem test_front : step (mk nz []) = exec .clockTick { mk nz [] with pending := [] } := rfl

theorem test_create_object : sent (exec .createObject (mk nz [reqOf 15 0x10 [0, 2]])) = nz.link.out ++
    [{ kind := 2, line := 15, tag := 0x5A, code := 0x10, body := [0, 0, 0, 3] }] := by decide

theorem test_delete_stale : sent (exec .deleteObject (mk nz [reqOf 15 0x11 [0, 21]])) = nz.link.out ++
    [{ kind := 2, line := 15, tag := 0x5A, code := 0x11, body := [2, 5] }] := by decide

theorem test_wrong_line : sent (exec .dial (mk nz [reqOf 15 0x30 []])) = nz.link.out ++
    [{ kind := 2, line := 15, tag := 0x5A, code := 0x30, body := [2, 2] }] := by decide

theorem test_overcurrent_on_hook : exec (.releaseGuardExpiry 1) (mk nz []) = .next (mk nz []) := rfl

/-! ## The premises of the statements can be met -/

/-! 10_host_message_link.md -/
namespace Link

def S (c : Chip) : State := mk c []
def Q (code : Nat) (body : List Byte) (f : Chip → Chip := id) (line : Nat := 15) : State := mk (f nz) [reqOf line code body, other]
def RQ (s : State) : Request := s.chip.link.inq.headD other
def gi := Q 1 []
def nzq : Chip := {nz with ready := false}
def s0 : State := { State.reset with pending := [.clockTick] }
def f1 : Frame := {kind := 3, line := 2, tag := 5, code := 9, body := [0xA5, 2, 3]}
def f2 : Frame := {kind := 1, line := 2, tag := 5, code := 9, body := []}
def rl (f : Link → Link) : State := S {nz with link := f {nz.link with out := [f1, f2], reserved := 14}}
def rxE := S {nz with link := {nz.link with out := []}}
def e1 : PendEntry := {kind := .ring, count := 2, detail := [5]}
def e2 : PendEntry := {kind := .fault, count := 255, detail := []}
def rm := rl (fun k => {k with sets := vec (fun i => if i = 1 ∨ i = 4 then [e2,e1] else []), marker := 1})
def fq : Frame := {kind := 1, line := 2, tag := 5, code := 9, body := [1,2]}
def wz (f : Chip → Chip := id) := Q 0x19 [3] f
def fd : Frame := {kind := 4, line := 2, tag := 5, code := 0, body := [1,2]}
def fd7 : Frame := {fd with code := 1, tag := 7}
def fd9 : Frame := {fd with code := 1, tag := 0x59}
def nd (c : Chip) : Chip := {c with link := {c.link with data := [{code := 0, line := 1, tag := 1, bytes := []}], reserved := 12}}
def cc := S (wl (wk (wk nz 1 (fun k => {k with state := .cooling})) 2 (fun k => {k with state := .connected, connected := 65535})) 2 (fun n => {n with hook := .offHook}))
/-- Plan sequences whose timers run: one waits in REVIEW, one plays, one has timers about to expire. -/
def cq := S (wq (wq nz 1 (fun q => {q with state := .review, prefixTimer := {run := true, ms := 3000}, digitTimer := {run := true, ms := 10000}, idleTimer := {run := true, ms := 20000}}))
  2 (fun q => {q with state := .review, playChan := some 2, idleTimer := {run := true, ms := 7000}}))
def cr := S (wq nz 3 (fun q => {q with state := .review, tone := .prompt, digitTimer := {run := true, ms := 999}, idleTimer := {run := true, ms := 7000}}))
def ck := Q 3 [1,2,3,4]
def cf (a b c d e f : Byte) (g : Chip → Chip := id) := Q 2 [a,b,c,d,e,f] g
def ga := Q 0x39 [] id 2
def gs := Q 0x3B [15]
def gl := Q 0x41 []
def gf := Q 0x49 []
def gm := Q 0x51 [3,1]
def gm0 := Q 0x51 [3,0]
def gn := Q 0x51 [2,31] (fun c => {c with mailboxes := c.mailboxes.set 2 {c.mailboxes[2] with code := none, list := [3]}})
def gs' (p : Match) (a : Action) := Q 0x3B [15] (fun c => {c with screen := c.screen.set 15 (some {pat := p, action := a})})
def rd (line code : Nat) (body : List Byte := []) := Q code body id line
def dr := Q 4 []
/-- A part at work: a data call, a page being received, a recording, and channels bound for them. -/
def db := Q 4 [] (fun c => wf (wu (we (wq (wc (wc (wk (wk (wl (wl c 1 (fun n => {n with hook := .offHook})) 2 (fun n => {n with hook := .offHook, coolOff := 4}))
  1 (fun k => {k with state := .connected, engine := some 1})) 2 (fun k => {k with state := .connected, engine := some 0}))
  3 (fun k => {k with state := .running, path := .codec 1, dir := .fromPath, slot := 2, owner := .voiceMail 1, remaining := 9}))
  4 (fun k => {k with state := .held, path := .engine 2, dir := .fromPath, slot := 6, owner := .fax 2, remaining := 9}))
  1 (fun q => {q with state := .recording, recording := some {handle := 37, slot := 2, chan := 3, maxLen := 20, silenceEnd := 4}}))
  0 (fun g => {g with state := .running, line := 2, purpose := .fax, rate := some 2})) 1 (fun u => {u with state := .linked, line := 1}))
  2 {role := .receive, engine := 0, opts := {}, cur := some {handle := 105, slot := 6, number := 2, res := .fine, total := 7, chan := some 4, ever := true}})

theorem met_StartUp : Meets Obligations.StartUp 4 := ⟨[
  ⟨_, fun h => h.2.1 nzq (ok rfl)⟩,
  ⟨_, fun h => h.2.2.1 s0 (fun i => i.val % 2 = 0) rfl⟩,
  ⟨_, fun h => h.2.2.1 s0 (fun _ => false) rfl⟩,
  ⟨_, fun h => h.2.2.2 s0 rfl⟩], rfl⟩

theorem met_FramesReadExactly : Meets Obligations.FramesReadExactly 3 := ⟨[
  ⟨_, fun h => h.1 f1 [3,4] (ok rfl)⟩,
  ⟨_, fun h => h.1 {f1 with body := List.replicate 256 7} [] (ok rfl)⟩,
  ⟨_, fun h => h.2 (f1.bytes ++ [9]) f1 (ok rfl)⟩], rfl⟩

/-- Bytes that are no frame: a wrong sync byte, a wrong CRC, a length over 256 and a frame cut short are not read. -/
theorem test_no_frame : parseFrame (f1.bytes.set 0 0xA6) = none ∧ parseFrame (f1.bytes.set 10 0) = none ∧
    parseFrame (({f1 with body := List.replicate 257 7} : Frame).bytes) = none ∧ parseFrame (f1.bytes.take 10) = none := by decide

theorem met_ReadExchange : Meets Obligations.ReadExchange 9 := ⟨[
  ⟨_, fun h => (h.2 rxE 0).1 (ok rfl)⟩,
  ⟨_, fun h => ((h.2 (rl id) 0).2 f1 [f2] (ok rfl)).1 (ok rfl)⟩,
  ⟨_, fun h => ((h.2 (rl id) (f1.bytes.length-1)).2 f1 [f2] (ok rfl)).1 (ok rfl)⟩,
  ⟨_, fun h => ((h.2 (rl (fun k => {k with sets := vec (fun _ => [])})) (f1.bytes.length)).2 f1 [f2] (ok rfl)).2.1 (ok rfl) (ok rfl)⟩,
  ⟨_, fun h => ((h.2 (rl id) (f1.bytes.length+9)).2 f1 [f2] (ok rfl)).2.2 (ok rfl) (ok rfl) 2 {kind := .ring, count := 2, detail := [5]} [] (ok rfl) (ok rfl)⟩,
  ⟨_, fun h => ((h.2 rm 400).2 f1 [f2] (ok rfl)).2.2 (ok rfl) (ok rfl) 4 e2 [e1] (ok rfl) (ok rfl)⟩,
  ⟨_, fun h => h.1 (rl id).chip (ok rfl)⟩,
  ⟨_, fun h => h.1 rm.chip (ok rfl)⟩,
  ⟨_, fun h => h.1 (wz nd).chip (ok rfl)⟩], rfl⟩

theorem met_WriteExchange : Meets Obligations.WriteExchange 10 := ⟨[
  ⟨_, fun h => (h wz fq [9] (ok rfl)).1⟩,
  ⟨_, fun h => (h wz fq [9] (ok rfl)).2.1 (ok rfl)⟩,
  ⟨_, fun h => ((h (wz nd) fd [9] (ok rfl)).2.2.1 (ok rfl) (ok rfl)).1 (ok rfl)⟩,
  ⟨_, fun h => ((h (S {nd nz with writeReq := some {tag := 7, chan := 2, closeFlag := true, written := 5}}) fd7 [] (ok rfl)).2.2.1 (ok rfl) (ok rfl)).1 (ok rfl)⟩,
  ⟨_, fun h => ((h (wz nd) {fd with body := []} [9] (ok rfl)).2.2.1 (ok rfl) (ok rfl)).1 (ok rfl)⟩,
  ⟨_, fun h => ((h (mk {nd nz with writeReq := some {tag := 8, chan := 2, closeFlag := true, written := 5}} [{reqOf 15 0x19 [] with tag := 7}]) {fd7 with body := []} [] (ok rfl)).2.2.1 (ok rfl) (ok rfl)).1 (ok rfl)⟩,
  ⟨_, fun h => ((h (S {nd nz with writeReq := some {tag := 7, chan := 2, closeFlag := true, written := 5}}) {fd7 with body := []} [] (ok rfl)).2.2.1 (ok rfl) (ok rfl)).2 (ok rfl) (ok rfl) ⟨_, rfl, rfl⟩ (ok rfl)⟩,
  ⟨_, fun h => (h (wz nd) fd9 [] (ok rfl)).2.2.2.1 (ok rfl) (ok rfl)⟩,
  ⟨_, fun h => (h (wz (fun c => {nd c with ready := false})) fq [] (ok rfl)).2.2.2.1 (ok rfl) (ok rfl)⟩,
  ⟨_, fun h => (h (wz nd) fd [] (ok rfl)).2.2.2.2 [1] (ok rfl) (ok rfl)⟩], rfl⟩

theorem met_Clock : Meets Obligations.Clock 6 := ⟨[
  ⟨_, fun h => (h.1 (S {nz with clock := 0xFFFFFFFF#32}) (ok rfl))⟩,
  ⟨_, fun h => (h.1 cc (ok rfl))⟩,
  ⟨_, fun h => (h.2.1 (S {nz with ready := false}) (ok rfl))⟩,
  ⟨_, fun h => (h.2.2 ck (RQ ck) [other] 1 2 3 4 (ok rfl))⟩,
  ⟨_, fun h => (h.1 cq (ok rfl))⟩,
  ⟨_, fun h => (h.1 cr (ok rfl))⟩], rfl⟩

theorem met_ConfigureDevice : Meets Obligations.ConfigureDevice 2 := ⟨[
  ⟨_, fun h => (h (cf 0 12 1 0 1 6) (RQ (cf 0 12 1 0 1 6)) [other] 0 12 1 0 1 6 (ok rfl)).1 5 (ok rfl) (ok rfl) (ok rfl) (ok rfl)⟩,
  ⟨_, fun h => (h (cf 16 1 16 0 0 1) (RQ (cf 16 1 16 0 0 1)) [other] 16 1 16 0 0 1 (ok rfl)).2 (ok rfl)⟩], rfl⟩

theorem met_QueriesChangeNothing : Meets Obligations.QueriesChangeNothing 10 := ⟨[
  ⟨_, fun h => (h gi (RQ gi) [other]).1 (ok rfl)⟩,
  ⟨_, fun h => (h ga (RQ ga) [other]).2.1 2 (ok rfl)⟩,
  ⟨_, fun h => ((h gs (RQ gs) [other]).2.2.1 15 (ok rfl)).1 (ok rfl)⟩,
  ⟨_, fun h => ((h (gs' (.range [0,1] [9,9]) (.mailbox 15)) (RQ (gs' (.range [0,1] [9,9]) (.mailbox 15))) [other]).2.2.1 15 (ok rfl)).2 (.range [0,1] [9,9]) (.mailbox 15) (ok rfl)⟩,
  ⟨_, fun h => ((h (gs' .withheld .reject) (RQ (gs' .withheld .reject)) [other]).2.2.1 15 (ok rfl)).2 .withheld .reject (ok rfl)⟩,
  ⟨_, fun h => (h gl (RQ gl) [other]).2.2.2.1 (ok rfl)⟩,
  ⟨_, fun h => (h gf (RQ gf) [other]).2.2.2.2.1 (ok rfl)⟩,
  ⟨_, fun h => (h gm (RQ gm) [other]).2.2.2.2.2 3 1 (ok rfl)⟩,
  ⟨_, fun h => (h gm0 (RQ gm0) [other]).2.2.2.2.2 3 0 (ok rfl)⟩,
  ⟨_, fun h => (h gn (RQ gn) [other]).2.2.2.2.2 2 31 (ok rfl)⟩], rfl⟩

theorem met_RefusedAtDispatch : Meets Obligations.RefusedAtDispatch 26 := ⟨[
  ⟨_, fun h => (h (rd 3 0x60) (RQ (rd 3 0x60)) [other] (ok rfl) (ok rfl)).1 (ok rfl) (ok rfl)⟩,
  ⟨_, fun h => (h (rd 0 0x01) (RQ (rd 0 0x01)) [other] (ok rfl) (ok rfl)).2.1 (.getStatus, 0x01) (ok rfl) (ok rfl) (ok rfl)⟩,
  ⟨_, fun h => (h (rd 3 0x50) (RQ (rd 3 0x50)) [other] (ok rfl) (ok rfl)).2.1 (.setMailbox, 0x50) (ok rfl) (ok rfl) (ok rfl)⟩,
  ⟨_, fun h => (h (rd 4 0x19) (RQ (rd 4 0x19)) [other] (ok rfl) (ok rfl)).2.1 (.writeObject, 0x19) (ok rfl) (ok rfl) (ok rfl)⟩,
  ⟨_, fun h => (h (rd 14 0x59) (RQ (rd 14 0x59)) [other] (ok rfl) (ok rfl)).2.1 (.getIndicators, 0x59) (ok rfl) (ok rfl) (ok rfl)⟩,
  ⟨_, fun h => (h (rd 4 0x33) (RQ (rd 4 0x33)) [other] (ok rfl) (ok rfl)).2.2.1 (.abort, 0x33) (ok rfl) (ok rfl) (ok rfl) (ok rfl)⟩,
  ⟨_, fun h => (h (rd 14 0x33) (RQ (rd 14 0x33)) [other] (ok rfl) (ok rfl)).2.2.1 (.abort, 0x33) (ok rfl) (ok rfl) (ok rfl) (ok rfl)⟩,
  ⟨_, fun h => (h (rd 4 0x20) (RQ (rd 4 0x20)) [other] (ok rfl) (ok rfl)).2.2.1 (.getLineStatus, 0x20) (ok rfl) (ok rfl) (ok rfl) (ok rfl)⟩,
  ⟨_, fun h => (h (rd 14 0x39) (RQ (rd 14 0x39)) [other] (ok rfl) (ok rfl)).2.2.1 (.getAnswerPlan, 0x39) (ok rfl) (ok rfl) (ok rfl) (ok rfl)⟩,
  ⟨_, fun h => (h (rd 15 0x30) (RQ (rd 15 0x30)) [other] (ok rfl) (ok rfl)).2.2.2.1 (.dial, 0x30) (ok rfl) (ok rfl) (ok rfl)⟩,
  ⟨_, fun h => ((h (rd 15 0x01 [0]) (RQ (rd 15 0x01 [0])) [other] (ok rfl) (ok rfl)).2.2.2.2 (ok rfl)).1 (.getStatus, 0x01) (ok rfl) (ok rfl) (ok rfl)⟩,
  ⟨_, fun h => ((h (rd 15 0x10 [2,1,1,0]) (RQ (rd 15 0x10 [2,1,1,0])) [other] (ok rfl) (ok rfl)).2.2.2.2 (ok rfl)).1 (.createObject, 0x10) (ok rfl) (ok rfl) (ok rfl)⟩,
  ⟨_, fun h => ((h (rd 15 0x10 [2,1,1,0,2,0x31]) (RQ (rd 15 0x10 [2,1,1,0,2,0x31])) [other] (ok rfl) (ok rfl)).2.2.2.2 (ok rfl)).1 (.createObject, 0x10) (ok rfl) (ok rfl) (ok rfl)⟩,
  ⟨_, fun h => ((h (rd 15 0x19 [0,105]) (RQ (rd 15 0x19 [0,105])) [other] (ok rfl) (ok rfl)).2.2.2.2 (ok rfl)).1 (.writeObject, 0x19) (ok rfl) (ok rfl) (ok rfl)⟩,
  ⟨_, fun h => ((h (rd 15 0x33 [0]) (RQ (rd 15 0x33 [0])) [other] (ok rfl) (ok rfl)).2.2.2.2 (ok rfl)).1 (.abortDevice, 0x33) (ok rfl) (ok rfl) (ok rfl)⟩,
  ⟨_, fun h => ((h (rd 15 0x3A [1,5,0]) (RQ (rd 15 0x3A [1,5,0])) [other] (ok rfl) (ok rfl)).2.2.2.2 (ok rfl)).1 (.setScreenEntry, 0x3A) (ok rfl) (ok rfl) (ok rfl)⟩,
  ⟨_, fun h => ((h (rd 15 0x3A [1,3,1,0x31,2,0x31,0x32]) (RQ (rd 15 0x3A [1,3,1,0x31,2,0x31,0x32])) [other] (ok rfl) (ok rfl)).2.2.2.2 (ok rfl)).1 (.setScreenEntry, 0x3A) (ok rfl) (ok rfl) (ok rfl)⟩,
  ⟨_, fun h => ((h (rd 15 0x48 [1,1,1,1,1]) (RQ (rd 15 0x48 [1,1,1,1,1])) [other] (ok rfl) (ok rfl)).2.2.2.2 (ok rfl)).1 (.setFaxOptions, 0x48) (ok rfl) (ok rfl) (ok rfl)⟩,
  ⟨_, fun h => ((h (rd 15 0x50 [1,1,1,0x31,0,0,0,0]) (RQ (rd 15 0x50 [1,1,1,0x31,0,0,0,0])) [other] (ok rfl) (ok rfl)).2.2.2.2 (ok rfl)).1 (.setMailbox, 0x50) (ok rfl) (ok rfl) (ok rfl)⟩,
  ⟨_, fun h => ((h (rd 0 0x33 [0]) (RQ (rd 0 0x33 [0])) [other] (ok rfl) (ok rfl)).2.2.2.2 (ok rfl)).2 (.abort, 0x33) (ok rfl) (ok rfl) (ok rfl)⟩,
  ⟨_, fun h => ((h (rd 3 0x30 [3,1,0x31]) (RQ (rd 3 0x30 [3,1,0x31])) [other] (ok rfl) (ok rfl)).2.2.2.2 (ok rfl)).2 (.dial, 0x30) (ok rfl) (ok rfl) (ok rfl)⟩,
  ⟨_, fun h => ((h (rd 3 0x30 [2,1,0x31,2,0,1,0]) (RQ (rd 3 0x30 [2,1,0x31,2,0,1,0])) [other] (ok rfl) (ok rfl)).2.2.2.2 (ok rfl)).2 (.dial, 0x30) (ok rfl) (ok rfl) (ok rfl)⟩,
  ⟨_, fun h => ((h (rd 3 0x30 [0,1,0x31,0x32]) (RQ (rd 3 0x30 [0,1,0x31,0x32])) [other] (ok rfl) (ok rfl)).2.2.2.2 (ok rfl)).2 (.dial, 0x30) (ok rfl) (ok rfl) (ok rfl)⟩,
  ⟨_, fun h => ((h (rd 1 0x37 [2,0x31]) (RQ (rd 1 0x37 [2,0x31])) [other] (ok rfl) (ok rfl)).2.2.2.2 (ok rfl)).2 (.sendDigits, 0x37) (ok rfl) (ok rfl) (ok rfl)⟩,
  ⟨_, fun h => ((h (rd 2 0x38 [0,1,1,1]) (RQ (rd 2 0x38 [0,1,1,1])) [other] (ok rfl) (ok rfl)).2.2.2.2 (ok rfl)).2 (.setAnswerPlan, 0x38) (ok rfl) (ok rfl) (ok rfl)⟩,
  ⟨_, fun h => ((h (rd 2 0x31 []) (RQ (rd 2 0x31 [])) [other] (ok rfl) (ok rfl)).2.2.2.2 (ok rfl)).2 (.answer, 0x31) (ok rfl) (ok rfl) (ok rfl)⟩], rfl⟩

theorem met_DeviceReset : Meets Obligations.DeviceReset 2 := ⟨[
  ⟨_, fun h => (h dr (RQ dr) [other] (ok rfl))⟩,
  ⟨_, fun h => (h db (RQ db) [other] (ok rfl))⟩], rfl⟩

theorem test_reset_no_job : dr.chip.NoJob ∧ (∀ i : ChanNo, dr.chip.chans[i].state = .free) ∧ ¬ db.chip.NoJob := by decide

end Link

/-! 01_message_store.md and 02_transfer_channels_and_the_store_port.md -/
namespace Store

def S (c : Chip) : State := mk c []
def Q (code : Nat) (body : List Byte) (f : Chip → Chip := id) (line : Nat := 15) : State := mk (f nz) [reqOf line code body, other]
def RQ (s : State) : Request := s.chip.link.inq.headD other
def dob : Obj := { owner := .unowned, created := 0, attr := .clip }
def O (s : State) (i : SlotNo) : Obj := s.chip.store.slots[i].obj.getD dob
def ws (c : Chip) (i : SlotNo) (f : Obj → Obj) : Chip := {c with store := {c.store with slots := c.store.slots.set i {c.store.slots[i] with obj := c.store.slots[i].obj.map f}}}
def full (c : Chip) : Chip := {c with store := {c.store with slots := Vector.replicate 128 {gen := 3, obj := some dob}}}
def co (b : List Byte) (f : Chip → Chip := id) := Q 0x10 b f
def f0 (c : Chip) : Chip := {c with store := {c.store with slots := c.store.slots.set 0 {c.store.slots[0] with obj := some dob}}}
def c2 (p r : Byte) (i : List Byte) := co ([2, 0x0F, p, r, b1 i.length] ++ i)
def i21 : List Byte := List.replicate 21 0x41
def de (a b : Byte) (f : Chip → Chip := id) := Q 0x11 [a,b] f
def at6 : PageAttr := {page := 1, res := .standard, rate := none, strips := 3}
def g1 := de 0 105
def g4 := de 0 105 (fun c => {ws c 6 (fun o => {o with users := 2}) with lowMark := 24})
def g5 := de 0 105 (fun c => {ws c 6 (fun o => {o with users := 2, attr := .ring true 0}) with lowMark := 24})
def m1 := de 0 20
def m2 := de 0 20 (fun c => ws c 1 (fun o => {o with users := 3, attr := .message .withheld 0 .heard}))
def m3 := de 0 37
/-- A review whose cursor is on the message deleted, the last of its list, and a store that stays low. -/
def m4 := de 0 71 (fun c => {wq c 2 (fun q => {q with state := .review, target := 3, cursor := .at 71}) with lowMark := 40})
/-- A message that is still being recorded. -/
def m5 := de 0 20 (fun c => wq {ws c 1 (fun o => {o with state := .openWrite, users := 1}) with mailboxes := c.mailboxes.set 3 {c.mailboxes[3] with list := [71]}} 2 (fun q => {q with state := .recording, mailbox := 3, recording := some {handle := 20, slot := 1, chan := 3, maxLen := 9, silenceEnd := 2}}))
/-- A clip that a Record still fills. -/
def m6 := de 0 37 (fun c => wk (ws c 2 (fun o => {o with users := 1})) 2 (fun k => {k with record := some {handle := 37, slot := 2, chan := 3, maxLen := 9, silenceEnd := 2}}))
def i1 := Q 0x12 [0,20]
def i6 := Q 0x12 [9,105]
def lo (k o st : Byte) (f : Chip → Chip := id) := Q 0x13 [k,o,st] f
def ro (st n : Byte) (m : Byte) (f : Chip → Chip := id) := Q 0x18 [0,105,0,0,2,st,0,0,1,n,m] f
def r1 := ro 9 0 2
def r3 := Q 0x18 [0,105,0,0,5,120,0,0,0,0,0]
def rr : ReadReq := {tag := 6, chan := 3, sent := 5}
def r4 := Q 0x18 [0,105,0,0,5,120,0,0,0,0,0] (fun c => {c with readReq := some rr})
def r5 := Q 0x18 [0,105,0,0,5,121,0,0,0,0,0]
/-- A Read Object whose last bytes are to go out. -/
def re (i : SlotNo) (cur n : Nat) : State := S {wc (ws nz i (fun o => {o with users := 2, attr := match o.attr with | .page a => .page {a with unread := true} | x => x})) 3 (fun k => {k with state := .running, path := .link, dir := .toPath, owner := .link, slot := i, remaining := n, cur := cur, mode := .block, repeats := 0, baseCount := 900, basePos := 0}) with port := {holder := some (.chan 3), lastGranted := some (.chan 5)}, readReq := some rr, link := {nz.link with sets := vec (fun _ => [])}}
def wo (m : Byte) (f : Chip → Chip) := Q 0x19 [0,105,0,63,250,136,1,m] f
def op (c : Chip) := ws c 6 (fun o => {o with state := .openWrite})
def w1 := wo 0 op
def w2 := wo 2 (fun c => {op c with writeReq := some {tag := 7, chan := 2, closeFlag := true, written := 5}})
def w3 := wo 2 id
def a1 := Q 0x33 []
def a2 := Q 0x33 [] (fun c => {wc (op c) 3 (fun k => {k with state := .running, path := .link, slot := 6, owner := .fax 2}) with readReq := some rr, port := {holder := some (.chan 3), lastGranted := none}})
def wr2 : WriteReq := {tag := 9, chan := 2, closeFlag := true, written := 70000}
/-- A running Write Object on slot 6, the object's state as given. -/
def wrun (st : ObjState) (c : Chip) : Chip := {wc (ws c 6 (fun o => {o with state := st, users := 1})) 2 (fun k => {k with state := .running, path := .link, dir := .fromPath, slot := 6, owner := .link, remaining := 9, cur := 1400}) with writeReq := some wr2, link := {c.link with data := [{code := 1, line := 2, tag := 9, bytes := [1]}, {code := 0, line := 2, tag := 9, bytes := [1]}]}}
def a3 := Q 0x33 [] (wrun .openWrite)
def a4 := Q 0x33 [] (wrun .doomed)
def a5 := Q 0x33 [] (fun c => {wc (wrun .openWrite c) 3 (fun k => {k with state := .held, path := .link, slot := 1, owner := .link}) with readReq := some rr})
def run2 (c : Chip) : Chip := wc (wc c 3 (fun k => {k with state := .running, path := .codec 1, dir := .toPath, slot := 6, remaining := 9, owner := .callControl 1})) 1 (fun k => {k with state := .running, path := .codec 2, dir := .toPath, slot := 6, remaining := 9, owner := .callControl 2})
def ag (f : Chip → Chip) := S (f (run2 nz))
def p1 := ag (fun c => {c with port := {holder := some (.linkPort), lastGranted := none}})
def p2 := ag (fun c => {c with priority := .rotating})
def tc (f : Chan → Chan) (g : Chip → Chip := id) := S (g {wc nz 3 (fun k => f {k with state := .running, path := .codec 1, dir := .toPath, slot := 1, remaining := 100, cur := 10, mode := .demand, repeats := 0, baseCount := 110, basePos := 0}) with port := {holder := some (.chan 3), lastGranted := some (.chan 5)}})
def t1 := tc id
def wq1 : WriteReq := {tag := 7, chan := 3, closeFlag := true, written := 5}
def dd : DataIn := {code := 1, line := 2, tag := 7, bytes := [1,0,3,9]}
def ts (f : Chan → Chan) (g : Chip → Chip := id) := S (g {wc (op nz) 3 (fun k => f {k with state := .running, path := .link, dir := .fromPath, owner := .link, slot := 6, remaining := 100, cur := 1400, mode := .single, repeats := 0, baseCount := 110, basePos := 0}) with port := {holder := some (.chan 3), lastGranted := some (.chan 5)}, writeReq := some wq1, link := {nz.link with data := [dd, {code := 0, line := 1, tag := 1, bytes := []}]}})
def mo : List DataIn := [{code := 0, line := 1, tag := 1, bytes := []}]
def x1 := ts id
/-- The object's chain is full: the next transfer takes a block. -/
def xb (low : Nat) := ts (fun k => {k with cur := 1536}) (fun c => {c with lowMark := low})
/-- The last transfer of a Write Object to a VOICE_CLIP. -/
def xt (n : Nat) (cf : Bool) := ts (fun k => {k with remaining := n}) (fun c => {ws c 6 (fun o => {o with attr := .clip, users := 1}) with writeReq := some {wq1 with closeFlag := cf}})
def se (k : Nat) (cf : Bool) (f : Chan → Chan := id) (us : Nat := 1) : State := let s := ts f (fun c => {ws c 6 (fun o => {o with chain := List.range k, users := us}) with store := {(ws c 6 (fun o => {o with chain := List.range k, users := us})).store with free := []}, writeReq := some {wq1 with closeFlag := cf}}); s
def pp (n : Nat) (ov : Bool) := S {wc nz 3 (fun k => {k with state := .running, path := .codec 1, dir := .fromPath, slot := 6, owner := .voiceMail 1}) with codecs := nz.codecs.set 1 {nz.codecs[1] with buf := {toBuf := [3], frm := List.replicate n 1, overNow := ov}}}
def pe := S (wc nz 3 (fun k => {k with state := .running, path := .engine 2, dir := .fromPath, slot := 6, owner := .fax 2}))
def pc (b : List Byte) (un : Bool) := S {wc nz 3 (fun k => {k with state := .running, path := .codec 1, dir := .toPath, slot := 6, owner := .voiceMail 1, remaining := 4}) with codecs := nz.codecs.set 1 {nz.codecs[1] with buf := {toBuf := b, frm := [], overNow := true, under := un}, speed := 16, half := none, phase := 15}}
def ps (speed phase : Nat) (half : Option (BitVec 4)) := S {wc nz 3 (fun k => {k with state := .running, path := .codec 1, dir := .toPath, slot := 6, owner := .callControl 1, remaining := 4}) with codecs := nz.codecs.set 1 {nz.codecs[1] with buf := {toBuf := [0x9A, 5], frm := [], overNow := true, under := false}, speed := speed, half := half, phase := phase}}
def p7 : FaxPage := {handle := 105, slot := 6, number := 2, res := .fine, total := 7, resent := 3}
def pj (n : Nat) (again : Bool) : FaxJob := {role := .send, engine := 0, opts := {}, cur := some p7, roundOn := true, runLeft := n, runAt := 5, strip := [1, 2], stripFill := true, repass := again, resent := 4}
/-- A fax page being sent on line 1, with the bytes in its path's buffer; its engine runs or waits. -/
def px (n : Nat) (b : List Byte) (un run : Bool) (again : Bool := false) := S (wf (we {wc nz 3 (fun k => {k with state := .running, path := .engine 1, dir := .toPath, slot := 6, owner := .fax 1, remaining := 4}) with epaths := nz.epaths.set 1 {toBuf := b, under := un}} 0 (fun g => {g with state := if run then .running else .retraining, line := 1})) 1 (pj n again))
def lg : Long := {kind := .play, tag := 4}
def pd (r : Nat) (b : List Byte) := S (wk {wc (ws nz 6 (fun o => {o with users := 1})) 3 (fun k => {k with state := .running, path := .codec 1, dir := .toPath, slot := 6, owner := .callControl 1, remaining := r}) with codecs := nz.codecs.set 1 {nz.codecs[1] with buf := {toBuf := b, frm := [], overNow := true, under := true}}, port := {holder := some (.chan 3), lastGranted := none}} 1 (fun k => {k with long := some lg, phase := .playing, state := .connected}))
/-- The last byte of slot 1, a message of mailbox 3, has been played on line 1 for voice mail: as a greeting, or in REVIEW. -/
def pv (greet play : Option ChanNo) (only : Bool) (f : Chip → Chip) : State :=
  let c := wc (ws (pd 0 []).chip 1 (fun o => {o with users := 1})) 3 (fun k => {k with slot := 1, owner := .voiceMail 1, slips := 7})
  S (f (wk (wq c 1 (fun q => {q with state := .review, greetingOnly := only, greetChan := greet, playChan := play, opening := .star, prefixTimer := {run := true, ms := 9}})) 1
    (fun k => {k with window := .greeting, codecSlips := 65530, long := none})))
/-- That message is DOOMED; or it is KEPT. -/
def dm (c : Chip) : Chip := {ws c 1 (fun o => {o with state := .doomed}) with lowMark := 25}
def kp (c : Chip) : Chip := ws c 1 (fun o => {o with attr := .message .withheld 0 .kept})

/-- A channel on slot 6 that writes from the codec path of line 1, or from the engine path of line 2, with `n` bytes in the path's buffer. -/
def cw (p : Path) (own : ChanOwner) (cur rem n : Nat) (f : Chip → Chip) : State := S (f {wc (op nz) 3 (fun k => {k with
  state := .running, path := p, dir := .fromPath, owner := own, slot := 6, remaining := rem, cur := cur, mode := .demand, repeats := 0, slips := 9}) with
  port := {holder := some (.chan 3), lastGranted := some (.chan 5)}, codecs := nz.codecs.set 1 {nz.codecs[1] with buf := {frm := (List.range n).map b1}}
  epaths := nz.epaths.set 2 {frm := (List.range n).map b1}})
/-- Its object: this chain and length, of this kind and owner, with one user. -/
def ol (chain : List Nat) (len : Nat) (at_ : Attr) (own : Owner) (c : Chip) : Chip := ws c 6 (fun o => {o with chain := chain, length := len, attr := at_, owner := own, users := 1})
def xr (e : Option Nat) : Recording := {handle := 105, slot := 6, chan := 3, maxLen := 9, silenceEnd := 2, det := {empty := e}}
def lr : Long := {kind := .record, tag := 4, handle := some 105, chan := some 3}
/-- A plan's recording on line 1 for mailbox 5, and a Record there. -/
def pr (e : Option Nat) (chain : List Nat) (len : Nat) (c : Chip) : Chip := wq (ol chain len (.message (.digits [1]) 1 .new) (.mailbox 5) c) 1 (fun q => {q with state := .recording, mailbox := 5, recording := some (xr e)})
def hr (e : Option Nat) (chain : List Nat) (len : Nat) (c : Chip) : Chip := wk (ol chain len .clip (.line 1) c) 1 (fun k => {k with state := .connected, phase := .recording, long := some lr, record := some (xr e)})
def vm := cw (.codec 1) (.voiceMail 1)
def cc := cw (.codec 1) (.callControl 1)
/-- A fax page received on line 2. -/
def fp (ever : Bool) : FaxPage := {handle := 105, slot := 6, number := 2, res := .fine, total := 7, chan := some 3, ever := ever, told := true, stored := [0, 1]}
def fj (ever : Bool) : FaxJob := {role := .receive, engine := 0, opts := {}, rate := some 2, cur := some (fp ever), strips := [(4, [1])], passing := true}
def fa : PageAttr := {page := 2, res := .fine, rate := none, strips := 0}
def fr (ever : Bool) (chain : List Nat) (c : Chip) : Chip := wf (we (ol chain 1400 (.page fa) (.line 2) c) 1 (fun g => {g with state := .running, line := 2})) 2 (fj ever)
def ef := cw (.engine 2) (.fax 2)
def nofree (c : Chip) : Chip := {c with store := {c.store with free := [], low := true}}
def up (a n : Nat) : List Nat := (List.range n).map (· + a)

theorem met_CreateObject : Meets Obligations.CreateObject 7 := ⟨[
  ⟨_, fun h => (h (co [0, 0x13] f0) (RQ (co [0,0x13] f0)) [other] 0x13).1 3 (.line 3) (ok rfl) (ok rfl) (ok rfl)⟩,
  ⟨_, fun h => (h (c2 255 1 []) (RQ (c2 255 1 [])) [other] 0x0F).2.1 0 (.mailbox 15) 255 1 [] (ok rfl) (ok rfl) (ok rfl) (ok rfl) (ok rfl) (ok rfl)⟩,
  ⟨_, fun h => (h (co [0, 2] full) (RQ (co [0,2] full)) [other] 2).2.2.1 (.mailbox 2) (ok rfl) (ok rfl) (ok rfl)⟩,
  ⟨_, fun h => (h (co [1, 2]) (RQ (co [1,2])) [other] 2).2.2.2.1 1 (ok rfl) (ok rfl)⟩,
  ⟨_, fun h => (h (c2 0 1 []) (RQ (c2 0 1 [])) [other] 0x0F).2.2.2.2.1 0 1 (ok rfl) (ok rfl)⟩,
  ⟨_, fun h => (h (c2 1 1 i21) (RQ (c2 1 1 i21)) [other] 0x0F).2.2.2.2.2 1 1 i21 (ok rfl) (ok rfl) (ok rfl)⟩,
  ⟨_, fun h => (h (c2 1 0 (i21.take 20)) (RQ (c2 1 0 (i21.take 20))) [other] 0x0F).2.1 0 (.mailbox 15) 1 0 (i21.take 20) (ok rfl) (ok rfl) (ok rfl) (ok rfl) (ok rfl) (ok rfl)⟩], rfl⟩

theorem met_DeleteObject : Meets Obligations.DeleteObject 4 := ⟨[
  ⟨_, fun h => (h g1 (RQ g1) [other] 0 105 (ok rfl)).1 6 (O g1 6) at6 (ok rfl) (ok rfl) (ok rfl)⟩,
  ⟨_, fun h => (h g4 (RQ g4) [other] 0 105 (ok rfl)).2.1 6 (O g4 6) at6 (ok rfl) (ok rfl) (ok rfl)⟩,
  ⟨_, fun h => (h g5 (RQ g5) [other] 0 105 (ok rfl)).2.2.1 6 (O g5 6) (ok rfl) (ok rfl)⟩,
  ⟨_, fun h => (h (de 0 106) (RQ (de 0 106)) [other] 0 106 (ok rfl)).2.2.2 (ok rfl)⟩], rfl⟩

theorem met_DeletionTellsVoiceMail : Meets Obligations.DeletionTellsVoiceMail 6 := ⟨[
  ⟨_, fun h => ((h m1 (RQ m1) [other] 0 20 (ok rfl)).1 1 (O m1 1) 3 (.digits [1,2]) 2 .new (ok rfl) (ok rfl) (ok rfl)).1 [] [71] (ok rfl) (ok rfl)⟩,
  ⟨_, fun h => ((h m2 (RQ m2) [other] 0 20 (ok rfl)).1 1 (O m2 1) 3 .withheld 0 .heard (ok rfl) (ok rfl) (ok rfl)).1 [] [71] (ok rfl) (ok rfl)⟩,
  ⟨_, fun h => ((h m4 (RQ m4) [other] 0 71 (ok rfl)).1 4 (O m4 4) 3 (.digits [1,2]) 2 .new (ok rfl) (ok rfl) (ok rfl)).1 [20] [] (ok rfl) (ok rfl)⟩,
  ⟨_, fun h => ((h m5 (RQ m5) [other] 0 20 (ok rfl)).1 1 (O m5 1) 3 (.digits [1,2]) 2 .new (ok rfl) (ok rfl) (ok rfl)).2 (ok rfl)⟩,
  ⟨_, fun h => (h m3 (RQ m3) [other] 0 37 (ok rfl)).2 2 (O m3 2) (ok rfl) (ok rfl)⟩,
  ⟨_, fun h => (h m6 (RQ m6) [other] 0 37 (ok rfl)).2 2 (O m6 2) (ok rfl) (ok rfl)⟩], rfl⟩

theorem met_GetObjectInfo : Meets Obligations.GetObjectInfo 2 := ⟨[
  ⟨_, fun h => (h i1 (RQ i1) [other] 0 20 (ok rfl)).1 1 (O i1 1) (ok rfl)⟩,
  ⟨_, fun h => (h i6 (RQ i6) [other] 9 105 (ok rfl)).2 (ok rfl)⟩], rfl⟩

theorem met_ListObjects : Meets Obligations.ListObjects 2 := ⟨[
  ⟨_, fun h => (h (lo 4 0xFE 0) (RQ (lo 4 0xFE 0)) [other] 4 0xFE 0 (ok rfl)).1 (ok rfl) (ok rfl) (ok rfl)⟩,
  ⟨_, fun h => (h (lo 0 0x13 128) (RQ (lo 0 0x13 128)) [other] 0 0x13 128 (ok rfl)).2 (ok rfl)⟩], rfl⟩

theorem met_ReadObject : Meets Obligations.ReadObject 7 := ⟨[
  ⟨_, fun h => (h.2 r1 (RQ r1) [other] 0 105 0 0 2 9 0 0 1 0 2 (ok rfl) 6 (O r1 6) (ok rfl)).1 0 (ok rfl) (ok rfl) (ok rfl) (ok rfl) (ok rfl) (ok rfl) (ok rfl)⟩,
  ⟨_, fun h => (h.2 r3 (RQ r3) [other] 0 105 0 0 5 120 0 0 0 0 0 (ok rfl) 6 (O r3 6) (ok rfl)).2.1 (ok rfl) (ok rfl) (ok rfl) (ok rfl) (ok rfl)⟩,
  ⟨_, fun h => (h.2 r4 (RQ r4) [other] 0 105 0 0 5 120 0 0 0 0 0 (ok rfl) 6 (O r4 6) (ok rfl)).2.2.1 (ok rfl)⟩,
  ⟨_, fun h => (h.2 r5 (RQ r5) [other] 0 105 0 0 5 121 0 0 0 0 0 (ok rfl) 6 (O r5 6) (ok rfl)).2.2.2 (ok rfl) (ok rfl)⟩,
  ⟨_, fun h => h.1 (re 6 1272 128) 3 (O (re 6 1272 128) 6) {rr with chan := 3} (ok rfl) (ok rfl) (ok rfl) (ok rfl) (ok rfl) (ok rfl) (ok rfl) (ok rfl) (ok rfl) (ok rfl) (ok rfl) (ok rfl) (ok rfl) (ok rfl) (ok rfl) (ok rfl)⟩,
  ⟨_, fun h => h.1 (re 6 256 256) 3 (O (re 6 256 256) 6) {rr with chan := 3} (ok rfl) (ok rfl) (ok rfl) (ok rfl) (ok rfl) (ok rfl) (ok rfl) (ok rfl) (ok rfl) (ok rfl) (ok rfl) (ok rfl) (ok rfl) (ok rfl) (ok rfl) (ok rfl)⟩,
  ⟨_, fun h => h.1 (re 1 600 100) 3 (O (re 1 600 100) 1) {rr with chan := 3} (ok rfl) (ok rfl) (ok rfl) (ok rfl) (ok rfl) (ok rfl) (ok rfl) (ok rfl) (ok rfl) (ok rfl) (ok rfl) (ok rfl) (ok rfl) (ok rfl) (ok rfl) (ok rfl)⟩], rfl⟩

theorem met_WriteObject : Meets Obligations.WriteObject 3 := ⟨[
  ⟨_, fun h => (h w1 (RQ w1) [other] 0 105 0 63 250 136 1 0 (ok rfl) 6 (O w1 6) (ok rfl)).1 0 (ok rfl) (ok rfl) (ok rfl) (ok rfl) (ok rfl) (ok rfl) (ok rfl) (ok rfl) (ok rfl) (ok rfl)⟩,
  ⟨_, fun h => (h w2 (RQ w2) [other] 0 105 0 63 250 136 1 2 (ok rfl) 6 (O w2 6) (ok rfl)).2.1 (ok rfl)⟩,
  ⟨_, fun h => (h w3 (RQ w3) [other] 0 105 0 63 250 136 1 2 (ok rfl) 6 (O w3 6) (ok rfl)).2.2 (ok rfl) (ok rfl)⟩], rfl⟩

theorem met_AbortDevice : Meets Obligations.AbortDevice 5 := ⟨[
  ⟨_, fun h => (h a1 (RQ a1) [other] (ok rfl)).1 (ok rfl) (ok rfl)⟩,
  ⟨_, fun h => (h a2 (RQ a2) [other] (ok rfl)).2.2.2 rr (ok rfl) (ok rfl) (ok rfl) (ok rfl) (ok rfl)⟩,
  ⟨_, fun h => (h a3 (RQ a3) [other] (ok rfl)).2.1 wr2 (ok rfl) (ok rfl) (ok rfl) (ok rfl) (O a3 6) (ok rfl) (ok rfl)⟩,
  ⟨_, fun h => (h a4 (RQ a4) [other] (ok rfl)).2.1 wr2 (ok rfl) (ok rfl) (ok rfl) (ok rfl) (O a4 6) (ok rfl) (ok rfl)⟩,
  ⟨_, fun h => (h a5 (RQ a5) [other] (ok rfl)).2.2.1 rr wr2 (ok rfl) (ok rfl) (ok rfl) (ok rfl) (ok rfl) (ok rfl) (ok rfl) (ok rfl) (ok rfl)⟩], rfl⟩

theorem met_ArbiterGrant : Meets Obligations.ArbiterGrant 4 := ⟨[
  ⟨_, fun h => (h p1).2.2.2.1 .linkPort (ok rfl)⟩,
  ⟨_, fun h => (h (S nz)).2.2.2.2.1 (ok rfl) (by intro q; cases q <;> (first | (rename_i i; revert i; decide) | decide))⟩,
  ⟨_, fun h => (h (ag id)).2.2.2.2.2.1 3 (ok rfl) (ok rfl) (ok rfl) (ok rfl)⟩,
  ⟨_, fun h => (h p2).2.2.2.2.2.2 4 0 (ok rfl) (ok rfl) (ok rfl) (ok rfl) (ok rfl)⟩], rfl⟩

theorem met_TransferToCodec : Meets Obligations.TransferToCodec 1 := ⟨[
  ⟨_, fun h => h t1 3 1 (O t1 1) (ok rfl) (ok rfl) (ok rfl) (ok rfl) (ok rfl) (ok rfl) (ok rfl) (ok rfl) (ok rfl)⟩], rfl⟩

theorem met_TransferStoresBytes : Meets Obligations.TransferStoresBytes 12 := ⟨[
  ⟨_, fun h => h.1 x1 3 (O x1 6) wq1 dd mo (72*512+376) (ok rfl) (ok rfl) (ok rfl) (ok rfl) (ok rfl)⟩,
  ⟨_, fun h => h.2.1 (xb 12) 3 (O (xb 12) 6) wq1 dd mo 100 ((List.range 19).map (· + 101)) (ok rfl) (ok rfl) (ok rfl) (ok rfl) (ok rfl) (ok rfl)⟩,
  ⟨_, fun h => h.2.1 (xb 20) 3 (O (xb 20) 6) wq1 dd mo 100 ((List.range 19).map (· + 101)) (ok rfl) (ok rfl) (ok rfl) (ok rfl) (ok rfl) (ok rfl)⟩,
  ⟨_, fun h => h.2.2.1 (xt 4 true) 3 (O (xt 4 true) 6) wq1 dd mo (72*512+376) (ok rfl) (ok rfl) (ok rfl) (ok rfl) (ok rfl) (ok rfl) (ok rfl)⟩,
  ⟨_, fun h => h.2.2.1 (xt 3 false) 3 (O (xt 3 false) 6) {wq1 with closeFlag := false} dd mo (72*512+376) (ok rfl) (ok rfl) (ok rfl) (ok rfl) (ok rfl) (ok rfl) (ok rfl)⟩,
  ⟨_, fun h => (h.2.2.2 (cc 1400 4000 600 (hr none [70,71,72] 1400)) 3 1 (O (cc 1400 4000 600 (hr none [70,71,72] 1400)) 6) [] (up 100 20) 72 (ok rfl) (ok rfl)).1 (ok rfl) |>.1 (ok rfl) (Or.inl rfl)⟩,
  ⟨_, fun h => (h.2.2.2 (vm 1536 4000 1024 (pr none [70,71,72] 1536)) 3 1 (O (vm 1536 4000 1024 (pr none [70,71,72] 1536)) 6) [100] (up 101 19) 100 (ok rfl) (ok rfl)).1 (ok rfl) |>.1 (ok rfl) (Or.inr ⟨rfl, xr none, rfl, rfl, ok rfl, ok rfl⟩)⟩,
  ⟨_, fun h => (h.2.2.2 (ef 1024 4000 512 (fr true [70])) 3 2 (O (ef 1024 4000 512 (fr true [70])) 6) [100, 101] (up 102 18) 101 (ok rfl) (ok rfl)).1 (ok rfl) |>.2 (ok rfl) (ok rfl) ⟨1, rfl, rfl⟩⟩,
  ⟨_, fun h => (h.2.2.2 (vm 1400 100 600 (pr none [70,71,72] 1400)) 3 1 (O (vm 1400 100 600 (pr none [70,71,72] 1400)) 6) [] (up 100 20) 72 (ok rfl) (ok rfl)).2 (ok rfl) |>.1 (xr none) ⟨rfl, rfl, rfl, rfl, rfl, rfl, ok rfl, ⟨_, rfl⟩, rfl, rfl, ok rfl, ok rfl⟩⟩,
  ⟨_, fun h => (h.2.2.2 (vm 4096 200 600 (pr (some 4050) (up 70 8) 4096)) 3 1 (O (vm 4096 200 600 (pr (some 4050) (up 70 8) 4096)) 6) [100] (up 101 19) 100 (ok rfl) (ok rfl)).2 (ok rfl) |>.1 (xr (some 4050)) ⟨rfl, rfl, rfl, rfl, rfl, rfl, ok rfl, ⟨_, rfl⟩, rfl, rfl, ok rfl, ok rfl⟩⟩,
  ⟨_, fun h => (h.2.2.2 (cc 1400 100 600 (hr none [70,71,72] 1400)) 3 1 (O (cc 1400 100 600 (hr none [70,71,72] 1400)) 6) [] (up 100 20) 72 (ok rfl) (ok rfl)).2 (ok rfl) |>.2 lr (xr none) (ok rfl)⟩,
  ⟨_, fun h => (h.2.2.2 (cc 4900 100 600 (hr (some 4050) (up 70 10) 4900)) 3 1 (O (cc 4900 100 600 (hr (some 4050) (up 70 10) 4900)) 6) [] (up 100 20) 79 (ok rfl) (ok rfl)).2 (ok rfl) |>.2 lr (xr (some 4050)) (ok rfl)⟩], rfl⟩

theorem met_StoreExhaustion : Meets Obligations.StoreExhaustion 7 := ⟨[
  ⟨_, fun h => h.1 (se 2 true) 3 (O (se 2 true) 6) {wq1 with closeFlag := true} dd mo (ok rfl) (ok rfl) (ok rfl) (ok rfl) (ok rfl) (ok rfl) (ok rfl) (ok rfl) (ok rfl) (ok rfl) (ok rfl) (ok rfl) (ok rfl) (ok rfl) (ok rfl) (ok rfl) (ok rfl)⟩,
  ⟨_, fun h => (h.2 (vm 1536 400 600 (fun c => nofree (pr none [70,71,72] 1536 c))) 3 1 (O (vm 1536 400 600 (fun c => nofree (pr none [70,71,72] 1536 c))) 6) (ok rfl) (ok rfl) (ok rfl) (ok rfl) (ok rfl) (ok rfl) (ok rfl) (ok rfl) (ok rfl)).1 (ok rfl) |>.1 (xr none) ⟨rfl, rfl, rfl, rfl, rfl, rfl, ok rfl, ⟨_, rfl⟩, rfl, rfl, ok rfl, ok rfl⟩⟩,
  ⟨_, fun h => (h.2 (vm 5120 400 600 (fun c => nofree (pr (some 4010) (up 70 10) 5120 c))) 3 1 (O (vm 5120 400 600 (fun c => nofree (pr (some 4010) (up 70 10) 5120 c))) 6) (ok rfl) (ok rfl) (ok rfl) (ok rfl) (ok rfl) (ok rfl) (ok rfl) (ok rfl) (ok rfl)).1 (ok rfl) |>.1 (xr (some 4010)) ⟨rfl, rfl, rfl, rfl, rfl, rfl, ok rfl, ⟨_, rfl⟩, rfl, rfl, ok rfl, ok rfl⟩⟩,
  ⟨_, fun h => (h.2 (cc 1536 400 600 (fun c => nofree (hr none [70,71,72] 1536 c))) 3 1 (O (cc 1536 400 600 (fun c => nofree (hr none [70,71,72] 1536 c))) 6) (ok rfl) (ok rfl) (ok rfl) (ok rfl) (ok rfl) (ok rfl) (ok rfl) (ok rfl) (ok rfl)).1 (ok rfl) |>.2 lr (xr none) (ok rfl)⟩,
  ⟨_, fun h => (h.2 (cc 5120 400 600 (fun c => nofree (hr none (up 70 10) 5120 c))) 3 1 (O (cc 5120 400 600 (fun c => nofree (hr none (up 70 10) 5120 c))) 6) (ok rfl) (ok rfl) (ok rfl) (ok rfl) (ok rfl) (ok rfl) (ok rfl) (ok rfl) (ok rfl)).1 (ok rfl) |>.2 lr (xr none) (ok rfl)⟩,
  ⟨_, fun h => (h.2 (ef 1536 4000 512 (fun c => nofree (fr true [70,71,72] c))) 3 2 (O (ef 1536 4000 512 (fun c => nofree (fr true [70,71,72] c))) 6) (ok rfl) (ok rfl) (ok rfl) (ok rfl) (ok rfl) (ok rfl) (ok rfl) (ok rfl) (ok rfl)).2 (fj true) (fp true) fa 2 (ok rfl) (ok rfl) (ok rfl) ⟨1, rfl, rfl⟩ (ok rfl) (ok rfl) (ok rfl) (ok rfl) (ok rfl) (ok rfl) (ok rfl) (ok rfl) (ok rfl) (ok rfl) |>.1 (ok rfl)⟩,
  ⟨_, fun h => (h.2 (ef 1536 4000 512 (fun c => nofree (fr false [70,71,72] c))) 3 2 (O (ef 1536 4000 512 (fun c => nofree (fr false [70,71,72] c))) 6) (ok rfl) (ok rfl) (ok rfl) (ok rfl) (ok rfl) (ok rfl) (ok rfl) (ok rfl) (ok rfl)).2 (fj false) (fp false) fa 2 (ok rfl) (ok rfl) (ok rfl) ⟨1, rfl, rfl⟩ (ok rfl) (ok rfl) (ok rfl) (ok rfl) (ok rfl) (ok rfl) (ok rfl) (ok rfl) (ok rfl) (ok rfl) |>.2 (ok rfl)⟩], rfl⟩

theorem met_PathProduce : Meets Obligations.PathProduce 6 := ⟨[
  ⟨_, fun h => ((h (pp 1023 true) 1 7).1 3 (ok rfl) (ok rfl) (ok rfl) (ok rfl)).1 (ok rfl)⟩,
  ⟨_, fun h => ((h (pp 1024 true) 1 7).1 3 (ok rfl) (ok rfl) (ok rfl) (ok rfl)).2.1 (ok rfl) (ok rfl)⟩,
  ⟨_, fun h => ((h (pp 1024 false) 1 7).1 3 (ok rfl) (ok rfl) (ok rfl) (ok rfl)).2.2 (ok rfl) (ok rfl)⟩,
  ⟨_, fun h => (h (pp 1024 false) 2 7).2.1 (ok rfl)⟩,
  ⟨_, fun h => (h (pp 1024 false) 2 7).2.2.1 (ok rfl)⟩,
  ⟨_, fun h => (h pe 2 7).2.2.2 3 (ok rfl) (ok rfl)⟩], rfl⟩

theorem met_PathConsume : Meets Obligations.PathConsume 18 := ⟨[
  ⟨_, fun h => (h.1 (px 5 [7,8] false false) 1 3 (pj 5 false) p7 (ok rfl) (ok rfl) (ok rfl) (ok rfl) (ok rfl) (ok rfl)).1 (ok rfl)⟩,
  ⟨_, fun h => ((h.1 (px 512 [7,8] false true) 1 3 (pj 512 false) p7 (ok rfl) (ok rfl) (ok rfl) (ok rfl) (ok rfl) (ok rfl)).2 (ok rfl)).1 7 [8] (ok rfl) (ok rfl)⟩,
  ⟨_, fun h => ((h.1 (px 513 [7,8] false true) 1 3 (pj 513 false) p7 (ok rfl) (ok rfl) (ok rfl) (ok rfl) (ok rfl) (ok rfl)).2 (ok rfl)).2.1 7 [8] (ok rfl) (ok rfl) (ok rfl) (ok rfl)⟩,
  ⟨_, fun h => ((h.1 (px 1025 [7] false true true) 1 3 (pj 1025 true) p7 (ok rfl) (ok rfl) (ok rfl) (ok rfl) (ok rfl) (ok rfl)).2 (ok rfl)).2.1 7 [] (ok rfl) (ok rfl) (ok rfl) (ok rfl)⟩,
  ⟨_, fun h => ((h.1 (px 5 [] true true) 1 3 (pj 5 false) p7 (ok rfl) (ok rfl) (ok rfl) (ok rfl) (ok rfl) (ok rfl)).2 (ok rfl)).2.2.1 (ok rfl) (ok rfl)⟩,
  ⟨_, fun h => ((h.1 (px 5 [] false true) 1 3 (pj 5 false) p7 (ok rfl) (ok rfl) (ok rfl) (ok rfl) (ok rfl) (ok rfl)).2 (ok rfl)).2.2.2 (ok rfl) (ok rfl) (ok rfl) (ok rfl) (ok rfl)⟩,
  ⟨_, fun h => ((h.2.1 (ps 8 7 none) 1 3 0x9A [5] (ok rfl) (ok rfl) (ok rfl) (ok rfl) (ok rfl)).1 (ok rfl)).1 (ok rfl)⟩,
  ⟨_, fun h => ((h.2.1 (ps 8 8 none) 1 3 0x9A [5] (ok rfl) (ok rfl) (ok rfl) (ok rfl) (ok rfl)).1 (ok rfl)).2.1 (ok rfl) (ok rfl)⟩,
  ⟨_, fun h => ((h.2.1 (ps 24 7 none) 1 3 0x9A [5] (ok rfl) (ok rfl) (ok rfl) (ok rfl) (ok rfl)).1 (ok rfl)).2.1 (ok rfl) (ok rfl)⟩,
  ⟨_, fun h => ((h.2.1 (ps 24 8 none) 1 3 0x9A [5] (ok rfl) (ok rfl) (ok rfl) (ok rfl) (ok rfl)).1 (ok rfl)).2.2 (ok rfl)⟩,
  ⟨_, fun h => ((h.2.1 (ps 17 15 (some 3)) 1 3 0x9A [5] (ok rfl) (ok rfl) (ok rfl) (ok rfl) (ok rfl)).2 3 (ok rfl)).1 (ok rfl)⟩,
  ⟨_, fun h => ((h.2.1 (ps 16 0 (some 3)) 1 3 0x9A [5] (ok rfl) (ok rfl) (ok rfl) (ok rfl) (ok rfl)).2 3 (ok rfl)).2.1 (ok rfl) (ok rfl) |>.2.1 (ok rfl) (ok rfl)⟩,
  ⟨_, fun h => (h.2.2 (pc [1] true) 1 3 (ok rfl) (ok rfl) (ok rfl) (ok rfl) (ok rfl)).1 1 [] (ok rfl)⟩,
  ⟨_, fun h => (h.2.2 (pc [] false) 1 3 (ok rfl) (ok rfl) (ok rfl) (ok rfl) (ok rfl)).2 (ok rfl) (ok rfl) (ok rfl) (ok rfl) (ok rfl)⟩,
  ⟨_, fun h => ((h.2.1 (ps 15 1 (some 3)) 1 3 0x9A [5] (ok rfl) (ok rfl) (ok rfl) (ok rfl) (ok rfl)).2 3 (ok rfl)).2.1 (ok rfl) (ok rfl) |>.1 (ok rfl)⟩,
  ⟨_, fun h => ((h.2.1 (ps 24 7 (some 3)) 1 3 0x9A [5] (ok rfl) (ok rfl) (ok rfl) (ok rfl) (ok rfl)).2 3 (ok rfl)).2.1 (ok rfl) (ok rfl) |>.2.2 (ok rfl)⟩,
  ⟨_, fun h => ((h.2.1 (ps 8 0 (some 3)) 1 3 0x9A [5] (ok rfl) (ok rfl) (ok rfl) (ok rfl) (ok rfl)).2 3 (ok rfl)).2.2 (ok rfl) |>.1 (ok rfl)⟩,
  ⟨_, fun h => ((h.2.1 (ps 15 0 (some 3)) 1 3 0x9A [5] (ok rfl) (ok rfl) (ok rfl) (ok rfl) (ok rfl)).2 3 (ok rfl)).2.2 (ok rfl) |>.2.1 (ok rfl) (ok rfl)⟩], rfl⟩

theorem met_PathDrained : Meets Obligations.PathDrained 9 := ⟨[
  ⟨_, fun h => ((h (pd 0 []) 1).2.2.2 3 (O (pd 0 []) 6) (ok rfl)).2 (ok rfl) (ok rfl) (ok rfl) |>.1 lg (ok rfl) (ok rfl) (ok rfl)⟩,
  ⟨_, fun h => ((h (pd 1 []) 1).2.2.2 3 (O (pd 0 []) 6) (ok rfl)).1 (ok rfl)⟩,
  ⟨_, fun h => (h (pd 0 []) 2).1 (ok rfl)⟩,
  ⟨_, fun h => (h (pd 0 []) 2).2.1 (ok rfl)⟩,
  ⟨_, fun h => (h (px 5 [] true true) 1).2.2.1 3 (ok rfl) (ok rfl)⟩,
  ⟨_, fun h => ((h (pv (some 3) none true id) 1).2.2.2 3 (O (pv (some 3) none true id) 1) (ok rfl)).2 (ok rfl) (ok rfl) (ok rfl) |>.2.1 (ok rfl) (ok rfl)⟩,
  ⟨_, fun h => ((h (pv none (some 3) false id) 1).2.2.2 3 (O (pv none (some 3) false id) 1) (ok rfl)).2 (ok rfl) (ok rfl) (ok rfl) |>.2.2 (.digits [1,2]) 2 .new (ok rfl) (ok rfl) (ok rfl) (ok rfl) |>.2 3 (ok rfl) (ok rfl) (ok rfl)⟩,
  ⟨_, fun h => ((h (pv none (some 3) false dm) 1).2.2.2 3 (O (pv none (some 3) false dm) 1) (ok rfl)).2 (ok rfl) (ok rfl) (ok rfl) |>.2.2 (.digits [1,2]) 2 .new (ok rfl) (ok rfl) (ok rfl) (ok rfl) |>.1 (ok rfl)⟩,
  ⟨_, fun h => ((h (pv none (some 3) false kp) 1).2.2.2 3 (O (pv none (some 3) false kp) 1) (ok rfl)).2 (ok rfl) (ok rfl) (ok rfl) |>.2.2 .withheld 0 .kept (ok rfl) (ok rfl) (ok rfl) (ok rfl) |>.1 (ok rfl)⟩], rfl⟩

end Store

/-! 03_line_supervision_and_faults.md -/
namespace Lines

def S (c : Chip) : State := mk c []
def Q (code : Nat) (body : List Byte) (f : Chip → Chip := id) (line : Nat := 15) : State := mk (f nz) [reqOf line code body, other]
def RQ (s : State) : Request := s.chip.link.inq.headD other
def g0 := Q 0x20 [] id 2
def cf (f : Byte) := Q 0x22 [f] (fun c => wl c 1 (fun n => {n with latch := {overcurrent := true, hot := true, critical := true, lineLost := true}, cond := {hot := true, lineLost := true}})) 1
def a (x t m w n : Byte) := Q 0x21 [x,t,m,w,n] id 1
def b (l : List Byte) := Q 0x38 l id 2
def d (l : List Byte) := Q 0x3A l
def e (w t n p : Byte) := Q 0x40 [w,t,n,p]
def f (x y q k : Byte) (ident : List Byte := []) := Q 0x48 ([x,y,q,k,b1 ident.length] ++ ident)
def dm (p : Match) (a : Action) := d (15 :: matchBytes p ++ actionBytes a)
def lr (st : CallState) (f : Line → Line := id) := Q 0x23 [] (fun c => wl (wk c 2 (fun k => {k with state := st, phase := .dialling, forced := true})) 2 (fun n => f {n with hook := .onHook, latch := {overcurrent := true, hot := true, critical := true, lineLost := true}, cond := {hot := true, lineLost := true}})) 2
def ld : Option Long := some {kind := .dial, tag := 0x44}
/-- Line 2 in a voice call that holds nothing but its line, with the long request `g` in execution. -/
def ll (st : CallState) (g : Option Long) :=
  Q 0x23 [] (fun c => {wl (wk c 2 (fun k => {k with state := st, phase := .seize, long := g, prevPhase := .training})) 2 (fun n => {n with
    hook := .offHook, latch := {overcurrent := true, hot := true, critical := true}, cond := {hot := true}}) with
    chans := Vector.replicate 8 {state := .bound, owner := .link}}) 2
def lr2 := lr .cooling (fun n => {n with resetTag := some 5})
def rg (x : Option Byte) := S (wk (wl nz 2 (fun n => {n with resetTag := x, hook := .onHook})) 2 (fun k => {k with state := .releasing, forced := false}))
def lv (f : Line → Line) := S (wl nz 2 f)
def v0 := lv (fun n => {n with hook := .offHook, voltage := true, lostTimer := {run := true, ms := 5}})
def ri (f : Line → Line) (g : Call → Call := id) := S {wk (wl nz 2 (fun n => f {n with hook := .onHook})) 2 g with plans := vec (fun _ => {})}
/-- A third ring from caller 55 on line 2, whose plan is AUTO. -/
def pl (count : Nat) (kind : PlanKind) (m : MailboxNo) (f : Chip → Chip) : State :=
  S (f {wl nz 2 (fun n => {n with hook := .onHook, burst := .burst, caller := .digits [5, 5], cond := {}}) with
    faxReserve := 5, plans := nz.plans.set 2 {auto := some count, kind := kind, mailbox := m}})
def se (ys : List (Match × Action)) (c : Chip) : Chip := {c with screen := vec (fun i => (ys[i]?).map (fun y => {pat := y.1, action := y.2}))}
def nof (c : Chip) : Chip := {c with chans := Vector.replicate 8 {state := .bound}}
def bz (c : Chip) : Chip := we (we c 0 (fun g => {g with state := .running})) 1 (fun g => {g with state := .running})
/-- No slot but slot 9 is FREE. -/
def one (c : Chip) : Chip := {c with store := {c.store with slots := vec (fun i => if i = 9 then {} else {gen := 1, obj := some {owner := .unowned, created := 0, attr := .clip}})}}
def bu (k : Nat) (n : Line) := {n with burst := .burst, ringCount := k}
def nf (x : Int) := lv (fun n => {n with hook := .offHook, noise := x})
/-- Line 2 off hook at a floor of -40, with engine 1 in state `x` on it. -/
def ne (x : EngineState) :=
  S {wl nz 2 (fun n => {n with hook := .offHook, noise := -40}) with engines := #v[{}, {line := 2, state := x}]}
def fa (c : FaultSet) (f : Line → Line := id) (g : Call → Call := id) := S (wk (wl nz 2 (fun n => f {n with cond := c, latch := {hot := true}})) 2 g)
def co (x : Bool) (a : CriticalAction) := fa {critical := x, hot := true} (fun n => {n with settings := {n.settings with action := a}}) (fun k => {k with state := .cooling})
def cz (f : Byte) := Q 0x22 [f] (fun c => wl c 1 (fun n => {n with latch := {overcurrent := true, hot := true}, cond := {}})) 1

theorem met_GetLineStatus : Meets Obligations.GetLineStatus 1 := ⟨[
  ⟨_, fun h => h g0 (RQ g0) [other] 2 (ok rfl)⟩], rfl⟩

theorem met_ClearFaults : Meets Obligations.ClearFaults 3 := ⟨[
  ⟨_, fun h => (h (cf 15) (RQ (cf 15)) [other] 1 15 (ok rfl)).1 (ok rfl)⟩,
  ⟨_, fun h => (h (cf 16) (RQ (cf 16)) [other] 1 16 (ok rfl)).2.2 (ok rfl)⟩,
  ⟨_, fun h => (h (cz 15) (RQ (cz 15)) [other] 1 15 (ok rfl)).2.1 (ok rfl)⟩], rfl⟩

theorem met_SettingsReplacedWhole : Meets Obligations.SettingsReplacedWhole 41 := ⟨[
  ⟨_, fun h => ((h (a 0 1 0 0 1) (RQ (a 0 1 0 0 1)) [other]).1 1 0 1 0 0 1 (ok rfl)).1 (ok rfl)⟩,
  ⟨_, fun h => ((h (a 1 60 1 1 30) (RQ (a 1 60 1 1 30)) [other]).1 1 1 60 1 1 30 (ok rfl)).1 (ok rfl)⟩,
  ⟨_, fun h => ((h (a 2 60 1 1 30) (RQ (a 2 60 1 1 30)) [other]).1 1 2 60 1 1 30 (ok rfl)).2 (ok rfl)⟩,
  ⟨_, fun h => ((h (a 0 2 1 1 31) (RQ (a 0 2 1 1 31)) [other]).1 1 0 2 1 1 31 (ok rfl)).2 (ok rfl)⟩,
  ⟨_, fun h => (h (b [1,9,0,0]) (RQ (b [1,9,0,0])) [other]).2.1 2 9 0 0 .voiceMail (ok rfl) (ok rfl) (ok rfl) (ok rfl)⟩,
  ⟨_, fun h => (h (b [1,1,1,15]) (RQ (b [1,1,1,15])) [other]).2.1 2 1 1 15 .fax (ok rfl) (ok rfl) (ok rfl) (ok rfl)⟩,
  ⟨_, fun h => (h (b [1,1,2,3]) (RQ (b [1,1,2,3])) [other]).2.1 2 1 2 3 .data (ok rfl) (ok rfl) (ok rfl) (ok rfl)⟩,
  ⟨_, fun h => (h (b [1,1,3,15]) (RQ (b [1,1,3,15])) [other]).2.1 2 1 3 15 .discriminate (ok rfl) (ok rfl) (ok rfl) (ok rfl)⟩,
  ⟨_, fun h => (h (b [0,2,7]) (RQ (b [0,2,7])) [other]).2.2.1 2 7 2 .data (ok rfl) (ok rfl)⟩,
  ⟨_, fun h => (h (b [0,3,15]) (RQ (b [0,3,15])) [other]).2.2.1 2 15 3 .discriminate (ok rfl) (ok rfl)⟩,
  ⟨_, fun h => (h (b [1,0,0,7]) (RQ (b [1,0,0,7])) [other]).2.2.2.1 2 0 0 7 (ok rfl) (ok rfl)⟩,
  ⟨_, fun h => (h (b [1,10,0,7]) (RQ (b [1,10,0,7])) [other]).2.2.2.1 2 10 0 7 (ok rfl) (ok rfl)⟩,
  ⟨_, fun h => (h (b [1,1,4,7]) (RQ (b [1,1,4,7])) [other]).2.2.2.1 2 1 4 7 (ok rfl) (ok rfl)⟩,
  ⟨_, fun h => (h (b [1,1,3,16]) (RQ (b [1,1,3,16])) [other]).2.2.2.1 2 1 3 16 (ok rfl) (ok rfl)⟩,
  ⟨_, fun h => (h (b [0,4,0]) (RQ (b [0,4,0])) [other]).2.2.2.2.1 2 4 0 (ok rfl) (ok rfl)⟩,
  ⟨_, fun h => (h (b [0,0,16]) (RQ (b [0,0,16])) [other]).2.2.2.2.1 2 0 16 (ok rfl) (ok rfl)⟩,
  ⟨_, fun h => (h (d [15,0]) (RQ (d [15,0])) [other]).2.2.2.2.2.1 15 (ok rfl)⟩,
  ⟨_, fun h => (h (dm (.equal [1]) .reject) (RQ (dm (.equal [1]) .reject)) [other]).2.2.2.2.2.2.1 15 (.equal [1]) .reject (ok rfl) (ok rfl)⟩,
  ⟨_, fun h => (h (dm (.starts [1,0]) (.mailbox 15)) (RQ (dm (.starts [1,0]) (.mailbox 15))) [other]).2.2.2.2.2.2.1 15 (.starts [1,0]) (.mailbox 15) (ok rfl) (ok rfl)⟩,
  ⟨_, fun h => (h (dm (.range [0,9] [1,0]) .fax) (RQ (dm (.range [0,9] [1,0]) .fax)) [other]).2.2.2.2.2.2.1 15 (.range [0,9] [1,0]) .fax (ok rfl) (ok rfl)⟩,
  ⟨_, fun h => (h (dm .withheld .pass) (RQ (dm .withheld .pass)) [other]).2.2.2.2.2.2.1 15 .withheld .pass (ok rfl) (ok rfl)⟩,
  ⟨_, fun h => (h (dm (.equal (List.replicate 16 9)) (.mailbox 0)) (RQ (dm (.equal (List.replicate 16 9)) (.mailbox 0))) [other]).2.2.2.2.2.2.1 15 (.equal (List.replicate 16 9)) (.mailbox 0) (ok rfl) (ok rfl)⟩,
  ⟨_, fun h => (h (dm (.range [5] [5]) .pass) (RQ (dm (.range [5] [5]) .pass)) [other]).2.2.2.2.2.2.1 15 (.range [5] [5]) .pass (ok rfl) (ok rfl)⟩,
  ⟨_, fun h => (h (dm (.equal []) .reject) (RQ (dm (.equal []) .reject)) [other]).2.2.2.2.2.2.2.1 15 (.equal []) .reject (ok rfl) (ok rfl) (ok rfl)⟩,
  ⟨_, fun h => (h (dm (.starts (List.replicate 17 1)) .fax) (RQ (dm (.starts (List.replicate 17 1)) .fax)) [other]).2.2.2.2.2.2.2.1 15 (.starts (List.replicate 17 1)) .fax (ok rfl) (ok rfl) (ok rfl)⟩,
  ⟨_, fun h => (h (dm (.range [1,0] [0,9]) .pass) (RQ (dm (.range [1,0] [0,9]) .pass)) [other]).2.2.2.2.2.2.2.1 15 (.range [1,0] [0,9]) .pass (ok rfl) (ok rfl) (ok rfl)⟩,
  ⟨_, fun h => (h (dm (.range [1] [1,2]) .pass) (RQ (dm (.range [1] [1,2]) .pass)) [other]).2.2.2.2.2.2.2.1 15 (.range [1] [1,2]) .pass (ok rfl) (ok rfl) (ok rfl)⟩,
  ⟨_, fun h => (h (d (15 :: matchBytes (.starts [1,0]) ++ [1, 16])) (RQ (d (15 :: matchBytes (.starts [1,0]) ++ [1, 16]))) [other]).2.2.2.2.2.2.2.2.1 15 16 (.starts [1,0]) (ok rfl) (ok rfl) (ok rfl)⟩,
  ⟨_, fun h => (h (d [16,0]) (RQ (d [16,0])) [other]).2.2.2.2.2.2.2.2.2.1 16 (ok rfl) (ok rfl)⟩,
  ⟨_, fun h => ((h (e 1 10 1 0) (RQ (e 1 10 1 0)) [other]).2.2.2.2.2.2.2.2.2.2.1 1 10 1 0 (ok rfl)).1 (ok rfl)⟩,
  ⟨_, fun h => ((h (e 7 1 15 1) (RQ (e 7 1 15 1)) [other]).2.2.2.2.2.2.2.2.2.2.1 7 1 15 1 (ok rfl)).1 (ok rfl)⟩,
  ⟨_, fun h => ((h (e 8 1 15 1) (RQ (e 8 1 15 1)) [other]).2.2.2.2.2.2.2.2.2.2.1 8 1 15 1 (ok rfl)).2 (ok rfl)⟩,
  ⟨_, fun h => ((h (e 1 11 1 0) (RQ (e 1 11 1 0)) [other]).2.2.2.2.2.2.2.2.2.2.1 1 11 1 0 (ok rfl)).2 (ok rfl)⟩,
  ⟨_, fun h => ((h (e 1 1 0 0) (RQ (e 1 1 0 0)) [other]).2.2.2.2.2.2.2.2.2.2.1 1 1 0 0 (ok rfl)).2 (ok rfl)⟩,
  ⟨_, fun h => ((h (e 1 1 1 2) (RQ (e 1 1 1 2)) [other]).2.2.2.2.2.2.2.2.2.2.1 1 1 1 2 (ok rfl)).2 (ok rfl)⟩,
  ⟨_, fun h => ((h (f 0 1 32 0 []) (RQ (f 0 1 32 0 [])) [other]).2.2.2.2.2.2.2.2.2.2.2 0 1 32 0 [] (ok rfl) (ok rfl)).1 (ok rfl)⟩,
  ⟨_, fun h => ((h (f 1 0 0 1 [0x20, 0x2B, 0x30, 0x39]) (RQ (f 1 0 0 1 [0x20, 0x2B, 0x30, 0x39])) [other]).2.2.2.2.2.2.2.2.2.2.2 1 0 0 1 [0x20, 0x2B, 0x30, 0x39] (ok rfl) (ok rfl)).1 (ok rfl)⟩,
  ⟨_, fun h => ((h (f 1 0 0 1 (List.replicate 20 0x31)) (RQ (f 1 0 0 1 (List.replicate 20 0x31))) [other]).2.2.2.2.2.2.2.2.2.2.2 1 0 0 1 (List.replicate 20 0x31) (ok rfl) (ok rfl)).1 (ok rfl)⟩,
  ⟨_, fun h => ((h (f 1 0 33 1 []) (RQ (f 1 0 33 1 [])) [other]).2.2.2.2.2.2.2.2.2.2.2 1 0 33 1 [] (ok rfl) (ok rfl)).2 (ok rfl)⟩,
  ⟨_, fun h => ((h (f 1 0 0 1 (List.replicate 21 0x31)) (RQ (f 1 0 0 1 (List.replicate 21 0x31))) [other]).2.2.2.2.2.2.2.2.2.2.2 1 0 0 1 (List.replicate 21 0x31) (ok rfl) (ok rfl)).2 (ok rfl)⟩,
  ⟨_, fun h => ((h (f 1 0 0 1 [0x41]) (RQ (f 1 0 0 1 [0x41])) [other]).2.2.2.2.2.2.2.2.2.2.2 1 0 0 1 [0x41] (ok rfl) (ok rfl)).2 (ok rfl)⟩], rfl⟩

theorem met_LineResetAndGuard : Meets Obligations.LineResetAndGuard 9 := ⟨[
  ⟨_, fun h => (((h (lr .idle) 2).1 (RQ (lr .idle)) [other] (ok rfl)).1 (ok rfl) (ok rfl) (ok rfl)).1 (ok rfl)⟩,
  ⟨_, fun h => (((h (lr .alerting) 2).1 (RQ (lr .alerting)) [other] (ok rfl)).1 (ok rfl) (ok rfl) (ok rfl)).1 (ok rfl)⟩,
  ⟨_, fun h => (((h (lr .cooling) 2).1 (RQ (lr .cooling)) [other] (ok rfl)).1 (ok rfl) (ok rfl) (ok rfl)).2.1 (ok rfl)⟩,
  ⟨_, fun h => (((h (lr .releasing) 2).1 (RQ (lr .releasing)) [other] (ok rfl)).1 (ok rfl) (ok rfl) (ok rfl)).2.2 (ok rfl) (ok rfl)⟩,
  ⟨_, fun h => ((h (ll .seized ld) 2).1 (RQ (ll .seized ld)) [other] (ok rfl)).2.1 (ok rfl) (ok rfl) (ok rfl)⟩,
  ⟨_, fun h => ((h (ll .connected none) 2).1 (RQ (ll .connected none)) [other] (ok rfl)).2.1 (ok rfl) (ok rfl) (ok rfl)⟩,
  ⟨_, fun h => ((h lr2 2).1 (RQ lr2) [other] (ok rfl)).2.2 (ok rfl)⟩,
  ⟨_, fun h => ((h (rg none) 2).2 (ok rfl) (ok rfl) (ok rfl) (ok rfl)).1 (ok rfl)⟩,
  ⟨_, fun h => ((h (rg (some 7)) 2).2 (ok rfl) (ok rfl) (ok rfl) (ok rfl)).2 7 (ok rfl)⟩], rfl⟩

theorem met_LineVoltageAndNoise : Meets Obligations.LineVoltageAndNoise 12 := ⟨[
  ⟨_, fun h => (((h.1) v0 2 (ok rfl)).1 (ok rfl) true).1⟩,
  ⟨_, fun h => (((h.1) v0 2 (ok rfl)).1 (ok rfl) false).2⟩,
  ⟨_, fun h => (((h.1) (lv (fun n => {n with voltage := true})) 2 (ok rfl)).2 (ok rfl)).1 (ok rfl)⟩,
  ⟨_, fun h => (((h.1) (lv (fun n => {n with voltage := false, cond := {}, lostTimer := {run := true, ms := 5}})) 2 (ok rfl)).2 (ok rfl)).2.1 (ok rfl)⟩,
  ⟨_, fun h => (((h.1) (lv (fun n => {n with voltage := true, cond := {lineLost := true}, lostTimer := {run := true, ms := 5}})) 2 (ok rfl)).2 (ok rfl)).2.2.1 (ok rfl)⟩,
  ⟨_, fun h => (((h.1) (lv (fun n => {n with voltage := false, cond := {lineLost := true}, latch := {}, lostTimer := {run := false, ms := 5}})) 2 (ok rfl)).2 (ok rfl)).2.2.1 (ok rfl)⟩,
  ⟨_, fun h => (((h.1) (lv (fun n => {n with voltage := true, cond := {}, lostTimer := {run := true, ms := 5}})) 2 (ok rfl)).2 (ok rfl)).2.2.2 (ok rfl) (ok rfl)⟩,
  ⟨_, fun h => (((h.2) (nf (-40)) 2 (-30) (ok rfl)).1 (ok rfl) (ok rfl)).1 (ok rfl)⟩,
  ⟨_, fun h => (((h.2) (nf (-40)) 2 (-29) (ok rfl)).1 (ok rfl) (ok rfl)).2 (ok rfl)⟩,
  ⟨_, fun h => (((h.2) (lv id) 2 (-41) (ok rfl))).2 (ok rfl)⟩,
  ⟨_, fun h => (((h.2) (ne .claimed) 2 (-40) (ok rfl)).1 (ok rfl) (ok rfl)).1 (ok rfl)⟩,
  ⟨_, fun h => (((h.2) (ne .training) 2 (-41) (ok rfl))).2 (Or.inr ⟨1, rfl, Or.inl rfl, ok rfl⟩)⟩], rfl⟩

theorem met_Rings : Meets Obligations.Rings 27 := ⟨[
  ⟨_, fun h => (h (ri id) 2 (ok rfl) (ok rfl)).1 (ok rfl) (ok rfl)⟩,
  ⟨_, fun h => (h (ri (fun n => {n with burst := .quiet})) 2 (ok rfl) (ok rfl)).1 (ok rfl) (ok rfl)⟩,
  ⟨_, fun h => (h (ri (bu 0)) 2 (ok rfl) (ok rfl)).2.1 200 (ok rfl) (ok rfl) (ok rfl)⟩,
  ⟨_, fun h => (h (ri (bu 255) (fun k => {k with state := .alerting})) 2 (ok rfl) (ok rfl)).2.1 2000 (ok rfl) (ok rfl) (ok rfl)⟩,
  ⟨_, fun h => (h (ri (bu 5)) 2 (ok rfl) (ok rfl)).2.2.1 199 (ok rfl) (ok rfl)⟩,
  ⟨_, fun h => (h (ri (fun n => {n with window := true})) 2 (ok rfl) (ok rfl)).2.2.2.1 [1,2] (ok rfl) (ok rfl)⟩,
  ⟨_, fun h => (h (ri (fun n => {n with window := true})) 2 (ok rfl) (ok rfl)).2.2.2.2.1 (ok rfl)⟩,
  ⟨_, fun h => (h (ri (fun n => {n with window := true})) 2 (ok rfl) (ok rfl)).2.2.2.2.2.1 (ok rfl)⟩,
  ⟨_, fun h => (h (ri (fun n => {n with window := false})) 2 (ok rfl) (ok rfl)).2.2.2.2.2.2.1 (.number [1]) (ok rfl)⟩,
  ⟨_, fun h => (h (ri (fun n => {n with window := true})) 2 (ok rfl) (ok rfl)).2.2.2.2.2.2.2.1 (.number [1])⟩,
  ⟨_, fun h => (h (ri id) 2 (ok rfl) (ok rfl)).2.2.2.2.2.2.2.2.1 (ok rfl) (ok rfl) (ok rfl)⟩,
  ⟨_, fun h => (h (ri id (fun k => {k with state := .alerting})) 2 (ok rfl) (ok rfl)).2.2.2.2.2.2.2.2.1 (ok rfl) (ok rfl) (ok rfl)⟩,
  ⟨_, fun h => (h (ri (bu 3) (fun k => {k with state := .cooling, screened := true})) 2 (ok rfl) (ok rfl)).2.1 900 (ok rfl) (ok rfl)⟩,
  ⟨_, fun h => (h (pl 4 .voiceMail 3 id) 2 (ok rfl) (ok rfl)).2.2.2.2.2.2.2.2.2 4 200 (ok rfl) (ok rfl) (ok rfl) (ok rfl) |>.1 (ok rfl)⟩,
  ⟨_, fun h => (h (pl 1 .voiceMail 3 (fun c => wk c 2 (fun k => {k with state := .alerting, screened := true}))) 2 (ok rfl) (ok rfl)).2.2.2.2.2.2.2.2.2 1 200 (ok rfl) (ok rfl) (ok rfl) (ok rfl) |>.1 (ok rfl)⟩,
  ⟨_, fun h => (h (pl 3 .voiceMail 3 (se [(.withheld, .fax), (.equal [5,5], .reject)])) 2 (ok rfl) (ok rfl)).2.2.2.2.2.2.2.2.2 3 200 (ok rfl) (ok rfl) (ok rfl) (ok rfl) |>.2 (ok rfl) (ok rfl) .reject (ok rfl) |>.1 (ok rfl)⟩,
  ⟨_, fun h => (h (pl 3 .voiceMail 3 (fun c => wl c 2 (fun n => {n with cond := {lineLost := true}}))) 2 (ok rfl) (ok rfl)).2.2.2.2.2.2.2.2.2 3 200 (ok rfl) (ok rfl) (ok rfl) (ok rfl) |>.2 (ok rfl) (ok rfl) .pass (ok rfl) |>.2 (ok rfl) |>.1 (ok rfl)⟩,
  ⟨_, fun h => (h (pl 3 .voiceMail 3 id) 2 (ok rfl) (ok rfl)).2.2.2.2.2.2.2.2.2 3 200 (ok rfl) (ok rfl) (ok rfl) (ok rfl) |>.2 (ok rfl) (ok rfl) .pass (ok rfl) |>.2 (ok rfl) |>.2 (ok rfl) |>.1 (ok rfl) |>.2 (ok rfl)⟩,
  ⟨_, fun h => (h (pl 3 .discriminate 3 nof) 2 (ok rfl) (ok rfl)).2.2.2.2.2.2.2.2.2 3 200 (ok rfl) (ok rfl) (ok rfl) (ok rfl) |>.2 (ok rfl) (ok rfl) .pass (ok rfl) |>.2 (ok rfl) |>.2 (ok rfl) |>.1 (ok rfl) |>.1 (ok rfl)⟩,
  ⟨_, fun h => (h (pl 1 .data 3 (se [(.starts [5], .mailbox 2)])) 2 (ok rfl) (ok rfl)).2.2.2.2.2.2.2.2.2 1 200 (ok rfl) (ok rfl) (ok rfl) (ok rfl) |>.2 (ok rfl) (ok rfl) (.mailbox 2) (ok rfl) |>.2 (ok rfl) |>.2 (ok rfl) |>.1 (ok rfl) |>.2 (ok rfl)⟩,
  ⟨_, fun h => (h (pl 1 .data 3 bz) 2 (ok rfl) (ok rfl)).2.2.2.2.2.2.2.2.2 1 200 (ok rfl) (ok rfl) (ok rfl) (ok rfl) |>.2 (ok rfl) (ok rfl) .pass (ok rfl) |>.2 (ok rfl) |>.2 (ok rfl) |>.2.1 (ok rfl) (ok rfl) |>.2 (ok rfl)⟩,
  ⟨_, fun h => (h (pl 1 .data 3 (fun c => nof (bz c))) 2 (ok rfl) (ok rfl)).2.2.2.2.2.2.2.2.2 1 200 (ok rfl) (ok rfl) (ok rfl) (ok rfl) |>.2 (ok rfl) (ok rfl) .pass (ok rfl) |>.2 (ok rfl) |>.2 (ok rfl) |>.2.1 (ok rfl) (ok rfl) |>.1 (ok rfl)⟩,
  ⟨_, fun h => (h (pl 1 .data 3 (fun c => {se [(.range [4,9] [5,5], .fax)] c with faxReserve := 21})) 2 (ok rfl) (ok rfl)).2.2.2.2.2.2.2.2.2 1 200 (ok rfl) (ok rfl) (ok rfl) (ok rfl) |>.2 (ok rfl) (ok rfl) .fax (ok rfl) |>.2 (ok rfl) |>.2 (ok rfl) |>.2.2 0 (ok rfl) |>.1 (ok rfl) |>.1 (ok rfl) |>.2 (ok rfl)⟩,
  ⟨_, fun h => (h (pl 1 .fax 3 id) 2 (ok rfl) (ok rfl)).2.2.2.2.2.2.2.2.2 1 200 (ok rfl) (ok rfl) (ok rfl) (ok rfl) |>.2 (ok rfl) (ok rfl) .pass (ok rfl) |>.2 (ok rfl) |>.2 (ok rfl) |>.2.2 0 (ok rfl) |>.1 (ok rfl) |>.2 (ok rfl)⟩,
  ⟨_, fun h => (h (pl 1 .data 3 id) 2 (ok rfl) (ok rfl)).2.2.2.2.2.2.2.2.2 1 200 (ok rfl) (ok rfl) (ok rfl) (ok rfl) |>.2 (ok rfl) (ok rfl) .pass (ok rfl) |>.2 (ok rfl) |>.2 (ok rfl) |>.2.2 0 (ok rfl) |>.2 (ok rfl) |>.2.2 0 3 (ok rfl)⟩,
  ⟨_, fun h => (h (pl 1 .data 3 (fun c => {c with store := {c.store with free := [1,2,3,4,5,6,7]}})) 2 (ok rfl) (ok rfl)).2.2.2.2.2.2.2.2.2 1 200 (ok rfl) (ok rfl) (ok rfl) (ok rfl) |>.2 (ok rfl) (ok rfl) .pass (ok rfl) |>.2 (ok rfl) |>.2 (ok rfl) |>.2.2 0 (ok rfl) |>.2 (ok rfl) |>.2.1 0 3 (ok rfl) (ok rfl) (ok rfl) (ok rfl) |>.2 (ok rfl)⟩,
  ⟨_, fun h => (h (pl 1 .data 3 one) 2 (ok rfl) (ok rfl)).2.2.2.2.2.2.2.2.2 1 200 (ok rfl) (ok rfl) (ok rfl) (ok rfl) |>.2 (ok rfl) (ok rfl) .pass (ok rfl) |>.2 (ok rfl) |>.2 (ok rfl) |>.2.2 0 (ok rfl) |>.2 (ok rfl) |>.1 (by decide) |>.2 (ok rfl)⟩], rfl⟩

theorem met_Faults : Meets Obligations.Faults 13 := ⟨[
  ⟨_, fun h => (h (fa {}) 2 (ok rfl)).1 116 (ok rfl) (ok rfl) (ok rfl)⟩,
  ⟨_, fun h => (h (fa {}) 2 (ok rfl)).2.1 136 (ok rfl) (ok rfl) (ok rfl) (ok rfl)⟩,
  ⟨_, fun h => (h (fa {hot := true} (fun n => {n with settings := {n.settings with action := .forceRelease}})) 2 (ok rfl)).2.2.1 136 (ok rfl) (ok rfl) (ok rfl) (ok rfl) (ok rfl)⟩,
  ⟨_, fun h => (h (fa {hot := true, critical := true}) 2 (ok rfl)).2.2.2.1 114 (ok rfl) (ok rfl) (ok rfl)⟩,
  ⟨_, fun h => (h (fa {hot := true}) 2 (ok rfl)).2.2.2.2.1 104 (ok rfl) (ok rfl) (ok rfl)⟩,
  ⟨_, fun h => (h (fa {hot := true}) 2 (ok rfl)).2.2.2.2.2.1 105 (ok rfl) (ok rfl) (ok rfl)⟩,
  ⟨_, fun h => (h (fa {hot := false, overcurrent := true}) 2 (ok rfl)).2.2.2.2.2.2.1 (.inr (.inl (ok rfl)))⟩,
  ⟨_, fun h => (h (fa {hot := false, overcurrent := true} (fun n => {n with hook := .offHook}) (fun k => {k with state := .connected})) 2 (ok rfl)).2.2.2.2.2.2.2.1 (ok rfl)⟩,
  ⟨_, fun h => (h (fa {} (fun n => {n with hook := .onHook})) 2 (ok rfl)).2.2.2.2.2.2.1 (.inl (ok rfl))⟩,
  ⟨_, fun h => (h (fa {} (fun n => {n with hook := .offHook, pulse := some {part := .brk, left := 4}})) 2 (ok rfl)).2.2.2.2.2.2.1 (Or.inr (Or.inr ⟨4, rfl⟩))⟩,
  ⟨_, fun h => ((h (co true .forceRelease) 2 (ok rfl)).2.2.2.2.2.2.2.2 (ok rfl)).1 (ok rfl) (ok rfl)⟩,
  ⟨_, fun h => ((h (co true .hostOnly) 2 (ok rfl)).2.2.2.2.2.2.2.2 (ok rfl)).2 (ok rfl) (ok rfl)⟩,
  ⟨_, fun h => ((h (co false .forceRelease) 2 (ok rfl)).2.2.2.2.2.2.2.2 (ok rfl)).2 (ok rfl) (ok rfl)⟩], rfl⟩

end Lines

/-! 04_calls_dialling_progress_and_answering.md, the requests and the ends -/
namespace Calls

def dl (tag : Byte) : Long := { kind := .dial, tag := tag }
def Q (n : Nat) (c : Chip) (code : Nat) (body : List Byte) : State := mk c [reqOf n code body, other]
def sA0 := Q 1 nz 0x32 []
def sA : State := Q 1 (wk nz 1 (fun k => {k with state := .alerting, screened := false})) 0x32 []
def sC : State := Q 1 (wk nz 1 (fun k => {k with state := .cooling, screened := false})) 0x32 []
def bare (st : CallState) (g : Option Long) (oc : Bool) (f : Call → Call) : Chip := wl (wk nz 1 (fun k => f {k with state := st, long := g, phase := .dialling})) 1 (fun n => {n with hook := .offHook, cond := {n.cond with overcurrent := oc}, voltage := false, loopSeen := false, absentTold := false})
def sL := Q 1 (bare .dialling (some (dl 0x44)) true id) 0x32 []
def g1 := mk (bare .seized (some (dl 0x44)) false (fun k => { k with step := .dialTone })) []
def g2 := mk (bare .awaitingAnswer (some (dl 0x44)) true (fun k => { k with busyRun := 2, limit := 3 })) []
def g5 := mk (wl (bare .awaitingAnswer (some (dl 0x44)) true (fun k => { k with busyRun := 2 })) 1 (fun n => { n with floors := [-46] })) []
def g3 := mk (wl (bare .connected none true id) 1 (fun n => { n with loopSeen := true })) []
def g6 := mk (wl g3.chip 1 (fun n => { n with floors := [-46] })) []
def g4 := mk (wl (bare .connected none false id) 1 (fun n => { n with loopSeen := true })) []
def dOK (g : Option Long) (st : CallState) (m : DialMethod) : Chip := wl (wk nz 1 (fun k => {k with state := st, long := g})) 1 (fun n => { n with settings := {n.settings with method := m} })
def bd (p : Byte) (ds : List Byte) : List Byte := p :: b1 ds.length :: ds
def d1 : List Byte := [0x31, 0x2A]
def di (c : Chip) (body : List Byte) := Q 1 c 0x30 body
def bf (ps : List Nat) : List Byte := 2 :: b1 d1.length :: d1 ++ b1 ps.length :: ps.flatMap be2
def an (c : Chip) (b : Byte) := Q 1 c 0x31 [b]
/-- No engine is FREE; seven blocks are free. -/
def eb (c : Chip) : Chip := we (we c 0 (fun e => {e with state := .claimed})) 1 (fun e => {e with state := .running})
def f7 (c : Chip) : Chip := {c with store := {c.store with free := [1,2,3,4,5,6,7]}}
def al : Chip := wk nz 1 (fun k => {k with state := .alerting})
def al3 : Chip := { al with plans := al.plans.set 1 { auto := none, kind := .voiceMail, mailbox := 3 } }
def ab (c : Chip) := Q 1 c 0x33 []
def abT := ab (wk nz 1 (fun k => { k with long := some (dl 3), phase := .training}))
def abD := ab (bare .dialling (some (dl 3)) true id)
def jb : FaxJob := { role := .send, engine := 1, phase := .page, opts := { limit := 4 }, rate := some 2, index := 2 }
def abF := ab (wf (wk nz 1 (fun k => { k with long := some (dl 3), phase := .fax})) 1 jb)
def sdl : Long := { kind := .sendDigits, tag := 7 }
def abS := ab (wk nz 1 (fun k => { k with long := some sdl, phase := .sendingDigits, faultCond := {}}))
def to_ (c : Chip) := Q 1 c 0x34 []
def tp := wq (bare .connected none false (fun k => {k with control := .plan})) 1 (fun q => {q with state := .greeting, tone := .greeting})

def sN := Q 1 { wu (we (wk nz 1 (fun k => { k with state := .connected, long := none, engine := some 0, phase := .data, job := .dataLink })) 0
  (fun g => { g with state := .running, line := 1 })) 0 (fun u => { u with
    state := .linked, line := 1, ctrl := [], sounding := none, t1 := { run := true, ms := 40 }, cut := some { total := 3 } }) with
  linkPort := { nz.linkPort with work := none } } 0x32 []

/-- Line 1 holds a connected plan call; the caller is heard to hang up by an interruption. -/
def hu (c : Chip) : State := mk (wl (wk c 1 (fun k => {k with state := .connected, purpose := some .voice, control := .plan, engine := none, long := none, record := none})) 1
  (fun n => {n with hook := .offHook, resetTag := none, loopSeen := true, pulse := none, absentTold := false})) []
def cut (c : Chip) : Chip := wl c 1 (fun n => {n with loopCurrent := false, absentTold := true})
def hg := hu (wq nz 1 (fun q => {q with state := .greeting, tone := .greeting}))
/-- The greeting, or a review entry, plays on channel 3. -/
def hp (greet play : Option ChanNo) := hu (Store.pv greet play false id).chip
/-- A plan's recording is on channel 3: no byte in its codec's buffer; and 600. -/
def hm := hu (Store.vm 1400 4000 0 (Store.pr none [70,71,72] 1400)).chip
def hb := hu (Store.vm 1400 4000 600 (Store.pr none [70,71,72] 1400)).chip

theorem met_HangUp : Meets Obligations.HangUp 5 := ⟨[
  ⟨_, fun h => (h sA0 (reqOf 1 0x32 []) [other] 1 (ok rfl)).1 (ok rfl)⟩,
  ⟨_, fun h => (h sA (reqOf 1 0x32 []) [other] 1 (ok rfl)).2.1 (ok rfl)⟩,
  ⟨_, fun h => (h sC (reqOf 1 0x32 []) [other] 1 (ok rfl)).2.2.1 (ok rfl)⟩,
  ⟨_, fun h => (h sL (reqOf 1 0x32 []) [other] 1 (ok rfl)).2.2.2.1 (ok rfl) (ok rfl)⟩,
  ⟨_, fun h => (h sN (reqOf 1 0x32 []) [other] 1 (ok rfl)).2.2.2.2 0 (ok rfl) (ok rfl) (ok rfl) (ok rfl) (ok rfl) (ok rfl) (ok rfl) (ok rfl)⟩], rfl⟩

theorem met_CallsEnd : Meets Obligations.CallsEnd 23 := ⟨[
  ⟨_, fun h => (h.2.1 g1 1 (ok rfl) (ok rfl)).1 (ok rfl) (ok rfl)⟩,
  ⟨_, fun h => (h.2.1 g1 1 (ok rfl) (ok rfl)).2.1 (ok rfl) (ok rfl)⟩,
  ⟨_, fun h => ((h.2.1 g2 1 (ok rfl) (ok rfl)).2.2.1 (ok rfl)).1⟩,
  ⟨_, fun h => ((h.2.1 g2 1 (ok rfl) (ok rfl)).2.2.1 (ok rfl)).2.1 (-31) (ok rfl)⟩,
  ⟨_, fun h => ((h.2.1 g2 1 (ok rfl) (ok rfl)).2.2.1 (ok rfl)).2.2.1 (-31) 250 750 0 (ok rfl) (ok rfl) (ok rfl) (ok rfl) (ok rfl) (ok rfl)⟩,
  ⟨_, fun h => ((h.2.1 g5 1 (ok rfl) (ok rfl)).2.2.1 (ok rfl)).2.2.1 (-36) 750 250 1 (ok rfl) (ok rfl) (ok rfl) (ok rfl) (ok rfl) (ok rfl)⟩,
  ⟨_, fun h => ((h.2.1 g2 1 (ok rfl) (ok rfl)).2.2.1 (ok rfl)).2.2.2 (-31) 700 1500 0 (ok rfl) (ok rfl) (ok rfl) (ok rfl) (ok rfl) (ok rfl)⟩,
  ⟨_, fun h => (h.2.1 g3 1 (ok rfl) (ok rfl)).2.2.2.1 (ok rfl) (ok rfl) (ok rfl) (ok rfl)⟩,
  ⟨_, fun h => (h.2.1 g3 1 (ok rfl) (ok rfl)).2.2.2.2.1 (ok rfl) (ok rfl) |>.1 0 (ok rfl)⟩,
  ⟨_, fun h => (h.2.1 g4 1 (ok rfl) (ok rfl)).2.2.2.2.2 (ok rfl) (ok rfl) (ok rfl)⟩,
  ⟨_, fun h => (h.2.1 g3 1 (ok rfl) (ok rfl)).2.2.2.2.1 (ok rfl) (ok rfl) |>.2.1 (-32) (ok rfl)⟩,
  ⟨_, fun h => (h.2.1 g3 1 (ok rfl) (ok rfl)).2.2.2.2.1 (ok rfl) (ok rfl) |>.2.2.1 {level := -31, on := 250, off := ⟨750, 0⟩} {level := -31, on := 750, off := ⟨250, 0⟩} (ok rfl) (ok rfl)⟩,
  ⟨_, fun h => (h.2.1 g6 1 (ok rfl) (ok rfl)).2.2.2.2.1 (ok rfl) (ok rfl) |>.2.2.1 {level := -31, on := 250, off := ⟨250, 0⟩} {level := -36, on := 750, off := ⟨750, 1⟩} (ok rfl) (ok rfl)⟩,
  ⟨_, fun h => (h.2.1 g3 1 (ok rfl) (ok rfl)).2.2.2.2.1 (ok rfl) (ok rfl) |>.2.2.2 {level := -31, on := 250, off := ⟨750, 0⟩} {level := -36, on := 750, off := ⟨250, 1⟩} (ok rfl)⟩,
  ⟨_, fun h => (h.2.1 g3 1 (ok rfl) (ok rfl)).2.2.2.2.1 (ok rfl) (ok rfl) |>.2.2.2 {level := -31, on := 249, off := ⟨750, 0⟩} {level := -31, on := 750, off := ⟨250, 0⟩} (ok rfl)⟩,
  ⟨_, fun h => h.1 nz.calls[0]⟩,
  ⟨_, fun h => h.1 {nz.calls[1] with cause := some .hungUp, mailbox := some 15, finalRate := some 5, bytesSent := 4294967295, offHook := 65535}⟩,
  ⟨_, fun h => (h.2.2 hg 1 (.loopInterruption 1) (cut hg.chip) (ok rfl) (ok rfl) (Or.inl ⟨rfl, ok rfl, ok rfl, ok rfl, rfl⟩)).1 (ok rfl) |>.1 (ok rfl) (ok rfl) (ok rfl)⟩,
  ⟨_, fun h => (h.2.2 hg 1 (.remoteClearTone 1 (.dialTone (-31))) hg.chip (ok rfl) (ok rfl) (Or.inr (Or.inl ⟨⟨-31, rfl, ok rfl⟩, rfl⟩))).1 (ok rfl) |>.1 (ok rfl) (ok rfl) (ok rfl)⟩,
  ⟨_, fun h => (h.2.2 (hp (some 3) none) 1 (.remoteClearTone 1 (.cycles {level := -31, on := 250, off := ⟨750, 0⟩} {level := -31, on := 750, off := ⟨250, 0⟩})) (hp (some 3) none).chip (ok rfl) (ok rfl) (Or.inr (Or.inr ⟨⟨_, _, rfl, ok rfl, ok rfl⟩, rfl⟩))).1 (ok rfl) |>.2 3 (Store.O (hp (some 3) none) 1) (ok rfl) (ok rfl) (ok rfl)⟩,
  ⟨_, fun h => (h.2.2 (hp none (some 3)) 1 (.loopInterruption 1) (cut (hp none (some 3)).chip) (ok rfl) (ok rfl) (Or.inl ⟨rfl, ok rfl, ok rfl, ok rfl, rfl⟩)).1 (ok rfl) |>.2 3 (Store.O (hp none (some 3)) 1) (ok rfl) (ok rfl) (ok rfl)⟩,
  ⟨_, fun h => (h.2.2 hm 1 (.loopInterruption 1) (cut hm.chip) (ok rfl) (ok rfl) (Or.inl ⟨rfl, ok rfl, ok rfl, ok rfl, rfl⟩)).2 (Store.xr none) 3 (ok rfl) (ok rfl) (ok rfl) (ok rfl) (ok rfl) (ok rfl) (ok rfl) (ok rfl) |>.1 (Store.O hm 6) ⟨rfl, rfl, rfl, rfl, rfl, rfl, ok rfl, ⟨_, rfl⟩, rfl, rfl, ok rfl, ok rfl⟩ (ok rfl) (ok rfl) (ok rfl) (ok rfl)⟩,
  ⟨_, fun h => (h.2.2 hb 1 (.remoteClearTone 1 (.dialTone (-31))) hb.chip (ok rfl) (ok rfl) (Or.inr (Or.inl ⟨⟨-31, rfl, ok rfl⟩, rfl⟩))).2 (Store.xr none) 3 (ok rfl) (ok rfl) (ok rfl) (ok rfl) (ok rfl) (ok rfl) (ok rfl) (ok rfl) |>.2⟩], rfl⟩

theorem met_Dial : Meets Obligations.Dial 15 := ⟨[
  ⟨_, fun h => ((h.2 (di (dOK (some (dl 1)) .idle .tone) (bd 0 d1)) (reqOf 1 0x30 (bd 0 d1)) [other] 1 d1).1 (ok rfl) (ok rfl)).1 (ok rfl)⟩,
  ⟨_, fun h => ((h.2 (di (dOK none .cooling .tone) (bd 0 d1)) (reqOf 1 0x30 (bd 0 d1)) [other] 1 d1).1 (ok rfl) (ok rfl)).2.1 (ok rfl) (ok rfl)⟩,
  ⟨_, fun h => ((h.2 (di (wl (dOK none .seized .tone) 1 (fun n => {n with cond := {lineLost := true}})) (bd 0 d1)) (reqOf 1 0x30 (bd 0 d1)) [other] 1 d1).1 (ok rfl) (ok rfl)).2.2.1 (ok rfl) (ok rfl) (ok rfl)⟩,
  ⟨_, fun h => ((h.2 (di (dOK none .seized .tone) (bd 0 d1)) (reqOf 1 0x30 (bd 0 d1)) [other] 1 d1).1 (ok rfl) (ok rfl)).2.2.2.1 (ok rfl) (ok rfl) (ok rfl) (ok rfl)⟩,
  ⟨_, fun h => (((h.2 (di (dOK none .idle .pulse) (bd 0 d1)) (reqOf 1 0x30 (bd 0 d1)) [other] 1 d1).1 (ok rfl) (ok rfl)).2.2.2.2 (ok rfl) (ok rfl) (ok rfl)).1 (ok rfl)⟩,
  ⟨_, fun h => (((h.2 (di (dOK none .idle .tone) (bd 0 d1)) (reqOf 1 0x30 (bd 0 d1)) [other] 1 d1).1 (ok rfl) (ok rfl)).2.2.2.2 (ok rfl) (ok rfl) (ok rfl)).2 (ok rfl)⟩,
  ⟨_, fun h => ((h.2 (di (dOK none .idle .tone) (bf [])) (reqOf 1 0x30 (bf [])) [other] 1 d1).2.1 [] (ok rfl) (ok rfl) (ok rfl) (ok rfl) (ok rfl) (ok rfl) (ok rfl)).1 (ok rfl)⟩,
  ⟨_, fun h => ((h.2 (di (we (we (dOK none .idle .tone) 0 (fun e => {e with state := .claimed})) 1 (fun e => {e with state := .claimed})) (bf [300])) (reqOf 1 0x30 (bf [300])) [other] 1 d1).2.1 [300] (ok rfl) (ok rfl) (ok rfl) (ok rfl) (ok rfl) (ok rfl) (ok rfl)).2.1 (ok rfl) (ok rfl)⟩,
  ⟨_, fun h => ((h.2 (di (we (dOK none .idle .tone) 0 (fun e => {e with state := .claimed, line := 3})) (bf [300,5])) (reqOf 1 0x30 (bf [300,5])) [other] 1 d1).2.1 [300,5] (ok rfl) (ok rfl) (ok rfl) (ok rfl) (ok rfl) (ok rfl) (ok rfl)).2.2 (ok rfl) 1 (ok rfl)⟩,
  ⟨_, fun h => (h.2 (di (dOK none .idle .tone) (bd 1 d1)) (reqOf 1 0x30 (bd 1 d1)) [other] 1 d1).2.2 (ok rfl) (ok rfl) (ok rfl) (ok rfl) (ok rfl) |>.2.2 0 0 3 (ok rfl) (ok rfl)⟩,
  ⟨_, fun h => (h.2 (di (eb (dOK none .idle .tone)) (bd 1 d1)) (reqOf 1 0x30 (bd 1 d1)) [other] 1 d1).2.2 (ok rfl) (ok rfl) (ok rfl) (ok rfl) (ok rfl) |>.1 (ok rfl)⟩,
  ⟨_, fun h => (h.2 (di (Lines.one (dOK none .idle .tone)) (bd 1 d1)) (reqOf 1 0x30 (bd 1 d1)) [other] 1 d1).2.2 (ok rfl) (ok rfl) (ok rfl) (ok rfl) (ok rfl) |>.2.1 0 (ok rfl) |>.1 (by decide)⟩,
  ⟨_, fun h => (h.2 (di (f7 (dOK none .idle .tone)) (bd 1 d1)) (reqOf 1 0x30 (bd 1 d1)) [other] 1 d1).2.2 (ok rfl) (ok rfl) (ok rfl) (ok rfl) (ok rfl) |>.2.1 0 (ok rfl) |>.2 (by decide)⟩,
  ⟨_, fun h => h.1 .pulse [0x31, 0x54, 0x23, 0x2C, 0x57]⟩,
  ⟨_, fun h => h.1 .tone [0x50, 0x2A]⟩], rfl⟩

theorem met_Answer : Meets Obligations.Answer 15 := ⟨[
  ⟨_, fun h => ((h (an (wk al 1 (fun k => {k with long := some (dl 1)})) 3) (reqOf 1 0x31 [3]) [other] 1).1 3).1 (ok rfl) (ok rfl)⟩,
  ⟨_, fun h => ((h (an (wk al 1 (fun k => {k with state := .cooling})) 9) (reqOf 1 0x31 [9]) [other] 1).1 9).2.1 (ok rfl) (ok rfl) (ok rfl)⟩,
  ⟨_, fun h => ((h (an (wl al 1 (fun n => {n with cond := {lineLost := true}})) 0) (reqOf 1 0x31 [0]) [other] 1).1 0).2.2.1 (ok rfl) (ok rfl) (ok rfl) (ok rfl)⟩,
  ⟨_, fun h => ((h (an nz 1) (reqOf 1 0x31 [1]) [other] 1).1 1).2.2.2 (ok rfl) (ok rfl) (ok rfl) (ok rfl) (ok rfl)⟩,
  ⟨_, fun h => ((h (an al 4) (reqOf 1 0x31 [4]) [other] 1).2 (ok rfl) (ok rfl) (ok rfl)).1 4 (ok rfl) (ok rfl)⟩,
  ⟨_, fun h => ((h (an (eb al) 1) (reqOf 1 0x31 [1]) [other] 1).2 (ok rfl) (ok rfl) (ok rfl)).2.1 (ok rfl) |>.1 (ok rfl)⟩,
  ⟨_, fun h => ((h (an (eb al) 2) (reqOf 1 0x31 [2]) [other] 1).2 (ok rfl) (ok rfl) (ok rfl)).2.1 (ok rfl) |>.2 (ok rfl)⟩,
  ⟨_, fun h => ((h (an (Lines.one al) 1) (reqOf 1 0x31 [1]) [other] 1).2 (ok rfl) (ok rfl) (ok rfl)).2.2.1 0 (ok rfl) |>.1 (by decide) (ok rfl)⟩,
  ⟨_, fun h => ((h (an (f7 al) 1) (reqOf 1 0x31 [1]) [other] 1).2 (ok rfl) (ok rfl) (ok rfl)).2.2.1 0 (ok rfl) |>.2 (by decide) (ok rfl)⟩,
  ⟨_, fun h => ((h (an (Lines.nof al3) 3) (reqOf 1 0x31 [3]) [other] 1).2 (ok rfl) (ok rfl) (ok rfl)).2.2.2.1 (ok rfl) (ok rfl) (ok rfl) (ok rfl)⟩,
  ⟨_, fun h => ((h (an al 0) (reqOf 1 0x31 [0]) [other] 1).2 (ok rfl) (ok rfl) (ok rfl)).2.2.2.2.1 (ok rfl)⟩,
  ⟨_, fun h => ((h (an al 2) (reqOf 1 0x31 [2]) [other] 1).2 (ok rfl) (ok rfl) (ok rfl)).2.2.2.2.2.1 0 (ok rfl) (ok rfl)⟩,
  ⟨_, fun h => ((h (an al 1) (reqOf 1 0x31 [1]) [other] 1).2 (ok rfl) (ok rfl) (ok rfl)).2.2.2.2.2.2.1 0 0 3 (ok rfl) (ok rfl) (ok rfl)⟩,
  ⟨_, fun h => ((h (an al3 3) (reqOf 1 0x31 [3]) [other] 1).2 (ok rfl) (ok rfl) (ok rfl)).2.2.2.2.2.2.2 3 (ok rfl) (ok rfl) (ok rfl) (ok rfl) (ok rfl) (ok rfl)⟩,
  ⟨_, fun h => ((h (an (we al 0 (fun g => {g with state := .claimed, line := 3})) 2) (reqOf 1 0x31 [2]) [other] 1).2 (ok rfl) (ok rfl) (ok rfl)).2.2.2.2.2.1 1 (ok rfl) (ok rfl)⟩], rfl⟩

theorem met_AbortAndTakeOver : Meets Obligations.AbortAndTakeOver 8 := ⟨[
  ⟨_, fun h => ((h (ab nz) (reqOf 1 0x33 []) [other] 1).1 (ok rfl)).1 (ok rfl)⟩,
  ⟨_, fun h => (((h abT (reqOf 1 0x33 []) [other] 1).1 (ok rfl)).2.1 (dl 3) (ok rfl) (ok rfl)).1 (ok rfl)⟩,
  ⟨_, fun h => (((h abD (reqOf 1 0x33 []) [other] 1).1 (ok rfl)).2.1 (dl 3) (ok rfl) (ok rfl)).2.1 (ok rfl) (ok rfl) (ok rfl)⟩,
  ⟨_, fun h => (((h abF (reqOf 1 0x33 []) [other] 1).1 (ok rfl)).2.1 (dl 3) (ok rfl) (ok rfl)).2.2 jb (ok rfl) (ok rfl)⟩,
  ⟨_, fun h => ((h abS (reqOf 1 0x33 []) [other] 1).1 (ok rfl)).2.2 sdl (ok rfl) (ok rfl)⟩,
  ⟨_, fun h => ((h (to_ nz) (reqOf 1 0x34 []) [other] 1).2 (ok rfl)).1 (ok rfl)⟩,
  ⟨_, fun h => ((h (to_ (bare .connected none false id)) (reqOf 1 0x34 []) [other] 1).2 (ok rfl)).2.1 (ok rfl) (ok rfl) (ok rfl)⟩,
  ⟨_, fun h => ((h (to_ tp) (reqOf 1 0x34 []) [other] 1).2 (ok rfl)).2.2 (ok rfl) (ok rfl) (ok rfl) (ok rfl) (ok rfl) (ok rfl)⟩], rfl⟩

end Calls

/-! 04_calls_dialling_progress_and_answering.md, from dialling to the answer -/
namespace Dialling

def Q (n : Nat) (c : Chip) (code : Nat) (body : List Byte) : State := mk c [reqOf n code body, other]
def R (code : Nat) (body : List Byte) := reqOf 1 code body
def hv (c : Chip) : Chip := wk c 1 (fun k => {k with state := .connected})
def pb (v : Byte) : List Byte := [0, 37, 3, v]
def VP (c : Chip) (b : List Byte) := Q 1 c 0x35 b
def o2 : Obj := { state := .closed, owner := .line 2, chain := [60], length := 500, users := 0, created := 78, attr := .clip }
def nof (c : Chip) : Chip := { c with chans := Vector.replicate 8 { state := .bound } }
def full (c : Chip) : Chip := { c with store := { c.store with slots := Vector.replicate 128 {gen := 3, obj := some o2} } }
def off (c : Chip) (seen : Bool) (f : Call → Call) : State := mk (wl (wk c 1 f) 1 (fun n => {n with hook := .offHook, loopSeen := seen, loopCurrent := false})) []
def z1 := (off nz false (fun k => {k with state := .seized, dialWait := .wait}))
def z2 := (off nz false (fun k => {k with state := .seized, dialWait := .blind}))
def ga : Long := {kind := .answer, tag := 5}
def z3 := (off nz false (fun k => {k with state := .answering, long := some ga}))
def z4 := (off nz false (fun k => {k with state := .answering, purpose := some .fax, engine := some 1, control := .plan}))
def z5 := (off (we nz 1 (fun g => {g with state := .claimed})) false (fun k => {k with state := .answering, purpose := some .data, engine := some 1, control := .plan}))
def z6 (m : MailboxNo) := (off nz false (fun k => {k with state := .answering, control := .plan, mailbox := some m, planKind := .discriminate}))
def D (f : Call → Call) (p : Option Pulse) := mk (wl (wk nz 1 f) 1 (fun n => {n with pulse := p})) []
def dd (x : DialStep) (t : List Byte) := D (fun k => {k with step := x, state := .dialling, phase := .dialling, todo := t}) (some {part := .pause, left := 0})
def sd (t : List Byte) := D (fun k => {k with step := .digit, state := .connected, phase := .sendingDigits, todo := t, long := some {kind := .sendDigits, tag := 6}}) none
def A (f : Call → Call) := mk (wl (we (wk nz 1 (fun k => f {k with state := .awaitingAnswer, direction := some .outgoing, long := some {kind := .dial, tag := 6}})) 1 (fun g => {g with state := .claimed})) 1 (fun n => {n with hook := .offHook})) []
def Af (fs : List Int) := mk (wl (A id).chip 1 (fun n => {n with floors := fs})) []
def gd : Long := {kind := .dial, tag := 6}

theorem met_VoiceJobs : Meets Obligations.VoiceJobs 23 := ⟨[
  ⟨_, fun h => ((h.2 (VP (wk (hv nz) 1 (fun k => {k with long := some {kind := .play, tag := 1}})) (pb 16)) (R 0x35 (pb 16)) [other] 1).1 0 37 3 16 (ok rfl)).1.1 (ok rfl)⟩,
  ⟨_, fun h => ((h.2 (VP nz (pb 16)) (R 0x35 (pb 16)) [other] 1).1 0 37 3 16 (ok rfl)).1.2.1 (ok rfl) (ok rfl)⟩,
  ⟨_, fun h => ((h.2 (VP (wk (hv nz) 1 (fun k => {k with control := .plan})) (pb 16)) (R 0x35 (pb 16)) [other] 1).1 0 37 3 16 (ok rfl)).1.2.2 (ok rfl) (ok rfl) (ok rfl) (ok rfl)⟩,
  ⟨_, fun h => (((h.2 (VP (hv nz) [0,38,3,8]) (R 0x35 [0,38,3,8]) [other] 1).1 0 38 3 8 (ok rfl)).2 (ok rfl)).1 (ok rfl)⟩,
  ⟨_, fun h => ((((h.2 (VP (hv nz) (pb 7)) (R 0x35 (pb 7)) [other] 1).1 0 37 3 7 (ok rfl)).2 (ok rfl)).2 2 o2 (ok rfl)).1 (ok rfl)⟩,
  ⟨_, fun h => ((((h.2 (VP (nof (hv nz)) (pb 8)) (R 0x35 (pb 8)) [other] 1).1 0 37 3 8 (ok rfl)).2 (ok rfl)).2 2 o2 (ok rfl)).2.2.1 (ok rfl) (ok rfl) (ok rfl)⟩,
  ⟨_, fun h => ((((h.2 (VP (wc (hv nz) 0 (fun x => {x with state := .bound})) (pb 24)) (R 0x35 (pb 24)) [other] 1).1 0 37 3 24 (ok rfl)).2 (ok rfl)).2 2 o2 (ok rfl)).2.2.2 (ok rfl) (ok rfl) 1 (ok rfl)⟩,
  ⟨_, fun h => ((h.2 (Q 1 (hv nz) 0x36 [1,45,2]) (R 0x36 [1,45,2]) [other] 1).2.1 1 45 2 (ok rfl)).2 (ok rfl)|>.1 (ok rfl)⟩,
  ⟨_, fun h => ((h.2 (Q 1 (hv nz) 0x36 [1,44,0]) (R 0x36 [1,44,0]) [other] 1).2.1 1 44 0 (ok rfl)).2 (ok rfl)|>.2 (ok rfl) (ok rfl) (ok rfl)|>.2.2 0 0 (ok rfl) (ok rfl) (ok rfl)⟩,
  ⟨_, fun h => ((h.2 (Q 1 (full (hv nz)) 0x36 [1,44,10]) (R 0x36 [1,44,10]) [other] 1).2.1 1 44 10 (ok rfl)).2 (ok rfl)|>.2 (ok rfl) (ok rfl) (ok rfl)|>.1 (ok rfl)⟩,
  ⟨_, fun h => ((h.2 (Q 1 (hv nz) 0x37 [2,0x2A,0x2C]) (R 0x37 [2,0x2A,0x2C]) [other] 1).2.2.2 0x2A [0x2C] (ok rfl) (ok rfl) (ok rfl)).2 (ok rfl)⟩,
  ⟨_, fun h => ((h.2 (Q 1 (hv nz) 0x37 [2,0x57,0x31]) (R 0x37 [2,0x57,0x31]) [other] 1).2.2.2 0x57 [0x31] (ok rfl) (ok rfl) (ok rfl)).1 (ok rfl)⟩,
  ⟨_, fun h => h.1 (List.replicate 32 0x39)⟩,
  ⟨_, fun h => h.1 (List.replicate 33 0x23)⟩,
  ⟨_, fun h => ((h.2 (Q 1 (wk (hv nz) 1 (fun k => {k with long := some {kind := .play, tag := 1}})) 0x36 [1,44,0]) (R 0x36 [1,44,0]) [other] 1).2.1 1 44 0 (ok rfl)).1.1 (ok rfl)⟩,
  ⟨_, fun h => ((h.2 (Q 1 (nz) 0x36 [1,44,0]) (R 0x36 [1,44,0]) [other] 1).2.1 1 44 0 (ok rfl)).1.2.1 (ok rfl) (ok rfl)⟩,
  ⟨_, fun h => ((h.2 (Q 1 (wk (hv nz) 1 (fun k => {k with control := .plan})) 0x36 [1,44,0]) (R 0x36 [1,44,0]) [other] 1).2.1 1 44 0 (ok rfl)).1.2.2 (ok rfl) (ok rfl) (ok rfl) (ok rfl)⟩,
  ⟨_, fun h => (((h.2 (Q 1 (wc (hv nz) 4 (fun x => {x with state := .running, path := .codec 1, dir := .fromPath})) 0x36 [1,44,0]) (R 0x36 [1,44,0]) [other] 1).2.1 1 44 0 (ok rfl)).2 (ok rfl)).2 (ok rfl) (ok rfl) (ok rfl) |>.2.1 ⟨0, ok rfl⟩ |>.1 (ok rfl)⟩,
  ⟨_, fun h => (((h.2 (Q 1 (nof (hv nz)) 0x36 [1,44,0]) (R 0x36 [1,44,0]) [other] 1).2.1 1 44 0 (ok rfl)).2 (ok rfl)).2 (ok rfl) (ok rfl) (ok rfl) |>.2.1 ⟨0, ok rfl⟩ |>.2 (ok rfl) (ok rfl)⟩,
  ⟨_, fun h => ((h.2 (Q 1 (wk (hv nz) 1 (fun k => {k with long := some {kind := .play, tag := 1}})) 0x37 [1,0x2A]) (R 0x37 [1,0x2A]) [other] 1).2.2.1 [0x2A] (ok rfl) (ok rfl)).1 (ok rfl)⟩,
  ⟨_, fun h => ((h.2 (Q 1 (nz) 0x37 [1,0x2A]) (R 0x37 [1,0x2A]) [other] 1).2.2.1 [0x2A] (ok rfl) (ok rfl)).2.1 (ok rfl) (ok rfl)⟩,
  ⟨_, fun h => ((h.2 (Q 1 (wk (hv nz) 1 (fun k => {k with control := .plan})) 0x37 [1,0x2A]) (R 0x37 [1,0x2A]) [other] 1).2.2.1 [0x2A] (ok rfl) (ok rfl)).2.2 (ok rfl) (ok rfl) (ok rfl) (ok rfl)⟩,
  ⟨_, fun h => ((h.2 (VP (wc (hv nz) 4 (fun x => {x with state := .running, path := .codec 1, dir := .toPath})) (pb 8)) (R 0x35 (pb 8)) [other] 1).1 0 37 3 8 (ok rfl)).2 (ok rfl) |>.2 2 o2 (ok rfl) |>.2.1 (ok rfl) (ok rfl)⟩], rfl⟩

theorem met_LoopPresent : Meets Obligations.LoopPresent 9 := ⟨[
  ⟨_, fun h => (h (mk nz []) 1 .normal (ok rfl)).1 (ok rfl)⟩,
  ⟨_, fun h => (h (off nz true id) 1 .normal (ok rfl)).2.1 (ok rfl) (ok rfl)⟩,
  ⟨_, fun h => ((h z1 1 .normal (ok rfl)).2.2 (ok rfl) (ok rfl)).1 (ok rfl) (ok rfl)⟩,
  ⟨_, fun h => ((h z2 1 .normal (ok rfl)).2.2 (ok rfl) (ok rfl)).2.1 (ok rfl) (ok rfl)⟩,
  ⟨_, fun h => (((h z3 1 .normal (ok rfl)).2.2 (ok rfl) (ok rfl)).2.2 (ok rfl) (ok rfl)).1 ga (ok rfl) (ok rfl) (ok rfl) (ok rfl)⟩,
  ⟨_, fun h => (((h z4 1 .normal (ok rfl)).2.2 (ok rfl) (ok rfl)).2.2 (ok rfl) (ok rfl)).2.1 1 (ok rfl) (ok rfl) (ok rfl) (ok rfl)⟩,
  ⟨_, fun h => (((h z5 1 .normal (ok rfl)).2.2 (ok rfl) (ok rfl)).2.2 (ok rfl) (ok rfl)).2.2.1 1 (ok rfl) (ok rfl) (ok rfl) (ok rfl) (ok rfl)⟩,
  ⟨_, fun h => ((((h (z6 4) 1 .normal (ok rfl)).2.2 (ok rfl) (ok rfl)).2.2 (ok rfl) (ok rfl)).2.2.2 4 (ok rfl) (ok rfl) (ok rfl) (ok rfl)).1 (ok rfl)⟩,
  ⟨_, fun h => ((((h (z6 7) 1 .normal (ok rfl)).2.2 (ok rfl) (ok rfl)).2.2 (ok rfl) (ok rfl)).2.2.2 7 (ok rfl) (ok rfl) (ok rfl) (ok rfl)).2 37 2 o2 0 (ok rfl) (ok rfl) (ok rfl) (ok rfl) (ok rfl) (ok rfl) (ok rfl)⟩], rfl⟩

theorem met_DialSteps : Meets Obligations.DialSteps 12 := ⟨[
  ⟨_, fun h => (h (D (fun k => {k with step := .dialTone, state := .seized}) none) 1 (ok rfl)).1 (-32) (ok rfl)⟩,
  ⟨_, fun h => (h (D (fun k => {k with step := .dialTone, state := .seized}) none) 1 (ok rfl)).2.1 (-31) (ok rfl) (ok rfl) (ok rfl)⟩,
  ⟨_, fun h => (h (D (fun k => {k with step := .blindPause, state := .seized, dialString := [0x54,0x57]}) none) 1 (ok rfl)).2.2.1 (ok rfl)⟩,
  ⟨_, fun h => ((h (dd .dialTone [0x39]) 1 (ok rfl)).2.2.2.1 (ok rfl) (ok rfl)).1 0 (ok rfl) (ok rfl)⟩,
  ⟨_, fun h => ((h (dd .digit [0x2C, 0x30]) 1 (ok rfl)).2.2.2.1 (ok rfl) (ok rfl)).2.1 (ok rfl)⟩,
  ⟨_, fun h => ((h (dd .comma [0x57, 0x30]) 1 (ok rfl)).2.2.2.1 (ok rfl) (ok rfl)).2.2.1 (ok rfl)⟩,
  ⟨_, fun h => ((h (dd .pulse [0x31, 0x30]) 1 (ok rfl)).2.2.2.1 (ok rfl) (ok rfl)).2.2.2 (ok rfl) (ok rfl)⟩,
  ⟨_, fun h => (h (D id (some {part := .brk, left := 3})) 1 (ok rfl)).2.2.2.2.1 3 (ok rfl)⟩,
  ⟨_, fun h => (h (D id (some {part := .make, left := 3})) 1 (ok rfl)).2.2.2.2.2.1 2 (ok rfl)⟩,
  ⟨_, fun h => (h (D id (some {part := .make, left := 0})) 1 (ok rfl)).2.2.2.2.2.2.1 (ok rfl)⟩,
  ⟨_, fun h => ((h (sd [0x31]) 1 (ok rfl)).2.2.2.2.2.2.2 (ok rfl) (ok rfl)).1 0x31 [] (ok rfl) (ok rfl) (ok rfl) (ok rfl)⟩,
  ⟨_, fun h => ((h (sd []) 1 (ok rfl)).2.2.2.2.2.2.2 (ok rfl) (ok rfl)).2 {kind := .sendDigits, tag := 6} (ok rfl) (ok rfl) (ok rfl)⟩], rfl⟩

theorem met_Answered : Meets Obligations.Answered 12 := ⟨[
  ⟨_, fun h => ((h (A id) 1 (ok rfl) (ok rfl) (ok rfl)).1).1 gd (ok rfl) (ok rfl) (ok rfl)⟩,
  ⟨_, fun h => ((h (A id) 1 (ok rfl) (ok rfl) (ok rfl)).2.1 (-31) (ok rfl) (ok rfl)).1 gd (ok rfl) (ok rfl) (ok rfl)⟩,
  ⟨_, fun h => ((h (A (fun k => {k with purpose := some .data, engine := some 1})) 1 (ok rfl) (ok rfl) (ok rfl)).1).2 1 (ok rfl)|>.1 (ok rfl) (ok rfl) (ok rfl)⟩,
  ⟨_, fun h => ((h (A (fun k => {k with purpose := some .fax, engine := some 1})) 1 (ok rfl) (ok rfl) (ok rfl)).1).2 1 (ok rfl)|>.2 (ok rfl) (ok rfl)⟩,
  ⟨_, fun h => ((h (A id) 1 (ok rfl) (ok rfl) (ok rfl)).2.2.1 (-32) (ok rfl))⟩,
  ⟨_, fun h => ((h (A id) 1 (ok rfl) (ok rfl) (ok rfl)).2.2.2.1 (ok rfl) (ok rfl) (ok rfl) (ok rfl)).1 gd (ok rfl) (ok rfl) (ok rfl)⟩,
  ⟨_, fun h => ((h (A id) 1 (ok rfl) (ok rfl) (ok rfl)).2.2.2.2.1 (-32) (.single 300) 300 0 (ok rfl))⟩,
  ⟨_, fun h => ((h (Af [-40]) 1 (ok rfl) (ok rfl) (ok rfl)).2.2.2.2.1 (-31) (.double 200 150 200) 1500 1 (ok rfl))⟩,
  ⟨_, fun h => ((h (A id) 1 (ok rfl) (ok rfl) (ok rfl)).2.2.2.2.2.1 (-31) 300 300 0 (ok rfl)).1 (ok rfl) (ok rfl) (ok rfl) (ok rfl) (ok rfl)⟩,
  ⟨_, fun h => ((h (A id) 1 (ok rfl) (ok rfl) (ok rfl)).2.2.2.2.2.1 (-31) 700 1500 0 (ok rfl)).2.1 (ok rfl) (ok rfl) (ok rfl) (ok rfl) (ok rfl)⟩,
  ⟨_, fun h => ((h (A id) 1 (ok rfl) (ok rfl) (ok rfl)).2.2.2.2.2.1 (-31) 2501 1500 0 (ok rfl)).2.2 (ok rfl)⟩,
  ⟨_, fun h => ((h (A id) 1 (ok rfl) (ok rfl) (ok rfl)).2.2.2.2.2.2 (-31) 200 150 600 5000 0 (ok rfl) (ok rfl) (ok rfl) (ok rfl) (ok rfl) (ok rfl) (ok rfl) (ok rfl) (ok rfl) (ok rfl))⟩], rfl⟩

end Dialling

/-! keypad digits on a connected call -/
namespace Keypad

def M (f : Call → Call) (g : PlanSeq → PlanSeq) (h : Chip → Chip := id) : State := mk (h (wq (wk nz 1 (fun k => f {k with state := .connected})) 1 g)) []
def P (f : Call → Call) (g : PlanSeq → PlanSeq) (h : Chip → Chip := id) : State := M (fun k => f {k with control := .plan, window := .closed}) g h
def gr (o : Opening) := P id (fun q => {q with state := .greeting, opening := o})
def ac (e : List (Fin 10)) (t : MailboxNo := 4) := P id (fun q => {q with state := .access, entered := e, target := t, wrong := 2})
def rv (v : Nat) := P id (fun q => {q with state := .review, speed := v, tone := .entry, cursor := .end_})
def bz (c : Chip) : Chip := we (we c 0 (fun g => {g with state := .running})) 1 (fun g => {g with state := .running})
def dw (h : Chip → Chip) := M (fun k => {k with control := .plan, window := .greeting}) (fun q => {q with state := .greeting, tone := .greeting}) h

/-- A greeting on line 1 in which `*` and the digit `a` have been pressed. -/
def gw (a : Fin 10) (f : Chip → Chip) : State := P id (fun q => {q with state := .greeting, opening := .starDigit a, tone := .greeting}) f
def lo (c : Chip) : Chip := {c with store := {c.store with low := true}}
def st (c : Chip) : Chip := {c with mailboxes := c.mailboxes.set 7 {c.mailboxes[7] with greeting := some 21}}
def nof (c : Chip) : Chip := {c with chans := Vector.replicate 8 {state := .bound}}
def ob (s : State) (i : SlotNo) : Obj := s.chip.store.slots[i].obj.getD {owner := .unowned, created := 0, attr := .clip}
/-- Channel 3 plays the object of slot `i` on line 1. -/
def pc (i : SlotNo) (c : Chip) : Chip :=
  let c := wc c 3 (fun k => {k with state := .running, slot := i, path := .codec 1, dir := .toPath, owner := .voiceMail 1, slips := 4, remaining := 9})
  {c with port := {c.port with holder := some (.chan 3)}, store := {c.store with slots := c.store.slots.set i {c.store.slots[i] with obj := c.store.slots[i].obj.map (fun o => {o with users := 1})}}}
def gp : State := P id (fun q => {q with state := .greeting, opening := .starDigit 0, greetChan := some 3}) (pc 2)
/-- A review of mailbox 3 with its cursor on message `h`. -/
def rc (h : Nat) (f : Chip → Chip) : State := P id (fun q => {q with state := .review, target := 3, speed := 22, cursor := .at h, tone := .prompt}) f
def rp (v : Nat) : State := P id (fun q => {q with state := .review, target := 3, speed := v, cursor := .at 20, playChan := some 3}) (pc 1)

/-- A recording of mailbox 5 on channel 3, with `n` bytes in the codec's buffer and this cause found. -/
def re (n : Nat) (why : Option RecEnd) : State := mk (wq (wk (Store.vm 1400 4000 n (Store.pr none [70,71,72] 1400)).chip 1
  (fun k => {k with state := .connected, control := .plan, window := .closed})) 1
  (fun q => {q with recording := q.recording.map (fun x => {x with cause := why})})) []
/-- Three digits of mailbox 3's code have been pressed in ACCESS. -/
def aw (f : Chip → Chip) : State := P id (fun q => {q with state := .access, entered := [1,2,3], target := 3, wrong := 2}) f
/-- The message of slot `i` has been HEARD. -/
def ht (i : SlotNo) (c : Chip) : Chip := Store.ws c i (fun o => {o with attr := .message (.digits [1, 2]) 2 .heard})

theorem met_ConnectedVoice : Meets Obligations.ConnectedVoice 62 := ⟨[
  ⟨_, fun h => (h (M id id) 1 (ok rfl)).1⟩,
  ⟨_, fun h => (h (mk nz []) 1 (ok rfl)).2.1 .star (ok rfl)⟩,
  ⟨_, fun h => ((h (M (fun k => {k with phase := .sendingDigits}) id) 1 (ok rfl)).2.2.1 (ok rfl) (ok rfl) (ok rfl)).1 .star (ok rfl)⟩,
  ⟨_, fun h => ((h (M id id) 1 (ok rfl)).2.2.1 (ok rfl) (ok rfl) (ok rfl)).2 .star (ok rfl)⟩,
  ⟨_, fun h => ((h (M (fun k => {k with digits := List.replicate 16 .star}) id) 1 (ok rfl)).2.2.1 (ok rfl) (ok rfl) (ok rfl)).2 (.digit 3) (ok rfl)⟩,
  ⟨_, fun h => (((h (gr .empty) 1 (ok rfl)).2.2.2 (ok rfl) (ok rfl) (ok rfl)).1 (ok rfl)).1 (ok rfl) |>.1⟩,
  ⟨_, fun h => (((h (gr .empty) 1 (ok rfl)).2.2.2 (ok rfl) (ok rfl) (ok rfl)).1 (ok rfl)).1 (ok rfl) |>.2 3⟩,
  ⟨_, fun h => (((h (gr .star) 1 (ok rfl)).2.2.2 (ok rfl) (ok rfl) (ok rfl)).1 (ok rfl)).2.1 (ok rfl) |>.1⟩,
  ⟨_, fun h => (((h (gr .star) 1 (ok rfl)).2.2.2 (ok rfl) (ok rfl) (ok rfl)).1 (ok rfl)).2.1 (ok rfl) |>.2 3⟩,
  ⟨_, fun h => (((h (gr .starStar) 1 (ok rfl)).2.2.2 (ok rfl) (ok rfl) (ok rfl)).1 (ok rfl)).2.2.1 (ok rfl) 3⟩,
  ⟨_, fun h => (((h (gr (.starStarDigit 1)) 1 (ok rfl)).2.2.2 (ok rfl) (ok rfl) (ok rfl)).1 (ok rfl)).2.2.2.1 1 5 15 (ok rfl) (ok rfl) (ok rfl) (ok rfl)⟩,
  ⟨_, fun h => (((h (gr .empty) 1 (ok rfl)).2.2.2 (ok rfl) (ok rfl) (ok rfl)).1 (ok rfl)).2.2.2.2.1 (ok rfl) (ok rfl) (ok rfl)⟩,
  ⟨_, fun h => (((h (ac [1]) 1 (ok rfl)).2.2.2 (ok rfl) (ok rfl) (ok rfl)).2.2.2.1 (ok rfl) (ok rfl)).1⟩,
  ⟨_, fun h => (((h (ac [1]) 1 (ok rfl)).2.2.2 (ok rfl) (ok rfl) (ok rfl)).2.2.2.1 (ok rfl) (ok rfl)).2.1⟩,
  ⟨_, fun h => (((h (ac [1,2]) 1 (ok rfl)).2.2.2 (ok rfl) (ok rfl) (ok rfl)).2.2.2.1 (ok rfl) (ok rfl)).2.2.1 7 (ok rfl)⟩,
  ⟨_, fun h => (((h (ac [1,2,3]) 1 (ok rfl)).2.2.2 (ok rfl) (ok rfl) (ok rfl)).2.2.2.1 (ok rfl) (ok rfl)).2.2.2.1 7 (ok rfl) (ok rfl)⟩,
  ⟨_, fun h => (((h (ac [1,2,3]) 1 (ok rfl)).2.2.2 (ok rfl) (ok rfl) (ok rfl)).2.2.2.1 (ok rfl) (ok rfl)).2.2.2.2.1 4 (ok rfl) (ok rfl) (ok rfl)⟩,
  ⟨_, fun h => (((h (rv 9) 1 (ok rfl)).2.2.2 (ok rfl) (ok rfl) (ok rfl)).2.2.2.2.1 (ok rfl) (ok rfl)).1⟩,
  ⟨_, fun h => (((h (rv 23) 1 (ok rfl)).2.2.2 (ok rfl) (ok rfl) (ok rfl)).2.2.2.2.1 (ok rfl) (ok rfl)).2.1⟩,
  ⟨_, fun h => (((h (rv 22) 1 (ok rfl)).2.2.2 (ok rfl) (ok rfl) (ok rfl)).2.2.2.2.1 (ok rfl) (ok rfl)).2.2.1⟩,
  ⟨_, fun h => (((h (rv 22) 1 (ok rfl)).2.2.2 (ok rfl) (ok rfl) (ok rfl)).2.2.2.2.1 (ok rfl) (ok rfl)).2.2.2.1⟩,
  ⟨_, fun h => ((((h (rv 22) 1 (ok rfl)).2.2.2 (ok rfl) (ok rfl) (ok rfl)).2.2.2.2.1 (ok rfl) (ok rfl)).2.2.2.2.1 (ok rfl)).1⟩,
  ⟨_, fun h => ((((h (rv 22) 1 (ok rfl)).2.2.2 (ok rfl) (ok rfl) (ok rfl)).2.2.2.2.1 (ok rfl) (ok rfl)).2.2.2.2.1 (ok rfl)).2⟩,
  ⟨_, fun h => (((h (dw bz) 1 (ok rfl)).2.2.2 (ok rfl) (ok rfl) (ok rfl)).2.2.2.2.2.2.1 (ok rfl) (ok rfl) (ok rfl) (ok rfl)).1 (ok rfl) |>.1⟩,
  ⟨_, fun h => (((h (dw bz) 1 (ok rfl)).2.2.2 (ok rfl) (ok rfl) (ok rfl)).2.2.2.2.2.2.1 (ok rfl) (ok rfl) (ok rfl) (ok rfl)).1 (ok rfl) |>.2⟩,
  ⟨_, fun h => (((h (dw (fun c => {c with faxReserve := 21})) 1 (ok rfl)).2.2.2 (ok rfl) (ok rfl) (ok rfl)).2.2.2.2.2.2.1 (ok rfl) (ok rfl) (ok rfl) (ok rfl)).2 0 (ok rfl) (ok rfl) |>.1 (ok rfl)⟩,
  ⟨_, fun h => (((h (dw (fun c => {c with faxReserve := 20})) 1 (ok rfl)).2.2.2 (ok rfl) (ok rfl) (ok rfl)).2.2.2.2.2.2.1 (ok rfl) (ok rfl) (ok rfl) (ok rfl)).2 0 (ok rfl) (ok rfl) |>.2.1 (ok rfl)⟩,
  ⟨_, fun h => (((h (dw id) 1 (ok rfl)).2.2.2 (ok rfl) (ok rfl) (ok rfl)).2.2.2.2.2.2.1 (ok rfl) (ok rfl) (ok rfl) (ok rfl)).2 0 (ok rfl) (ok rfl) |>.2.2 0 3 (ok rfl)⟩,
  ⟨_, fun h => ((h (gw 1 id) 1 (ok rfl)).2.2.2 (ok rfl) (ok rfl) (ok rfl)).1 (ok rfl) |>.2.2.2.2.2 1 6 (ok rfl) |>.1 (ok rfl)⟩,
  ⟨_, fun h => ((h (gw 0 id) 1 (ok rfl)).2.2.2 (ok rfl) (ok rfl) (ok rfl)).1 (ok rfl) |>.2.2.2.2.2 0 2 (ok rfl) |>.2 2 (ok rfl) |>.1 (ok rfl)⟩,
  ⟨_, fun h => ((h (gw 0 id) 1 (ok rfl)).2.2.2 (ok rfl) (ok rfl) (ok rfl)).1 (ok rfl) |>.2.2.2.2.2 0 3 (ok rfl) |>.2 3 (ok rfl) |>.2.1 (ok rfl) (ok rfl) |>.1 (ok rfl)⟩,
  ⟨_, fun h => ((h (gw 1 lo) 1 (ok rfl)).2.2.2 (ok rfl) (ok rfl) (ok rfl)).1 (ok rfl) |>.2.2.2.2.2 1 5 (ok rfl) |>.2 15 (ok rfl) |>.2.1 (ok rfl) (ok rfl) |>.1 (ok rfl)⟩,
  ⟨_, fun h => ((h (gw 0 st) 1 (ok rfl)).2.2.2 (ok rfl) (ok rfl) (ok rfl)).1 (ok rfl) |>.2.2.2.2.2 0 7 (ok rfl) |>.2 7 (ok rfl) |>.2.1 (ok rfl) (ok rfl) |>.2.1 21 (ok rfl) (ok rfl)⟩,
  ⟨_, fun h => ((h (gw 0 nof) 1 (ok rfl)).2.2.2 (ok rfl) (ok rfl) (ok rfl)).1 (ok rfl) |>.2.2.2.2.2 0 7 (ok rfl) |>.2 7 (ok rfl) |>.2.1 (ok rfl) (ok rfl) |>.2.2 37 2 (ob (gw 0 nof) 2) (ok rfl) (ok rfl) (ok rfl) (ok rfl) (ok rfl) |>.1 (ok rfl)⟩,
  ⟨_, fun h => ((h (gw 0 id) 1 (ok rfl)).2.2.2 (ok rfl) (ok rfl) (ok rfl)).1 (ok rfl) |>.2.2.2.2.2 0 7 (ok rfl) |>.2 7 (ok rfl) |>.2.1 (ok rfl) (ok rfl) |>.2.2 37 2 (ob (gw 0 id) 2) (ok rfl) (ok rfl) (ok rfl) (ok rfl) (ok rfl) |>.2 0 (ok rfl) (ok rfl)⟩,
  ⟨_, fun h => ((h gp 1 (ok rfl)).2.2.2 (ok rfl) (ok rfl) (ok rfl)).1 (ok rfl) |>.2.2.2.2.2 0 3 (ok rfl) |>.2 3 (ok rfl) |>.2.2 3 (ob gp 2) (ok rfl) (ok rfl) (ok rfl) (ok rfl)⟩,
  ⟨_, fun h => ((h (rc 20 nof) 1 (ok rfl)).2.2.2 (ok rfl) (ok rfl) (ok rfl)).2.2.2.2.1 (ok rfl) (ok rfl) |>.2.2.2.2.2 20 1 (ob (rc 20 nof) 1) (ok rfl) (ok rfl) |>.1 (ok rfl)⟩,
  ⟨_, fun h => ((h (rc 20 id) 1 (ok rfl)).2.2.2 (ok rfl) (ok rfl) (ok rfl)).2.2.2.2.1 (ok rfl) (ok rfl) |>.2.2.2.2.2 20 1 (ob (rc 20 id) 1) (ok rfl) (ok rfl) |>.2.1 0 (ok rfl) (ok rfl)⟩,
  ⟨_, fun h => ((h (rc 71 id) 1 (ok rfl)).2.2.2 (ok rfl) (ok rfl) (ok rfl)).2.2.2.2.1 (ok rfl) (ok rfl) |>.2.2.2.2.2 71 4 (ob (rc 71 id) 4) (ok rfl) (ok rfl) |>.2.2.1 (.digits [1, 2]) 2 .new 3 (ok rfl) (ok rfl)⟩,
  ⟨_, fun h => ((h (rc 71 id) 1 (ok rfl)).2.2.2 (ok rfl) (ok rfl) (ok rfl)).2.2.2.2.1 (ok rfl) (ok rfl) |>.2.2.2.2.2 71 4 (ob (rc 71 id) 4) (ok rfl) (ok rfl) |>.2.2.2 [20] [] (ok rfl) (ok rfl) |>.1 (ok rfl)⟩,
  ⟨_, fun h => ((h (rc 20 id) 1 (ok rfl)).2.2.2 (ok rfl) (ok rfl) (ok rfl)).2.2.2.2.1 (ok rfl) (ok rfl) |>.2.2.2.2.2 20 1 (ob (rc 20 id) 1) (ok rfl) (ok rfl) |>.2.2.2 [] [71] (ok rfl) (ok rfl) |>.2.1 71 [] 4 (ob (rc 20 id) 4) 0 (ok rfl) (ok rfl) (ok rfl) (ok rfl)⟩,
  ⟨_, fun h => ((h (rc 71 id) 1 (ok rfl)).2.2.2 (ok rfl) (ok rfl) (ok rfl)).2.2.2.2.1 (ok rfl) (ok rfl) |>.2.2.2.2.2 71 4 (ob (rc 71 id) 4) (ok rfl) (ok rfl) |>.2.2.2 [20] [] (ok rfl) (ok rfl) |>.2.2 (.digits [1, 2]) 2 .new (ok rfl) (ok rfl) |>.1 (ok rfl)⟩,
  ⟨_, fun h => ((h (rc 20 id) 1 (ok rfl)).2.2.2 (ok rfl) (ok rfl) (ok rfl)).2.2.2.2.1 (ok rfl) (ok rfl) |>.2.2.2.2.2 20 1 (ob (rc 20 id) 1) (ok rfl) (ok rfl) |>.2.2.2 [] [71] (ok rfl) (ok rfl) |>.2.2 (.digits [1, 2]) 2 .new (ok rfl) (ok rfl) |>.2 71 [] 4 (ob (rc 20 id) 4) 0 (ok rfl) (ok rfl) (ok rfl) (ok rfl) (ok rfl)⟩,
  ⟨_, fun h => ((h (rp 9) 1 (ok rfl)).2.2.2 (ok rfl) (ok rfl) (ok rfl)).2.2.2.2.2.1 3 (ob (rp 9) 1) (ok rfl) (ok rfl) (ok rfl) |>.1⟩,
  ⟨_, fun h => ((h (rp 10) 1 (ok rfl)).2.2.2 (ok rfl) (ok rfl) (ok rfl)).2.2.2.2.2.1 3 (ob (rp 10) 1) (ok rfl) (ok rfl) (ok rfl) |>.1⟩,
  ⟨_, fun h => ((h (rp 23) 1 (ok rfl)).2.2.2 (ok rfl) (ok rfl) (ok rfl)).2.2.2.2.2.1 3 (ob (rp 23) 1) (ok rfl) (ok rfl) (ok rfl) |>.2.1⟩,
  ⟨_, fun h => ((h (rp 16) 1 (ok rfl)).2.2.2 (ok rfl) (ok rfl) (ok rfl)).2.2.2.2.2.1 3 (ob (rp 16) 1) (ok rfl) (ok rfl) (ok rfl) |>.2.2.1⟩,
  ⟨_, fun h => ((h (rp 16) 1 (ok rfl)).2.2.2 (ok rfl) (ok rfl) (ok rfl)).2.2.2.2.2.1 3 (ob (rp 16) 1) (ok rfl) (ok rfl) (ok rfl) |>.2.2.2⟩,
  ⟨_, fun h => ((h (rv 22) 1 (ok rfl)).2.2.2 (ok rfl) (ok rfl) (ok rfl)).2.2.2.2.2.2.2 (ok rfl) |>.1 4 (ok rfl)⟩,
  ⟨_, fun h => ((h (rv 22) 1 (ok rfl)).2.2.2 (ok rfl) (ok rfl) (ok rfl)).2.2.2.2.2.2.2 (ok rfl) |>.1 8 (ok rfl)⟩,
  ⟨_, fun h => ((h (rv 22) 1 (ok rfl)).2.2.2 (ok rfl) (ok rfl) (ok rfl)).2.2.2.2.2.2.2 (ok rfl) |>.2⟩,
  ⟨_, fun h => (((h (M (fun k => {k with control := .plan}) (fun q => {q with state := .access, wrong := 1, target := 3, entered := [1,2,3]})) 1 (ok rfl)).2.2.2 (ok rfl) (ok rfl) (ok rfl)).2.2.2.1 (ok rfl) (ok rfl)).2.2.2.1 7 (ok rfl) (ok rfl)⟩,
  ⟨_, fun h => ((h (P id (fun q => {q with state := .tone, tone := .record})) 1 (ok rfl)).2.2.2 (ok rfl) (ok rfl) (ok rfl)).2.1 (ok rfl) .star⟩,
  ⟨_, fun h => ((h (P id (fun q => {q with state := .closing, tone := .closing})) 1 (ok rfl)).2.2.2 (ok rfl) (ok rfl) (ok rfl)).2.1 (ok rfl) .hash⟩,
  ⟨_, fun h => (((h (re 0 none) 1 (ok rfl)).2.2.2 (ok rfl) (ok rfl) (ok rfl)).2.2.1 (ok rfl)).1 (.digit 3) (ok rfl)⟩,
  ⟨_, fun h => (((h (re 5 (some .silence)) 1 (ok rfl)).2.2.2 (ok rfl) (ok rfl) (ok rfl)).2.2.1 (ok rfl)).2.1 {Store.xr none with cause := some .silence} (ok rfl) (ok rfl)⟩,
  ⟨_, fun h => (((h (re 0 none) 1 (ok rfl)).2.2.2 (ok rfl) (ok rfl) (ok rfl)).2.2.1 (ok rfl)).2.2 (Store.xr none) 3 (ob (re 0 none) 6) ⟨rfl, rfl, rfl, rfl, rfl, rfl, ok rfl, ⟨_, rfl⟩, rfl, rfl, ok rfl, ok rfl⟩ (ok rfl) (ok rfl) (ok rfl) (ok rfl) |>.1 (ok rfl)⟩,
  ⟨_, fun h => (((h (re 5 none) 1 (ok rfl)).2.2.2 (ok rfl) (ok rfl) (ok rfl)).2.2.1 (ok rfl)).2.2 (Store.xr none) 3 (ob (re 5 none) 6) ⟨rfl, rfl, rfl, rfl, rfl, rfl, ok rfl, ⟨_, rfl⟩, rfl, rfl, ok rfl, ok rfl⟩ (ok rfl) (ok rfl) (ok rfl) (ok rfl) |>.2 (ok rfl)⟩,
  ⟨_, fun h => (((h (aw nof) 1 (ok rfl)).2.2.2 (ok rfl) (ok rfl) (ok rfl)).2.2.2.1 (ok rfl) (ok rfl)).2.2.2.2.2 4 20 1 (ob (aw nof) 1) (ok rfl) (ok rfl) (Or.inl ⟨[], [71], rfl, ok rfl, ok rfl⟩) (ok rfl) |>.1 (ok rfl)⟩,
  ⟨_, fun h => (((h (aw id) 1 (ok rfl)).2.2.2 (ok rfl) (ok rfl) (ok rfl)).2.2.2.1 (ok rfl) (ok rfl)).2.2.2.2.2 4 20 1 (ob (aw id) 1) (ok rfl) (ok rfl) (Or.inl ⟨[], [71], rfl, ok rfl, ok rfl⟩) (ok rfl) |>.2 0 (ok rfl) (ok rfl)⟩,
  ⟨_, fun h => (((h (aw (ht 1)) 1 (ok rfl)).2.2.2 (ok rfl) (ok rfl) (ok rfl)).2.2.2.1 (ok rfl) (ok rfl)).2.2.2.2.2 4 71 4 (ob (aw (ht 1)) 4) (ok rfl) (ok rfl) (Or.inl ⟨[20], [], rfl, ok rfl, ok rfl⟩) (ok rfl) |>.2 0 (ok rfl) (ok rfl)⟩,
  ⟨_, fun h => (((h (aw (ht 4 ∘ ht 1)) 1 (ok rfl)).2.2.2 (ok rfl) (ok rfl) (ok rfl)).2.2.2.1 (ok rfl) (ok rfl)).2.2.2.2.2 4 20 1 (ob (aw (ht 4 ∘ ht 1)) 1) (ok rfl) (ok rfl) (Or.inr ⟨rfl, ok rfl⟩) (ok rfl) |>.2 0 (ok rfl) (ok rfl)⟩], rfl⟩

end Keypad

/-! 05_signal_engines_and_line_quality.md and 06_data_calls.md -/
namespace Training

def rg (t : Bool) (b : List Nat) : Obj := { owner := .line 1, chain := b, length := 2048, created := 5, attr := .ring t 0 }
def dc (fe : Engine → Engine := id) (fu : DataLink → DataLink := id) (fk : Call → Call := id) : Chip :=
  let c := nz
  let c := { c with store := { c.store with slots := (c.store.slots.set 0 { gen := 3, obj := some (rg true [1,2,3,4]) }).set 3 { gen := 6, obj := some (rg false [5,6,7,8]) } } }
  let c := we c 0 (fun g => fe { g with state := .running, line := 1, purpose := .data, measuring := false, testRate := none, await := none, farLed := false, dir := none, loss := {} })
  let c := wu c 0 (fun _ => fu { state := .linked, line := 1, side := .calling, opts := { window := 5, t1 := 3, n2 := 4, plainAllowed := true }, portBound := true, windowInUse := 4, tx := { handle := 3, slot := 0, start := 2000, held := 100 }, rx := { handle := 54, slot := 3, start := 9, held := 50, reserved := 3 }, nextSend := 1, unacked := [{num := 15, payload := [1,2]}, {num := 0, payload := [1]}], history := [true, false], goodRun := 9, bytesSent := 12, bytesRecv := 13, resent := 2, ctrl := [.accept 3], sounding := some (.accept 2), expected := 7, flow := .flowing, openSends := 1, lastLine := some .close, plainOut := [9] })
  let c := wk c 1 (fun k => fk { k with state := .connected, phase := .data, purpose := some .data, engine := some 0, job := .dataLink, long := some { kind := .answer, tag := 8 }, direction := some .incoming })
  wl c 1 (fun n => { n with hook := .offHook })
def S (c : Chip) : State := mk c []
def tr (fe : Engine → Engine) (fu : DataLink → DataLink := id) (f : Chip → Chip := id) := S (f (dc (fun g => fe { g with state := .training, measuring := true }) fu))
def jb (r : FaxRole) (w : Option FaxMsg) : FaxJob := { role := r, engine := 0, phase := .training, opts := { limit := 4 }, index := 2, wait := w }
def fx (r : FaxRole) (w : Option FaxMsg) (c : Chip) : Chip := we (wf c 1 (jb r w)) 0 (fun g => {g with purpose := .fax})
def tt (a : Nat) (r : Rate) (aw : Option Bool) (fu : DataLink → DataLink := id) (f : Chip → Chip := id) := tr (fun g => {g with measuring := false, testRate := some r, await := aw, attempts := a}) fu f
def q0 (u : DataLink) : DataLink := { u with unacked := [], tx := {u.tx with held := 0}, ctrl := [], sounding := none, cut := none }
def a8 : Long := { kind := .answer, tag := 8 }
def L1 := S (dc id (fun u => {u with state := .listening, ctrl := [], sounding := none}))
def O1 := S (dc id (fun u => {u with state := .opening, ctrl := [], tx := {u.tx with held := 0}, openSends := 2}))
def L2 := S (dc id (fun u => {u with state := .listening, ctrl := [], tx := {u.tx with held := 0}}))
def np (u : DataLink) : DataLink := {u with opts := {u.opts with plainAllowed := false}}
def u7 (u : DataLink) : DataLink := {u with sounding := some (.data 0 0 [1]), ctrl := [], tx := {u.tx with held := 3}}

theorem met_Training : Meets Obligations.Training 19 := ⟨[
  ⟨_, fun h => ((h (S (dc)) 0).1 (ok rfl)).1 130 2⟩,
  ⟨_, fun h => ((h (S (dc)) 0).1 (ok rfl)).2⟩,
  ⟨_, fun h => (((h (tr id) 0).2.1 (ok rfl) (ok rfl) (ok rfl)).1 0 3 120 (ok rfl) (ok rfl)).1 (ok rfl)⟩,
  ⟨_, fun h => (((h (tr id) 0).2.1 (ok rfl) (ok rfl) (ok rfl)).1 5 5 900 (ok rfl) (ok rfl)).1 (ok rfl)⟩,
  ⟨_, fun h => (((h (tr id id (fx .send (some (.set .plain 2 .fine none)))) 0).2.1 (ok rfl) (ok rfl) (ok rfl)).1 3 5 239 (ok rfl) (ok rfl)).2 (jb .send (some (.set .plain 2 .fine none))) .plain 2 .fine none (ok rfl) (ok rfl) (ok rfl) (ok rfl)⟩,
  ⟨_, fun h => (((h (tr id) 0).2.1 (ok rfl) (ok rfl) (ok rfl)).2.1 3 119 (ok rfl) (ok rfl))⟩,
  ⟨_, fun h => (((h (tr id) 0).2.1 (ok rfl) (ok rfl) (ok rfl)).2.2 (ok rfl))⟩,
  ⟨_, fun h => ((h (S dc) 0).2.2.1 3 1000 none 2 (ok rfl)).1⟩,
  ⟨_, fun h => ((h (S dc) 0).2.2.1 3 1000 none 2 (ok rfl)).2⟩,
  ⟨_, fun h => (((h (tt 0 4 none) 0).2.2.2 4 1 1 1000 (ok rfl) (ok rfl) (ok rfl) (ok rfl) (ok rfl)).1 (ok rfl)).1 (ok rfl)⟩,
  ⟨_, fun h => (((h (tt 1 4 none) 0).2.2.2 4 1 2 2000 (ok rfl) (ok rfl) (ok rfl) (ok rfl) (ok rfl)).1 (ok rfl)).2.1 false (ok rfl) (ok rfl) (ok rfl) 3 (ok rfl)⟩,
  ⟨_, fun h => (((h (tt 2 4 none) 0).2.2.2 4 1 2 2000 (ok rfl) (ok rfl) (ok rfl) (ok rfl) (ok rfl)).1 (ok rfl)).2.2.1 false (ok rfl) (ok rfl) (ok rfl)⟩,
  ⟨_, fun h => (((h (tt 0 0 none) 0).2.2.2 0 1 3 2000 (ok rfl) (ok rfl) (ok rfl) (ok rfl) (ok rfl)).1 (ok rfl)).2.2.1 true (ok rfl) (ok rfl) (ok rfl)⟩,
  ⟨_, fun h => (((h (tt 2 4 none (fun u => {u with state := .ready, side := .answering})) 0).2.2.2 4 1 2 2000 (ok rfl) (ok rfl) (ok rfl) (ok rfl) (ok rfl)).1 (ok rfl)).2.2.2.1 (ok rfl) (ok rfl) (ok rfl) (ok rfl) |>.1 (ok rfl)⟩,
  ⟨_, fun h => (((h (tt 2 4 none (fun u => {u with state := .ready, ctrl := [], sounding := none})) 0).2.2.2 4 1 2 2000 (ok rfl) (ok rfl) (ok rfl) (ok rfl) (ok rfl)).1 (ok rfl)).2.2.2.1 (ok rfl) (ok rfl) (ok rfl) (ok rfl) |>.2 (ok rfl) (ok rfl) (ok rfl)⟩,
  ⟨_, fun h => (((h (tt 2 4 none id (fx .send none)) 0).2.2.2 4 1 2 2000 (ok rfl) (ok rfl) (ok rfl) (ok rfl) (ok rfl)).1 (ok rfl)).2.2.2.2 (jb .send none) (ok rfl) (ok rfl) |>.1 (ok rfl)⟩,
  ⟨_, fun h => (((h (tt 1 4 none id (fx .receive none)) 0).2.2.2 4 1 3 2000 (ok rfl) (ok rfl) (ok rfl) (ok rfl) (ok rfl)).1 (ok rfl)).2.2.2.2 (jb .receive none) (ok rfl) (ok rfl) |>.2 (ok rfl) (ok rfl) (ok rfl) 3 (ok rfl)⟩,
  ⟨_, fun h => (((h (tt 2 4 (some true)) 0).2.2.2 4 1 2 2000 (ok rfl) (ok rfl) (ok rfl) (ok rfl) (ok rfl)).2 true (ok rfl)).1 (ok rfl) 3 (ok rfl)⟩,
  ⟨_, fun h => (((h (tt 3 4 (some true)) 0).2.2.2 4 1 2 2000 (ok rfl) (ok rfl) (ok rfl) (ok rfl) (ok rfl)).2 true (ok rfl)).2 (ok rfl) (ok rfl)⟩], rfl⟩

def rt (f : Engine → Engine) := S (dc (fun g => f {g with state := .retraining, testRate := some 2, dir := some .down, rate := some 3}) q0)
def rth : State := mk (rt id).chip [reqOf 1 0x32 [], other]

/-- Seven of the last frames were bad, or 255 good frames in a row were heard. -/
def bd (r : Rate) : State := S (dc (fun g => {g with rate := some r}) (fun u => {u with history := List.replicate 7 false}))
def gd (r : Rate) (cls : Nat) (top : Rate) : State :=
  S (dc (fun g => {g with rate := some r, ceiling := top, quality := {g.quality with cls := cls}}) (fun u => {u with unacked := [], goodRun := 255, history := [true, true]}))

theorem met_RetrainAndCarrier : Meets Obligations.RetrainAndCarrier 18 := ⟨[
  ⟨_, fun h => ((h (tr id) 0).1 .up).1 (ok rfl)⟩,
  ⟨_, fun h => ((h (S (dc id (fun u => {u with state := .listening}))) 0).1 .up).2.1 (ok rfl) (ok rfl) (ok rfl)⟩,
  ⟨_, fun h => ((h (S (dc)) 0).1 .up).2.2.1 (ok rfl) (ok rfl) (ok rfl)⟩,
  ⟨_, fun h => ((h (S (fx .receive none dc)) 0).1 .up).2.2.2 (jb .receive none) 3 (ok rfl) (ok rfl) (ok rfl) (ok rfl) (ok rfl) (ok rfl) (ok rfl)⟩,
  ⟨_, fun h => ((h (rt id) 0).2.1 3 2 5 .down 1 1000 (ok rfl) (ok rfl) (ok rfl) (ok rfl) (ok rfl) (ok rfl) (ok rfl)).1 (ok rfl) (ok rfl) (ok rfl) (ok rfl) (ok rfl) (ok rfl) (ok rfl) (ok rfl)⟩,
  ⟨_, fun h => ((h (rt (fun g => {g with farLed := true})) 0).2.1 3 2 1 .down 1 1000 (ok rfl) (ok rfl) (ok rfl) (ok rfl) (ok rfl) (ok rfl) (ok rfl)).1 (ok rfl) (ok rfl) (ok rfl) (ok rfl) (ok rfl) (ok rfl) (ok rfl) (ok rfl)⟩,
  ⟨_, fun h => ((h (rt (fun g => {g with farLed := true, attempts := 1})) 0).2.1 3 2 1 .down 2 1000 (ok rfl) (ok rfl) (ok rfl) (ok rfl) (ok rfl) (ok rfl) (ok rfl)).2 (ok rfl) (ok rfl) (ok rfl) (ok rfl) true⟩,
  ⟨_, fun h => (h rth 0).2.2.1 (reqOf 1 0x32 []) [other] (ok rfl) (ok rfl) (ok rfl) (ok rfl) (ok rfl)⟩,
  ⟨_, fun h => ((h (S nz) 0).2.2.2.1 true).1 (ok rfl)⟩,
  ⟨_, fun h => ((h (S dc) 0).2.2.2.1 true).2 (ok rfl)⟩,
  ⟨_, fun h => (h (S dc) 0).2.2.2.2.1 (ok rfl)⟩,
  ⟨_, fun h => (h (S (dc (fun g => {g with carrier := false, loss := {run := true, ms := 3}}))) 0).2.2.2.2.2.1 (ok rfl) (ok rfl) (ok rfl) (ok rfl)⟩,
  ⟨_, fun h => ((h (bd 3) 0).2.2.2.2.2.2 3 (ok rfl) (ok rfl) (ok rfl) (ok rfl)).1 (ok rfl) |>.1 (ok rfl)⟩,
  ⟨_, fun h => ((h (bd 0) 0).2.2.2.2.2.2 0 (ok rfl) (ok rfl) (ok rfl) (ok rfl)).1 (ok rfl) |>.2 (ok rfl)⟩,
  ⟨_, fun h => ((h (gd 3 6 5) 0).2.2.2.2.2.2 3 (ok rfl) (ok rfl) (ok rfl) (ok rfl)).2 2 5 (ok rfl) (ok rfl) (ok rfl) (ok rfl) (ok rfl) |>.1 (ok rfl) (ok rfl) (ok rfl)⟩,
  ⟨_, fun h => ((h (gd 4 6 6) 0).2.2.2.2.2.2 4 (ok rfl) (ok rfl) (ok rfl) (ok rfl)).2 2 5 (ok rfl) (ok rfl) (ok rfl) (ok rfl) (ok rfl) |>.2 (ok rfl) |>.1 (ok rfl) (ok rfl)⟩,
  ⟨_, fun h => ((h (gd 3 6 3) 0).2.2.2.2.2.2 3 (ok rfl) (ok rfl) (ok rfl) (ok rfl)).2 2 5 (ok rfl) (ok rfl) (ok rfl) (ok rfl) (ok rfl) |>.2 (ok rfl) |>.1 (ok rfl) (ok rfl)⟩,
  ⟨_, fun h => ((h (gd 3 4 5) 0).2.2.2.2.2.2 3 (ok rfl) (ok rfl) (ok rfl) (ok rfl)).2 2 3 (ok rfl) (ok rfl) (ok rfl) (ok rfl) (ok rfl) |>.2 (ok rfl) |>.2 (ok rfl)⟩], rfl⟩

theorem met_DataOpening : Meets Obligations.DataOpening 13 := ⟨[
  ⟨_, fun h => ((h L1 0 1 (ok rfl) (ok rfl)).1 a8 9 (ok rfl) (ok rfl)).1 (ok rfl) (ok rfl) (ok rfl)⟩,
  ⟨_, fun h => ((h O1 0 1 (ok rfl) (ok rfl)).1 a8 3 (ok rfl) (ok rfl)).2.1 (ok rfl) (ok rfl) (ok rfl) (ok rfl)⟩,
  ⟨_, fun h => (((h O1 0 1 (ok rfl) (ok rfl)).1 a8 3 (ok rfl) (ok rfl)).2.2 (ok rfl) (ok rfl)).1 (ok rfl) (ok rfl)⟩,
  ⟨_, fun h => (((h L2 0 1 (ok rfl) (ok rfl)).1 a8 3 (ok rfl) (ok rfl)).2.2 (ok rfl) (ok rfl)).2 (ok rfl)⟩,
  ⟨_, fun h => ((h (S (dc id (fun u => np {u with state := .opening, openSends := 2}))) 0 1 (ok rfl) (ok rfl)).2.1 (ok rfl)).1 (ok rfl) (ok rfl)⟩,
  ⟨_, fun h => ((h (S (dc id (fun u => np {u with state := .listening}))) 0 1 (ok rfl) (ok rfl)).2.1 (ok rfl)).2 (ok rfl)⟩,
  ⟨_, fun h => ((h (S (dc id (fun u => np {u with state := .opening, ctrl := [], sounding := none}))) 0 1 (ok rfl) (ok rfl)).2.2.1 (ok rfl) (ok rfl) (ok rfl) (ok rfl))⟩,
  ⟨_, fun h => ((h (S dc) 0 1 (ok rfl) (ok rfl)).2.2.2.1 (.accept 2) (.accept 3) (ok rfl) (ok rfl) (by intros; nofun) (ok rfl))⟩,
  ⟨_, fun h => ((h (S (dc id u7)) 0 1 (ok rfl) (ok rfl)).2.2.2.2.1 0 0 [1] (ok rfl) (ok rfl) (ok rfl) (ok rfl) (ok rfl) (ok rfl) (ok rfl))⟩,
  ⟨_, fun h => ((h (S (dc id q0)) 0 1 (ok rfl) (ok rfl)).2.2.2.2.2.1 (ok rfl))⟩,
  ⟨_, fun h => ((h L1 0 1 (ok rfl) (ok rfl)).2.2.2.2.2.2.1 (ok rfl))⟩,
  ⟨_, fun h => ((h (S dc) 0 1 (ok rfl) (ok rfl)).2.2.2.2.2.2.2 (ok rfl) (ok rfl))⟩,
  ⟨_, fun h => ((h (S (dc id (fun u => {u with history := List.replicate 26 true ++ List.replicate 6 false}))) 0 1 (ok rfl) (ok rfl)).2.2.2.2.2.2.2 (ok rfl) (ok rfl))⟩], rfl⟩

end Training

/-! 06_data_calls.md, frames -/
namespace DataLink

def rg (t : Bool) (b : List Nat) : Obj := { owner := .line 1, chain := b, length := 2048, created := 5, attr := .ring t 0 }
def dc (fe : Engine → Engine := id) (fu : DataLink → DataLink := id) (fk : Call → Call := id) : Chip :=
  let c := nz
  let c := { c with store := { c.store with slots := (c.store.slots.set 0 { gen := 3, obj := some (rg true [1,2,3,4]) }).set 3 { gen := 6, obj := some (rg false [5,6,7,8]) } } }
  let c := we c 0 (fun g => fe { g with state := .running, line := 1, purpose := .data, measuring := false, testRate := none, await := none, farLed := false, dir := none, loss := {} })
  let c := wu c 0 (fun _ => fu { state := .linked, line := 1, side := .calling, opts := { window := 5, t1 := 3, n2 := 4, plainAllowed := true }, portBound := true, windowInUse := 4, tx := { handle := 3, slot := 0, start := 2000, held := 100 }, rx := { handle := 54, slot := 3, start := 9, held := 50, reserved := 3 }, nextSend := 1, unacked := [{num := 15, payload := [1,2]}, {num := 0, payload := [1]}], history := [true, false], goodRun := 9, bytesSent := 12, bytesRecv := 13, resent := 2, ctrl := [.accept 3], sounding := some (.accept 2), expected := 7, flow := .flowing, openSends := 1, lastLine := some .close, plainOut := [9] })
  let c := wk c 1 (fun k => fk { k with state := .connected, phase := .data, purpose := some .data, engine := some 0, job := .dataLink, long := some { kind := .answer, tag := 8 }, direction := some .incoming })
  wl c 1 (fun n => { n with hook := .offHook })
def S (c : Chip) : State := mk c []
def f1 : Unacked := {num := 15, payload := [1,2]}
def f2 : Unacked := {num := 0, payload := [1]}
def sL := S (dc)
def sE (f : DataLink → DataLink := id) := S (dc id (fun u => f {u with unacked := [], ctrl := []}))
def fl (x : Nat) (u : DataLink) : DataLink := {u with rx := {u.rx with held := x}}
def sT (f : DataLink → DataLink := id) := S (dc id (fun u => f {u with t1 := {run := true, ms := 1}, expiries := 3}))
def sR (n : Nat) := S (dc id (fun u => {u with flow := .resuming, rep := {run := true, ms := 2}, repCount := n, ctrl := []}))
def sK := S (dc id (fun u => {u with state := .closing}) (fun k => {k with state := .releasing, phase := .releasing, cause := some .hungUp, forced := false, long := some {kind := .answer, tag := 8, mark := some .hungUp}}))
/-- Line Reset of line 1, whose OVERCURRENT has been latched and holds, is asked for. -/
def sV (c : Chip) (f : Call → Call) : State := mk (wl (wk c 1 f) 1 (fun n => {n with
  cond := {overcurrent := true, hot := true}, latch := {overcurrent := true, hot := true, lineLost := true}})) [reqOf 1 0x23 [], other]
def lk (line : Nat) (bs : List Byte) (f : Chip → Chip := id) (fu : DataLink → DataLink := id) : State :=
  S (f { dc id fu with link := { nz.link with data := [{code := 0, line := b1 line, tag := 9, bytes := bs}, {code := 1, line := 1, tag := 7, bytes := [1]}] }, linkPort := {work := none, served := 2} })
def da (line : Nat) (bs : List Byte) : DataIn := {code := 0, line := b1 line, tag := 9, bytes := bs}
def mo : List DataIn := [{code := 1, line := 1, tag := 7, bytes := [1]}]
def sq (c : Chip) : Chip := { c with link := { c.link with sets := vec (fun _ => []) }, linkPort := {work := none, served := 0} }
def pl (f : DataLink → DataLink) := S (dc id (fun u => f {u with state := .plain, unacked := []}))

def sZ := S (wl (dc (fun g => {g with state := .claimed}) (fun u => {u with state := .ready}) (fun k => {k with state := .seized, phase := .dialling, direction := some .outgoing, job := .none})) 1 (fun n => {n with loopSeen := true, absentTold := false, pulse := none}))
/-- A payload of 6 bytes in the receive hold. -/
def hb (w : Nat) : Held := { bytes := [11, 12, 13, 14, 15, 16], written := w }
def rp (hs : List Held) (fu : DataLink → DataLink := id) : State :=
  S { dc id (fun u => fu {u with hold := hs}) with port := { holder := some (.ring 0), lastGranted := some (.ring 0) } }
def lp (bs : List Byte) (w : LinkWork) (fu : DataLink → DataLink := id) : State := lk 1 bs (fun c =>
  { sq c with linkPort := { work := some w, served := 1 }, port := { holder := some .linkPort, lastGranted := some .linkPort } }) fu

theorem met_DataFrames : Meets Obligations.DataFrames 15 := ⟨[
  ⟨_, fun h => ((h sL 0 (ok rfl) (ok rfl) (ok rfl) (ok rfl)).1 0 [f1] [f2] (ok rfl)).1⟩,
  ⟨_, fun h => ((h sL 0 (ok rfl) (ok rfl) (ok rfl) (ok rfl)).1 15 [] [f1,f2] (ok rfl)).2.1⟩,
  ⟨_, fun h => ((h sL 0 (ok rfl) (ok rfl) (ok rfl) (ok rfl)).1 1 [f1,f2] [] (ok rfl)).2.2⟩,
  ⟨_, fun h => ((h sE 0 (ok rfl) (ok rfl) (ok rfl) (ok rfl)).2.1 3 (ok rfl) (ok rfl)).1⟩,
  ⟨_, fun h => ((h sE 0 (ok rfl) (ok rfl) (ok rfl) (ok rfl)).2.1 3 (ok rfl) (ok rfl)).2.1⟩,
  ⟨_, fun h => ((h sE 0 (ok rfl) (ok rfl) (ok rfl) (ok rfl)).2.1 3 (ok rfl) (ok rfl)).2.2⟩,
  ⟨_, fun h => ((h sE 0 (ok rfl) (ok rfl) (ok rfl) (ok rfl)).2.2.1 7 3 [1,2] (ok rfl) (ok rfl) (ok rfl) (ok rfl)).1 (ok rfl) (ok rfl)⟩,
  ⟨_, fun h => ((h (sE (fl 1788)) 0 (ok rfl) (ok rfl) (ok rfl) (ok rfl)).2.2.1 7 3 (List.replicate 600 1) (ok rfl) (ok rfl) (ok rfl) (ok rfl)).2.1 (ok rfl) (ok rfl) (ok rfl)⟩,
  ⟨_, fun h => ((h (sE (fl 1790)) 0 (ok rfl) (ok rfl) (ok rfl) (ok rfl)).2.2.1 7 3 (List.replicate 256 1) (ok rfl) (ok rfl) (ok rfl) (ok rfl)).2.2.1 (ok rfl) (ok rfl) (ok rfl)⟩,
  ⟨_, fun h => ((h sE 0 (ok rfl) (ok rfl) (ok rfl) (ok rfl)).2.2.1 8 3 [1,2] (ok rfl) (ok rfl) (ok rfl) (ok rfl)).2.2.2.1 (ok rfl) (ok rfl) (ok rfl)⟩,
  ⟨_, fun h => ((h (sE (fun u => {u with gap := true})) 0 (ok rfl) (ok rfl) (ok rfl) (ok rfl)).2.2.1 10 3 [1,2] (ok rfl) (ok rfl) (ok rfl) (ok rfl)).2.2.2.2.1 (ok rfl) (ok rfl) (ok rfl)⟩,
  ⟨_, fun h => ((h sE 0 (ok rfl) (ok rfl) (ok rfl) (ok rfl)).2.2.1 11 3 [1,2] (ok rfl) (ok rfl) (ok rfl) (ok rfl)).2.2.2.2.2 (ok rfl) (ok rfl)⟩,
  ⟨_, fun h => ((h (S (dc id (fun u => {u with ctrl := []}))) 0 (ok rfl) (ok rfl) (ok rfl) (ok rfl)).2.2.2 7 0 [f1] [f2] [1,2] (ok rfl) (ok rfl) (ok rfl)).1 (ok rfl) (ok rfl) (ok rfl) (ok rfl) (ok rfl)⟩,
  ⟨_, fun h => ((h (S (dc id (fun u => {u with ctrl := [], remotePaused := true}))) 0 (ok rfl) (ok rfl) (ok rfl) (ok rfl)).2.2.2 7 1 [f1,f2] [] [3] (ok rfl) (ok rfl) (ok rfl)).1 (ok rfl) (ok rfl) (ok rfl) (ok rfl) (ok rfl)⟩,
  ⟨_, fun h => ((h (S (dc id (fun u => {u with ctrl := []}))) 0 (ok rfl) (ok rfl) (ok rfl) (ok rfl)).2.2.2 10 1 [f1,f2] [] [1,2] (ok rfl) (ok rfl) (ok rfl)).2 (ok rfl) (ok rfl) (ok rfl)⟩], rfl⟩

theorem met_DataTimersAndClosing : Meets Obligations.DataTimersAndClosing 14 := ⟨[
  ⟨_, fun h => (h sT 0).1 f1 [f2] (ok rfl) (ok rfl) (ok rfl) (ok rfl) (ok rfl) (ok rfl)⟩,
  ⟨_, fun h => (h (sT (fun u => {u with expiries := 4})) 0).2.1 1 (ok rfl) (ok rfl) (ok rfl) (ok rfl) (ok rfl)⟩,
  ⟨_, fun h => ((h (S nz) 0).2.2.1 (ok rfl)).1⟩,
  ⟨_, fun h => ((h (S nz) 0).2.2.1 (ok rfl)).2⟩,
  ⟨_, fun h => ((h (sR 3) 0).2.2.2.1 (ok rfl) (ok rfl) (ok rfl) (ok rfl)).1 (ok rfl) (ok rfl) (ok rfl)⟩,
  ⟨_, fun h => ((h (sR 4) 0).2.2.2.1 (ok rfl) (ok rfl) (ok rfl) (ok rfl)).2 (ok rfl)⟩,
  ⟨_, fun h => ((h (S dc) 0).2.2.2.2.1 1 (ok rfl) (ok rfl) (ok rfl) (ok rfl))⟩,
  ⟨_, fun h => ((h sZ 0).2.2.2.2.2.1 1 (ok rfl) (ok rfl) (ok rfl) (ok rfl) (ok rfl) (ok rfl))⟩,
  ⟨_, fun h => ((h sK 0).2.2.2.2.2.2.1 1 .hungUp (ok rfl) (ok rfl) (ok rfl) (ok rfl) (ok rfl) (ok rfl)).1⟩,
  ⟨_, fun h => ((h sK 0).2.2.2.2.2.2.1 1 .hungUp (ok rfl) (ok rfl) (ok rfl) (ok rfl) (ok rfl) (ok rfl)).2 (ok rfl) |>.1⟩,
  ⟨_, fun h => ((h sK 0).2.2.2.2.2.2.1 1 .hungUp (ok rfl) (ok rfl) (ok rfl) (ok rfl) (ok rfl) (ok rfl)).2 (ok rfl) |>.2⟩,
  ⟨_, fun h => (h (sV sK.chip (fun k => {k with long := none})) 0).2.2.2.2.2.2.2 1 (reqOf 1 0x23 []) [other] (ok rfl) (ok rfl) |>.1 .hungUp (ok rfl) (ok rfl) (ok rfl) (ok rfl) (ok rfl)⟩,
  ⟨_, fun h => (h (sV dc id) 0).2.2.2.2.2.2.2 1 (reqOf 1 0x23 []) [other] (ok rfl) (ok rfl) |>.2 (ok rfl)⟩,
  ⟨_, fun h => (h (sV dc (fun k => {k with state := .seized, phase := .seize, long := none})) 0).2.2.2.2.2.2.2 1 (reqOf 1 0x23 []) [other] (ok rfl) (ok rfl) |>.2 (ok rfl)⟩], rfl⟩

theorem met_LinkPortAndPlain : Meets Obligations.LinkPortAndPlain 25 := ⟨[
  ⟨_, fun h => (h (lk 1 [1] (fun c => {c with link := {c.link with data := mo}}))).1 (ok rfl)⟩,
  ⟨_, fun h => ((h (lk 1 [])).2.1 (da 1 []) mo (ok rfl) (ok rfl) (ok rfl) (ok rfl)).1 (ok rfl)⟩,
  ⟨_, fun h => ((h (lk 4 [1])).2.1 (da 4 [1]) mo (ok rfl) (ok rfl) (ok rfl) (ok rfl)).2.1 (ok rfl) (ok rfl)⟩,
  ⟨_, fun h => ((h (lk 2 [1])).2.1 (da 2 [1]) mo (ok rfl) (ok rfl) (ok rfl) (ok rfl)).2.2.1 2 (ok rfl) (ok rfl) (ok rfl)⟩,
  ⟨_, fun h => (((h (lk 1 [1,2])).2.1 (da 1 [1,2]) mo (ok rfl) (ok rfl) (ok rfl) (ok rfl)).2.2.2 1 0 (ok rfl) (ok rfl) (ok rfl) (ok rfl) (ok rfl) (ok rfl)).1 (ok rfl) (ok rfl)⟩,
  ⟨_, fun h => (((h (lk 1 [1,2] id (fun u => {u with tx := {u.tx with held := 1023}}))).2.1 (da 1 [1,2]) mo (ok rfl) (ok rfl) (ok rfl) (ok rfl)).2.2.2 1 0 (ok rfl) (ok rfl) (ok rfl) (ok rfl) (ok rfl) (ok rfl)).1 (ok rfl) (ok rfl)⟩,
  ⟨_, fun h => (((h (lk 1 [1,2] id (fun u => {u with tx := {u.tx with held := 2047}}))).2.1 (da 1 [1,2]) mo (ok rfl) (ok rfl) (ok rfl) (ok rfl)).2.2.2 1 0 (ok rfl) (ok rfl) (ok rfl) (ok rfl) (ok rfl) (ok rfl)).2 (ok rfl)⟩,
  ⟨_, fun h => ((h (lk 1 [1,2] sq)).2.2.1 0 (ok rfl) (ok rfl) (ok rfl) (ok rfl) (ok rfl) (ok rfl) (ok rfl))⟩,
  ⟨_, fun h => ((h (lk 1 [1,2] sq (fun u => {u with rx := {u.rx with held := 0}}))).2.2.2.1 0 (ok rfl))⟩,
  ⟨_, fun h => ((h (pl (fun u => {u with cut := some {total := 3, got := [1,2,3]}, tx := {u.tx with held := 3}}))).2.2.2.2.1 0 (ok rfl) (ok rfl) (ok rfl)).1 {total := 3, got := [1,2,3]} (ok rfl) (ok rfl) (ok rfl)⟩,
  ⟨_, fun h => ((h (pl id)).2.2.2.2.1 0 (ok rfl) (ok rfl) (ok rfl)).2.1 (ok rfl) (ok rfl)⟩,
  ⟨_, fun h => ((h (pl id)).2.2.2.2.1 0 (ok rfl) (ok rfl) (ok rfl)).2.2.1 [1,2] (ok rfl) (ok rfl) (ok rfl) (ok rfl) (ok rfl)⟩,
  ⟨_, fun h => ((h (pl (fun u => {u with rx := {u.rx with held := 2045}}))).2.2.2.2.1 0 (ok rfl) (ok rfl) (ok rfl)).2.2.2 [1,2] (ok rfl) (ok rfl) (ok rfl)⟩,
  ⟨_, fun h => ((h (pl (fun u => {u with rx := {u.rx with held := 2045}, overrun := 4294967294}))).2.2.2.2.1 0 (ok rfl) (ok rfl) (ok rfl)).2.2.2 [1,2] (ok rfl) (ok rfl) (ok rfl)⟩,
  ⟨_, fun h => ((h (lk 1 [1] (fun c => wk c 1 (fun k => {k with phase := .linkOpening})))).2.1 (da 1 [1]) mo (ok rfl) (ok rfl) (ok rfl) (ok rfl)).2.2.1 1 (ok rfl) (ok rfl) (ok rfl)⟩,
  ⟨_, fun h => (h (rp [hb 0])).2.2.2.2.2.1 0 (rg false [5,6,7,8]) (hb 0) [] 2619 (ok rfl) (ok rfl) (ok rfl) (ok rfl) (ok rfl) (ok rfl) (ok rfl) (ok rfl) (ok rfl)⟩,
  ⟨_, fun h => (h (rp [hb 0, hb 0] (fun u => {u with rx := {u.rx with held := 501}}))).2.2.2.2.2.1 0 (rg false [5,6,7,8]) (hb 0) [hb 0] 3070 (ok rfl) (ok rfl) (ok rfl) (ok rfl) (ok rfl) (ok rfl) (ok rfl) (ok rfl) (ok rfl)⟩,
  ⟨_, fun h => (h (rp [] (fun u => {u with cut := some {total := 60, got := [9]}}))).2.2.2.2.2.2.1 0 (rg true [1,2,3,4]) {total := 60, got := [9]} (ok rfl) (ok rfl) (ok rfl) (ok rfl) (ok rfl) (ok rfl) (ok rfl) (ok rfl)⟩,
  ⟨_, fun h => (h (lp [1,2] (.take 0 1))).2.2.2.2.2.2.2.1 0 (rg true [1,2,3,4]) (da 1 [1,2]) mo 1 565 (ok rfl) (ok rfl) (ok rfl) (ok rfl) (ok rfl) (ok rfl) (ok rfl) (ok rfl) (ok rfl)⟩,
  ⟨_, fun h => (h (lp [1,2,3] (.take 0 0) (fun u => {u with tx := {u.tx with held := 46}}))).2.2.2.2.2.2.2.1 0 (rg true [1,2,3,4]) (da 1 [1,2,3]) mo 0 2558 (ok rfl) (ok rfl) (ok rfl) (ok rfl) (ok rfl) (ok rfl) (ok rfl) (ok rfl) (ok rfl)⟩,
  ⟨_, fun h => ((h (lp [1] (.drain 0 60 [7]) (fun u => {u with rx := {u.rx with held := 60, start := 510}}))).2.2.2.2.2.2.2.2 0 (rg false [5,6,7,8]) 60 [7] (ok rfl) (ok rfl) (ok rfl) (ok rfl) (ok rfl)).1 (ok rfl)⟩,
  ⟨_, fun h => ((h (lp [1] (.drain 0 50 [7]))).2.2.2.2.2.2.2.2 0 (rg false [5,6,7,8]) 50 [7] (ok rfl) (ok rfl) (ok rfl) (ok rfl) (ok rfl)).2 (ok rfl) (ok rfl) (ok rfl) |>.1 (ok rfl) |>.1 (ok rfl)⟩,
  ⟨_, fun h => ((h (lp [1] (.drain 0 50 [7]) (fun u => {u with flow := .paused, rx := {u.rx with held := 1072}}))).2.2.2.2.2.2.2.2 0 (rg false [5,6,7,8]) 50 [7] (ok rfl) (ok rfl) (ok rfl) (ok rfl) (ok rfl)).2 (ok rfl) (ok rfl) (ok rfl) |>.1 (ok rfl) |>.1 (ok rfl)⟩,
  ⟨_, fun h => ((h (lp [1] (.drain 0 50 [7]) (fun u => {u with flow := .paused, rx := {u.rx with held := 1071}}))).2.2.2.2.2.2.2.2 0 (rg false [5,6,7,8]) 50 [7] (ok rfl) (ok rfl) (ok rfl) (ok rfl) (ok rfl)).2 (ok rfl) (ok rfl) (ok rfl) |>.1 (ok rfl) |>.2 (ok rfl) (ok rfl)⟩,
  ⟨_, fun h => ((h (lp [1] (.drain 0 50 [7]) (fun u => {u with flow := .paused, ctrl := [], sounding := none, rx := {u.rx with held := 1071}}))).2.2.2.2.2.2.2.2 0 (rg false [5,6,7,8]) 50 [7] (ok rfl) (ok rfl) (ok rfl) (ok rfl) (ok rfl)).2 (ok rfl) (ok rfl) (ok rfl) |>.2 (ok rfl) (ok rfl) (ok rfl) (ok rfl) (ok rfl)⟩], rfl⟩

end DataLink

/-! 07_fax.md -/
namespace Fax

def gj (s : State) : FaxJob := s.chip.fax[1].getD { role := .send, engine := 3 }
def go (s : State) : Obj := s.chip.store.slots[6].obj.getD { owner := .unowned, created := 0, attr := .clip }
def S (c : Chip) : State := mk c []
def lg : Long := { kind := .dial, tag := 8 }
def fx (j : FaxJob) (fe : Engine → Engine := id) (fc : Chip → Chip := id) : State :=
  let c := nz
  let c := we c 0 (fun g => fe { g with state := .running, line := 1, purpose := .fax, measuring := false, testRate := none, await := none, farLed := false, dir := none, loss := {}, rate := some 3 })
  let c := wk c 1 (fun k => { k with state := .connected, phase := .fax, purpose := some .fax, engine := some 0, job := .faxJob, long := some lg, direction := some .outgoing })
  let c := wl c 1 (fun n => { n with hook := .offHook })
  S (fc (wf c 1 j))
def js : FaxJob := { role := .send, engine := 0, opts := { sectioned := true, ident := some [0x32] }, pages := [105], wait := some .bye, sends := 2, resent := 4, retakes := 1, sect := 5, round := 3, marks := vec (fun i => if i < 3 then .taken else .needed), strips := [(4,[5])], answers := [(none, .last)], retrainWanted := true, runs := [(3,4)], pageDone := true, roundOn := true, passBad := 9, pagesSent := 5, byeWanted := true, trainWait := true, roundWait := true, repass := true}
def cl (g : Engine) : Engine := { g with state := .claimed }
def uf (c : Chip) : Chip := { c with store := {c.store with slots := c.store.slots.set 6 { c.store.slots[6] with obj := some { state := .closed, owner := .line 2, chain := [70,71,72], length := 1537, users := 2, created := 79, attr := .page {page := 1, res := .fine, rate := none, strips := 3} } } } }
def jr : FaxJob := { js with role := .receive, pages := [], opts := {sectioned := true, fine := false}, wait := some (.caps 3 true false none), roundWait := false, byeWanted := false, roundOn := false, runs := [], strips := [] }
def tr (n : Nat) (r : Rate) (g : Engine) : Engine := { g with state := .training, testRate := some r, await := some false, attempts := n, rate := none }
def pg (i : ChanNo := 3) : FaxPage := { handle := 105, slot := 6, number := 1, total := 3, chan := some i, resent := 3 }
def jt : FaxJob := { js with phase := .training, mode := some .plain, retrainWanted := false, byeWanted := false, roundOn := false, roundWait := false, runs := [], cur := some (pg), index := 1, found := 1}
def bc (st : ChanState) (i : ChanNo := 3) (d : ChanDir := .toPath) (c : Chip) : Chip := wc c i (fun k => { k with state := st, path := .engine 1, dir := d, owner := .fax 1, slot := 6, repeats := 255 })
def jp : FaxJob := { jt with phase := .page, mode := some .sectioned, roundOn := true, sect := 0, marks := vec (fun i => if i < 3 then .needed else .unused), begun := true, rate := some 3, wait := none, strips := [], answers := [], pageDone := false, retakes := 0, round := 1 }
def jw : FaxJob := { jp with roundOn := false, roundWait := true, sent := some .endOfRound, sends := 2 }
def jq : FaxJob := { jw with phase := .postpage, roundWait := false, wait := some .last, pageDone := true, marks := vec (fun i => if i < 3 then .taken else .unused) }
def jl : FaxJob := { jq with mode := some .plain }
def jv : FaxJob := { jr with phase := .page, mode := some .sectioned, cur := some {pg with total := 3, stored := [0]}, sect := 0, index := 1, rate := some 3, wait := none, retrainWanted := false, trainWait := false, marks := vec (fun i => if i = 0 then .taken else if i < 3 then .needed else .unused) }
def pv : FaxPage := {pg with total := 3, stored := [0]}
def pt : FaxPage := {pv with told := true, ever := true}
def ob (c : Chip) : Chip := let c := { c with store := {c.store with slots := c.store.slots.set 6 { c.store.slots[6] with obj := some { state := .openWrite, owner := .line 1, chain := [70,71,72], length := 1400, users := 2, created := 79, attr := .page {page := 1, res := .fine, rate := none, strips := 1, ident := some [3]} } } } }
  wc (wc (wc (bc .held 3 .fromPath c) 0 (fun k => {k with state := .bound})) 1 (fun k => {k with state := .bound})) 2 (fun k => {k with state := .bound})
def pw : FaxPage := {pt with stored := [0,1,2]}
def rS := fx {jv with cur := some pw, strips := [(7, [1])]} id ob
abbrev at_ : PageAttr := {page := 1, res := .fine, rate := none, strips := 1, ident := some [3]}
abbrev oo : Obj := { state := .openWrite, owner := .line 1, chain := [70,71,72], length := 1400, users := 2, created := 79, attr := .page at_ }
def jb (f : FaxJob → FaxJob) : FaxJob := f { js with cur := none, ending := some {cls := .normal, reason := .none, cause := .none}, wait := some .bye, resent := 70000, pagesSent := 300 }

/-- A sender in SECTIONED trains; strips 0, 2, 3 and 31 are NEEDED. A receiver's last test of page 1's training is heard. -/
def sx (f : FaxJob → FaxJob) : State := fx (f {jt with mode := some .sectioned}) (tr 1 3) (bc .held)
def gaps (j : FaxJob) : FaxJob := {j with sect := 0, marks := vec (fun i => if i = 0 ∨ i = 2 ∨ i = 3 ∨ i = 31 then .needed else .taken)}
def rt (f : Chip → Chip) : State := fx {jr with phase := .training, mode := some .sectioned, index := 0, remote := {jr.remote with ident := some [7]}} (fun g => {tr 1 3 g with await := none}) f

theorem met_FaxOpening : Meets Obligations.FaxOpening 16 := ⟨[
  ⟨_, fun h => ((h (fx {js with pages := [104]} cl) 1 (gj (fx {js with pages := [104]} cl)) (ok rfl) (ok rfl)).1 9600 104 true false (some [3]) (ok rfl) (ok rfl) (ok rfl) (ok rfl) (ok rfl) (ok rfl)).1 (ok rfl)⟩,
  ⟨_, fun h => ((h (fx js cl) 1 (gj (fx js cl)) (ok rfl) (ok rfl)).1 9601 105 true false (some [3]) (ok rfl) (ok rfl) (ok rfl) (ok rfl) (ok rfl) (ok rfl)).2 6 (go (fx js cl)) {page := 1, res := .standard, rate := none, strips := 3} 0 (ok rfl) (ok rfl) (ok rfl) (ok rfl) (ok rfl) (ok rfl) (ok rfl) (ok rfl)⟩,
  ⟨_, fun h => ((h (fx {js with opts := {}} cl uf) 1 (gj (fx {js with opts := {}} cl uf)) (ok rfl) (ok rfl)).1 2399 105 true true none (ok rfl) (ok rfl) (ok rfl) (ok rfl) (ok rfl) (ok rfl)).2 6 (go (fx {js with opts := {}} cl uf)) {page := 1, res := .fine, rate := none, strips := 3} 0 (ok rfl) (ok rfl) (ok rfl) (ok rfl) (ok rfl) (ok rfl) (ok rfl) (ok rfl)⟩,
  ⟨_, fun h => (h (fx {js with phase := .page}) 1 (gj (fx {js with phase := .page})) (ok rfl) (ok rfl)).2.1 3 true true none (ok rfl) (ok rfl)⟩,
  ⟨_, fun h => ((h (fx jr cl) 1 (gj (fx jr cl)) (ok rfl) (ok rfl)).2.2.1 .sectioned 7300 .standard (some [9]) (ok rfl) (ok rfl)).1 (ok rfl) (ok rfl)⟩,
  ⟨_, fun h => ((h (fx jr cl) 1 (gj (fx jr cl)) (ok rfl) (ok rfl)).2.2.1 .sectioned 7300 .fine (some [9]) (ok rfl) (ok rfl)).2 (ok rfl)⟩,
  ⟨_, fun h => ((h (fx {jr with opts := {sectioned := false, fine := true}} cl) 1 (gj (fx {jr with opts := {sectioned := false, fine := true}} cl)) (ok rfl) (ok rfl)).2.2.1 .sectioned 7300 .fine (some [9]) (ok rfl) (ok rfl)).2 (ok rfl)⟩,
  ⟨_, fun h => ((h (fx jt (tr 1 3) (bc .bound)) 1 (gj (fx jt (tr 1 3) (bc .bound))) (ok rfl) (ok rfl)).2.2.2.1 3 (ok rfl) (ok rfl) (ok rfl) (ok rfl) (ok rfl) (ok rfl) (ok rfl) (ok rfl) (ok rfl)).1 (pg) 3 (ok rfl) (ok rfl) (ok rfl) (ok rfl) (ok rfl) (ok rfl) (ok rfl) (ok rfl) (ok rfl)⟩,
  ⟨_, fun h => ((h (fx jt (tr 2 3) (bc .bound)) 1 (gj (fx jt (tr 2 3) (bc .bound))) (ok rfl) (ok rfl)).2.2.2.1 3 (ok rfl) (ok rfl) (ok rfl) (ok rfl) (ok rfl) (ok rfl) (ok rfl) (ok rfl) (ok rfl)).2.2.1 (ok rfl) 2 (ok rfl)⟩,
  ⟨_, fun h => ((h (fx jt (tr 3 3) (bc .bound)) 1 (gj (fx jt (tr 3 3) (bc .bound))) (ok rfl) (ok rfl)).2.2.2.1 3 (ok rfl) (ok rfl) (ok rfl) (ok rfl) (ok rfl) (ok rfl) (ok rfl) (ok rfl) (ok rfl)).2.2.2.1 (ok rfl) 2 (ok rfl)⟩,
  ⟨_, fun h => ((h (fx jt (tr 3 0) (bc .bound)) 1 (gj (fx jt (tr 3 0) (bc .bound))) (ok rfl) (ok rfl)).2.2.2.1 0 (ok rfl) (ok rfl) (ok rfl) (ok rfl) (ok rfl) (ok rfl) (ok rfl) (ok rfl) (ok rfl)).2.2.2.2.1 (ok rfl)⟩,
  ⟨_, fun h => ((h (fx jt (tr 1 0) (bc .bound)) 1 (gj (fx jt (tr 1 0) (bc .bound))) (ok rfl) (ok rfl)).2.2.2.1 0 (ok rfl) (ok rfl) (ok rfl) (ok rfl) (ok rfl) (ok rfl) (ok rfl) (ok rfl) (ok rfl)).2.2.2.2.2 1 (ok rfl)⟩,
  ⟨_, fun h => ((h (sx id) 1 (gj (sx id)) (ok rfl) (ok rfl)).2.2.2.1 3 (ok rfl) (ok rfl) (ok rfl) (ok rfl) (ok rfl) (ok rfl) (ok rfl) (ok rfl) (ok rfl)).2.1 pg 3 163 29 [] (ok rfl) (ok rfl) (ok rfl) (ok rfl) (ok rfl) (ok rfl) (ok rfl) (ok rfl) (ok rfl)⟩,
  ⟨_, fun h => ((h (sx gaps) 1 (gj (sx gaps)) (ok rfl) (ok rfl)).2.2.2.1 3 (ok rfl) (ok rfl) (ok rfl) (ok rfl) (ok rfl) (ok rfl) (ok rfl) (ok rfl) (ok rfl)).2.1 pg 3 0 1 [(2,2),(31,1)] (ok rfl) (ok rfl) (ok rfl) (ok rfl) (ok rfl) (ok rfl) (ok rfl) (ok rfl) (ok rfl)⟩,
  ⟨_, fun h => ((h (rt id) 1 (gj (rt id)) (ok rfl) (ok rfl)).2.2.2.2 3 1 .sectioned 1 1000 (ok rfl) (ok rfl) (ok rfl) (ok rfl) (ok rfl) (ok rfl) (ok rfl) (ok rfl) (ok rfl) (ok rfl) (ok rfl) (ok rfl) (ok rfl)).1 0 0 (ok rfl) (ok rfl) (ok rfl)⟩,
  ⟨_, fun h => ((h (rt Store.full) 1 (gj (rt Store.full)) (ok rfl) (ok rfl)).2.2.2.2 3 1 .sectioned 1 1000 (ok rfl) (ok rfl) (ok rfl) (ok rfl) (ok rfl) (ok rfl) (ok rfl) (ok rfl) (ok rfl) (ok rfl) (ok rfl) (ok rfl) (ok rfl)).2 (by decide)⟩], rfl⟩

/-- A second page, in slot 5, that the job goes on to. -/
abbrev a5 : PageAttr := {page := 2, res := .fine, rate := none, strips := 2}
abbrev o5 : Obj := {state := .closed, owner := .line 1, chain := [80, 81], length := 700, users := 0, created := 3, attr := .page a5}
def p2 (i : Option ChanNo) : FaxPage := {handle := 88, slot := 5, number := 2, res := .fine, total := 2, chan := i}
def tw (st : ChanState) (c : Chip) : Chip :=
  let c := {c with store := {c.store with slots := c.store.slots.set 5 {c.store.slots[5] with obj := some o5}}}
  wc (wc (wc (bc st 3 .toPath (uf c)) 0 (fun k => {k with state := .bound})) 1 (fun k => {k with state := .bound})) 2 (fun k => {k with state := .bound})
def jn : FaxJob := {jp with pages := [105, 88], remote := {jp.remote with fine := true}}
def jm : FaxJob := {jn with phase := .postpage, roundOn := false, found := 2, announced := some (p2 none), pageDone := true, wait := some (.more 2 .fine), sent := some (.more 2 .fine), sends := 2}

/-- Round 4 of section 0 of a page of `n` strips has been sent at 2400; every strip of the section is NEEDED. -/
def pn (n : Nat) : FaxPage := {pg with total := n}
def qu (goOn : Bool) (f : FaxJob → FaxJob) (n : Nat) : State :=
  fx (f {jw with round := 4, cur := some (pn n), opts := {jw.opts with goOn := goOn}}) (fun g => {g with rate := some 0}) (bc .held)
def every (j : FaxJob) : FaxJob := {j with marks := vec (fun _ => .needed)}
/-- A page in PLAIN, told to be taken again `r` times, has been sent at 2400. -/
def lo (r : Nat) : State := fx {jl with retakes := r} (fun g => {g with rate := some 0}) (bc .held)

theorem met_FaxSending : Meets Obligations.FaxSending 33 := ⟨[
  ⟨_, fun h => (h (fx jp id (fun c => {bc .running 3 .toPath c with port := {holder := some (.chan 3), lastGranted := none}})) 1 (gj (fx jp id (fun c => {bc .running 3 .toPath c with port := {holder := some (.chan 3), lastGranted := none}}))) (pg) (ok rfl) (ok rfl) (ok rfl) (ok rfl)).1 3 (ok rfl) (ok rfl) (ok rfl) (ok rfl) (ok rfl) (ok rfl) (ok rfl) (ok rfl)⟩,
  ⟨_, fun h => (h (fx jp id (bc .running)) 1 (gj (fx jp id (bc .running))) (pg) (ok rfl) (ok rfl) (ok rfl) (ok rfl)).1 3 (ok rfl) (ok rfl) (ok rfl) (ok rfl) (ok rfl) (ok rfl) (ok rfl) (ok rfl)⟩,
  ⟨_, fun h => (((h (fx jw id (bc .held)) 1 (gj (fx jw id (bc .held))) (pg) (ok rfl) (ok rfl) (ok rfl) (ok rfl)).2.1 (ok rfl) (ok rfl)).1 2 0 none true (ok rfl))⟩,
  ⟨_, fun h => (((h (fx jw id (bc .held)) 1 (gj (fx jw id (bc .held))) (pg) (ok rfl) (ok rfl) (ok rfl) (ok rfl)).2.1 (ok rfl) (ok rfl)).2.1 (some [1]) (ok rfl)).1 3 1 1 [] (ok rfl) (ok rfl) (ok rfl) (ok rfl) (ok rfl) (ok rfl) (ok rfl) (ok rfl)⟩,
  ⟨_, fun h => (((h (fx {jw with round := 4} id (bc .held)) 1 (gj (fx {jw with round := 4} id (bc .held))) (pg) (ok rfl) (ok rfl) (ok rfl) (ok rfl)).2.1 (ok rfl) (ok rfl)).2.1 (some [1]) (ok rfl)).2.1 3 (ok rfl) (ok rfl) (ok rfl) (ok rfl)⟩,
  ⟨_, fun h => (((h (fx {jw with round := 4, sect := 2, cur := some {pg with total := 67}} id (bc .held)) 1 (gj (fx {jw with round := 4, sect := 2, cur := some {pg with total := 67}} id (bc .held))) {pg with total := 67} (ok rfl) (ok rfl) (ok rfl) (ok rfl)).2.1 (ok rfl) (ok rfl)).2.1 (some [66, 64]) (ok rfl)).2.1 3 (ok rfl) (ok rfl) (ok rfl) (ok rfl)⟩,
  ⟨_, fun h => (((h (fx jw id (bc .held)) 1 (gj (fx jw id (bc .held))) (pg) (ok rfl) (ok rfl) (ok rfl) (ok rfl)).2.1 (ok rfl) (ok rfl)).2.2.2 true (ok rfl) (ok rfl) (ok rfl))⟩,
  ⟨_, fun h => (((h (fx jq id (bc .held)) 1 (gj (fx jq id (bc .held))) (pg) (ok rfl) (ok rfl) (ok rfl) (ok rfl)).2.2.1 (ok rfl) (ok rfl)).1 2 true (ok rfl)).1⟩,
  ⟨_, fun h => (((h (fx jq id (bc .held)) 1 (gj (fx jq id (bc .held))) (pg) (ok rfl) (ok rfl) (ok rfl) (ok rfl)).2.2.1 (ok rfl) (ok rfl)).1 2 true (ok rfl)).2 2⟩,
  ⟨_, fun h => (((h (fx jq) 1 (gj (fx jq)) (pg) (ok rfl) (ok rfl) (ok rfl) (ok rfl)).2.2.1 (ok rfl) (ok rfl)).2.1 (ok rfl) (ok rfl) (ok rfl) (ok rfl))⟩,
  ⟨_, fun h => (((h (fx jl) 1 (gj (fx jl)) (pg) (ok rfl) (ok rfl) (ok rfl) (ok rfl)).2.2.1 (ok rfl) (ok rfl)).2.2.1 1 3 (ok rfl) (ok rfl) (ok rfl) (ok rfl) (ok rfl) (ok rfl))⟩,
  ⟨_, fun h => (((h (fx {jl with retakes := 1}) 1 (gj (fx {jl with retakes := 1})) (pg) (ok rfl) (ok rfl) (ok rfl) (ok rfl)).2.2.1 (ok rfl) (ok rfl)).2.2.1 0 3 (ok rfl) (ok rfl) (ok rfl) (ok rfl) (ok rfl) (ok rfl))⟩,
  ⟨_, fun h => (((h (fx {jl with retakes := 2}) 1 (gj (fx {jl with retakes := 2})) (pg) (ok rfl) (ok rfl) (ok rfl) (ok rfl)).2.2.1 (ok rfl) (ok rfl)).2.2.2.2 2 (ok rfl) (ok rfl) (ok rfl) (ok rfl) (ok rfl) (ok rfl))⟩,
  ⟨_, fun h => ((h (fx {jp with mode := some .plain} id (bc .running)) 1 (gj (fx {jp with mode := some .plain} id (bc .running))) pg (ok rfl) (ok rfl) (ok rfl) (ok rfl)).2.2.2).1 3 (ok rfl) (ok rfl) (ok rfl) (ok rfl) (ok rfl) (ok rfl) (ok rfl) (ok rfl) |>.1 (ok rfl) (ok rfl)⟩,
  ⟨_, fun h => ((h (fx {jn with mode := some .plain} id (tw .running)) 1 (gj (fx {jn with mode := some .plain} id (tw .running))) pg (ok rfl) (ok rfl) (ok rfl) (ok rfl)).2.2.2).1 3 (ok rfl) (ok rfl) (ok rfl) (ok rfl) (ok rfl) (ok rfl) (ok rfl) (ok rfl) |>.2.1 88 [] 5 o5 a5 (ok rfl) (ok rfl) (ok rfl)⟩,
  ⟨_, fun h => ((h (fx {jn with mode := some .plain, retakes := 1} id (bc .running)) 1 (gj (fx {jn with mode := some .plain, retakes := 1} id (bc .running))) pg (ok rfl) (ok rfl) (ok rfl) (ok rfl)).2.2.2).1 3 (ok rfl) (ok rfl) (ok rfl) (ok rfl) (ok rfl) (ok rfl) (ok rfl) (ok rfl) |>.2.2.1 (ok rfl) (ok rfl)⟩,
  ⟨_, fun h => ((h (fx {jn with mode := some .plain, retakes := 2, announced := some (p2 none)} id (bc .running)) 1 (gj (fx {jn with mode := some .plain, retakes := 2, announced := some (p2 none)} id (bc .running))) pg (ok rfl) (ok rfl) (ok rfl) (ok rfl)).2.2.2).1 3 (ok rfl) (ok rfl) (ok rfl) (ok rfl) (ok rfl) (ok rfl) (ok rfl) (ok rfl) |>.2.2.2 (p2 none) (ok rfl) (ok rfl)⟩,
  ⟨_, fun h => ((h (fx {jn with roundOn := false, roundWait := true, sent := some .endOfRound, cur := some {pg with total := 35}, sect := 1} id (tw .held)) 1 (gj (fx {jn with roundOn := false, roundWait := true, sent := some .endOfRound, cur := some {pg with total := 35}, sect := 1} id (tw .held))) {pg with total := 35} (ok rfl) (ok rfl) (ok rfl) (ok rfl)).2.2.2).2.1 3 true 88 [] 5 o5 a5 (ok rfl) (ok rfl) (ok rfl) (ok rfl) (ok rfl) (ok rfl) (ok rfl) ⟨rfl, rfl, rfl, rfl, rfl, ⟨go (fx {jn with roundOn := false, roundWait := true, sent := some .endOfRound, cur := some {pg with total := 35}, sect := 1} id (tw .held)), ok rfl⟩, ok rfl, ok rfl⟩⟩,
  ⟨_, fun h => ((h (fx {jm with mode := some .sectioned, cur := some {pg with chan := none}, opts := {jm.opts with goOn := false}} id (fun c => wc (tw .held c) 3 (fun k => {k with state := .bound, slot := 5}))) 1 (gj (fx {jm with mode := some .sectioned, cur := some {pg with chan := none}, opts := {jm.opts with goOn := false}} id (fun c => wc (tw .held c) 3 (fun k => {k with state := .bound, slot := 5})))) {pg with chan := none} (ok rfl) (ok rfl) (ok rfl) (ok rfl)).2.2.2).2.2 2 .fine true (ok rfl) (ok rfl) |>.1 (ok rfl) (ok rfl) (ok rfl) (ok rfl)⟩,
  ⟨_, fun h => ((h (fx {jm with mode := some .sectioned, cur := some {pg with chan := none, givenUp := 2}, announced := some (p2 (some 3)), opts := {jm.opts with goOn := true}} id (fun c => wc (tw .held c) 3 (fun k => {k with state := .bound, slot := 5}))) 1 (gj (fx {jm with mode := some .sectioned, cur := some {pg with chan := none, givenUp := 2}, announced := some (p2 (some 3)), opts := {jm.opts with goOn := true}} id (fun c => wc (tw .held c) 3 (fun k => {k with state := .bound, slot := 5})))) {pg with chan := none, givenUp := 2} (ok rfl) (ok rfl) (ok rfl) (ok rfl)).2.2.2).2.2 2 .fine false (ok rfl) (ok rfl) |>.2.1 (p2 (some 3)) 3 (ok rfl) (ok rfl) (ok rfl) (ok rfl) (ok rfl) (ok rfl) (ok rfl) (ok rfl) (ok rfl)⟩,
  ⟨_, fun h => ((h (fx {jm with mode := some .plain} id (tw .held)) 1 (gj (fx {jm with mode := some .plain} id (tw .held))) pg (ok rfl) (ok rfl) (ok rfl) (ok rfl)).2.2.2).2.2 2 .fine false (ok rfl) (ok rfl) |>.2.2 (p2 none) 3 5 o5 a5 (ok rfl) (ok rfl) (ok rfl) (ok rfl) ⟨rfl, rfl, rfl, rfl, rfl, ⟨go (fx {jm with mode := some .plain} id (tw .held)), ok rfl⟩, ok rfl, ok rfl⟩ (ok rfl)⟩,
  ⟨_, fun h => ((h (fx {jm with mode := some .plain, cur := some {pg with lastBad := 2}, opts := {jm.opts with goOn := true}} id (tw .held)) 1 (gj (fx {jm with mode := some .plain, cur := some {pg with lastBad := 2}, opts := {jm.opts with goOn := true}} id (tw .held))) {pg with lastBad := 2} (ok rfl) (ok rfl) (ok rfl) (ok rfl)).2.2.2).2.2 2 .fine true (ok rfl) (ok rfl) |>.2.2 (p2 none) 3 5 o5 a5 (ok rfl) (ok rfl) (ok rfl) (ok rfl) ⟨rfl, rfl, rfl, rfl, rfl, ⟨go (fx {jm with mode := some .plain, cur := some {pg with lastBad := 2}, opts := {jm.opts with goOn := true}} id (tw .held)), ok rfl⟩, ok rfl, ok rfl⟩ (ok rfl)⟩,
  ⟨_, fun h => ((h (fx jw id (bc .held)) 1 (gj (fx jw id (bc .held))) pg (ok rfl) (ok rfl) (ok rfl) (ok rfl)).2.1 (ok rfl) (ok rfl)).2.1 (some [0, 2]) (ok rfl) |>.1 3 0 1 [(2, 1)] (ok rfl) (ok rfl) (ok rfl) (ok rfl) (ok rfl) (ok rfl) (ok rfl) (ok rfl)⟩,
  ⟨_, fun h => ((h (fx jw id (bc .held)) 1 (gj (fx jw id (bc .held))) pg (ok rfl) (ok rfl) (ok rfl) (ok rfl)).2.1 (ok rfl) (ok rfl)).2.1 none (ok rfl) |>.1 3 0 3 [] (ok rfl) (ok rfl) (ok rfl) (ok rfl) (ok rfl) (ok rfl) (ok rfl) (ok rfl)⟩,
  ⟨_, fun h => ((h (fx {jw with round := 3, begun := true, sect := 1, marks := vec (fun i => if i = 1 then .taken else .needed), cur := some {pg with total := 64}} id (bc .held)) 1 (gj (fx {jw with round := 3, begun := true, sect := 1, marks := vec (fun i => if i = 1 then .taken else .needed), cur := some {pg with total := 64}} id (bc .held))) {pg with total := 64} (ok rfl) (ok rfl) (ok rfl) (ok rfl)).2.1 (ok rfl) (ok rfl)).2.1 (some [32, 34, 35, 63]) (ok rfl) |>.1 3 32 1 [(34, 2), (63, 1)] (ok rfl) (ok rfl) (ok rfl) (ok rfl) (ok rfl) (ok rfl) (ok rfl) (ok rfl)⟩,
  ⟨_, fun h => ((h (fx {jw with round := 3, begun := true, sect := 1, marks := vec (fun i => if i = 1 then .taken else .needed), cur := some {pg with total := 64}} id (bc .held)) 1 (gj (fx {jw with round := 3, begun := true, sect := 1, marks := vec (fun i => if i = 1 then .taken else .needed), cur := some {pg with total := 64}} id (bc .held))) {pg with total := 64} (ok rfl) (ok rfl) (ok rfl) (ok rfl)).2.1 (ok rfl) (ok rfl)).2.1 none (ok rfl) |>.1 3 32 32 [] (ok rfl) (ok rfl) (ok rfl) (ok rfl) (ok rfl) (ok rfl) (ok rfl) (ok rfl)⟩,
  ⟨_, fun h => ((h (qu false id 3) 1 (gj (qu false id 3)) (pn 3) (ok rfl) (ok rfl) (ok rfl) (ok rfl)).2.1 (ok rfl) (ok rfl)).2.1 (some [1, 2]) (ok rfl) |>.2.2 (ok rfl) (ok rfl) (ok rfl) (ok rfl) (ok rfl) |>.1 (ok rfl)⟩,
  ⟨_, fun h => ((h (qu true every 33) 1 (gj (qu true every 33)) (pn 33) (ok rfl) (ok rfl) (ok rfl) (ok rfl)).2.1 (ok rfl) (ok rfl)).2.1 (some [5, 31]) (ok rfl) |>.2.2 (ok rfl) (ok rfl) (ok rfl) (ok rfl) (ok rfl) |>.2.1 3 (ok rfl) (ok rfl) (ok rfl) (ok rfl) (ok rfl) (ok rfl) (ok rfl)⟩,
  ⟨_, fun h => ((h (qu true every 32) 1 (gj (qu true every 32)) (pn 32) (ok rfl) (ok rfl) (ok rfl) (ok rfl)).2.1 (ok rfl) (ok rfl)).2.1 none (ok rfl) |>.2.2 (ok rfl) (ok rfl) (ok rfl) (ok rfl) (ok rfl) |>.2.2 (ok rfl) (ok rfl) (ok rfl) (ok rfl)⟩,
  ⟨_, fun h => ((h (qu false every 33) 1 (gj (qu false every 33)) (pn 33) (ok rfl) (ok rfl) (ok rfl) (ok rfl)).2.1 (ok rfl) (ok rfl)).2.2.1 false 3 (ok rfl) (ok rfl) (ok rfl) (ok rfl) (ok rfl) (ok rfl)⟩,
  ⟨_, fun h => ((h (qu false every 8192) 1 (gj (qu false every 8192)) (pn 8192) (ok rfl) (ok rfl) (ok rfl) (ok rfl)).2.1 (ok rfl) (ok rfl)).2.2.1 true 3 (ok rfl) (ok rfl) (ok rfl) (ok rfl) (ok rfl) (ok rfl)⟩,
  ⟨_, fun h => ((h (lo 0) 1 (gj (lo 0)) pg (ok rfl) (ok rfl) (ok rfl) (ok rfl)).2.2.1 (ok rfl) (ok rfl)).2.2.2.1 1 3 (ok rfl) (ok rfl) (ok rfl) (ok rfl) (ok rfl) (ok rfl) (ok rfl) (ok rfl) (ok rfl) (ok rfl) (ok rfl)⟩,
  ⟨_, fun h => ((h (lo 1) 1 (gj (lo 1)) pg (ok rfl) (ok rfl) (ok rfl) (ok rfl)).2.2.1 (ok rfl) (ok rfl)).2.2.2.1 3 3 (ok rfl) (ok rfl) (ok rfl) (ok rfl) (ok rfl) (ok rfl) (ok rfl) (ok rfl) (ok rfl) (ok rfl) (ok rfl)⟩], rfl⟩

/-- After the command, the path of line 1 holds these strips, and its channel has had so many slips more. -/
def holdsAfter (o : Host.Outcome State Fault Refusal) (strips : List (Nat × List Byte)) (more : Nat) : Bool :=
  match o with
  | .next t => decide ((gj t).strips = strips) && decide (t.chip.chans[3].slips = nz.chans[3].slips + more)
  | _ => false

/-- R137, step 1: only a strip already stored good makes a repeat a duplicate; one that is held does not. -/
theorem test_repeat_of_held_strip : holdsAfter (exec (.stripJudged 1 (.good 2 3 [7]))
    (fx {jv with strips := [(2,[1])], passing := true} id (bc .running 3 .fromPath))) [(2,[1]), (2,[7])] 0 = true := by decide

/-- R137: a good strip that finds two already held is an overrun, also a repeat of one of them. -/
theorem test_repeat_finds_two_held : holdsAfter (exec (.stripJudged 1 (.good 2 3 [7]))
    (fx {jv with strips := [(1,[1]), (2,[2])], passing := true} id (bc .running 3 .fromPath))) [(1,[1]), (2,[2])] 1 = true := by decide

/-- R137, step 1, as the held repeat's turn comes: the strip is stored by now. -/
theorem test_held_repeat_of_stored_strip : holdsAfter (exec (.stripStored 1)
    (fx {jv with strips := [(2,[1]), (2,[7])], passing := true} id (fun c => {bc .running 3 .fromPath c with epaths := vec (fun _ => {})})))
    [] 0 = true := by decide

/-- A receiver that keeps its answers to MORE for pages 1 and 2 and to LAST. -/
def an (f : FaxPhase) : State := fx {jv with phase := f, index := 2, lastDone := true, answers := [(some 2, .caps 2 true true none), (none, .last), (some 1, .bye), (some 1, .last)]}
/-- A receiver that has answered RETAKE and heard no strip since. -/
def bp : FaxPage := {pv with between := true}
def bw (page : Bool) : State := fx {jv with phase := if page then .page else .postpage, mode := some .plain, index := 2, lastDone := false, cur := some bp, answers := [(some 2, .retake 1 2), (some 1, .last)]}
/-- In PLAIN, after one RETAKE, a whole page is there; so it is with no slot FREE. -/
def rP : State := fx {jv with mode := some .plain, retakes := 1, cur := some pw, strips := [(7, [1])]} id ob
def rF : State := fx {jv with mode := some .plain, retakes := 1, cur := some pw, strips := [(7, [1])]} id
  (fun c => ob {c with store := {c.store with slots := Vector.replicate 128 {gen := 9, obj := some oo}}})
def bs (r : Nat) : State := fx {jv with mode := some .plain, retakes := r}

/-- The fax job of line 1 after the command. -/
def jobAfter (o : Host.Outcome State Fault Refusal) : Option FaxJob := match o with | .next t => t.chip.fax[1] | _ => none

/-- R125: the answer to a round is none of those that a repeated MORE or LAST gets again. -/
theorem test_round_keeps_answers : (jobAfter (exec (.endOfRound 1) (an .page))).map (·.answers) = (an .page).chip.fax[1].map (·.answers) := by decide

/-- R139: a page that cannot be begun after a retaken one is in no new pass. -/
theorem test_refused_page_has_no_retake : (jobAfter (exec (.more 1 2 .fine) rF)).map (·.retakes) = some 0 := by decide

theorem met_FaxReceiving : Meets Obligations.FaxReceiving 31 := ⟨[
  ⟨_, fun h => ((h (fx jv) 1 (gj (fx jv)) (ok rfl) (ok rfl) (ok rfl)).1 pv (ok rfl) (ok rfl) (ok rfl) (ok rfl)).1⟩,
  ⟨_, fun h => (((h (fx jv id (bc .bound 3 .fromPath)) 1 (gj (fx jv id (bc .bound 3 .fromPath))) (ok rfl) (ok rfl) (ok rfl)).1 pv (ok rfl) (ok rfl) (ok rfl) (ok rfl)).2.1 2 3 [1,2,3] 3 (ok rfl) (ok rfl) (ok rfl) (ok rfl)).1 (ok rfl) (ok rfl) (ok rfl) (ok rfl) (ok rfl) (ok rfl) (ok rfl)⟩,
  ⟨_, fun h => (((h (fx {jv with marks := vec (fun _ => .needed)} id (bc .bound 3 .fromPath)) 1 (gj (fx {jv with marks := vec (fun _ => .needed)} id (bc .bound 3 .fromPath))) (ok rfl) (ok rfl) (ok rfl)).1 pv (ok rfl) (ok rfl) (ok rfl) (ok rfl)).2.1 2 30 [1,2,3] 3 (ok rfl) (ok rfl) (ok rfl) (ok rfl)).1 (ok rfl) (ok rfl) (ok rfl) (ok rfl) (ok rfl) (ok rfl) (ok rfl)⟩,
  ⟨_, fun h => (((h (fx {jv with strips := [(1,[1]),(5,[2])]} id (bc .running 3 .fromPath)) 1 (gj (fx {jv with strips := [(1,[1]),(5,[2])]} id (bc .running 3 .fromPath))) (ok rfl) (ok rfl) (ok rfl)).1 pv (ok rfl) (ok rfl) (ok rfl) (ok rfl)).2.1 2 3 [1,2,3] 3 (ok rfl) (ok rfl) (ok rfl) (ok rfl)).2.2.1 (ok rfl) (ok rfl) (ok rfl) (ok rfl) (ok rfl) (ok rfl)⟩,
  ⟨_, fun h => (((h (fx {jv with strips := [(1,[1]),(2,[2])]} id (bc .running 3 .fromPath)) 1 (gj (fx {jv with strips := [(1,[1]),(2,[2])]} id (bc .running 3 .fromPath))) (ok rfl) (ok rfl) (ok rfl)).1 pv (ok rfl) (ok rfl) (ok rfl) (ok rfl)).2.1 2 3 [1,2,3] 3 (ok rfl) (ok rfl) (ok rfl) (ok rfl)).2.2.1 (ok rfl) (ok rfl) (ok rfl) (ok rfl) (ok rfl) (ok rfl)⟩,
  ⟨_, fun h => (((h (fx {jv with strips := [(2,[1])], passing := true} id (bc .running 3 .fromPath)) 1 (gj (fx {jv with strips := [(2,[1])], passing := true} id (bc .running 3 .fromPath))) (ok rfl) (ok rfl) (ok rfl)).1 pv (ok rfl) (ok rfl) (ok rfl) (ok rfl)).2.1 2 3 [1,2,3] 3 (ok rfl) (ok rfl) (ok rfl) (ok rfl)).2.2.2 (2,[1]) (ok rfl) (ok rfl) (ok rfl) (ok rfl)⟩,
  ⟨_, fun h => (((h (fx {jv with strips := [(1,[1])], passing := true} id (bc .running 3 .fromPath)) 1 (gj (fx {jv with strips := [(1,[1])], passing := true} id (bc .running 3 .fromPath))) (ok rfl) (ok rfl) (ok rfl)).1 pv (ok rfl) (ok rfl) (ok rfl) (ok rfl)).2.1 2 3 [1,2,3] 3 (ok rfl) (ok rfl) (ok rfl) (ok rfl)).2.2.2 (1,[1]) (ok rfl) (ok rfl) (ok rfl) (ok rfl)⟩,
  ⟨_, fun h => ((h (fx jv) 1 (gj (fx jv)) (ok rfl) (ok rfl) (ok rfl)).1 pv (ok rfl) (ok rfl) (ok rfl) (ok rfl)).2.2.2.2 0 3 [1,2,3] (ok rfl) (ok rfl) (ok rfl)⟩,
  ⟨_, fun h => ((h (fx {jv with sect := 255, marks := vec (fun _ => .needed), cur := some {pv with stored := [8191], total := 8192}}) 1 (gj (fx {jv with sect := 255, marks := vec (fun _ => .needed), cur := some {pv with stored := [8191], total := 8192}})) (ok rfl) (ok rfl) (ok rfl)).1 {pv with stored := [8191], total := 8192} (ok rfl) (ok rfl) (ok rfl) (ok rfl)).2.2.2.2 31 8192 [1,2,3] (ok rfl) (ok rfl) (ok rfl)⟩,
  ⟨_, fun h => ((h (fx {jv with marks := vec (fun i => if i < 3 then .taken else .unused)}) 1 (gj (fx {jv with marks := vec (fun i => if i < 3 then .taken else .unused)})) (ok rfl) (ok rfl) (ok rfl)).1 pv (ok rfl) (ok rfl) (ok rfl) (ok rfl)).2.2.1 (ok rfl)⟩,
  ⟨_, fun h => ((h (fx jv) 1 (gj (fx jv)) (ok rfl) (ok rfl) (ok rfl)).1 pv (ok rfl) (ok rfl) (ok rfl) (ok rfl)).2.2.2.1 ⟨2, (ok rfl)⟩⟩,
  ⟨_, fun h => ((h (fx {jv with cur := some {pv with told := true}}) 1 (gj (fx {jv with cur := some {pv with told := true}})) (ok rfl) (ok rfl) (ok rfl)).1 {pv with told := true} (ok rfl) (ok rfl) (ok rfl) (ok rfl)).2.2.2.1 ⟨2, (ok rfl)⟩⟩,
  ⟨_, fun h => ((h (fx {jv with strips := [(2,[1])], passing := true} id (fun c => {bc .running 3 .fromPath c with epaths := vec (fun _ => {})})) 1 (gj (fx {jv with strips := [(2,[1])], passing := true} id (fun c => {bc .running 3 .fromPath c with epaths := vec (fun _ => {})}))) (ok rfl) (ok rfl) (ok rfl)).2.1 pv 2 [1] [] (ok rfl) (ok rfl) (ok rfl) (ok rfl) (ok rfl))⟩,
  ⟨_, fun h => ((h (fx {jv with strips := [(2,[1]),(2,[4])], passing := true} id (fun c => {bc .running 3 .fromPath c with epaths := vec (fun _ => {})})) 1 (gj (fx {jv with strips := [(2,[1]),(2,[4])], passing := true} id (fun c => {bc .running 3 .fromPath c with epaths := vec (fun _ => {})}))) (ok rfl) (ok rfl) (ok rfl)).2.1 pv 2 [1] [(2,[4])] (ok rfl) (ok rfl) (ok rfl) (ok rfl) (ok rfl))⟩,
  ⟨_, fun h => ((h (fx {jv with cur := none}) 1 (gj (fx {jv with cur := none})) (ok rfl) (ok rfl) (ok rfl)).2.2.1 (ok rfl) (ok rfl) (ok rfl) (ok rfl))⟩,
  ⟨_, fun h => ((h (fx {jv with cur := none, storeFull := true}) 1 (gj (fx {jv with cur := none, storeFull := true})) (ok rfl) (ok rfl) (ok rfl)).2.2.2.1 (ok rfl) (ok rfl) (ok rfl) (ok rfl) 2 .fine (ok rfl))⟩,
  ⟨_, fun h => ((h (fx {jv with storeFull := true} id (bc .bound 3 .fromPath)) 1 (gj (fx {jv with storeFull := true} id (bc .bound 3 .fromPath))) (ok rfl) (ok rfl) (ok rfl)).2.2.2.1 (ok rfl) (ok rfl) (ok rfl) (ok rfl) 2 .fine (ok rfl))⟩,
  ⟨_, fun h => ((h (an .page) 1 (gj (an .page)) (ok rfl) (ok rfl) (ok rfl)).2.2.2.2.1 (ok rfl)).1 1 .fine .bye [(some 2, .caps 2 true true none), (none, .last)] [(some 1, .last)] (ok rfl) (ok rfl) (ok rfl)⟩,
  ⟨_, fun h => ((h (an .postpage) 1 (gj (an .postpage)) (ok rfl) (ok rfl) (ok rfl)).2.2.2.2.1 (ok rfl)).2.1 .last [(some 2, .caps 2 true true none)] [(some 1, .bye), (some 1, .last)] (ok rfl) (ok rfl) (ok rfl)⟩,
  ⟨_, fun h => ((h (bw true) 1 (gj (bw true)) (ok rfl) (ok rfl) (ok rfl)).2.2.2.2.1 (ok rfl)).2.2 bp (some 2) (.retake 1 2) [(some 1, .last)] (ok rfl) (ok rfl) (ok rfl) |>.1 3 .fine (ok rfl)⟩,
  ⟨_, fun h => ((h (bw false) 1 (gj (bw false)) (ok rfl) (ok rfl) (ok rfl)).2.2.2.2.1 (ok rfl)).2.2 bp (some 2) (.retake 1 2) [(some 1, .last)] (ok rfl) (ok rfl) (ok rfl) |>.2 (ok rfl)⟩,
  ⟨_, fun h => ((h (fx {jv with mode := some .plain, cur := some pt, opts := {limit := 1}, retakes := 0} id (bc .bound 3 .fromPath)) 1 (gj (fx {jv with mode := some .plain, cur := some pt, opts := {limit := 1}, retakes := 0} id (bc .bound 3 .fromPath))) (ok rfl) (ok rfl) (ok rfl)).2.2.2.2.2.1 pt (ok rfl) (ok rfl) (ok rfl) (ok rfl) (ok rfl) (ok rfl) (ok rfl) (ok rfl) (ok rfl) 2 .fine (ok rfl))⟩,
  ⟨_, fun h => ((h rS 1 (gj rS) (ok rfl) (ok rfl) (ok rfl)).2.2.2.2.2.2.1 pw oo at_ 3 3 .sectioned (ok rfl) (ok rfl) (ok rfl) (ok rfl) (ok rfl) (ok rfl) (ok rfl) (ok rfl) (ok rfl) (ok rfl)).1 (ok rfl)⟩,
  ⟨_, fun h => ((h rS 1 (gj rS) (ok rfl) (ok rfl) (ok rfl)).2.2.2.2.2.2.1 pw oo at_ 3 3 .sectioned (ok rfl) (ok rfl) (ok rfl) (ok rfl) (ok rfl) (ok rfl) (ok rfl) (ok rfl) (ok rfl) (ok rfl)).2.1 2 .fine 0 (ok rfl) (ok rfl) (ok rfl) (ok rfl) (ok rfl)⟩,
  ⟨_, fun h => ((h (fx {jv with strips := [(1,[1]),(5,[2])]} id (bc .ended 3 .fromPath)) 1 (gj (fx {jv with strips := [(1,[1]),(5,[2])]} id (bc .ended 3 .fromPath))) (ok rfl) (ok rfl) (ok rfl)).1 pv (ok rfl) (ok rfl) (ok rfl) (ok rfl)).2.1 2 3 [1,2,3] 3 (ok rfl) (ok rfl) (ok rfl) (ok rfl) |>.2.1 (ok rfl)⟩,
  ⟨_, fun h => ((h (fx {jv with sect := 255, marks := vec (fun _ => .needed), cur := some {pv with stored := [8191], total := 8192}} id (bc .ended 3 .fromPath)) 1 (gj (fx {jv with sect := 255, marks := vec (fun _ => .needed), cur := some {pv with stored := [8191], total := 8192}} id (bc .ended 3 .fromPath))) (ok rfl) (ok rfl) (ok rfl)).1 {pv with stored := [8191], total := 8192} (ok rfl) (ok rfl) (ok rfl) (ok rfl)).2.1 30 8192 [1,2,3] 3 (ok rfl) (ok rfl) (ok rfl) (ok rfl) |>.2.1 (ok rfl)⟩,
  ⟨_, fun h => ((h rP 1 (gj rP) (ok rfl) (ok rfl) (ok rfl)).2.2.2.2.2.2.1 pw oo at_ 3 3 .plain (ok rfl) (ok rfl) (ok rfl) (ok rfl) (ok rfl) (ok rfl) (ok rfl) (ok rfl) (ok rfl) (ok rfl)).1 (ok rfl)⟩,
  ⟨_, fun h => ((h rP 1 (gj rP) (ok rfl) (ok rfl) (ok rfl)).2.2.2.2.2.2.1 pw oo at_ 3 3 .plain (ok rfl) (ok rfl) (ok rfl) (ok rfl) (ok rfl) (ok rfl) (ok rfl) (ok rfl) (ok rfl) (ok rfl)).2.1 2 .fine 0 (ok rfl) (ok rfl) (ok rfl) (ok rfl) (ok rfl)⟩,
  ⟨_, fun h => ((h rF 1 (gj rF) (ok rfl) (ok rfl) (ok rfl)).2.2.2.2.2.2.1 pw oo at_ 3 3 .plain (ok rfl) (ok rfl) (ok rfl) (ok rfl) (ok rfl) (ok rfl) (ok rfl) (ok rfl) (ok rfl) (ok rfl)).2.2 2 .fine (ok rfl) (ok rfl) (by decide)⟩,
  ⟨_, fun h => (h (bs 0) 1 (gj (bs 0)) (ok rfl) (ok rfl) (ok rfl)).2.2.2.2.2.2.2 pv (ok rfl) (ok rfl) (ok rfl) (ok rfl)⟩,
  ⟨_, fun h => (h (bs 1) 1 (gj (bs 1)) (ok rfl) (ok rfl) (ok rfl)).2.2.2.2.2.2.2 pv (ok rfl) (ok rfl) (ok rfl) (ok rfl)⟩], rfl⟩

/-- Line Reset of a fax call between pages. -/
def lz (f : Call → Call) : State := mk (wk (fx (jb (fun j => {j with outcomes := [{kind := .sent, handle := 105, number := 1, total := 3}]}))).chip 1 f) [reqOf 1 0x23 [], other]

theorem met_FaxWaitsAndEnds : Meets Obligations.FaxWaitsAndEnds 19 := ⟨[
  ⟨_, fun h => (h.2 (fx {js with wait := none}) 1 (gj (fx {js with wait := none})) (ok rfl)).1 (ok rfl)⟩,
  ⟨_, fun h => ((h.2 (fx {js with wait := some .last}) 1 (gj (fx {js with wait := some .last})) (ok rfl)).2.1 .last (ok rfl) (ok rfl) (ok rfl)).1 (ok rfl)⟩,
  ⟨_, fun h => ((h.2 (fx {jr with abortPending := true, cur := none, sends := 2}) 1 (gj (fx {jr with abortPending := true, cur := none, sends := 2})) (ok rfl)).2.1 (.caps 3 true false none) (ok rfl) (ok rfl) (ok rfl)).2 3 true false none (ok rfl) (ok rfl) (ok rfl) (ok rfl)⟩,
  ⟨_, fun h => (h.2 (fx jw) 1 (gj (fx jw)) (ok rfl)).2.2.1 (ok rfl) (ok rfl) (ok rfl) (ok rfl)⟩,
  ⟨_, fun h => ((h.2 (fx (jb id)) 1 (gj (fx (jb id))) (ok rfl)).2.2.2.1 0 lg (ok rfl)).1 {cls := .normal, reason := .none, cause := .none} (ok rfl) (ok rfl)⟩,
  ⟨_, fun h => ((h.2 (fx (jb (fun j => {j with wait := some .last}))) 1 (gj (fx (jb (fun j => {j with wait := some .last})))) (ok rfl)).2.2.2.1 0 lg (ok rfl)).2.1 (ok rfl) (ok rfl)⟩,
  ⟨_, fun h => ((h.2 (fx (jb (fun j => {j with wait := none, role := .receive, phase := .postpage}))) 1 (gj (fx (jb (fun j => {j with wait := none, role := .receive, phase := .postpage})))) (ok rfl)).2.2.2.1 0 lg (ok rfl)).2.1 (ok rfl) (ok rfl)⟩,
  ⟨_, fun h => ((h.2 (fx (jb (fun j => {j with wait := none, role := .receive, phase := .page, lastDone := true}))) 1 (gj (fx (jb (fun j => {j with wait := none, role := .receive, phase := .page, lastDone := true})))) (ok rfl)).2.2.2.1 0 lg (ok rfl)).2.2.1 (ok rfl) (ok rfl) (ok rfl)⟩,
  ⟨_, fun h => ((h.2 (fx (jb (fun j => {j with wait := some .last, sends := 3}))) 1 (gj (fx (jb (fun j => {j with wait := some .last, sends := 3})))) (ok rfl)).2.2.2.1 0 lg (ok rfl)).2.2.2.1 .last (ok rfl) (ok rfl) (ok rfl)⟩,
  ⟨_, fun h => ((h.2 (fx (jb (fun j => {j with sends := 3}))) 1 (gj (fx (jb (fun j => {j with sends := 3})))) (ok rfl)).2.2.2.1 0 lg (ok rfl)).2.2.2.2.1 {cls := .normal, reason := .none, cause := .none} (ok rfl) (ok rfl) (ok rfl)⟩,
  ⟨_, fun h => ((h.2 (fx (jb (fun j => {j with phase := .preamble}))) 1 (gj (fx (jb (fun j => {j with phase := .preamble})))) (ok rfl)).2.2.2.1 0 lg (ok rfl)).2.2.2.2.2.1 (ok rfl) (ok rfl)⟩,
  ⟨_, fun h => ((h.2 (fx (jb (fun j => {j with role := .receive, phase := .training}))) 1 (gj (fx (jb (fun j => {j with role := .receive, phase := .training})))) (ok rfl)).2.2.2.1 0 lg (ok rfl)).2.2.2.2.2.2.1 (ok rfl) (ok rfl) (ok rfl)⟩,
  ⟨_, fun h => ((h.2 (fx (jb (fun j => {j with phase := .page, roundWait := true, sends := 3}))) 1 (gj (fx (jb (fun j => {j with phase := .page, roundWait := true, sends := 3})))) (ok rfl)).2.2.2.1 0 lg (ok rfl)).2.2.2.2.2.2.2 (ok rfl) (ok rfl) (ok rfl) (ok rfl)⟩,
  ⟨_, fun h => ((h.2 (fx {jw with sends := 3, sect := 1, cur := some {pg with total := 67, givenUp := 1}} id (fun c => bc .held 3 .toPath (uf c))) 1 (gj (fx {jw with sends := 3, sect := 1, cur := some {pg with total := 67, givenUp := 1}} id (fun c => bc .held 3 .toPath (uf c)))) (ok rfl)).2.2.2.2.2 0 lg {pg with total := 67, givenUp := 1} (go (fx {jw with sends := 3, sect := 1, cur := some {pg with total := 67, givenUp := 1}} id (fun c => bc .held 3 .toPath (uf c)))) 3 (ok rfl)).1 (ok rfl) (ok rfl)⟩,
  ⟨_, fun h => ((h.2 (fx jp id (fun c => bc .running 3 .toPath (uf c))) 1 (gj (fx jp id (fun c => bc .running 3 .toPath (uf c)))) (ok rfl)).2.2.2.2.2 0 lg (pg) (go (fx jp id (fun c => bc .running 3 .toPath (uf c)))) 3 (ok rfl)).2 (ok rfl)⟩,
  ⟨_, fun h => h.1 jr⟩,
  ⟨_, fun h => h.1 {jr with mode := some .plain, rate := some 2, fullDetail := .storeFull, outcomes := (List.range 17).map (fun n => {kind := .received, handle := 4000 + n, number := n + 1, total := 300})}⟩,
  ⟨_, fun h => (h.2 (lz id) 1 (gj (lz id)) (ok rfl)).2.2.2.2.1 0 lg (reqOf 1 0x23 []) [other] .lineReset (ok rfl) (ok rfl) (ok rfl) (ok rfl) (Or.inl (ok rfl))⟩,
  ⟨_, fun h => (h.2 (lz (fun k => {k with state := .releasing, phase := .releasing, prevPhase := .fax, cause := some .hungUp, forced := false})) 1 (gj (lz (fun k => {k with state := .releasing, phase := .releasing, prevPhase := .fax, cause := some .hungUp, forced := false}))) (ok rfl)).2.2.2.2.1 0 lg (reqOf 1 0x23 []) [other] .hungUp (ok rfl) (ok rfl) (ok rfl) (ok rfl) (Or.inr (ok rfl))⟩], rfl⟩

end Fax

/-! 08_voice_mail.md and 09_indicator_outputs.md -/
namespace Mailbox

def S (c : Chip) : State := mk c []
def Q (code : Nat) (body : List Byte) (f : Chip → Chip := id) : State := mk (f nz) [reqOf 15 code body, other]
def RQ (s : State) : Request := s.chip.link.inq.headD other
def sm (m en : Byte) (code : List Nat) (r : List Byte) : State := Q 0x50 ([m, en, b1 code.length] ++ code.map (fun x => BitVec.ofNat 8 (48+x)) ++ r)
def smb (m en : Byte) (code r : List Byte) : State := Q 0x50 ([m, en, b1 code.length] ++ code ++ r)
/-- Mailbox 3's list names no message. -/
def ul (c : Chip) : Chip := { c with mailboxes := c.mailboxes.set 3 { c.mailboxes[3] with list := [] } }
def st (a b v : Byte) (f : Chip → Chip := id) := Q 0x52 [a,b,v] f
def o1 (s : State) (i : SlotNo) : Obj := s.chip.store.slots[i].obj.getD { owner := .unowned, created := 0, attr := .clip }
def gr (m a b : Byte) := Q 0x53 [m,a,b]
def vq (f : PlanSeq → PlanSeq) (fc : Chip → Chip := id) : State :=
  let c := wk nz 1 (fun k => { k with state := .connected, phase := .playing, purpose := some .voice, job := .plan, control := .plan, long := none })
  let c := wl c 1 (fun n => { n with hook := .offHook })
  S (fc (wq c 1 f))
def tn (f : Mailbox → Mailbox) (g : Chip → Chip := id) := vq (fun q => {q with state := .tone, tone := .record}) (fun c => g {c with mailboxes := c.mailboxes.set 4 (f c.mailboxes[4])})
def z (s : State) : Chip := { s.chip with seqs := s.chip.seqs.set 1 {} }
def sc := vq (fun q => {q with state := .closing, tone := .closing})
def sa := vq (fun q => {q with state := .access, tone := .error, wrong := 3})
def rc (f : Recording → Recording := id) : Recording := f { handle := 20, slot := 1, chan := 5, maxLen := 9, silenceEnd := 2, det := {from_ := 7, silence := some (40, 38), empty := some 11}}
def dt (r : Recording) (b : Bool := true) : State := vq (fun q => {q with state := .recording, recording := if b then some r else none}) (fun c => wk (wc c 5 (fun k => {k with state := .running, path := .codec 1, dir := .fromPath, cur := 60, remaining := 50})) 1 (fun k => {k with record := some r}))
def r3 := rc (fun r => {r with det := {from_ := 7, silence := some (40, 39), empty := none}})
def gi := Q 0x59 []
def si (a b c d e f : Byte) (g : Chip → Chip := id) := Q 0x58 [a,b,c,d,e,f] g

theorem met_MailboxRequests : Meets Obligations.MailboxRequests 15 := ⟨[
  ⟨_, fun h => ((h (smb 16 1 [0x31] [0,16,0,10,2]) (RQ (smb 16 1 [0x31] [0,16,0,10,2])) [other]).1 16 1 0 16 0 10 2 [0x31] (ok rfl) (ok rfl) (ok rfl))⟩,
  ⟨_, fun h => ((h (smb 3 1 [0x31,0x3A] [0,16,0,10,2]) (RQ (smb 3 1 [0x31,0x3A] [0,16,0,10,2])) [other]).1 3 1 0 16 0 10 2 [0x31,0x3A] (ok rfl) (ok rfl) (ok rfl))⟩,
  ⟨_, fun h => ((h (sm 3 1 [1,2,3,9] [0,16,0,10,2]) (RQ (sm 3 1 [1,2,3,9] [0,16,0,10,2])) [other]).2.1 3 1 0 16 0 10 2 [1,2,3,9] (ok rfl) (ok rfl)).1 (ok rfl)⟩,
  ⟨_, fun h => ((h (sm 15 0 [] [32,0,1,44,10]) (RQ (sm 15 0 [] [32,0,1,44,10])) [other]).2.1 15 0 32 0 1 44 10 [] (ok rfl) (ok rfl)).1 (ok rfl)⟩,
  ⟨_, fun h => ((h (sm 7 0 [] [32,1,1,44,10]) (RQ (sm 7 0 [] [32,1,1,44,10])) [other]).2.1 7 0 32 1 1 44 10 [] (ok rfl) (ok rfl)).2 (ok rfl)⟩,
  ⟨_, fun h => ((h (st 0 21 1) (RQ (st 0 21 1)) [other]).2.2.1 0 21 1 (ok rfl)).1 (ok rfl)⟩,
  ⟨_, fun h => ((h (st 0 105 1) (RQ (st 0 105 1)) [other]).2.2.1 0 105 1 (ok rfl)).2.1 6 (o1 (st 0 105 1) 6) (ok rfl) (ok rfl)⟩,
  ⟨_, fun h => ((h (st 0 20 2) (RQ (st 0 20 2)) [other]).2.2.1 0 20 2 (ok rfl)).2.2 1 (o1 (st 0 20 2) 1) 3 (.digits [1,2]) 2 .new .kept (ok rfl) (ok rfl) (ok rfl) (ok rfl) (ok rfl)⟩,
  ⟨_, fun h => ((h (st 0 20 1) (RQ (st 0 20 1)) [other]).2.2.1 0 20 1 (ok rfl)).2.2 1 (o1 (st 0 20 1) 1) 3 (.digits [1,2]) 2 .new .heard (ok rfl) (ok rfl) (ok rfl) (ok rfl) (ok rfl)⟩,
  ⟨_, fun h => ((h (st 0 20 1 ul) (RQ (st 0 20 1 ul)) [other]).2.2.1 0 20 1 (ok rfl)).2.2 1 (o1 (st 0 20 1 ul) 1) 3 (.digits [1,2]) 2 .new .heard (ok rfl) (ok rfl) (ok rfl) (ok rfl) (ok rfl)⟩,
  ⟨_, fun h => ((h (gr 16 255 255) (RQ (gr 16 255 255)) [other]).2.2.2 16 255 255 (ok rfl)).1 (ok rfl) (ok rfl)⟩,
  ⟨_, fun h => ((h (gr 15 255 255) (RQ (gr 15 255 255)) [other]).2.2.2 15 255 255 (ok rfl)).2.1 15 (ok rfl) (ok rfl)⟩,
  ⟨_, fun h => ((h (gr 15 25 255) (RQ (gr 15 25 255)) [other]).2.2.2 15 25 255 (ok rfl)).2.2.1 (ok rfl) (ok rfl)⟩,
  ⟨_, fun h => ((h (gr 15 0 105) (RQ (gr 15 0 105)) [other]).2.2.2 15 0 105 (ok rfl)).2.2.2 6 (o1 (gr 15 0 105) 6) (ok rfl) (ok rfl) |>.1 (ok rfl)⟩,
  ⟨_, fun h => ((h (gr 14 0 37) (RQ (gr 14 0 37)) [other]).2.2.2 14 0 37 (ok rfl)).2.2.2 2 (o1 (gr 14 0 37) 2) (ok rfl) (ok rfl) |>.2 14 (ok rfl) (ok rfl) (ok rfl)⟩], rfl⟩

theorem met_VoiceTones : Meets Obligations.VoiceTones 18 := ⟨[
  ⟨_, fun h => ((h (vq (fun q => {q with state := .greeting, tone := .greeting})) 1).1 (ok rfl) (ok rfl) (ok rfl))⟩,
  ⟨_, fun h => ((h (vq (fun q => {q with state := .greeting, tone := .greeting, greetingOnly := true}) (fun c => wk c 1 (fun k => {k with window := .greeting}))) 1).1 (ok rfl) (ok rfl) (ok rfl))⟩,
  ⟨_, fun h => ((h (tn (fun b => {b with enabled := false})) 1).2.1 (ok rfl) (ok rfl)).1 (ok rfl)⟩,
  ⟨_, fun h => ((h (tn id (fun c => {c with store := {c.store with low := true}})) 1).2.1 (ok rfl) (ok rfl)).1 (ok rfl)⟩,
  ⟨_, fun h => ((h (tn (fun b => {b with used := 103, recordings := 31})) 1).2.1 (ok rfl) (ok rfl)).2 0 0 (ok rfl) (ok rfl) (ok rfl) (ok rfl) (ok rfl) (ok rfl) (ok rfl) (ok rfl) (ok rfl)⟩,
  ⟨_, fun h => ((h (tn (fun b => {b with maxLen := 300}) (fun c => wc c 0 (fun k => {k with state := .bound, path := .codec 1, dir := .toPath}))) 1).2.1 (ok rfl) (ok rfl)).2 0 1 (ok rfl) (ok rfl) (ok rfl) (ok rfl) (ok rfl) (ok rfl) (ok rfl) (ok rfl) (ok rfl)⟩,
  ⟨_, fun h => ((h sc 1).2.2.1 (z sc) (ok rfl) (ok rfl) (ok rfl)).1 (ok rfl) (ok rfl)⟩,
  ⟨_, fun h => ((h sa 1).2.2.1 (z sa) (ok rfl) (ok rfl) (ok rfl)).2 (ok rfl) (ok rfl) (ok rfl)⟩,
  ⟨_, fun h => (h (vq (fun q => {q with state := .access, tone := .error, wrong := 2})) 1).2.2.2.1 (ok rfl) (ok rfl)⟩,
  ⟨_, fun h => (h (vq (fun q => {q with state := .review, tone := .entry, wrong := 2})) 1).2.2.2.2.1 (ok rfl)⟩,
  ⟨_, fun h => (h (vq (fun q => {q with state := .greeting, tone := .greeting, prefixTimer := {run := true, ms := 0}})) 1).2.2.2.2.2.1 (ok rfl) (ok rfl)⟩,
  ⟨_, fun h => (h (vq (fun q => {q with state := .access, tone := .entry, wrong := 2, digitTimer := {run := true, ms := 9}})) 1).2.2.2.2.2.2.1 (ok rfl) (ok rfl) (ok rfl)⟩,
  ⟨_, fun h => (h (vq (fun q => {q with state := .review, tone := .none, wrong := 2, idleTimer := {run := true, ms := 9}})) 1).2.2.2.2.2.2.2.1 (ok rfl) (ok rfl) (ok rfl) (ok rfl)⟩,
  ⟨_, fun h => (h (vq (fun q => {q with state := .access, tone := .error, wrong := 1, digitTimer := {run := true, ms := 9}})) 1).2.2.2.2.2.2.1 (ok rfl) (ok rfl) (ok rfl)⟩,
  ⟨_, fun h => (h (vq (fun q => {q with state := .greeting})) 1).2.2.2.2.2.2.2.2.1 (ok rfl)⟩,
  ⟨_, fun h => (h (vq (fun q => {q with state := .access})) 1).2.2.2.2.2.2.2.2.2.1 (ok rfl)⟩,
  ⟨_, fun h => (h (vq (fun q => {q with state := .review, tone := .prompt, idleTimer := {run := true, ms := 9}})) 1).2.2.2.2.2.2.2.2.2.2 (ok rfl)⟩,
  ⟨_, fun h => (h (vq (fun q => {q with state := .review, tone := .none})) 1).2.2.2.2.2.2.2.2.2.2 (ok rfl)⟩], rfl⟩

theorem met_DetectorInterval : Meets Obligations.DetectorInterval 7 := ⟨[
  ⟨_, fun h => ((h (dt rc) 1 rc (-36) false (ok rfl) (ok rfl)).1 (ok rfl)).1 (ok rfl) (ok rfl)⟩,
  ⟨_, fun h => ((h (dt rc) 1 rc (-35) true (ok rfl) (ok rfl)).1 (ok rfl)).2.1 (ok rfl) (ok rfl)⟩,
  ⟨_, fun h => ((h (dt rc) 1 rc (-35) false (ok rfl) (ok rfl)).1 (ok rfl)).2.2.1 (ok rfl) (ok rfl)⟩,
  ⟨_, fun h => ((h (dt r3) 1 r3 (-36) true (ok rfl) (ok rfl)).1 (ok rfl)).2.2.2 (ok rfl) (ok rfl) (ok rfl) (ok rfl) (ok rfl) (ok rfl)⟩,
  ⟨_, fun h => ((h (dt rc false) 1 rc (-36) false (ok rfl) (ok rfl)).2 (ok rfl) (ok rfl)).1 (ok rfl) (ok rfl)⟩,
  ⟨_, fun h => ((h (dt rc false) 1 rc (-35) true (ok rfl) (ok rfl)).2 (ok rfl) (ok rfl)).2.1 (ok rfl) (ok rfl)⟩,
  ⟨_, fun h => ((h (dt rc false) 1 rc (-35) false (ok rfl) (ok rfl)).2 (ok rfl) (ok rfl)).2.2 (ok rfl) (ok rfl)⟩], rfl⟩

theorem met_Indicators : Meets Obligations.Indicators 4 := ⟨[
  ⟨_, fun h => (h gi (RQ gi) [other]).1 (ok rfl)⟩,
  ⟨_, fun h => ((h (si 2 31 255 1 3 0) (RQ (si 2 31 255 1 3 0)) [other]).2.1 2 31 255 1 3 0 (ok rfl)).1 (ok rfl) (ok rfl)⟩,
  ⟨_, fun h => ((h (si 2 32 0 0 0 1) (RQ (si 2 32 0 0 0 1)) [other]).2.1 2 32 0 0 0 1 (ok rfl)).2 (ok rfl)⟩,
  ⟨_, fun h => ((h (si 4 1 0 0 0 1) (RQ (si 4 1 0 0 0 1)) [other]).2.2.1 4 1 0 0 0 1 (ok rfl) (ok rfl))⟩], rfl⟩

end Mailbox

namespace Safety

/-- The part of the states above, with every block that is in no chain on the stack. -/
def lz : Chip := { nz with store := { nz.store with
  free := List.range' 0 10 ++ List.range' 12 28 ++ List.range' 42 18 ++ List.range' 61 9 ++ List.range' 73 8119 } }

theorem legalBooks : legalStore lz.store.slots lz.store.free lz.chans lz.mailboxes := by
  have hc : lz.store.slots.toList.flatMap Slot.blocks = [10, 11] ++ [60] ++ [40, 41] ++ [70, 71, 72] := by decide
  have hu : ∀ i : SlotNo, boundTo lz.chans i = 0 ∧ ((lz.store.slots[i].obj).all (fun o => decide (o.users = 0 ∧ o.state ≠ .doomed))) = true := by
    decide
  have hm : ∀ m : MailboxNo, ∀ h ∈ lz.mailboxes[m].list, (objectAt lz.store.slots h).any (fun o =>
      decide (o.state = .closed ∧ o.isMessage = true ∧ o.owner = .mailbox m)) = true := by decide
  refine ⟨?_, fun i => ⟨fun o ho => ?_, fun _ => (hu i).1⟩, fun m => ⟨?_, fun h hh => ?_, ?_, ?_⟩⟩
  · have e : List.range 8192 = List.range' 0 10 ++ List.range' 10 2 ++ List.range' 12 28 ++ List.range' 40 2 ++ List.range' 42 18 ++
        List.range' 60 1 ++ List.range' 61 9 ++ List.range' 70 3 ++ List.range' 73 8119 := by
      have a : ∀ s m n t, s + m = t → List.range' s m ++ List.range' t n = List.range' s (m + n) := fun s m n t e => by
        subst e; exact List.range'_append_1
      rw [a 0 10 2 10 rfl, a 0 _ 28 12 rfl, a 0 _ 2 40 rfl, a 0 _ 18 42 rfl, a 0 _ 1 60 rfl, a 0 _ 9 61 rfl, a 0 _ 3 70 rfl,
        a 0 _ 8119 73 rfl, List.range_eq_range']
    unfold conserved
    rw [hc, e, List.perm_iff_count]
    intro a
    simp only [lz, List.count_append]
    show _ = _ + List.count a [10, 11] + _ + List.count a [40, 41] + _ + List.count a [60] + _ + List.count a [70, 71, 72] + _
    omega
  · have := (hu i).2
    rw [ho] at this
    have := of_decide_eq_true this
    exact ⟨this.1.trans (hu i).1.symm, fun e => absurd e this.2⟩
  · revert m; decide
  · obtain ⟨o, ho, hp⟩ := (Option.any_eq_true _ _).mp (hm m h hh)
    exact ⟨o, ho, of_decide_eq_true hp⟩
  · revert m; decide
  · revert m; decide

theorem legal : (mk lz []).chip.Legal := by
  refine ⟨⟨by decide, ?_, ?_, ?_, ?_, ?_, by decide, by decide, by decide⟩, legalBooks⟩
  · unfold legalSet; decide
  · unfold Line.Legal; decide
  · unfold Mailbox.Legal; decide
  · decide
  · unfold LinkOptions.Legal; decide

theorem met_LegalKept : Meets Obligations.LegalKept 1 := ⟨[
  ⟨_, fun h => h { mk lz [] with pending := [] } _ legal rfl⟩], rfl⟩

end Safety

end Sys2Proof.Tests
end

section
/-!
SUPPORT. Clear Faults (R58): the reply of a request at the head of the queue in the words of the statements, the fault set a
byte names, and the indicator source of a line's latches; then the statement about the request.
-/
namespace Sys2Proof.Machine

/-! ## The reply of a request at the head of the queue (R175, R176) -/

/-- The model's reply to a request taken from the queue is the statements' `Link.answered`, class and reason first in the body. -/
theorem Link.reply_eq_answered (k : Link) (r : Request) (rest : List Request) (cls : Cls) (reason : Reason) (bs : List Byte) :
    Link.reply { k with inq := rest } r.line r.tag r.code cls reason bs =
      k.answered r rest (cls.code :: reason.code :: bs) := rfl

/-- The reply of any other request than Write Object, once taken from the queue, changes the link alone. -/
theorem Chip.reply_head_other (c : Chip) (r : Request) (rest : List Request) (cls : Cls) (reason : Reason) (bs : List Byte)
    (h : r.code ≠ 0x19) :
    (c.modLink (fun k => { k with inq := rest })).reply r cls reason bs =
      c.modLink (·.answered r rest (cls.code :: reason.code :: bs)) := by
  rw [Chip.reply_other _ _ _ _ _ h]
  rfl

/-- For any other request than Write Object `Chip.repliedTo` changes the link alone. -/
theorem Chip.repliedTo_other (c : Chip) (r : Request) (rest : List Request) (bs : List Byte) (h : r.code ≠ 0x19) :
    c.repliedTo r rest bs = c.modLink (·.answered r rest bs) := by
  unfold Chip.repliedTo
  rw [if_neg (fun hw => h hw.1)]
  rfl

/-- Any other request than Write Object, refused as it is taken from the queue. -/
theorem Chip.refuse_head_other (c : Chip) (r : Request) (rest : List Request) (reason : Reason) (h : r.code ≠ 0x19) :
    (c.modLink (fun k => { k with inq := rest })).refuse r reason =
      c.repliedTo r rest [Cls.code .refused, reason.code] := by
  rw [Chip.refuse, Chip.reply_head_other _ _ _ _ _ _ h, Chip.repliedTo_other _ _ _ _ h]

/-- The queue and a line are parts apart: their updates may be made in either order. -/
theorem Chip.modLine_modLink (c : Chip) (l : LineNo) (f : Line → Line) (g : Link → Link) :
    (c.modLink g).modLine l f = (c.modLine l f).modLink g := rfl

/-! ## The fault set of a body (R183) -/

theorem faultSetOf_of_lt {b : Byte} (h : b.toNat < 16) :
    faultSetOf b = some
      { overcurrent := b.getLsbD 0, hot := b.getLsbD 1, critical := b.getLsbD 2, lineLost := b.getLsbD 3 } :=
  if_pos h

theorem faultSetOf_of_le {b : Byte} (h : 16 ≤ b.toNat) : faultSetOf b = none :=
  if_neg (Nat.not_lt.mpr h)

/-! ## The indicator source of a line's latches (R168) -/

theorem FaultSet.any_empty : FaultSet.any {} = false := rfl

/-- Source 20 + L is true while a latch of line L is set. -/
theorem Chip.source_latch (c : Chip) (l : LineNo) : c.source ⟨20 + l.val, by omega⟩ = (c.lines[l]).latch.any := by
  have h16 : ¬ 20 + l.val < 16 := by omega
  have h20 : ¬ 20 + l.val < 20 := by omega
  have h24 : 20 + l.val < 24 := by omega
  simp only [Chip.source, h16, h20, h24, dite_true, dite_false, Nat.add_sub_cancel_left]
  rfl

/-- Once line L is `n`, source 20 + L is true while a latch of `n` is set. -/
theorem Chip.source_latch_set (c : Chip) (l : LineNo) (n : Line) :
    ({ c with lines := c.lines.set l n } : Chip).source ⟨20 + l.val, by omega⟩ = n.latch.any := by
  rw [Chip.source_latch]
  exact congrArg (fun m : Line => m.latch.any) (Vector.getElem_set_self l.isLt)

/-! ## Clear Faults (R58) -/

theorem exec_clearFaults (s : State) : exec .clearFaults s = execClearFaults s := rfl

/-- Clear Faults with a set of the four kinds: the line's latches change and the reply lists them with the conditions. -/
theorem execClearFaults_named {s : State} {r : Request} {rest : List Request} {l : LineNo} {b : Byte} {f : FaultSet}
    (ha : Asked s r rest 0x22 (lineField l) [b]) (hf : faultSetOf b = some f) :
    execClearFaults s = .next (s.but ((s.chip.modLine l (·.clearLatches f)).modLink
      (·.answered r rest [0, 0, ((s.chip.lines[l]).clearLatches f).latch.code, (s.chip.lines[l]).cond.code]))) := by
  obtain ⟨hready, hinq, hcode, hline, hbody⟩ := ha
  have hother : r.code ≠ 0x19 := by rw [hcode]; decide
  rw [execClearFaults, effect, Chip.lineRequest_head _ hready hinq hcode hline, hbody, walkByte, Chip.walked_some]
  simp only [hf, Chip.normal]
  rw [Chip.modLine_modLink, Chip.reply_head_other _ _ _ _ _ _ hother]
  simp only [Chip.modLink_lines, Chip.modLine_lines, upd_self]
  rfl

/-- Clear Faults with a bit beyond the four kinds is REFUSED BAD_PARAM. -/
theorem execClearFaults_unassigned {s : State} {r : Request} {rest : List Request} {l : LineNo} {b : Byte}
    (ha : Asked s r rest 0x22 (lineField l) [b]) (hf : faultSetOf b = none) :
    execClearFaults s = .next (s.but (s.chip.repliedTo r rest [2, 3])) := by
  obtain ⟨hready, hinq, hcode, hline, hbody⟩ := ha
  have hother : r.code ≠ 0x19 := by rw [hcode]; decide
  rw [execClearFaults, effect, Chip.lineRequest_head _ hready hinq hcode hline, hbody, walkByte, Chip.walked_some]
  simp only [hf]
  rw [Chip.refuse_head_other _ _ _ _ hother]
  rfl

/-- Settles O29: the two answers by the byte's fault set, and the indicator source by what it reads of the line. -/
theorem clearFaults : Obligations.ClearFaults := by
  intro s r rest l f ha
  refine ⟨fun hlt => ?named, fun hlatch => ?cleared, fun hle => ?unassigned⟩
  case named =>
    rw [exec_clearFaults, execClearFaults_named ha (faultSetOf_of_lt hlt)]
    rfl
  case cleared =>
    rw [Chip.source_latch_set, hlatch, FaultSet.any_empty]
  case unassigned =>
    rw [exec_clearFaults, execClearFaults_unassigned ha (faultSetOf_of_le hle)]

end Sys2Proof.Machine
end

section
/-!
SUPPORT. The indicator unit (R168 to R172): the bits of the source word and of the outputs, each source by the state it reads, a
tree's value over the sources; then Set Indicator (R170), Get Indicators (R171) and the statement about both.
-/
namespace Sys2Proof.Machine

/-! ## Words of bits -/

/-- The number whose bit i is `f i`. -/
def bitsNumber {n : Nat} (f : Fin n → Bool) : Nat := (List.finRange n).foldr (fun i x => (f i).toNat + 2 * x) 0

/-- Bit 0 is the lowest one, and the others stand above it. -/
theorem bitsNumber_succ {n : Nat} (f : Fin (n + 1) → Bool) :
    bitsNumber f = (f 0).toNat + 2 * bitsNumber (fun i : Fin n => f i.succ) := by
  simp only [bitsNumber, List.finRange_succ, List.foldr_cons, List.foldr_map]

theorem bitsNumber_lt {n : Nat} (f : Fin n → Bool) : bitsNumber f < 2 ^ n := by
  induction n with
  | zero => exact Nat.one_pos
  | succ n ih =>
    have hrest := ih (fun i => f i.succ)
    have hbit := Bool.toNat_lt (f 0)
    rw [bitsNumber_succ, Nat.pow_succ]
    omega

theorem testBit_bitsNumber {n : Nat} (f : Fin n → Bool) (i : Fin n) : (bitsNumber f).testBit i.val = f i := by
  induction n with
  | zero => exact i.elim0
  | succ n ih =>
    have hbit := Bool.toNat_lt (f 0)
    rw [bitsNumber_succ]
    cases i using Fin.cases with
    | zero =>
      have hodd : ((f 0).toNat + 2 * bitsNumber (fun i : Fin n => f i.succ)) % 2 = (f 0).toNat := by omega
      rw [Fin.val_zero, Nat.testBit_zero, hodd]
      cases f 0 <;> rfl
    | succ i =>
      have hhalf : ((f 0).toNat + 2 * bitsNumber (fun i : Fin n => f i.succ)) / 2 = bitsNumber (fun i : Fin n => f i.succ) := by
        omega
      rw [Fin.val_succ, Nat.testBit_succ, hhalf]
      exact ih (fun i => f i.succ) i

/-- A word that holds the number of `n` bits shows each of them in its place. -/
theorem getLsbD_bitsNumber {n w : Nat} (f : Fin n → Bool) (i : Fin n) (hw : n ≤ w) :
    (BitVec.ofNat w (bitsNumber f)).getLsbD i.val = f i := by
  have hi : i.val < w := Nat.lt_of_lt_of_le i.isLt hw
  rw [BitVec.getLsbD_ofNat, testBit_bitsNumber, decide_eq_true hi, Bool.true_and]

/-- Every bit that `s` has set is set in `x`. -/
theorem and_eq_right_iff_bits {w : Nat} (x s : BitVec w) :
    x &&& s = s ↔ ∀ n : Fin w, s.getLsbD n.val = true → x.getLsbD n.val = true := by
  constructor
  · intro h n hs
    rw [← h, BitVec.getLsbD_and, Bool.and_eq_true] at hs
    exact hs.1
  · intro h
    refine BitVec.eq_of_getLsbD_eq fun i hi => ?_
    rw [BitVec.getLsbD_and]
    cases hs : s.getLsbD i with
    | false => exact Bool.and_false _
    | true => rw [h ⟨i, hi⟩ hs, Bool.and_self]

/-- Some bit that `s` has set is set in `x`. -/
theorem and_ne_zero_iff_bit {w : Nat} (x s : BitVec w) :
    x &&& s ≠ 0 ↔ ∃ n : Fin w, s.getLsbD n.val = true ∧ x.getLsbD n.val = true := by
  constructor
  · refine fun hne => Decidable.byContradiction fun hnone => hne (BitVec.eq_of_getLsbD_eq fun i hi => ?_)
    rw [BitVec.getLsbD_and, BitVec.ofNat_eq_ofNat, BitVec.getLsbD_zero, Bool.and_eq_false_iff]
    cases hs : s.getLsbD i with
    | false => exact .inr rfl
    | true => exact .inl (Bool.eq_false_iff.mpr fun hx => hnone ⟨⟨i, hi⟩, hs, hx⟩)
  · rintro ⟨n, hs, hx⟩ h0
    have hbit : (x &&& s).getLsbD n.val = true := by rw [BitVec.getLsbD_and, hx, hs, Bool.and_self]
    rw [h0, BitVec.ofNat_eq_ofNat, BitVec.getLsbD_zero] at hbit
    exact Bool.false_ne_true hbit

/-! ## The source word and the output byte (R168, R171) -/

/-- Bit n of the source word is source n. -/
theorem Chip.sources_getLsbD (c : Chip) (n : Fin 29) : c.sources.getLsbD n.val = c.source n :=
  getLsbD_bitsNumber c.source n (Nat.le_refl 29)

theorem Chip.outputs_eq_bitsNumber (c : Chip) : c.outputs = BitVec.ofNat 8 (bitsNumber c.output) := by
  have hsum : bitsNumber c.output =
      (c.output 0).toNat + 2 * ((c.output 1).toNat + 2 * ((c.output 2).toNat + 2 * ((c.output 3).toNat + 2 * 0))) := rfl
  rw [Chip.outputs, b1]
  congr 1
  omega

/-- Bit i of the output byte is output i. -/
theorem Chip.outputs_getLsbD (c : Chip) (i : Fin 4) : c.outputs.getLsbD i.val = c.output i := by
  rw [Chip.outputs_eq_bitsNumber, getLsbD_bitsNumber c.output i (by decide)]

theorem Chip.outputs_lt (c : Chip) : c.outputs.toNat < 16 := by
  rw [Chip.outputs_eq_bitsNumber, BitVec.toNat_ofNat]
  exact Nat.lt_of_le_of_lt (Nat.mod_le _ _) (bitsNumber_lt c.output)

/-! ## Each source by the state it reads (R168) -/

/-- Source m is true while mailbox m has a new count above 0. -/
theorem Chip.source_mailbox (c : Chip) (m : MailboxNo) :
    c.source ⟨m.val, by omega⟩ = decide (0 < (c.mailboxes[m]).newCount) := by
  simp only [Chip.source, m.isLt, dite_true]
  rfl

/-- Source 16 + L is true while line L is OFF_HOOK. -/
theorem Chip.source_hook (c : Chip) (l : LineNo) :
    c.source ⟨16 + l.val, by omega⟩ = decide ((c.lines[l]).hook = .offHook) := by
  have h16 : ¬ 16 + l.val < 16 := by omega
  have h20 : 16 + l.val < 20 := by omega
  simp only [Chip.source, h16, h20, dite_true, dite_false, Nat.add_sub_cancel_left]
  rfl

/-- A latch is set exactly when the set is not the empty one. -/
theorem FaultSet.any_eq_decide (f : FaultSet) : f.any = decide (f ≠ {}) := by
  obtain ⟨overcurrent, hot, critical, lineLost⟩ := f
  revert overcurrent hot critical lineLost
  decide

theorem Chip.source_storeLow (c : Chip) : c.source 24 = c.store.low := rfl

theorem Chip.source_unreadPage (c : Chip) : c.source 25 = c.store.slots.toList.any Slot.unread := rfl

theorem Chip.source_clockNotSet (c : Chip) : c.source 27 = c.clockNotSet := rfl

theorem Chip.source_eventsHeld (c : Chip) : c.source 28 = c.link.held := rfl

/-- Source 26 is true while neither engine is FREE. -/
theorem Chip.source_engines (c : Chip) : c.source 26 = decide (∀ e : EngineNo, (c.engines[e]).state ≠ .free) := by
  have h : c.source 26 = (decide ((c.engines[0]).state ≠ .free) && decide ((c.engines[1]).state ≠ .free)) := rfl
  rw [h, ← Bool.decide_and, decide_eq_decide]
  exact (Fin.forall_fin_two (p := fun e : EngineNo => (c.engines[e]).state ≠ .free)).symm

theorem Slot.unread_iff (x : Slot) :
    x.unread = true ↔ ∃ (o : Obj) (a : PageAttr), x.obj = some o ∧ o.state = .closed ∧ o.attr = .page a ∧ a.unread = true := by
  unfold Slot.unread
  split
  case h_1 a hobj => simp [hobj]
  case h_2 hnot =>
    refine iff_of_false Bool.false_ne_true ?_
    rintro ⟨⟨state, owner, chain, length, users, created, attr⟩, a, hobj, rfl, rfl, -⟩
    exact hnot _ _ _ _ _ _ hobj

/-- Source 25 is true while a CLOSED FAX_PAGE has UNREAD set. -/
theorem Chip.source_unreadPage_iff (c : Chip) :
    c.source 25 = true ↔ ∃ (i : SlotNo) (o : Obj) (a : PageAttr), (c.store.slots[i]).obj = some o ∧ o.state = .closed ∧
      o.attr = .page a ∧ a.unread = true := by
  rw [Chip.source_unreadPage, Vector.any_toList, Vector.any_eq_true]
  constructor
  · rintro ⟨i, hi, hu⟩
    exact ⟨⟨i, hi⟩, (Slot.unread_iff _).mp hu⟩
  · rintro ⟨i, hu⟩
    exact ⟨i.val, i.isLt, (Slot.unread_iff _).mpr hu⟩

/-- Events are held while some pending event set is not empty. -/
theorem Link.held_iff (k : Link) : k.held = true ↔ ∃ i : Fin 5, k.sets[i] ≠ [] := by
  rw [Link.held, Vector.any_toList, Vector.any_eq_true]
  constructor
  · rintro ⟨i, hi, hne⟩
    exact ⟨⟨i, hi⟩, by simpa using hne⟩
  · rintro ⟨i, hne⟩
    exact ⟨i.val, i.isLt, by simpa using hne⟩

/-! ## Trees and outputs (R169, R172) -/

/-- In mode ALL a tree is true when it includes a source and every included one is true. -/
theorem Tree.value_all (s x : BitVec 29) :
    Tree.value { sources := s, all := true } x = (decide (s ≠ 0) && decide (x &&& s = s)) := by
  by_cases hs : s = 0
  · simp only [Tree.value, hs, if_true, ne_eq, not_true_eq_false, decide_false, Bool.false_and]
  · simp only [Tree.value, hs, if_true, if_false, ne_eq, not_false_eq_true, decide_true, Bool.true_and]

/-- In mode ANY a tree is true when an included source is, so never when it includes none. -/
theorem Tree.value_any (s x : BitVec 29) : Tree.value { sources := s, all := false } x = decide (x &&& s ≠ 0) := by
  by_cases hs : s = 0
  · simp [Tree.value, hs]
  · simp only [Tree.value, hs, if_false, Bool.false_eq_true]

/-- A tree's value over the source word is the statements' `Chip.lit` over the sources themselves. -/
theorem Tree.value_sources (t : Tree) (c : Chip) : t.value c.sources = c.lit t.sources t.all := by
  obtain ⟨s, all⟩ := t
  cases all with
  | true => simp only [Tree.value_all, Chip.lit, if_true, and_eq_right_iff_bits, Chip.sources_getLsbD]
  | false => simp only [Tree.value_any, Chip.lit, if_false, Bool.false_eq_true, and_ne_zero_iff_bit, Chip.sources_getLsbD]

/-- An output is active while its tree is true, and only after initialisation has ended. -/
theorem Chip.output_eq (c : Chip) (i : Fin 4) : c.output i = (c.ready && c.lit (c.trees[i]).sources (c.trees[i]).all) := by
  rw [Chip.output, Tree.value_sources]

/-- Once output i's tree is `t`, a ready part shows there the value of `t` over the sources, which read no tree. -/
theorem Chip.output_set (c : Chip) (i : Fin 4) (t : Tree) (hr : c.ready = true) :
    ({ c with trees := c.trees.set i t } : Chip).output i = c.lit t.sources t.all := by
  have htree : (c.trees.set i t)[i] = t := Vector.getElem_set_self i.isLt
  rw [Chip.output_eq, htree, hr, Bool.true_and]
  rfl

/-! ## The body of Set Indicator (R170, R183) -/

/-- Six bytes whose output number, source set and mode are all in range. -/
theorem walkIndicator_inRange (i : Fin 4) {x3 x2 x1 x0 m : Byte} (hx : ofBytes [x3, x2, x1, x0] < 2 ^ 29) (hm : m.toNat ≤ 1) :
    walkIndicator [BitVec.ofNat 8 i.val, x3, x2, x1, x0, m] =
      some (some (i, { sources := BitVec.ofNat 29 (ofBytes [x3, x2, x1, x0]), all := decide (m = 1) })) := by
  have hval : (BitVec.ofNat 8 i.val).toNat = i.val := by
    rw [BitVec.toNat_ofNat]
    omega
  simp only [walkIndicator, hval, i.isLt, hx, hm, dite_true, and_self, if_true]
  rfl

/-- A source beyond 28 or a mode beyond ANY and ALL is a value out of range, whatever the output. -/
theorem walkIndicator_badTree (o : Byte) {x3 x2 x1 x0 m : Byte} (h : 2 ^ 29 ≤ ofBytes [x3, x2, x1, x0] ∨ 1 < m.toNat) :
    walkIndicator [o, x3, x2, x1, x0, m] = some none := by
  have hbad : ¬ (ofBytes [x3, x2, x1, x0] < 2 ^ 29 ∧ m.toNat ≤ 1) := by omega
  simp only [walkIndicator, hbad, if_false, dite_eq_ite, ite_self]

/-- An output number beyond 3 is a value out of range. -/
theorem walkIndicator_badOutput {o : Byte} (x3 x2 x1 x0 m : Byte) (h : 3 < o.toNat) :
    walkIndicator [o, x3, x2, x1, x0, m] = some none := by
  have hbad : ¬ o.toNat < 4 := by omega
  simp only [walkIndicator, hbad, dite_false]

/-! ## The record of a tree (11.5) -/

theorem sourceSet_ofBytes {x3 x2 x1 x0 : Byte} (h : ofBytes [x3, x2, x1, x0] < 2 ^ 29) :
    sourceSet (BitVec.ofNat 29 (ofBytes [x3, x2, x1, x0])) = [x3, x2, x1, x0] := by
  rw [sourceSet, BitVec.toNat_ofNat, Nat.mod_eq_of_lt h, be4_ofBytes]

theorem flag_decide_eq_one {m : Byte} (h : m.toNat ≤ 1) : flag (decide (m = 1)) = m := by
  have hcases : m = 0 ∨ m = 1 := by bv_omega
  rcases hcases with rfl | rfl <;> rfl

theorem Tree.code_eq (t : Tree) : t.code = sourceSet t.sources ++ [flag t.all] := rfl

/-- A tree set from five bytes in range travels as those bytes. -/
theorem Tree.code_ofBytes {x3 x2 x1 x0 m : Byte} (hx : ofBytes [x3, x2, x1, x0] < 2 ^ 29) (hm : m.toNat ≤ 1) :
    Tree.code { sources := BitVec.ofNat 29 (ofBytes [x3, x2, x1, x0]), all := decide (m = 1) } = [x3, x2, x1, x0, m] := by
  rw [Tree.code_eq, sourceSet_ofBytes hx, flag_decide_eq_one hm]
  rfl

/-- The four trees' records, output 0 first. -/
theorem trees_code (trees : Vector Tree 4) :
    (trees.toList.map Tree.code).flatten = trees[0].code ++ trees[1].code ++ trees[2].code ++ trees[3].code := by
  obtain ⟨⟨ts⟩, hsize⟩ := trees
  match ts, hsize with
  | [t0, t1, t2, t3], _ =>
    show t0.code ++ (t1.code ++ (t2.code ++ (t3.code ++ []))) = t0.code ++ t1.code ++ t2.code ++ t3.code
    simp only [List.append_nil, List.append_assoc]

/-! ## Set Indicator and Get Indicators (R170, R171) -/

/-- Any other request than Write Object, ended NORMAL as it is taken from the queue. -/
theorem Chip.normal_head_other (c : Chip) (r : Request) (rest : List Request) (bs : List Byte) (h : r.code ≠ 0x19) :
    (c.modLink (fun k => { k with inq := rest })).normal r bs = c.repliedTo r rest (0 :: 0 :: bs) := by
  rw [Chip.normal, Chip.reply_head_other _ _ _ _ _ _ h, Chip.repliedTo_other _ _ _ _ h]
  rfl

theorem exec_getIndicators (s : State) : exec .getIndicators s = execGetIndicators s := rfl

theorem exec_setIndicator (s : State) : exec .setIndicator s = execSetIndicator s := rfl

/-- Get Indicators answers with the trees, the sources and the outputs as they stand, and changes nothing else. -/
theorem execGetIndicators_asked {s : State} {r : Request} {rest : List Request} (ha : Asked s r rest 0x59 0x0F []) :
    execGetIndicators s = .next (s.but (s.chip.repliedTo r rest (0 :: 0 ::
      ((s.chip.trees.toList.map Tree.code).flatten ++ sourceSet s.chip.sources ++ [s.chip.outputs])))) := by
  obtain ⟨hready, hinq, hcode, hline, hbody⟩ := ha
  have hother : r.code ≠ 0x19 := by rw [hcode]; decide
  have hwalk : walkEmpty ([] : List Byte) = some () := rfl
  rw [execGetIndicators, effect, Chip.deviceRequest_head _ hready hinq hcode hline, hbody, hwalk, Chip.walked_some,
    Chip.normal_head_other _ _ _ _ hother]
  rfl

/-- Set Indicator with an output and a tree in range: the tree is replaced whole and the reply shows the output under it. -/
theorem execSetIndicator_inRange {s : State} {r : Request} {rest : List Request} {body : List Byte} {i : Fin 4} {t : Tree}
    (ha : Asked s r rest 0x58 0x0F body) (hw : walkIndicator body = some (some (i, t))) :
    execSetIndicator s = .next (s.but (({ s.chip with trees := s.chip.trees.set i t } : Chip).modLink
      (·.answered r rest (0 :: 0 :: ([b1 i.val] ++ t.code ++ [flag (s.chip.lit t.sources t.all)]))))) := by
  obtain ⟨hready, hinq, hcode, hline, hbody⟩ := ha
  have hother : r.code ≠ 0x19 := by rw [hcode]; decide
  have hout := Chip.output_set (s.chip.modLink (fun k => { k with inq := rest })) i t hready
  rw [execSetIndicator, effect, Chip.deviceRequest_head _ hready hinq hcode hline, hbody, hw, Chip.walked_some]
  simp only [hout]
  exact congrArg (fun c => Host.Outcome.next (s.but c))
    (Chip.reply_head_other { s.chip with trees := s.chip.trees.set i t } r rest .normal .none _ hother)

/-- Set Indicator with a value out of range is REFUSED BAD_PARAM. -/
theorem execSetIndicator_outOfRange {s : State} {r : Request} {rest : List Request} {body : List Byte}
    (ha : Asked s r rest 0x58 0x0F body) (hw : walkIndicator body = some none) :
    execSetIndicator s = .next (s.but (s.chip.repliedTo r rest [2, 3])) := by
  obtain ⟨hready, hinq, hcode, hline, hbody⟩ := ha
  have hother : r.code ≠ 0x19 := by rw [hcode]; decide
  rw [execSetIndicator, effect, Chip.deviceRequest_head _ hready hinq hcode hline, hbody, hw, Chip.walked_some]
  dsimp only
  rw [Chip.refuse_head_other _ _ _ _ hother]
  rfl

/-- Settles O58: the two requests by the values in their bodies, then each source, tree and output by what it reads. -/
theorem indicators : Obligations.Indicators := by
  intro s r rest
  refine ⟨?get, fun i x3 x2 x1 x0 m ha => ⟨?set, ?badTree⟩, ?badOutput, s.chip.sources_getLsbD, s.chip.outputs_getLsbD,
    s.chip.outputs_lt, s.chip.output_eq, s.chip.source_mailbox, ?line, s.chip.source_storeLow, s.chip.source_unreadPage_iff,
    s.chip.source_engines, s.chip.source_clockNotSet, ?held⟩
  case get =>
    intro ha
    rw [exec_getIndicators, execGetIndicators_asked ha, trees_code]
    rfl
  case set =>
    intro hx hm
    rw [exec_setIndicator, execSetIndicator_inRange ha (walkIndicator_inRange i hx hm), Tree.code_ofBytes hx hm]
    rfl
  case badTree =>
    intro hbad
    rw [exec_setIndicator, execSetIndicator_outOfRange ha (walkIndicator_badTree _ hbad)]
  case badOutput =>
    intro o x3 x2 x1 x0 m ho ha
    rw [exec_setIndicator, execSetIndicator_outOfRange ha (walkIndicator_badOutput x3 x2 x1 x0 m ho)]
  case line =>
    exact fun l => ⟨s.chip.source_hook l, (s.chip.source_latch l).trans (FaultSet.any_eq_decide _)⟩
  case held =>
    rw [Chip.source_eventsHeld, Bool.eq_iff_iff, Link.held_iff, decide_eq_true_iff]

end Sys2Proof.Machine
end
